-- ==== Sys2Proof/Word.lean ====
section
/-! DEFINITION. The widths of the GD-4T's fields and counts, the four tracks, and one value per track. -/

namespace Sys2Proof

/-- One byte of a frame or a line packet. -/
abbrev Byte := BitVec 8
/-- A gantry time: a 48-bit count of microseconds; sums and differences are modulo 2^48 (R79). -/
abbrev Time := BitVec 48
/-- A link address (11 §11.1). -/
abbrev LinkAddr := BitVec 48
/-- A tag, 1 to 255; 0 means no tag (00, Tags). -/
abbrev Tag := BitVec 8
/-- A 16-bit number that wraps: sequence numbers and tokens. -/
abbrev Word16 := BitVec 16
/-- A 16-bit count that wraps from 65,535 to 0 (03 §3.1). -/
abbrev Count16 := BitVec 16
/-- A 32-bit count that wraps from its largest value to 0 (R16, R149, R177). -/
abbrev Count32 := BitVec 32

/-- The four tracks; camera port CPk and lamp-drive output k serve track k (00, Numbering). -/
inductive Track where
  | t1 | t2 | t3 | t4
  deriving DecidableEq, Repr

/-- The tracks in the order of their numbers. -/
def Track.all : List Track := [.t1, .t2, .t3, .t4]

/-- The number of a track, 1 to 4. -/
def Track.number : Track → Nat
  | .t1 => 1
  | .t2 => 2
  | .t3 => 3
  | .t4 => 4

/-- The track of a number, none outside 1 to 4. -/
def Track.ofNumber : Nat → Option Track
  | 1 => some .t1
  | 2 => some .t2
  | 3 => some .t3
  | 4 => some .t4
  | _ => none

/-- One value for each track. -/
structure Quad (α : Type) where
  one   : α
  two   : α
  three : α
  four  : α
  deriving DecidableEq, Repr

/-- The value of a track. -/
def Quad.get {α : Type} (q : Quad α) : Track → α
  | .t1 => q.one
  | .t2 => q.two
  | .t3 => q.three
  | .t4 => q.four

/-- The same values but for one track's. -/
def Quad.set {α : Type} (q : Quad α) (k : Track) (a : α) : Quad α :=
  match k with
  | .t1 => { q with one := a }
  | .t2 => { q with two := a }
  | .t3 => { q with three := a }
  | .t4 => { q with four := a }

/-- The same value for every track. -/
def Quad.all {α : Type} (a : α) : Quad α := ⟨a, a, a, a⟩

/-- A function applied to every track's value. -/
def Quad.map {α β : Type} (f : α → β) (q : Quad α) : Quad β :=
  ⟨f q.one, f q.two, f q.three, f q.four⟩

/-- The four values in the order of the tracks. -/
def Quad.toList {α : Type} (q : Quad α) : List α := [q.one, q.two, q.three, q.four]

end Sys2Proof
end

