-- ==== Sys2Proof/Syntax.lean ====
section
/-! DEFINITION. The commands of the GD-4T: one constructor for each row of spec/opcode_table.json. -/

namespace Sys2Proof

/-- The two sensor pairs of a track (00, Numbering). -/
inductive PairId where
  | pair1 | pair2
  deriving DecidableEq, Repr

/-- The other pair of the track. -/
def PairId.other : PairId → PairId
  | .pair1 => .pair2
  | .pair2 => .pair1

/-- The two heads of a pair (00, Numbering). -/
inductive HeadId where
  | outer | inner
  deriving DecidableEq, Repr

/-- The other head of the pair. -/
def HeadId.other : HeadId → HeadId
  | .outer => .inner
  | .inner => .outer

/-- The blocks that react to a change of mode (10 §10.4); each track has its own tracker. -/
inductive ModeBlock where
  | sensors
  | scheduler
  | arbiter
  | tracker (k : Track)
  deriving DecidableEq, Repr

/-- A line packet as it reaches a camera port (08 §8.4, 11 §11.7). -/
structure LinePacket where
  sequence   : Word16
  pixelCount : Word16
  pixels     : List Byte
  check      : BitVec 32
  deriving DecidableEq, Repr

/-- The steps of the part, one for each row of the table, in the table's order. The rows from `unknownCommand` to
`calAutoload` are the responder's running of the command record at the head of the intake (R169): their operands are
the argument bytes of that record. -/
inductive Instr where
  /-- R183: power is applied or the reset pin is asserted. -/
  | powerOnReset
  /-- R168: a frame arrives whole, its bytes from the destination address on, without frame check sequence. -/
  | frameAccept (frame : List Byte)
  /-- R170: the record at the head of the intake fails check 1. -/
  | unknownCommand
  | ident
  | status
  | timeRead
  /-- R175: `order` is the order in which the blocks take the change (a block it leaves out follows in a fixed order). -/
  | modeSet (order : List ModeBlock)
  | resetPart
  | trackWrite
  | trackRead
  | trimSet
  | trimStep
  | lampSet
  | typeWrite
  | typeClear
  | typeRead
  | headClear
  | scheduleRead
  | passageRead
  | slotRead
  | fetch
  | fetchCancel
  | slotRelease
  | calStore
  | calLoad
  | calAutoload
  /-- R179: the page write in progress ends; `verified` says whether the page read back agrees. -/
  | pageWriteEnd (verified : Bool)
  | takeForSending
  | ethernetLinkLost
  | ethernetLinkFound
  | headInputActive (k : Track) (pair : PairId) (head : HeadId)
  | headInputInactive (k : Track) (pair : PairId) (head : HeadId)
  | candidateFirstSample (k : Track) (pair : PairId) (head : HeadId)
  | candidateSecondSample (k : Track) (pair : PairId) (head : HeadId)
  | headStuckLimit (k : Track) (pair : PairId) (head : HeadId)
  | pairCeilingExpiry (k : Track) (pair : PairId)
  | occupancyInputChange (k : Track)
  | occupancySettleExpiry (k : Track)
  | eventTake (k : Track)
  /-- R35, R49: `couplingFirst` says whether a coupling expiry due at the end is taken before the close. -/
  | eventHandlingEnd (k : Track) (couplingFirst : Bool)
  | silenceTimerExpiry (k : Track)
  | couplingTimerExpiry (k : Track)
  | windowOpen (tag : Tag)
  | trigger (k : Track)
  | windowEnd (tag : Tag)
  | drainDeadline (tag : Tag)
  | lampRequestTime (tag : Tag)
  | recoveryEnd
  | cameraSyncLost (k : Track)
  | cameraSyncFound (k : Track)
  | linePacket (k : Track) (packet : LinePacket)
  | storeTurnWrite (k : Track)
  | storeTurnRead
  | frameSendingEnd
  | triggerPulseEnd (k : Track)
  deriving DecidableEq, Repr

end Sys2Proof
end

