-- ==== Sys2Proof/Config.lean ====
section
/-! DEFINITION. What one specimen of the part fixes, and the free values. None has a body: no proof can see a value. -/

namespace Sys2Proof

/-- The link address, fixed at manufacture (R183). -/
opaque Config.linkAddress : LinkAddr

/-- The part code that IDENT reports, fixed at manufacture (R176). -/
opaque Config.partCode : BitVec 16

/-- The silicon revision that IDENT reports, fixed at manufacture (R176). -/
opaque Config.siliconRevision : Byte

/-- The byte read at an offset beyond the end of a frame too short to hold its header (log 13). -/
opaque Config.absentByte : Nat → Byte

/-- The choice among steps due at one instant, by the model's counter (log 2). -/
opaque Config.choice : Nat → Nat

/-- The order in which the blocks take a mode change on an empty queue, by the model's counter (log 10). -/
opaque Config.blockOrder : Nat → List ModeBlock

/-- The level of the daylight input after a clock count, by the model's counter (log 6). -/
opaque Config.daylightLevel : Nat → Bool

end Sys2Proof
end

