-- ==== Sys2Proof/Machine/State.lean ====
section
/-! DEFINITION. Every piece of state the spec gives the GD-4T, as plain data, and the state right after reset. -/

namespace Sys2Proof.Machine

/-! ### Track records and the vehicle type table (02) -/

/-- 00, Modes. -/
inductive Mode where
  | service | onLine | standby
  deriving DecidableEq, Repr

/-- 02 §2.1: the level that is active (a head) or OCCUPIED (the occupancy input). -/
inductive Polarity where
  | high | low
  deriving DecidableEq, Repr

/-- The 23 fields of a track record, in the order of their numbers (02 §2.1). -/
structure TrackRecord where
  enabled      : Bool
  spacing1     : Nat
  spacing2     : Nat
  approach1    : Nat
  approach2    : Nat
  outer1       : Polarity
  inner1       : Polarity
  outer2       : Polarity
  inner2       : Polarity
  qualifyUs    : Nat
  stuckMs      : Nat
  occUse       : Bool
  occPolarity  : Polarity
  silenceS     : Nat
  pitchUm      : Nat
  windowHalfMm : Nat
  defaultPace  : Nat
  slots        : Nat
  trim         : Int
  lampPriority : Nat
  lampMask     : Bool
  recoveryCode : Nat
  daylightUse  : Bool
  deriving DecidableEq, Repr

/-- The unset values of 02 §2.1. -/
def TrackRecord.unset : TrackRecord :=
  { enabled := false, spacing1 := 0, spacing2 := 0, approach1 := 0, approach2 := 0,
    outer1 := .high, inner1 := .high, outer2 := .high, inner2 := .high,
    qualifyUs := 0, stuckMs := 0, occUse := false, occPolarity := .high, silenceS := 0,
    pitchUm := 0, windowHalfMm := 0, defaultPace := 0, slots := 0, trim := 0,
    lampPriority := 0, lampMask := false, recoveryCode := 0, daylightUse := false }

/-- A valid entry of the vehicle type table (02 §2.6); its axle count is one more than its gaps. -/
structure VehicleType where
  name        : List Byte
  gaps        : List Nat
  span        : Nat
  tolerance   : Nat
  couplingGap : Nat
  pantographs : List Nat
  deriving DecidableEq, Repr

/-! ### Sensor front end (01) -/

/-- 01 §1.1. CANDIDATE keeps t_e and whether its first sample is taken; HELD keeps its hold start. -/
inductive HeadState where
  | idle
  | candidate (since : Time) (sampled : Bool)
  | held (since : Time)
  | fault
  deriving DecidableEq, Repr

/-- One head: its state, the settings it took when it began watching (R1), its input level and its count (R16). -/
structure Head where
  state     : HeadState
  polarity  : Polarity
  qualifyUs : Nat
  stuckMs   : Nat
  high      : Bool
  pulses    : Count32
  deriving DecidableEq, Repr

/-- The pulse that waits at a pair (01 §1.3). -/
structure WaitingPulse where
  head  : HeadId
  stamp : Time
  deriving DecidableEq, Repr

/-- One sensor pair: two heads, at most one waiting pulse, the single-head event count (R16). -/
structure SensorPair where
  outer   : Head
  inner   : Head
  waiting : Option WaitingPulse
  singles : Count32
  deriving DecidableEq, Repr

/-- R9. -/
inductive AxleDirection where
  | inward | outward | unknown
  deriving DecidableEq, Repr

/-- An axle event (R9). -/
structure AxleEvent where
  pair       : PairId
  time       : Time
  position   : HeadId
  direction  : AxleDirection
  transit    : Option Nat
  singleHead : Bool
  deriving DecidableEq, Repr

/-- The occupancy input of a track: its level, the settled state and the settling timer's expiry instant (R14). -/
structure Occupancy where
  high     : Bool
  occupied : Bool
  timer    : Option Time
  deriving DecidableEq, Repr

/-- The sensor front end of one track. -/
structure FrontEnd where
  pair1     : SensorPair
  pair2     : SensorPair
  queue     : List AxleEvent
  loss      : Bool
  discarded : Count32
  occupancy : Occupancy
  deriving DecidableEq, Repr

/-! ### Axle pattern matcher (04) -/

/-- The orientation of a candidate (04 §4.3). -/
inductive Facing where
  | forward | reversed
  deriving DecidableEq, Repr

/-- The orientation of a declared vehicle (R72). -/
inductive Orientation where
  | forward | reversed | unknown
  deriving DecidableEq, Repr

/-- The orientation mark of a sighting (R73). -/
inductive Mark where
  | forward | reversed | unknownA | unknownB
  deriving DecidableEq, Repr

/-- An entry of the pending axle list (04 §4.1). -/
structure PendingAxle where
  ordinal  : Count16
  position : HeadId
  time     : Time
  gap      : Option Nat
  deriving DecidableEq, Repr

/-- A candidate: a type index, an orientation, complete or partial (R62). -/
structure Candidate where
  index    : Nat
  facing   : Facing
  complete : Bool
  deriving DecidableEq, Repr

/-- A running coupling timer (R67). -/
structure CouplingTimer where
  distance : Nat
  deadline : Time
  deriving DecidableEq, Repr

/-- An entry of the vehicle list (R71). -/
structure VehicleEntry where
  index       : Nat
  orientation : Orientation
  firstAxle   : Count16
  axles       : Nat
  deriving DecidableEq, Repr

/-- The matcher state of a passage (04 §4.1). -/
structure Matcher where
  pending    : List PendingAxle
  candidates : List Candidate
  coupling   : Option CouplingTimer
  vehicles   : List VehicleEntry
  unmatched  : Count16
  deriving DecidableEq, Repr

/-- R57: the matcher state as it is created. -/
def Matcher.empty : Matcher :=
  { pending := [], candidates := [], coupling := none, vehicles := [], unmatched := 0 }

/-! ### Passage tracker (03) -/

/-- 03 §3.1. -/
inductive PassageState where
  | vacant | running | clearing
  deriving DecidableEq, Repr

/-- The ten passage flags (03 §3.1). -/
structure PassageFlags where
  slow           : Bool := false
  fast           : Bool := false
  noSpeed        : Bool := false
  axleLoss       : Bool := false
  reversal       : Bool := false
  conflict       : Bool := false
  countError     : Bool := false
  unmatched      : Bool := false
  listFull       : Bool := false
  matchSuspended : Bool := false
  deriving DecidableEq, Repr

/-- The passage record of a track (03 §3.1). The exit pair and the direction follow from the entry pair. That the three
totals of vehicles, sightings and jobs have 16 bits and wrap from 65,535 to 0, as the four counts do, is the model's
choice (DESIGN CHOICE, log 32). -/
structure Passage where
  state         : PassageState
  number        : Count16
  entryPair     : Option PairId
  openTime      : Time
  entries       : Count16
  exits         : Count16
  backouts      : Count16
  inside        : Count16
  pace          : Option Nat
  flags         : PassageFlags
  silence       : Option Time
  matcher       : Matcher
  vehicleCount  : Count16
  sightingCount : Count16
  jobCount      : Count16
  deriving DecidableEq, Repr

/-- R34: a VACANT record, every field but the passage number cleared. -/
def Passage.vacant (number : Count16) : Passage :=
  { state := .vacant, number := number, entryPair := none, openTime := 0, entries := 0, exits := 0,
    backouts := 0, inside := 0, pace := none, flags := {}, silence := none, matcher := .empty,
    vehicleCount := 0, sightingCount := 0, jobCount := 0 }

/-- What reaches a tracker while it handles an event and is taken when the handling ends (R35). -/
inductive Deferred where
  | report (occupied : Bool)
  | toService
  | reset
  deriving DecidableEq, Repr

/-- The handling of an event in progress (R35), and whether R42 closes the passage at its end. -/
structure Handling where
  takenAt  : Time
  closeDue : Bool
  deferred : List Deferred
  deriving DecidableEq, Repr

/-- The passage tracker of one track: its record, its stray event count (R56), the handling in progress. -/
structure Tracker where
  passage  : Passage
  stray    : Count32
  handling : Option Handling
  deriving DecidableEq, Repr

/-! ### Capture scheduler (06) -/

/-- A sighting as a job keeps it (R74); the track and the passage number stand in the job. -/
structure Sighting where
  vehicle    : Count16
  index      : Nat
  pantograph : Nat
  mark       : Mark
  reference  : Time
  distance   : Nat
  deriving DecidableEq, Repr

/-- 06 §6.1. -/
inductive JobState where
  | waiting | opened | draining
  deriving DecidableEq, Repr

/-- 07 §7.6. -/
inductive LampStatus where
  | none | pending | lit | partlyLit | unlit | daylight | masked
  deriving DecidableEq, Repr

/-- The twelve job flags (06 §6.1). -/
structure JobFlags where
  late               : Bool := false
  clipped            : Bool := false
  narrowed           : Bool := false
  stretched          : Bool := false
  compressed         : Bool := false
  slow               : Bool := false
  fast               : Bool := false
  noSpeed            : Bool := false
  orientationUnknown : Bool := false
  overrun            : Bool := false
  badCheck           : Bool := false
  modeAbort          : Bool := false
  deriving DecidableEq, Repr

/-- A job of the schedule (06 §6.1); its end is `stop`. -/
structure Job where
  tag           : Tag
  track         : Track
  passage       : Count16
  sightings     : List Sighting
  pace          : Nat
  centre        : Time
  start         : Time
  stop          : Time
  lampRequest   : Time
  linePeriod    : Nat
  lineCount     : Nat
  state         : JobState
  slot          : Option Nat
  lamp          : LampStatus
  triggered     : Nat
  received      : Nat
  lost          : Nat
  drainDeadline : Option Time
  entryOrder    : Nat
  flags         : JobFlags
  deriving DecidableEq, Repr

/-- The capture scheduler: the schedule in its order (R94), the tag counter (R95), the next entry order. -/
structure Scheduler where
  jobs       : List Job
  tagCounter : Tag
  nextEntry  : Nat
  deriving DecidableEq, Repr

/-! ### Lamp arbiter (07) -/

/-- 07 §7.1. -/
inductive LampPhase where
  | awaiting | deferred | requested | serving | cleared
  deriving DecidableEq, Repr

/-- A lamp entry (07 §7.1). -/
structure LampEntry where
  tag     : Tag
  track   : Track
  start   : Time
  stop    : Time
  request : Time
  phase   : LampPhase
  deriving DecidableEq, Repr

/-- The bank state (07 §7.1), with the grant time that STATUS reports (R129). -/
inductive Bank where
  | idle
  | inService (tag : Tag) (track : Track) (granted : Time)
  | recovery (track : Track) (endsAt : Time)
  deriving DecidableEq, Repr

/-- The lamp arbiter, with the level of the daylight input (R120). -/
structure Arbiter where
  entries    : List LampEntry
  pendingSet : Quad (Option Tag)
  deferral   : Quad (List Tag)
  bank       : Bank
  daylight   : Bool
  deriving DecidableEq, Repr

/-! ### Camera ports (08) -/

/-- 08 §8.1. -/
inductive PortActivity where
  | idle | triggering | draining
  deriving DecidableEq, Repr

/-- A line in a FIFO or a slot: sequence number, marks and pixels (08 §8.1, R141). -/
structure Line where
  sequence : Word16
  badCheck : Bool
  gap      : Bool
  pixels   : List Byte
  deriving DecidableEq, Repr

/-- The current job of a port: its tag and slot. -/
structure PortJob where
  tag  : Tag
  slot : Nat
  deriving DecidableEq, Repr

/-- A running trigger generator: its load value n (R86) and the clock counts left to the next trigger. -/
structure Generator where
  load  : Word16
  count : Nat
  deriving DecidableEq, Repr

/-- A fence over sequence numbers (R144). -/
structure Fence where
  first  : Word16
  length : Nat
  deriving DecidableEq, Repr

/-- A camera port (08 §8.1); `pulse` is the clock counts left of the pulse on its trigger output, none when the output
is inactive (R132). -/
structure Port where
  up        : Bool
  activity  : PortActivity
  job       : Option PortJob
  generator : Option Generator
  pulse     : Option Nat
  fifo      : List Line
  overrun   : Bool
  expected  : Option Word16
  fence     : Option Fence
  stray     : Count32
  discarded : Count32
  losses    : Count32
  deriving DecidableEq, Repr

/-! ### Frame store and image retrieval (09) -/

/-- R145. -/
inductive DrainEnd where
  | complete | deadline | cut
  deriving DecidableEq, Repr

/-- The image header (R145). -/
structure ImageHeader where
  tag         : Tag
  track       : Track
  passage     : Count16
  sightings   : List Sighting
  pace        : Nat
  centre      : Time
  start       : Time
  stop        : Time
  lampRequest : Time
  linePeriod  : Nat
  lineCount   : Nat
  triggered   : Nat
  received    : Nat
  lost        : Nat
  entries     : Nat
  lamp        : LampStatus
  flags       : JobFlags
  drainEnd    : DrainEnd
  drainTime   : Time
  deriving DecidableEq, Repr

/-- R150. -/
inductive SlotState where
  | free | filling | held
  deriving DecidableEq, Repr

/-- A slot (09 §9.1); its line count is the number of its line entries. -/
structure Slot where
  state  : SlotState
  tag    : Tag
  lines  : List Line
  header : Option ImageHeader
  deriving DecidableEq, Repr

/-- R150: a FREE slot. -/
def Slot.empty : Slot := { state := .free, tag := 0, lines := [], header := none }

/-- The five members that share the store path (R140). -/
inductive StoreMember where
  | port (k : Track)
  | readEngine
  deriving DecidableEq, Repr

/-- A turn of the store path in progress, with the clock counts left of it (R140). -/
structure StoreTurn where
  member : StoreMember
  left   : Nat
  deriving DecidableEq, Repr

/-- 09 §9.2. -/
inductive FetchPhase where
  | waiting | delivering | sending | finishing
  deriving DecidableEq, Repr

/-- A FETCH_DONE (R160). -/
structure FetchDone where
  token        : Word16
  tag          : Tag
  delivered    : Nat
  notDelivered : Nat
  lastLine     : Option Nat
  frames       : Nat
  cancelled    : Bool
  deriving DecidableEq, Repr

/-- An entry of the fetch queue (09 §9.2). -/
structure FetchEntry where
  token     : Word16
  source    : LinkAddr
  tag       : Tag
  slot      : Nat
  first     : Nat
  count     : Nat
  phase     : FetchPhase
  requested : Option Nat
  delivered : Nat
  frames    : Nat
  lastLine  : Option Nat
  cancelled : Bool
  done      : Option FetchDone
  deriving DecidableEq, Repr

/-- What an image data frame carries: the header, or lines with their slot line numbers (R159). -/
inductive ImageContent where
  | header (h : Option ImageHeader)
  | lines (entries : List (Nat × Line))
  deriving DecidableEq, Repr

/-- An image data frame (R159). -/
structure ImageFrame where
  dest    : LinkAddr
  token   : Word16
  tag     : Tag
  number  : Nat
  last    : Bool
  content : ImageContent
  deriving DecidableEq, Repr

/-- The delivery in progress (R158): the frame under assembly, the next slot line to read and the end of the range
(the first line past it), and the complete frame kept for the image data queue. -/
structure ReadEngine where
  tag    : Tag
  slot   : Nat
  number : Nat
  lines  : List (Nat × Line)
  next   : Nat
  stop   : Nat
  kept   : Option ImageFrame
  deriving DecidableEq, Repr

/-- The frame store controller with image retrieval. -/
structure Store where
  slots   : Vector Slot 64
  turn    : Option StoreTurn
  last    : StoreMember
  fetches : List FetchEntry
  engine  : Option ReadEngine
  deriving DecidableEq, Repr

/-! ### Recorder link and responder (10) -/

/-- R170. -/
inductive Status where
  | ok | accepted | wrongMode | badArgument | busy | noSuchTag | inUse | duplicate | queueFull
  | tableFull | notReady | badPage | storeFailed
  deriving DecidableEq, Repr

/-- A command record of the intake (R168). `framed` says that the class is 0x01 and that the body length does not
exceed the bytes received (R185). -/
structure CommandRecord where
  source : LinkAddr
  code   : Byte
  token  : Word16
  args   : List Byte
  framed : Bool
  deriving DecidableEq, Repr

/-- A run of slot numbers, first and last (R25). -/
structure Region where
  first : Nat
  last  : Nat
  deriving DecidableEq, Repr

/-- The page state of R178; VALID reports the stored flag. -/
inductive PageState where
  | invalid
  | valid (flag : Bool)
  deriving DecidableEq, Repr

/-- R178, R181. -/
inductive AutoLoadOutcome where
  | invalid | flagClear | loaded
  deriving DecidableEq, Repr

/-- What STATUS reports of one head's state (R17). -/
inductive HeadReport where
  | idle | candidate | held | fault
  deriving DecidableEq, Repr

/-- What STATUS reports of a track's front end (R17). -/
structure FrontReport where
  heads     : List HeadReport
  waiting   : List (Option HeadId)
  queued    : Nat
  loss      : Bool
  occupied  : Bool
  pulses    : List Count32
  singles   : List Count32
  discarded : Count32
  deriving DecidableEq, Repr

/-- What STATUS reports of a track's passage record (R56). -/
structure PassageReport where
  state  : PassageState
  number : Count16
  stray  : Count32
  deriving DecidableEq, Repr

/-- What STATUS reports of the arbiter (R129). -/
structure LampReport where
  bank     : Bank
  requests : Quad (Option Tag)
  deferred : Quad Nat
  daylight : Bool
  held     : Bool
  deriving DecidableEq, Repr

/-- What STATUS reports of a camera port (R149). -/
structure PortReport where
  up        : Bool
  activity  : PortActivity
  job       : Option PortJob
  fifo      : Nat
  overrun   : Bool
  expected  : Option Word16
  fence     : Option Fence
  stray     : Count32
  discarded : Count32
  losses    : Count32
  deriving DecidableEq, Repr

/-- What STATUS reports of retrieval (R167). -/
structure RetrievalReport where
  entries    : List (Tag × FetchPhase)
  delivering : Option Tag
  frames     : Nat
  deriving DecidableEq, Repr

/-- What STATUS reports of the responder and of the calibration page (R177, R178). -/
structure ResponderReport where
  mode        : Mode
  recorder    : Option LinkAddr
  time        : Time
  intake      : Nat
  control     : Nat
  images      : Nat
  waiting     : Nat
  link        : Bool
  page        : PageState
  writing     : Bool
  autoLoad    : AutoLoadOutcome
  intakeDrops : Count32
  noticeDrops : Count32
  ignored     : Count32
  deriving DecidableEq, Repr

/-- The contents of a STATUS reply (R177). -/
structure StatusReport where
  front     : Quad FrontReport
  passages  : Quad PassageReport
  lamp      : LampReport
  ports     : Quad PortReport
  retrieval : RetrievalReport
  responder : ResponderReport
  deriving DecidableEq, Repr

/-- What SLOT_READ reports of one slot (R167). -/
structure SlotReport where
  state   : SlotState
  tag     : Tag
  track   : Option Track
  lines   : Nat
  fetched : Bool
  deriving DecidableEq, Repr

/-- The contents of a reply of status OK or ACCEPTED. -/
inductive Reply where
  | empty
  | ident (partCode : BitVec 16) (revision : Byte) (address : LinkAddr)
  | status (report : StatusReport)
  | time (t : Time)
  | reset (commands records : Nat)
  | track (record : TrackRecord) (region : Option Region)
  | trim (t : Int)
  | vehicleType (entry : Option VehicleType)
  | schedule (tagCounter : Tag) (jobs : List Job)
  | passage (p : Passage)
  | slots (reports : List SlotReport) (regions : List (Option Region))
  | fetch (tag : Tag) (slot : Nat) (state : SlotState)
  deriving DecidableEq, Repr

/-- 06 §6.6. -/
inductive EndReason where
  | tooLate | overlap | noSlot | cameraDown | cancelled
  deriving DecidableEq, Repr

/-- 06 §6.6, 11 §11.3. -/
inductive CancelCause where
  | none | reversal | conflict | mode
  deriving DecidableEq, Repr

/-- R100. -/
inductive DropReason where
  | tooLate | overlap | scheduleFull
  deriving DecidableEq, Repr

/-- 03 §3.7. -/
inductive CloseReason where
  | normal | timedOut | aborted
  deriving DecidableEq, Repr

/-- The notices (R172, 11 §11.5). IMAGE_READY and JOB_ENDED carry the job as it stands when they are made. -/
inductive Notice where
  | imageReady (job : Job) (slot entries : Nat)
  | jobEnded (job : Job) (time : Time) (reason : EndReason) (cause : CancelCause)
  | sightingDropped (track : Track) (passage : Count16) (sighting : Sighting) (reason : DropReason)
      (centre start stop : Time)
  | passageClosed (track : Track) (passage : Passage) (time : Time) (reason : CloseReason)
  | headStuck (track : Track) (pair : PairId) (head : HeadId) (time : Time)
  | linkDown (port : Track) (time : Time)
  deriving DecidableEq, Repr

/-- What a record of the control queue carries (R171). -/
inductive ControlBody where
  | reply (code : Byte) (token : Word16) (status : Status) (number : Nat) (contents : Reply)
  | notice (n : Notice)
  | fetchDone (d : FetchDone)
  deriving DecidableEq, Repr

/-- A record of the control queue, with the address to which it is sent (R171). -/
structure ControlRecord where
  dest : LinkAddr
  body : ControlBody
  deriving DecidableEq, Repr

/-- A frame taken for sending. -/
inductive Frame where
  | control (r : ControlRecord)
  | image (f : ImageFrame)
  deriving DecidableEq, Repr

/-- The frame on the wire and the clock counts for which it still occupies it (R173). -/
structure Wire where
  frame : Frame
  left  : Nat
  deriving DecidableEq, Repr

/-- The recorder link interface and the management responder. -/
structure Responder where
  linkAddr    : LinkAddr
  recorder    : Option LinkAddr
  mode        : Mode
  intake      : List CommandRecord
  control     : List ControlRecord
  waiting     : List ControlRecord
  images      : List ImageFrame
  wire        : Option Wire
  link        : Bool
  intakeDrops : Count32
  noticeDrops : Count32
  ignored     : Count32
  deriving DecidableEq, Repr

/-- The calibration page (R178). `agrees` says that its check value is the one computed afresh (log 9). -/
structure Page where
  records : Quad TrackRecord
  flag    : Bool
  agrees  : Bool
  deriving DecidableEq, Repr

/-- A page write in progress (R179): what is written, when it began, and whose reply is deferred. -/
structure PageWrite where
  records : Quad TrackRecord
  flag    : Bool
  started : Time
  source  : LinkAddr
  code    : Byte
  token   : Word16
  deriving DecidableEq, Repr

/-- The calibration page with what STATUS reports of it (R178). -/
structure Calibration where
  page     : Page
  state    : PageState
  write    : Option PageWrite
  autoLoad : AutoLoadOutcome
  deriving DecidableEq, Repr

/-! ### The part and its queue of commands -/

/-- Gantry time and the line clock count inside its microsecond, 0 to 99 (R92). -/
structure Timebase where
  time : Time
  sub  : Nat
  deriving DecidableEq, Repr

/-- The whole part. `free` is the model's own counter by which the free values of Config are read (log 3). -/
structure Part where
  tb       : Timebase
  records  : Quad TrackRecord
  types    : Vector (Option VehicleType) 64
  front    : Quad FrontEnd
  trackers : Quad Tracker
  csc      : Scheduler
  lar      : Arbiter
  ports    : Quad Port
  fsc      : Store
  mgr      : Responder
  cal      : Calibration
  free     : Nat
  deriving DecidableEq, Repr

/-- The machine: the part, and the commands that wait, first in first out. -/
structure State where
  part    : Part
  pending : List Instr
  deriving DecidableEq, Repr

/-- Why the machine stops with a fault: never. No rule of the spec stops the part (INVENTORY.md, Faults). -/
inductive Fault where
  deriving DecidableEq, Repr

/-- Why the machine refuses a command. -/
inductive Refusal where
  /-- Raised by an arm of exec whose row has no meaning yet (safe: the machine stops). No arm raises it. -/
  | notModelled (mnemonic : String)
  deriving DecidableEq, Repr

/-! ### The state right after a power-on reset -/

/-- R18: a head after a power-on reset, its input at the level given. R18 gives an unwatched head no settings; that it
holds HIGH, 0 and 0, the unset values of 02 §2.1, is the model's choice (DESIGN CHOICE, log 30). -/
def Head.reset (high : Bool) : Head :=
  { state := .idle, polarity := .high, qualifyUs := 0, stuckMs := 0, high := high, pulses := 0 }

/-- R18: a pair after a power-on reset, its two inputs at the levels given. -/
def SensorPair.reset (outerHigh innerHigh : Bool) : SensorPair :=
  { outer := .reset outerHigh, inner := .reset innerHigh, waiting := none, singles := 0 }

/-- R18: the front end of a track after a power-on reset, its inputs at the levels they have in `f`. -/
def FrontEnd.powerOn (f : FrontEnd) : FrontEnd :=
  { pair1 := .reset f.pair1.outer.high f.pair1.inner.high
    pair2 := .reset f.pair2.outer.high f.pair2.inner.high
    queue := [], loss := false, discarded := 0
    occupancy := { high := f.occupancy.high, occupied := false, timer := none } }

/-- The front end right after reset; the input levels are low (DESIGN CHOICE, log 6). -/
def FrontEnd.reset : FrontEnd :=
  { pair1 := .reset false false, pair2 := .reset false false, queue := [], loss := false,
    discarded := 0, occupancy := { high := false, occupied := false, timer := none } }

/-- R34, R54. -/
def Tracker.reset : Tracker := { passage := .vacant 0, stray := 0, handling := none }

/-- R115. -/
def Scheduler.reset : Scheduler := { jobs := [], tagCounter := 0, nextEntry := 0 }

/-- R118, with the daylight input at the level given. -/
def Arbiter.reset (daylight : Bool) : Arbiter :=
  { entries := [], pendingSet := .all none, deferral := .all [], bank := .idle, daylight := daylight }

/-- R148. -/
def Port.reset : Port :=
  { up := false, activity := .idle, job := none, generator := none, pulse := none, fifo := [],
    overrun := false, expected := none, fence := none, stray := 0, discarded := 0, losses := 0 }

/-- R148, R154, R166: the search of the store path begins at CP1, the member after the read engine. -/
def Store.reset : Store :=
  { slots := Vector.replicate 64 .empty, turn := none, last := .readEngine, fetches := [], engine := none }

/-- R183, with the link address and the state of the Ethernet link given. -/
def Responder.reset (linkAddr : LinkAddr) (link : Bool) : Responder :=
  { linkAddr := linkAddr, recorder := none, mode := .service, intake := [], control := [], waiting := [],
    images := [], wire := none, link := link, intakeDrops := 0, noticeDrops := 0, ignored := 0 }

/-- The part right after a power-on reset with a calibration page never written, so that no record is loaded
(R181); input levels low, Ethernet link present (logs 6, 8 and 9). -/
def Part.reset : Part :=
  { tb := { time := 0, sub := 0 }
    records := .all .unset
    types := Vector.replicate 64 none
    front := .all .reset
    trackers := .all .reset
    csc := .reset
    lar := .reset false
    ports := .all .reset
    fsc := .reset
    mgr := .reset Config.linkAddress true
    cal := { page := { records := .all .unset, flag := false, agrees := false }
             state := .invalid, write := none, autoLoad := .invalid }
    free := 0 }

/-- The machine right after reset. -/
def State.reset : State := { part := .reset, pending := [] }

end Sys2Proof.Machine
end

