-- ==== Sys2Proof/Machine/Flags.lean ====
section
/-! DEFINITION. The flag sets of passages and jobs as they are sent (11 §11.3), and the copying of flags (R91). -/

namespace Sys2Proof.Machine

/-- The number whose bit i is the i-th of a list of flags; bit 0 is the least significant. -/
def flagWord : List Bool → Nat
  | [] => 0
  | b :: rest => (if b then 1 else 0) + 2 * flagWord rest

/-- 11 §11.3: the passage flags, bit 0 first. -/
def PassageFlags.bits (f : PassageFlags) : List Bool :=
  [f.slow, f.fast, f.noSpeed, f.axleLoss, f.reversal, f.conflict, f.countError, f.unmatched, f.listFull,
   f.matchSuspended]

/-- 11 §11.3: the job flags, bit 0 first. -/
def JobFlags.bits (f : JobFlags) : List Bool :=
  [f.late, f.clipped, f.narrowed, f.stretched, f.compressed, f.slow, f.fast, f.noSpeed, f.orientationUnknown,
   f.overrun, f.badCheck, f.modeAbort]

/-- R91: a computation sets the three flags of its outcome and copies the passage flags SLOW, FAST and NO_SPEED. -/
def JobFlags.computed (f : JobFlags) (stretched compressed narrowed slow fast noSpeed : Bool) : JobFlags :=
  { f with stretched := stretched, compressed := compressed, narrowed := narrowed,
           slow := slow, fast := fast, noSpeed := noSpeed }

end Sys2Proof.Machine
end

