-- ==== Sys2Proof/Machine/Ops.lean ====
section
/-! DEFINITION. The operations that several blocks share: gantry time, reading and replacing a piece of the part,
slot regions, looking up jobs and slots, and placing notices and replies in the control queue. -/

namespace Sys2Proof.Machine

/-! ### Gantry time (R79) -/

/-- A number of microseconds as a gantry time, modulo 2^48. -/
def usTime (n : Nat) : Time := BitVec.ofNat 48 n

/-- R79: y lies after x when y − x, modulo 2^48, lies in 1..2^47. -/
def liesAfter (y x : Time) : Bool :=
  decide (1 ≤ (y - x).toNat) && decide ((y - x).toNat ≤ 2 ^ 47)

/-- R79: y lies before x when x lies after y. -/
def liesBefore (y x : Time) : Bool := liesAfter x y

/-- x is y or lies before it. -/
def atOrBefore (x y : Time) : Bool := x == y || liesBefore x y

/-- Gantry time has reached the instant `t`. -/
def reached (now t : Time) : Bool := atOrBefore t now

/-! ### Rounding (00, Arithmetic) -/

/-- The quotient rounded to the nearest integer, halves upward. -/
def roundDiv (n d : Nat) : Nat := (2 * n + d) / (2 * d)

/-- The quotient rounded up. -/
def ceilDiv (n d : Nat) : Nat := (n + d - 1) / d

/-- The distance between two numbers. -/
def natDist (a b : Nat) : Nat := (a - b) + (b - a)

/-! ### Reading and replacing a piece of the part -/

/-- The present gantry time. -/
def Part.now (p : Part) : Time := p.tb.time

/-- The mode in force. -/
def Part.mode (p : Part) : Mode := p.mgr.mode

/-- The track record in force of a track (R20). -/
def Part.record (p : Part) (k : Track) : TrackRecord := p.records.get k

def Part.setFront (p : Part) (k : Track) (f : FrontEnd) : Part := { p with front := p.front.set k f }

def Part.setTracker (p : Part) (k : Track) (t : Tracker) : Part := { p with trackers := p.trackers.set k t }

/-- The passage record of a track. -/
def Part.passage (p : Part) (k : Track) : Passage := (p.trackers.get k).passage

def Part.setPassage (p : Part) (k : Track) (r : Passage) : Part :=
  p.setTracker k { p.trackers.get k with passage := r }

def Part.setMatcher (p : Part) (k : Track) (m : Matcher) : Part :=
  p.setPassage k { p.passage k with matcher := m }

def Part.setPort (p : Part) (k : Track) (c : Port) : Part := { p with ports := p.ports.set k c }

def Part.setJobs (p : Part) (js : List Job) : Part := { p with csc := { p.csc with jobs := js } }

def Part.setLar (p : Part) (a : Arbiter) : Part := { p with lar := a }

def Part.setFsc (p : Part) (s : Store) : Part := { p with fsc := s }

def Part.setMgr (p : Part) (m : Responder) : Part := { p with mgr := m }

def Part.setSlot (p : Part) (n : Nat) (s : Slot) : Part :=
  p.setFsc { p.fsc with slots := p.fsc.slots.setIfInBounds n s }

def FrontEnd.pair (f : FrontEnd) : PairId → SensorPair
  | .pair1 => f.pair1
  | .pair2 => f.pair2

def FrontEnd.setPair (f : FrontEnd) (i : PairId) (q : SensorPair) : FrontEnd :=
  match i with
  | .pair1 => { f with pair1 := q }
  | .pair2 => { f with pair2 := q }

def SensorPair.head (q : SensorPair) : HeadId → Head
  | .outer => q.outer
  | .inner => q.inner

def SensorPair.setHead (q : SensorPair) (i : HeadId) (h : Head) : SensorPair :=
  match i with
  | .outer => { q with outer := h }
  | .inner => { q with inner := h }

/-- One head of the part. -/
def Part.head (p : Part) (k : Track) (i : PairId) (h : HeadId) : Head := ((p.front.get k).pair i).head h

def FrontEnd.setHead (f : FrontEnd) (i : PairId) (h : HeadId) (x : Head) : FrontEnd :=
  f.setPair i ((f.pair i).setHead h x)

def Part.setHead (p : Part) (k : Track) (i : PairId) (h : HeadId) (x : Head) : Part :=
  p.setFront k ((p.front.get k).setHead i h x)

/-- The spacing of a pair (fields 2 and 3). -/
def TrackRecord.spacing (r : TrackRecord) : PairId → Nat
  | .pair1 => r.spacing1
  | .pair2 => r.spacing2

/-- The approach of a pair (fields 4 and 5). -/
def TrackRecord.approach (r : TrackRecord) : PairId → Nat
  | .pair1 => r.approach1
  | .pair2 => r.approach2

/-- The polarity of a head (fields 6 to 9). -/
def TrackRecord.headPolarity (r : TrackRecord) : PairId → HeadId → Polarity
  | .pair1, .outer => r.outer1
  | .pair1, .inner => r.inner1
  | .pair2, .outer => r.outer2
  | .pair2, .inner => r.inner2

/-- Whether an input at a level is at the level that a polarity names (02 §2.1). -/
def Polarity.names (q : Polarity) (high : Bool) : Bool :=
  match q with
  | .high => high
  | .low => !high

/-! ### Slots and regions (R25) -/

/-- The first slot of a track's region: the slots of the tracks before it. -/
def regionStart (r : Quad TrackRecord) : Track → Nat
  | .t1 => 0
  | .t2 => r.one.slots
  | .t3 => r.one.slots + r.two.slots
  | .t4 => r.one.slots + r.two.slots + r.three.slots

/-- The sum of the four slot counts (R22). -/
def slotSum (r : Quad TrackRecord) : Nat := r.one.slots + r.two.slots + r.three.slots + r.four.slots

/-- The region of a track, none for a slot count of 0 (R25). -/
def regionOf (r : Quad TrackRecord) (k : Track) : Option Region :=
  if (r.get k).slots = 0 then none
  else some { first := regionStart r k, last := regionStart r k + (r.get k).slots - 1 }

/-- Whether a slot lies in a track's region (R25). -/
def inRegion (r : Quad TrackRecord) (k : Track) (n : Nat) : Bool :=
  decide (regionStart r k ≤ n) && decide (n < regionStart r k + (r.get k).slots)

/-- The track whose region holds a slot, if any (R150). -/
def trackOfSlot (r : Quad TrackRecord) (n : Nat) : Option Track :=
  Track.all.find? (fun k => inRegion r k n)

/-- The slot of a number. -/
def Part.slot (p : Part) (n : Nat) : Option Slot := p.fsc.slots[n]?

/-- The lowest-numbered FREE slot of a track's region (R104, R151). -/
def Part.freeSlot (p : Part) (k : Track) : Option Nat :=
  (List.range 64).find? (fun n =>
    inRegion p.records k n && ((p.slot n).map (fun s => decide (s.state = .free))).getD false)

/-- The number of the slot that is FILLING or HELD with a tag (R153, R155). -/
def Part.slotWithTag (p : Part) (t : Tag) : Option Nat :=
  (List.range 64).find? (fun n =>
    ((p.slot n).map (fun s => decide (s.state ≠ .free) && s.tag == t)).getD false)

/-- Whether some slot is not FREE (R23). -/
def Part.someSlotUsed (p : Part) : Bool :=
  p.fsc.slots.toList.any (fun s => decide (s.state ≠ .free))

/-! ### Jobs -/

/-- The job of the schedule with a tag. -/
def Part.job (p : Part) (t : Tag) : Option Job := p.csc.jobs.find? (fun j => j.tag == t)

/-- A change made to the job with a tag. -/
def Part.modJob (p : Part) (t : Tag) (f : Job → Job) : Part :=
  p.setJobs (p.csc.jobs.map (fun j => if j.tag == t then f j else j))

/-- The jobs of the schedule without the one with a tag. -/
def Part.removeJob (p : Part) (t : Tag) : Part :=
  p.setJobs (p.csc.jobs.filter (fun j => j.tag != t))

/-! ### Control queue (R171, R172) -/

/-- The broadcast address, all ones (11 §11.1). -/
def broadcast : LinkAddr := BitVec.allOnes 48

/-- A place of the control queue is free that no waiting record claims (R169, R171, R172). -/
def Part.freePlace (p : Part) : Bool := decide (p.mgr.control.length + p.mgr.waiting.length < 16)

/-- A record placed at the tail of the control queue. -/
def Part.pushControl (p : Part) (r : ControlRecord) : Part :=
  p.setMgr { p.mgr with control := p.mgr.control ++ [r] }

/-- R172: a notice is placed, addressed to the recorder address or while that is unset to the broadcast address, or
it is dropped and counted. -/
def Part.notice (p : Part) (n : Notice) : Part :=
  if p.freePlace then p.pushControl { dest := p.mgr.recorder.getD broadcast, body := .notice n }
  else p.setMgr { p.mgr with noticeDrops := p.mgr.noticeDrops + 1 }

/-- R170: the reply to a command, placed at the tail of the control queue. -/
def Part.reply (p : Part) (r : CommandRecord) (st : Status) (number : Nat) (c : Reply) : Part :=
  p.pushControl { dest := r.source, body := .reply r.code r.token st number c }

/-- A reply that refuses, with field or check number 0. -/
def Part.refuse (p : Part) (r : CommandRecord) (st : Status) : Part := p.reply r st 0 .empty

/-- R171: a record that does not drop waits for a place when none is free. -/
def Part.placeOrWait (p : Part) (r : ControlRecord) : Part :=
  if p.freePlace then p.pushControl r
  else p.setMgr { p.mgr with waiting := p.mgr.waiting ++ [r] }

end Sys2Proof.Machine
end

