-- ==== Sys2Proof/Machine/Layout.lean ====
section
/-! DEFINITION. The bytes of every frame that the part sends (11). Where the spec fixes neither width nor order of a
field of a reply, log 14 says what is taken. -/

namespace Sys2Proof.Machine

/-- A number in `width` bytes, most significant byte first (R184). -/
def be : Nat → Nat → List Byte
  | 0, _ => []
  | width + 1, n => BitVec.ofNat 8 (n / 256 ^ width) :: be width n

/-! ### Encodings of fields (R184) -/

def encTime (t : Time) : List Byte := be 6 t.toNat

/-- A gantry time that may be absent: a presence byte before it. -/
def encOptTime : Option Time → List Byte
  | none => be 1 0 ++ be 6 0
  | some t => be 1 1 ++ encTime t

def encAddr (a : LinkAddr) : List Byte := be 6 a.toNat

def encOptAddr : Option LinkAddr → List Byte
  | none => be 1 0 ++ be 6 0
  | some a => be 1 1 ++ encAddr a

def encYes (b : Bool) : List Byte := be 1 (if b then 1 else 0)

def encTrack (k : Track) : List Byte := be 1 k.number

/-- A track that may be absent: 0xFF. -/
def encOptTrack : Option Track → List Byte
  | none => be 1 0xFF
  | some k => encTrack k

/-- A slot that may be absent: 0xFF. -/
def encOptSlot : Option Nat → List Byte
  | none => be 1 0xFF
  | some n => be 1 n

/-- A tag that may be absent: 0 means no tag. -/
def encOptTag : Option Tag → List Byte
  | none => be 1 0
  | some t => be 1 t.toNat

/-- A pace that may be absent: 0. -/
def encOptPace : Option Nat → List Byte
  | none => be 3 0
  | some p => be 3 p

/-- A line number that may be absent: 0xFFFF. -/
def encOptLine : Option Nat → List Byte
  | none => be 2 0xFFFF
  | some n => be 2 n

def encOptWord16 : Option Word16 → List Byte
  | none => be 1 0 ++ be 2 0
  | some w => be 1 1 ++ be 2 w.toNat

def encPolarity : Polarity → List Byte
  | .high => be 1 0
  | .low => be 1 1

/-- A trim in two's complement. -/
def encTrim (t : Int) : List Byte := [BitVec.ofInt 8 t]

def encMode : Mode → List Byte
  | .service => be 1 0
  | .onLine => be 1 1
  | .standby => be 1 2

def encHead : HeadId → List Byte
  | .outer => be 1 0
  | .inner => be 1 1

def encPair : PairId → List Byte
  | .pair1 => be 1 1
  | .pair2 => be 1 2

/-- The direction follows from the entry pair: 1→2 for pair 1, 2→1 for pair 2. -/
def encDirection : Option PairId → List Byte
  | some .pair1 => be 1 1
  | some .pair2 => be 1 2
  | none => be 1 0

def encOptPair : Option PairId → List Byte
  | some i => encPair i
  | none => be 1 0

def encOrientation : Orientation → List Byte
  | .forward => be 1 0
  | .reversed => be 1 1
  | .unknown => be 1 2

def encMark : Mark → List Byte
  | .forward => be 1 0
  | .reversed => be 1 1
  | .unknownA => be 1 2
  | .unknownB => be 1 3

def encLamp : LampStatus → List Byte
  | .none => be 1 0
  | .pending => be 1 1
  | .lit => be 1 2
  | .partlyLit => be 1 3
  | .unlit => be 1 4
  | .daylight => be 1 5
  | .masked => be 1 6

def encCloseReason : CloseReason → List Byte
  | .normal => be 1 0
  | .timedOut => be 1 1
  | .aborted => be 1 2

def encEndReason : EndReason → List Byte
  | .tooLate => be 1 0
  | .overlap => be 1 1
  | .noSlot => be 1 2
  | .cameraDown => be 1 3
  | .cancelled => be 1 4

def encCause : CancelCause → List Byte
  | .none => be 1 0
  | .reversal => be 1 1
  | .conflict => be 1 2
  | .mode => be 1 3

def encDropReason : DropReason → List Byte
  | .tooLate => be 1 0
  | .overlap => be 1 1
  | .scheduleFull => be 1 2

def encDrainEnd : DrainEnd → List Byte
  | .complete => be 1 0
  | .deadline => be 1 1
  | .cut => be 1 2

def encHeadReport : HeadReport → List Byte
  | .idle => be 1 0
  | .candidate => be 1 1
  | .held => be 1 2
  | .fault => be 1 3

def encWaiting : Option HeadId → List Byte
  | none => be 1 0
  | some .outer => be 1 1
  | some .inner => be 1 2

def encPassageState : PassageState → List Byte
  | .vacant => be 1 0
  | .running => be 1 1
  | .clearing => be 1 2

def encJobState : JobState → List Byte
  | .waiting => be 1 0
  | .opened => be 1 1
  | .draining => be 1 2

def encActivity : PortActivity → List Byte
  | .idle => be 1 0
  | .triggering => be 1 1
  | .draining => be 1 2

def encSlotState : SlotState → List Byte
  | .free => be 1 0
  | .filling => be 1 1
  | .held => be 1 2

def encPhase : FetchPhase → List Byte
  | .waiting => be 1 0
  | .delivering => be 1 1
  | .sending => be 1 2
  | .finishing => be 1 3

/-- R178: the page state, then the stored auto-load flag. R178 gives the flag of a VALID page alone, and R184 no value
for a flag that is absent; that an INVALID page sends 0x00 in its place is the model's choice (DESIGN CHOICE, log 14). -/
def encPage : PageState → List Byte
  | .invalid => be 1 0 ++ be 1 0
  | .valid flag => be 1 1 ++ encYes flag

def encAutoLoad : AutoLoadOutcome → List Byte
  | .invalid => be 1 0
  | .flagClear => be 1 1
  | .loaded => be 1 2

/-- 11 §11.3: the code of a status. -/
def Status.code : Status → Nat
  | .ok => 0x00
  | .accepted => 0x01
  | .wrongMode => 0x10
  | .badArgument => 0x11
  | .busy => 0x12
  | .noSuchTag => 0x13
  | .inUse => 0x14
  | .duplicate => 0x15
  | .queueFull => 0x16
  | .tableFull => 0x17
  | .notReady => 0x18
  | .badPage => 0x19
  | .storeFailed => 0x1A

/-- A region of slots, first and last, 0xFF and 0xFF for none (11 §11.4). -/
def encRegion : Option Region → List Byte
  | none => be 1 0xFF ++ be 1 0xFF
  | some r => be 1 r.first ++ be 1 r.last

/-- A list: a count byte, then the entries (R184). -/
def encList {α : Type} (f : α → List Byte) (l : List α) : List Byte := be 1 l.length ++ l.flatMap f

/-- A sighting entry, 14 bytes (11 §11.5). -/
def encSighting (s : Sighting) : List Byte :=
  be 2 s.vehicle.toNat ++ be 1 s.index ++ be 1 s.pantograph ++ encMark s.mark ++ encTime s.reference ++ be 3 s.distance

/-- The 35-byte track record (11 §11.4). -/
def encTrackRecord (r : TrackRecord) : List Byte :=
  encYes r.enabled ++ be 2 r.spacing1 ++ be 2 r.spacing2 ++ be 3 r.approach1 ++ be 3 r.approach2 ++
  encPolarity r.outer1 ++ encPolarity r.inner1 ++ encPolarity r.outer2 ++ encPolarity r.inner2 ++
  be 2 r.qualifyUs ++ be 2 r.stuckMs ++ encYes r.occUse ++ encPolarity r.occPolarity ++ be 1 r.silenceS ++
  be 2 r.pitchUm ++ be 2 r.windowHalfMm ++ be 3 r.defaultPace ++ be 1 r.slots ++ encTrim r.trim ++
  be 1 r.lampPriority ++ encYes r.lampMask ++ be 1 r.recoveryCode ++ encYes r.daylightUse

/-- The fields of a vehicle type in the order of R33, with 7 gap fields and 2 offset fields (R184). R184 names no kind
for the span; that it takes 2 bytes, as a gap does, is the model's choice (DESIGN CHOICE, log 14). -/
def encVehicleType (t : VehicleType) : List Byte :=
  t.name ++ be 1 (t.gaps.length + 1) ++ (List.range 7).flatMap (fun i => be 2 ((t.gaps[i]?).getD 0)) ++
  be 2 t.span ++ be 2 t.tolerance ++ be 2 t.couplingGap ++ be 1 t.pantographs.length ++
  (List.range 2).flatMap (fun i => be 2 ((t.pantographs[i]?).getD 0))

/-! ### Notices and FETCH_DONE (11 §11.5) -/

def Notice.code : Notice → Nat
  | .imageReady .. => 0x81
  | .jobEnded .. => 0x82
  | .sightingDropped .. => 0x83
  | .passageClosed .. => 0x84
  | .headStuck .. => 0x85
  | .linkDown .. => 0x85

def encVehicleEntry (v : VehicleEntry) : List Byte :=
  be 1 v.index ++ encOrientation v.orientation ++ be 2 v.firstAxle.toNat ++ be 1 v.axles

def Notice.body : Notice → List Byte
  | .imageReady j slot entries =>
    be 1 j.tag.toNat ++ encTrack j.track ++ be 2 j.passage.toNat ++ be 1 slot ++ be 2 entries ++
    be 2 j.triggered ++ be 2 j.received ++ be 2 j.lost ++ encLamp j.lamp ++ be 2 (flagWord j.flags.bits)
  | .jobEnded j t reason cause =>
    be 1 j.tag.toNat ++ encTrack j.track ++ be 2 j.passage.toNat ++ encList encSighting j.sightings ++
    be 3 j.pace ++ encTime j.centre ++ encTime j.start ++ encTime j.stop ++ encTime j.lampRequest ++
    be 3 j.linePeriod ++ be 2 j.lineCount ++ encLamp j.lamp ++ be 2 (flagWord j.flags.bits) ++ encTime t ++
    encEndReason reason ++ encCause cause
  | .sightingDropped k num s reason centre start stop =>
    encTrack k ++ be 2 num.toNat ++ be 2 s.vehicle.toNat ++ be 1 s.index ++ be 1 s.pantograph ++ encMark s.mark ++
    encDropReason reason ++ encTime centre ++ encTime start ++ encTime stop
  | .passageClosed k r t reason =>
    encTrack k ++ be 2 r.number.toNat ++ encDirection r.entryPair ++ encTime r.openTime ++ encTime t ++
    be 2 r.entries.toNat ++ be 2 r.exits.toNat ++ be 2 r.backouts.toNat ++ be 2 r.inside.toNat ++
    encCloseReason reason ++ be 2 (flagWord r.flags.bits) ++ encOptPace r.pace ++ be 2 r.vehicleCount.toNat ++
    be 2 r.matcher.unmatched.toNat ++ be 2 r.sightingCount.toNat ++ be 2 r.jobCount.toNat ++
    encList encVehicleEntry r.matcher.vehicles
  | .headStuck k i h t => be 1 1 ++ encTrack k ++ encPair i ++ encHead h ++ be 1 1 ++ encTime t
  | .linkDown k t => be 1 2 ++ encTrack k ++ be 1 0 ++ be 1 0 ++ be 1 2 ++ encTime t

/-- FETCH_DONE, 10 bytes. -/
def FetchDone.body (d : FetchDone) : List Byte :=
  be 1 d.tag.toNat ++ be 2 d.delivered ++ be 2 d.notDelivered ++ encOptLine d.lastLine ++ be 2 d.frames ++
  be 1 (if d.cancelled then 1 else 0)

/-! ### Reply contents, in the order in which the owning rule lists them -/

/-- A job as SCHEDULE_READ carries it (R117). -/
def encJob (j : Job) : List Byte :=
  be 1 j.tag.toNat ++ encTrack j.track ++ be 2 j.passage.toNat ++ encJobState j.state ++
  encList (fun s : Sighting => be 2 s.vehicle.toNat ++ be 1 s.pantograph ++ encMark s.mark) j.sightings ++
  be 3 j.pace ++ encTime j.centre ++ encTime j.start ++ encTime j.stop ++ encTime j.lampRequest ++
  be 3 j.linePeriod ++ be 2 j.lineCount ++ encOptSlot j.slot ++ encLamp j.lamp ++ be 2 j.triggered ++
  be 2 j.received ++ be 2 j.lost ++ encOptTime j.drainDeadline ++ be 2 (flagWord j.flags.bits)

/-- R56: in VACANT the state and the passage number alone. The counts of vehicles and of axles take two bytes (R184).
R56 lists whether the coupling timer is running, and its deadline; that one byte is sent for both, a yes or no that is
also the presence byte (R184) of the deadline behind it, is the model's choice (DESIGN CHOICE, log 14). -/
def encPassage (r : Passage) : List Byte :=
  encPassageState r.state ++ be 2 r.number.toNat ++
  if r.state = .vacant then []
  else
    encDirection r.entryPair ++ encOptPair r.entryPair ++ encTime r.openTime ++ be 2 r.entries.toNat ++
    be 2 r.exits.toNat ++ be 2 r.backouts.toNat ++ be 2 r.inside.toNat ++ encOptPace r.pace ++
    be 2 (flagWord r.flags.bits) ++ encTime (r.silence.getD 0) ++ be 2 r.vehicleCount.toNat ++
    be 2 r.sightingCount.toNat ++ be 2 r.jobCount.toNat ++ be 2 r.matcher.vehicles.length ++
    be 2 r.matcher.pending.length ++ be 2 r.matcher.unmatched.toNat ++
    encOptTime (r.matcher.coupling.map CouplingTimer.deadline)

/-- A count of STATUS (R184). -/
def encCount (c : Count32) : List Byte := be 4 c.toNat

/-- R17: the front ends of the four tracks, kind by kind in the order of its list, with the counts in the order of
R16. Inside a kind the order, by track, then by pair, then outer before inner, is the model's choice (DESIGN CHOICE,
log 14). -/
def encFront (fs : List FrontReport) : List Byte :=
  fs.flatMap (fun f => f.heads.flatMap encHeadReport) ++
  fs.flatMap (fun f => f.waiting.flatMap encWaiting) ++
  fs.flatMap (fun f => be 1 f.queued ++ encYes f.loss) ++
  fs.flatMap (fun f => encYes f.occupied) ++
  fs.flatMap (fun f => f.pulses.flatMap encCount) ++
  fs.flatMap (fun f => f.singles.flatMap encCount) ++
  fs.flatMap (fun f => encCount f.discarded)

/-- R129: the bank state with what it carries. That IN_SERVICE and RECOVERY share one tag, one track and one time with
its presence byte, sent absent in the states that have none, is the model's choice (DESIGN CHOICE, log 14). -/
def encBank : Bank → List Byte
  | .idle => be 1 0 ++ encOptTag none ++ encOptTrack none ++ encOptTime none
  | .inService t k g => be 1 1 ++ be 1 t.toNat ++ encTrack k ++ encOptTime (some g)
  | .recovery k e => be 1 2 ++ encOptTag none ++ encTrack k ++ encOptTime (some e)

/-- R129: the bank, then for each track its request and the number of its deferred entries. That the level of the
daylight input is sent as a yes or no, 0x01 for high, is the model's choice (DESIGN CHOICE, log 14). -/
def encLampReport (l : LampReport) : List Byte :=
  encBank l.bank ++ Track.all.flatMap (fun k => encOptTag (l.requests.get k) ++ be 1 (l.deferred.get k)) ++
  encYes l.daylight ++ encYes l.held

/-- R149. A port without a fence sends the length 0 (R184); that its first sequence number is then sent as 0 is the
model's choice (DESIGN CHOICE, log 14). -/
def encPort (c : PortReport) : List Byte :=
  encYes c.up ++ encActivity c.activity ++ encOptTag (c.job.map PortJob.tag) ++ encOptSlot (c.job.map PortJob.slot) ++
  be 2 c.fifo ++ encYes c.overrun ++ encOptWord16 c.expected ++
  be 2 ((c.fence.map (fun f => f.first.toNat)).getD 0) ++ be 2 ((c.fence.map Fence.length).getD 0) ++
  encCount c.stray ++ encCount c.discarded ++ encCount c.losses

/-- R177: the blocks in the order in which it lists them, then the responder. -/
def encStatus (s : StatusReport) : List Byte :=
  encFront s.front.toList ++
  s.passages.toList.flatMap (fun r => encPassageState r.state ++ be 2 r.number.toNat ++ encCount r.stray) ++
  encLampReport s.lamp ++ s.ports.toList.flatMap encPort ++
  encList (fun e : Tag × FetchPhase => be 1 e.1.toNat ++ encPhase e.2) s.retrieval.entries ++
  encOptTag s.retrieval.delivering ++ be 1 s.retrieval.frames ++
  encMode s.responder.mode ++ encOptAddr s.responder.recorder ++ encTime s.responder.time ++
  be 1 s.responder.intake ++ be 1 s.responder.control ++ be 1 s.responder.images ++ be 1 s.responder.waiting ++
  encYes s.responder.link ++ encPage s.responder.page ++ encYes s.responder.writing ++
  encAutoLoad s.responder.autoLoad ++ encCount s.responder.intakeDrops ++ encCount s.responder.noticeDrops ++
  encCount s.responder.ignored

def encSlotReport (s : SlotReport) : List Byte :=
  encSlotState s.state ++ be 1 s.tag.toNat ++ encOptTrack s.track ++ be 2 s.lines ++ encYes s.fetched

def Reply.body : Reply → List Byte
  | .empty => []
  | .ident c v a => be 2 c.toNat ++ be 1 v.toNat ++ encAddr a ++ be 1 64 ++ be 2 4096 ++ be 2 2048
  | .status s => encStatus s
  | .time t => encTime t
  | .reset c r => be 1 c ++ be 1 r
  | .track r g => encTrackRecord r ++ encRegion g
  | .trim t => encTrim t
  | .vehicleType none => encYes false
  | .vehicleType (some t) => encYes true ++ encVehicleType t
  | .schedule c js => be 2 js.length ++ be 1 c.toNat ++ js.flatMap encJob
  | .passage r => encPassage r
  | .slots ss gs => ss.flatMap encSlotReport ++ gs.flatMap encRegion
  | .fetch t n st => be 1 t.toNat ++ be 1 n ++ encSlotState st

/-! ### Image data (11 §11.6) -/

def encHeader (h : ImageHeader) : List Byte :=
  be 1 h.tag.toNat ++ encTrack h.track ++ be 2 h.passage.toNat ++ encList encSighting h.sightings ++ be 3 h.pace ++
  encTime h.centre ++ encTime h.start ++ encTime h.stop ++ encTime h.lampRequest ++ be 3 h.linePeriod ++
  be 2 h.lineCount ++ be 2 h.triggered ++ be 2 h.received ++ be 2 h.lost ++ be 2 h.entries ++ encLamp h.lamp ++
  be 2 (flagWord h.flags.bits) ++ encDrainEnd h.drainEnd ++ encTime h.drainTime

/-- A line entry: slot line number, sequence number, marks (bit 0 BAD_CHECK, bit 1 GAP), pixels. -/
def encLine (n : Nat) (l : Line) : List Byte :=
  be 2 n ++ be 2 l.sequence.toNat ++ be 1 (flagWord [l.badCheck, l.gap]) ++ l.pixels

def ImageContent.count : ImageContent → Nat
  | .header _ => 0
  | .lines ls => ls.length

def ImageContent.body : ImageContent → List Byte
  | .header none => []
  | .header (some h) => encHeader h
  | .lines ls => ls.flatMap (fun e => encLine e.1 e.2)

def ImageFrame.body (f : ImageFrame) : List Byte :=
  be 1 f.tag.toNat ++ be 2 f.number ++ encYes f.last ++ be 1 f.content.count ++ f.content.body

/-! ### Whole frames (11 §11.1) -/

/-- Class, code, token and body of a record of the control queue. -/
def ControlBody.layout : ControlBody → Nat × Nat × Word16 × List Byte
  | .reply code token st number c => (0x02, code.toNat, token, be 1 st.code ++ be 1 number ++ c.body)
  | .notice n => (0x03, n.code, 0, n.body)
  | .fetchDone d => (0x04, 0x86, d.token, d.body)

/-- R185: a frame shorter than 60 bytes is padded with zero bytes after the body to that length. -/
def padFrame (bs : List Byte) : List Byte := bs ++ List.replicate (60 - bs.length) 0

/-- The bytes of a frame, from the destination address to the end of its padding. -/
def frameBytes (dest source : LinkAddr) (cls code : Nat) (token : Word16) (body : List Byte) : List Byte :=
  padFrame (encAddr dest ++ encAddr source ++ be 2 0xB7D2 ++ be 1 cls ++ be 1 code ++ be 2 token.toNat ++
    be 2 body.length ++ body)

/-- The bytes of a frame that the part sends, its source address the part's link address (10 §10.1). -/
def Frame.bytes (source : LinkAddr) : Frame → List Byte
  | .control r =>
    let l := r.body.layout
    frameBytes r.dest source l.1 l.2.1 l.2.2.1 l.2.2.2
  | .image f => frameBytes f.dest source 0x05 0x87 f.token f.body

/-- R173: the clock counts of 10 ns for which a frame occupies the wire: 0.8 ns for each of its bytes, 8 bytes of
preamble, 4 of frame check sequence and 12 of gap, rounded up to a whole count (log 15). -/
def wireCounts (bytes : Nat) : Nat := ceilDiv (2 * (bytes + 24)) 25

end Sys2Proof.Machine
end

