-- ==== Sys2Proof/Machine/Operands.lean ====
section
/-! DEFINITION. The operands of the recorder's commands: the fields of a received frame (R168, R185), the command
catalogue (10 §10.5, 11 §11.4), and the argument bytes of each command with the checks of their ranges. -/

namespace Sys2Proof.Machine

/-- A number sent most significant byte first (11). -/
def bigEndian (bs : List Byte) : Nat := bs.foldl (fun n b => n * 256 + b.toNat) 0

/-- The number in `width` bytes from an offset on. -/
def fieldAt (bs : List Byte) (offset width : Nat) : Nat := bigEndian ((bs.drop offset).take width)

/-! ### The link frame header (11 §11.1) -/

/-- The byte of a frame at an offset; beyond its end a free value (log 13). -/
def frameByte (frame : List Byte) (i : Nat) : Byte := (frame[i]?).getD (Config.absentByte i)

/-- The number in `width` bytes of the frame header from an offset on. -/
def headerField (frame : List Byte) (offset width : Nat) : Nat :=
  bigEndian ((List.range width).map (fun i => frameByte frame (offset + i)))

/-- The type value that the part accepts (R168). -/
def frameType : Nat := 0xB7D2

/-- R168, R185: the command record of an accepted frame. The arguments are the body bytes up to the body length. -/
def commandRecord (frame : List Byte) : CommandRecord :=
  { source := BitVec.ofNat 48 (headerField frame 6 6)
    code := frameByte frame 15
    token := BitVec.ofNat 16 (headerField frame 16 2)
    args := (frame.drop 20).take (headerField frame 18 2)
    framed := frameByte frame 14 == 1 && decide (headerField frame 18 2 ≤ frame.length - 20) }

/-! ### The command catalogue -/

/-- The commands of the catalogue (10 §10.5). -/
inductive Command where
  | ident | status | timeRead | modeSet | resetPart
  | trackWrite | trackRead | trimSet | trimStep | lampSet
  | typeWrite | typeClear | typeRead
  | headClear | scheduleRead | passageRead | slotRead
  | fetch | fetchCancel | slotRelease
  | calStore | calLoad | calAutoload
  deriving DecidableEq, Repr

/-- 11 §11.4: the command of a code. -/
def Command.ofCode (c : Byte) : Option Command :=
  match c.toNat with
  | 0x01 => some .ident
  | 0x02 => some .status
  | 0x03 => some .timeRead
  | 0x04 => some .modeSet
  | 0x05 => some .resetPart
  | 0x10 => some .trackWrite
  | 0x11 => some .trackRead
  | 0x12 => some .trimSet
  | 0x13 => some .trimStep
  | 0x14 => some .lampSet
  | 0x20 => some .typeWrite
  | 0x21 => some .typeClear
  | 0x22 => some .typeRead
  | 0x30 => some .headClear
  | 0x31 => some .scheduleRead
  | 0x32 => some .passageRead
  | 0x33 => some .slotRead
  | 0x40 => some .fetch
  | 0x41 => some .fetchCancel
  | 0x42 => some .slotRelease
  | 0x50 => some .calStore
  | 0x51 => some .calLoad
  | 0x52 => some .calAutoload
  | _ => none

/-- 11 §11.4: the argument bytes of a command. -/
def Command.argLength : Command → Nat
  | .ident | .status | .timeRead | .resetPart | .scheduleRead | .slotRead | .calLoad => 0
  | .modeSet | .trackRead | .typeClear | .typeRead | .passageRead | .fetchCancel | .slotRelease
  | .calStore | .calAutoload => 1
  | .trimSet | .trimStep => 2
  | .headClear => 3
  | .lampSet | .fetch => 5
  | .typeWrite => 33
  | .trackWrite => 36

/-- 10 §10.5: the modes in which a command is taken. -/
def Command.takenIn (c : Command) (m : Mode) : Bool :=
  match c with
  | .trackWrite | .typeWrite | .typeClear | .calStore | .calLoad | .calAutoload => decide (m = .service)
  | .lampSet => decide (m ≠ .onLine)
  | _ => true

/-- Check 1 of R170 with R185: the command that a record names, if its framing and its length are right. -/
def CommandRecord.command (r : CommandRecord) : Option Command :=
  match Command.ofCode r.code with
  | none => none
  | some c => if r.framed && decide (r.args.length = c.argLength) then some c else none

/-- The argument byte at an offset, as a number. -/
def CommandRecord.byteAt (r : CommandRecord) (i : Nat) : Nat := fieldAt r.args i 1

/-- 11 §11.3: the mode of a code. -/
def Mode.ofCode (n : Nat) : Option Mode :=
  match n with
  | 0 => some .service
  | 1 => some .onLine
  | 2 => some .standby
  | _ => none

/-- Check 3 of R170: what a page write in progress keeps from being taken. -/
def CommandRecord.keptByWrite (r : CommandRecord) (c : Command) : Bool :=
  match c with
  | .calStore | .calLoad | .calAutoload | .resetPart => true
  | .modeSet => decide (Mode.ofCode (r.byteAt 0) = some .onLine) || decide (Mode.ofCode (r.byteAt 0) = some .standby)
  | _ => false

/-- A byte read as a signed number in two's complement (R184). -/
def signedByte (n : Nat) : Int := (BitVec.ofNat 8 n).toInt

/-- 11 §11.3: the pair of a number and the head of a code. -/
def PairId.ofNumber (n : Nat) : Option PairId :=
  match n with
  | 1 => some .pair1
  | 2 => some .pair2
  | _ => none

def HeadId.ofCode (n : Nat) : Option HeadId :=
  match n with
  | 0 => some .outer
  | 1 => some .inner
  | _ => none

/-! ### The track record (02 §2.1, 11 §11.4) -/

/-- The offset and the width of each field in the 35-byte track record, by field number. -/
def trackField (n : Nat) : Nat × Nat :=
  match n with
  | 1 => (0, 1)   | 2 => (1, 2)   | 3 => (3, 2)   | 4 => (5, 3)   | 5 => (8, 3)
  | 6 => (11, 1)  | 7 => (12, 1)  | 8 => (13, 1)  | 9 => (14, 1)  | 10 => (15, 2)
  | 11 => (17, 2) | 12 => (19, 1) | 13 => (20, 1) | 14 => (21, 1) | 15 => (22, 2)
  | 16 => (24, 2) | 17 => (26, 3) | 18 => (29, 1) | 19 => (30, 1) | 20 => (31, 1)
  | 21 => (32, 1) | 22 => (33, 1) | 23 => (34, 1) | _ => (35, 0)

/-- The received value of a field, by field number, of the 35 bytes of a track record. -/
def rawField (rec : List Byte) (n : Nat) : Nat := fieldAt rec (trackField n).1 (trackField n).2

/-- R184: 0x00 HIGH, 0x01 LOW. -/
def polarityOf (n : Nat) : Polarity := if n = 0 then .high else .low

/-- The track record that 35 bytes carry. -/
def trackRecordOf (rec : List Byte) : TrackRecord :=
  { enabled := decide (rawField rec 1 = 1)
    spacing1 := rawField rec 2, spacing2 := rawField rec 3
    approach1 := rawField rec 4, approach2 := rawField rec 5
    outer1 := polarityOf (rawField rec 6), inner1 := polarityOf (rawField rec 7)
    outer2 := polarityOf (rawField rec 8), inner2 := polarityOf (rawField rec 9)
    qualifyUs := rawField rec 10, stuckMs := rawField rec 11
    occUse := decide (rawField rec 12 = 1), occPolarity := polarityOf (rawField rec 13)
    silenceS := rawField rec 14, pitchUm := rawField rec 15, windowHalfMm := rawField rec 16
    defaultPace := rawField rec 17, slots := rawField rec 18, trim := signedByte (rawField rec 19)
    lampPriority := rawField rec 20, lampMask := decide (rawField rec 21 = 1)
    recoveryCode := rawField rec 22, daylightUse := decide (rawField rec 23 = 1) }

/-- R21: a numeric field lies in its range, or is 0 in a record with enabled = no. -/
def TrackRecord.within (r : TrackRecord) (v lo hi : Nat) : Bool :=
  (decide (lo ≤ v) && decide (v ≤ hi)) || (!r.enabled && decide (v = 0))

/-- R21: the field of a number lies in the range of 02 §2.1; yes-or-no and polarity fields always do once decoded. -/
def TrackRecord.fieldOk (r : TrackRecord) (n : Nat) : Bool :=
  match n with
  | 2 => r.within r.spacing1 500 3000
  | 3 => r.within r.spacing2 500 3000
  | 4 => r.within r.approach1 40000 200000
  | 5 => r.within r.approach2 40000 200000
  | 10 => r.within r.qualifyUs 20 2000
  | 11 => r.within r.stuckMs 5 500
  | 14 => r.within r.silenceS 2 60
  | 15 => r.within r.pitchUm 100 2000
  | 16 => r.within r.windowHalfMm 100 3000
  | 17 => r.within r.defaultPace 2304 184320
  | 18 => decide (r.slots ≤ 64)
  | 19 => decide (-64 ≤ r.trim) && decide (r.trim ≤ 63)
  | 20 => decide (r.lampPriority ≤ 7)
  | 22 => decide (r.recoveryCode ≤ 7)
  | _ => true

/-- R21: a yes-or-no or polarity field carries one of its two codes. -/
def codeFieldOk (rec : List Byte) (n : Nat) : Bool :=
  match n with
  | 1 | 6 | 7 | 8 | 9 | 12 | 13 | 21 | 23 => decide (rawField rec n ≤ 1)
  | _ => true

/-- The numbers of the 23 fields, in the order in which R21 checks them. -/
def fieldNumbers : List Nat := (List.range 23).map (· + 1)

/-- R21: the first field of 35 received bytes found out of range. -/
def firstBadField (rec : List Byte) : Option Nat :=
  fieldNumbers.find? (fun n => !((trackRecordOf rec).fieldOk n && codeFieldOk rec n))

/-- R21 read of a record already decoded (R29). -/
def TrackRecord.inRange (r : TrackRecord) : Bool := fieldNumbers.all r.fieldOk

/-- R29: the checks of R21 and R22 on four records as a set. -/
def recordsOk (q : Quad TrackRecord) : Bool := q.toList.all TrackRecord.inRange && decide (slotSum q ≤ 64)

/-! ### The vehicle type (02 §2.6, 11 §11.4) -/

/-- The fields that TYPE_WRITE carries after the index, and the places beyond the gaps and offsets counted. -/
structure TypeArgs where
  index       : Nat
  name        : List Byte
  axles       : Nat
  gaps        : List Nat
  spareGaps   : List Nat
  tolerance   : Nat
  couplingGap : Nat
  pantCount   : Nat
  offsets     : List Nat
  spareOffsets : List Nat
  deriving DecidableEq, Repr

/-- 11 §11.4: index, name code, n, seven gap fields, tolerance, coupling gap, count, two offset fields. -/
def typeArgsOf (args : List Byte) : TypeArgs :=
  let n := fieldAt args 9 1
  let gapFields := (List.range 7).map (fun i => fieldAt args (10 + 2 * i) 2)
  let count := fieldAt args 28 1
  let offsetFields := [fieldAt args 29 2, fieldAt args 31 2]
  { index := fieldAt args 0 1
    name := (args.drop 1).take 8
    axles := n
    gaps := gapFields.take (n - 1)
    spareGaps := gapFields.drop (n - 1)
    tolerance := fieldAt args 24 2
    couplingGap := fieldAt args 26 2
    pantCount := count
    offsets := offsetFields.take count
    spareOffsets := offsetFields.drop count }

/-- The smallest of a list of gaps (check 7 of R31); none for an empty list. -/
def smallest : List Nat → Option Nat
  | [] => none
  | a :: rest => some (rest.foldl min a)

/-- R31, with R184 for the places beyond the lists: the condition for acceptance of each check. -/
def TypeArgs.checkOk (t : TypeArgs) (n : Nat) : Bool :=
  match n with
  | 1 => decide (t.index ≤ 63)
  | 2 => t.name.all (fun b => decide (0x20 ≤ b.toNat) && decide (b.toNat ≤ 0x7E))
  | 3 => decide (2 ≤ t.axles) && decide (t.axles ≤ 8)
  | 4 => t.gaps.all (fun g => decide (1000 ≤ g) && decide (g ≤ 20000)) && t.spareGaps.all (· == 0)
  | 5 => decide (t.gaps.sum ≤ 24000)
  | 6 => decide (20 ≤ t.tolerance) && decide (t.tolerance ≤ 500)
  | 7 => ((smallest t.gaps).map (fun g => decide (2 * t.tolerance < g))).getD false
  | 8 => decide (1500 ≤ t.couplingGap) && decide (t.couplingGap ≤ 10000)
  | 9 => decide (t.pantCount ≤ 2)
  | 10 => t.offsets.all (fun f => decide (f ≤ t.gaps.sum)) && t.spareOffsets.all (· == 0)
  | 11 =>
    match t.offsets with
    | [a, b] => decide (a ≠ b)
    | _ => true
  | _ => true

/-- R31: the number of the first check that fails. -/
def TypeArgs.firstBad (t : TypeArgs) : Option Nat :=
  ((List.range 11).map (· + 1)).find? (fun n => !t.checkOk n)

/-- R32: the vehicle type, its span the sum of the gaps. -/
def TypeArgs.vehicleType (t : TypeArgs) : VehicleType :=
  { name := t.name, gaps := t.gaps, span := t.gaps.sum, tolerance := t.tolerance,
    couplingGap := t.couplingGap, pantographs := t.offsets }

end Sys2Proof.Machine
end

