-- ==== Sys2Proof/Machine/Retrieval.lean ====
section
/-! DEFINITION. Image retrieval (09): the fetch queue, the read engine, image data frames and FETCH_DONE. -/

namespace Sys2Proof.Machine

/-! ### The fetch queue -/

/-- The entry of the fetch queue with a tag; no two carry the same (R154). -/
def Part.fetchOf (p : Part) (t : Tag) : Option FetchEntry := p.fsc.fetches.find? (fun e => e.tag == t)

def Part.modFetch (p : Part) (t : Tag) (f : FetchEntry → FetchEntry) : Part :=
  p.setFsc { p.fsc with fetches := p.fsc.fetches.map (fun e => if e.tag == t then f e else e) }

def Part.removeFetch (p : Part) (t : Tag) : Part :=
  p.setFsc { p.fsc with fetches := p.fsc.fetches.filter (fun e => e.tag != t) }

/-- The fetch queue holds an entry that names a slot (R153, R167). -/
def Part.slotFetched (p : Part) (n : Nat) : Bool := p.fsc.fetches.any (fun e => e.slot == n)

/-! ### FETCH_DONE (R160, R161) -/

/-- R160: the FETCH_DONE of an entry. -/
def FetchEntry.makeDone (e : FetchEntry) : FetchDone :=
  { token := e.token, tag := e.tag, delivered := e.delivered, notDelivered := e.requested.getD 0 - e.delivered,
    lastLine := e.lastLine, frames := e.frames, cancelled := e.cancelled }

/-- R161: the entry becomes FINISHING, and its FETCH_DONE is placed in the control queue, at which the entry leaves,
or waits for a place. -/
def Part.finishFetch (p : Part) (e : FetchEntry) : Part :=
  let r : ControlRecord := { dest := e.source, body := .fetchDone e.makeDone }
  if p.freePlace then (p.pushControl r).removeFetch e.tag
  else (p.modFetch e.tag (fun x => { x with phase := .finishing, done := some e.makeDone })).placeOrWait r

/-! ### The read engine (R156 to R159) -/

/-- R156: a WAITING entry is eligible when its slot is HELD. -/
def Part.eligible (p : Part) (e : FetchEntry) : Bool :=
  decide (e.phase = .waiting) && ((p.slot e.slot).map (fun s => decide (s.state = .held))).getD false

/-- R157: the number of lines requested, for an image of m lines. -/
def FetchEntry.requestedOf (e : FetchEntry) (m : Nat) : Nat := if e.count = 0 then m - e.first else e.count

/-- R157: the first line past the range, for an image of m lines. -/
def FetchEntry.rangeEnd (e : FetchEntry) (m : Nat) : Nat := if e.count = 0 then m else min (e.first + e.count) m

/-- R157: a delivery starts with the frame of the header, frame 0. -/
def Part.startDelivery (p : Part) (e : FetchEntry) : Part :=
  let m := ((p.slot e.slot).map (fun s => s.lines.length)).getD 0
  (p.modFetch e.tag (fun x => { x with phase := .delivering, requested := some (e.requestedOf m) })).setFsc
    { (p.modFetch e.tag (fun x => { x with phase := .delivering, requested := some (e.requestedOf m) })).fsc with
      engine := some { tag := e.tag, slot := e.slot, number := 0, lines := [], next := e.first,
                       stop := e.rangeEnd m, kept := none } }

/-- R156: whenever the engine is idle and an entry is eligible, the first such entry's delivery starts. -/
def Part.kickEngine (p : Part) : Part :=
  match p.fsc.engine with
  | some _ => p
  | none =>
    match p.fsc.fetches.find? p.eligible with
    | none => p
    | some e => p.startDelivery e

/-- The number of line entries of a frame, and the slot line number of its last, if it has any (R159). -/
def ImageContent.lineCount : ImageContent → Nat
  | .header _ => 0
  | .lines ls => ls.length

def ImageContent.lastLine : ImageContent → Option Nat
  | .header _ => none
  | .lines ls => ls.getLast?.map Prod.fst

/-- R159: a complete frame is placed in the image data queue; after the last one the engine becomes idle. -/
def Part.placeFrame (p : Part) (f : ImageFrame) : Part :=
  let p := p.setMgr { p.mgr with images := p.mgr.images ++ [f] }
  let p := p.modFetch f.tag (fun e =>
    { e with
      frames := e.frames + 1
      delivered := e.delivered + f.content.lineCount
      lastLine := f.content.lastLine.or e.lastLine
      phase := if f.last then .sending else e.phase })
  if f.last then (p.setFsc { p.fsc with engine := none }).kickEngine
  else p.setFsc { p.fsc with engine := p.fsc.engine.map (fun g =>
    { g with number := g.number + 1, lines := [], kept := none }) }

/-- R159: a frame just completed is placed if the image data queue holds fewer than two, or is kept. -/
def Part.completeFrame (p : Part) (f : ImageFrame) : Part :=
  if p.mgr.images.length < 2 then p.placeFrame f
  else p.setFsc { p.fsc with engine := p.fsc.engine.map (fun g => { g with kept := some f }) }

/-- R158: the engine is ready for a turn: a delivery is in progress, no complete frame is kept, and the frame under
assembly needs a read. -/
def ReadEngine.ready (g : ReadEngine) : Bool :=
  decide (g.kept = none) && (decide (g.number = 0) || decide (g.next < g.stop))

/-- R159, R162: a frame is the last of its delivery. -/
def Part.lastFrame (p : Part) (g : ReadEngine) (next : Nat) : Bool :=
  decide (g.stop ≤ next) || ((p.fetchOf g.tag).map FetchEntry.cancelled).getD false

/-- The image data frame of a delivery with a content (R159). -/
def Part.imageFrame (p : Part) (g : ReadEngine) (next : Nat) (c : ImageContent) : ImageFrame :=
  { dest := ((p.fetchOf g.tag).map FetchEntry.source).getD 0
    token := ((p.fetchOf g.tag).map FetchEntry.token).getD 0
    tag := g.tag, number := g.number, last := p.lastFrame g next, content := c }

/-- R158: one read of the engine: the header, or the next line entry of the range. -/
def Part.engineRead (p : Part) (g : ReadEngine) : Part :=
  if g.number = 0 then
    p.completeFrame (p.imageFrame g g.next (.header ((p.slot g.slot).bind Slot.header)))
  else
    match ((p.slot g.slot).map Slot.lines).bind (fun ls => ls[g.next]?) with
    | none => p
    | some l =>
      let g' := { g with lines := g.lines ++ [(g.next, l)], next := g.next + 1 }
      let p' := p.setFsc { p.fsc with engine := some g' }
      if g'.lines.length = 4 ∨ g'.stop ≤ g'.next then
        p'.completeFrame (p'.imageFrame g' g'.next (.lines g'.lines))
      else p'

/-- A store turn of the read engine has come to its end (R140). -/
def Part.readTurnDue (p : Part) : Bool :=
  match p.fsc.turn with
  | some { member := .readEngine, left := 0 } => true
  | _ => false

/-- R164: a store turn of the read engine, once begun, completes: what it reads goes into the frame under assembly. -/
def Part.completeRead (p : Part) : Part :=
  match p.fsc.turn with
  | some { member := .readEngine, .. } =>
    let p := p.setFsc { p.fsc with turn := none }
    match p.fsc.engine with
    | none => p
    | some g => p.engineRead g
  | _ => p

/-- R158, R164: a store turn of the read engine completes when its 20 clock counts have run. -/
def Part.readTurn (p : Part) : Part := if p.readTurnDue then p.completeRead else p

/-- R159: a frame kept for the image data queue is placed when a place frees. -/
def Part.placeKept (p : Part) : Part :=
  match p.fsc.engine with
  | some g =>
    match g.kept with
    | some f => if p.mgr.images.length < 2 then p.placeFrame f else p
    | none => p
  | none => p

/-- R160: the last frame of a SENDING entry is taken for sending: its FETCH_DONE is made. -/
def Part.endDelivery (p : Part) (t : Tag) : Part :=
  match p.fetchOf t with
  | none => p
  | some e => p.finishFetch e

end Sys2Proof.Machine
end

