-- ==== Sys2Proof/Machine/Link.lean ====
section
/-! DEFINITION. The recorder link interface (10): frames accepted into the command intake, frames taken for sending,
and the running of the record at the head of the intake (R168 to R173). -/

namespace Sys2Proof.Machine

/-! ### Inbound (R168, R169) -/

/-- R169: a record accepted while the intake holds 4 is discarded and counted. -/
def Part.offerCommand (p : Part) (r : CommandRecord) : Part :=
  if p.mgr.intake.length < 4 then p.setMgr { p.mgr with intake := p.mgr.intake ++ [r] }
  else p.setMgr { p.mgr with intakeDrops := p.mgr.intakeDrops + 1 }

/-- The code of IDENT, the one command that a broadcast frame may carry (R168). -/
def identCode : Byte := 0x01

/-- R168: a frame that arrives whole is ignored, or accepted. While the port has no link no frame arrives. -/
def Part.acceptFrame (p : Part) (frame : List Byte) : Part :=
  if p.mgr.link = false ∨ frame.length < 14 ∨ headerField frame 12 2 ≠ frameType then p
  else if headerField frame 0 6 = broadcast.toNat then
    if frameByte frame 15 = identCode then p.offerCommand (commandRecord frame)
    else p.setMgr { p.mgr with ignored := p.mgr.ignored + 1 }
  else if headerField frame 0 6 = p.mgr.linkAddr.toNat then p.offerCommand (commandRecord frame)
  else p

/-! ### Running the record at the head of the intake (R169, R170) -/

/-- R169: the responder takes the record at the head of the intake, when the control queue has a free place that no
waiting record claims and the record is one of the command given (none: one that fails check 1 of R170). -/
def Part.takes (p : Part) (c : Option Command) : Option (CommandRecord × Part) :=
  match p.mgr.intake with
  | [] => none
  | r :: rest =>
    if p.freePlace ∧ r.command = c then some (r, p.setMgr { p.mgr with intake := rest }) else none

/-- R169: the command is run if the record at the head is one of it; else nothing is run. -/
def Part.runs (p : Part) (c : Option Command) (run : CommandRecord → Part → Part) : Part :=
  match p.takes c with
  | some (r, q) => run r q
  | none => p

/-- Checks 2 and 3 of R170: the status that refuses a command, if any. -/
def Part.refusal (p : Part) (c : Command) (r : CommandRecord) : Option Status :=
  if c.takenIn p.mode then if p.cal.write.isSome && r.keptByWrite c then some .busy else none
  else some .wrongMode

/-- R169, R170: a command is run: checks 2 and 3, then its own. -/
def Part.runsCommand (p : Part) (c : Command) (run : CommandRecord → Part → Part) : Part :=
  p.runs (some c) (fun r q =>
    match q.refusal c r with
    | some st => q.refuse r st
    | none => run r q)

/-! ### Outbound (R171, R173) -/

/-- R161, R171: the waiting record that was made first takes a place that has freed; the entry of a FETCH_DONE then
leaves the fetch queue. -/
def Part.placeWaiting (p : Part) : Part :=
  match p.mgr.waiting with
  | [] => p
  | w :: rest =>
    if p.mgr.control.length < 16 then
      let p := p.setMgr { p.mgr with control := p.mgr.control ++ [w], waiting := rest }
      match w.body with
      | .fetchDone d => p.removeFetch d.tag
      | _ => p
    else p

/-- A frame is on the wire for the clock counts of its bytes (R173). -/
def Part.startWire (p : Part) (f : Frame) : Part :=
  p.setMgr { p.mgr with wire := some { frame := f, left := wireCounts (f.bytes p.mgr.linkAddr).length } }

/-- R173: the wire is free and the port has link, and a queue holds something to send. -/
def Part.sendDue (p : Part) : Bool :=
  p.mgr.link && p.mgr.wire.isNone && !(p.mgr.control.isEmpty && p.mgr.images.isEmpty)

/-- R159, R160, R171, R173: the head of the control queue is taken for sending, or else the head of the image data
queue; the place that frees is filled by a waiting record or by the frame kept by the read engine. -/
def Part.takeForSending (p : Part) : Part :=
  if p.sendDue then
    match p.mgr.control with
    | r :: rest => ((p.setMgr { p.mgr with control := rest }).startWire (.control r)).placeWaiting
    | [] =>
      match p.mgr.images with
      | f :: rest =>
        let p := (p.setMgr { p.mgr with images := rest }).startWire (.image f)
        let p := if f.last then p.endDelivery f.tag else p
        p.placeKept
      | [] => p
  else p

/-- The frame on the wire has occupied it for its time (R173). -/
def Part.wireDue (p : Part) : Bool := (p.mgr.wire.map (fun w => decide (w.left = 0))).getD false

/-- R173: the wire becomes free. -/
def Part.sendingEnd (p : Part) : Part := if p.wireDue then p.setMgr { p.mgr with wire := none } else p

/-- R173: the port loses link; a frame on the wire is lost with it. -/
def Part.linkLost (p : Part) : Part := p.setMgr { p.mgr with link := false, wire := none }

/-- R173: the port finds link. -/
def Part.linkFound (p : Part) : Part := p.setMgr { p.mgr with link := true }

end Sys2Proof.Machine
end

