-- ==== Sys2Proof/Machine/Timing.lean ====
section
/-! DEFINITION. The capture timing arithmetic (05): from transit time to pace, window, line period and line count. -/

namespace Sys2Proof.Machine

/-- The least and the greatest pace (R80). -/
def minPace : Nat := 2304
def maxPace : Nat := 184320

/-- R80, stage 1: the axle pace, and whether it is met at the FAST and at the SLOW limit. -/
structure AxlePace where
  pace : Nat
  fast : Bool
  slow : Bool
  deriving DecidableEq, Repr

/-- R80: round(Δ × 256 / s), clamped at 2,304 with FAST and at 184,320 with SLOW. -/
def axlePace (transit spacing : Nat) : AxlePace :=
  let a := roundDiv (transit * 256) spacing
  if a ≤ minPace then { pace := minPace, fast := true, slow := false }
  else if maxPace ≤ a then { pace := maxPace, fast := false, slow := true }
  else { pace := a, fast := false, slow := false }

/-- R47, stage 2: the first pace update sets P; each later one adds the quarter of a − P truncated toward zero. -/
def filterPace (p : Option Nat) (a : Nat) : Nat :=
  match p with
  | none => a
  | some p => ((p : Int) + Int.tdiv ((a : Int) - (p : Int)) 4).toNat

/-- The time to cover a distance in mm at a pace, rounded (R59, R67, R82, R83). -/
def travelTime (distance pace : Nat) : Nat := roundDiv (distance * pace) 256

/-- R82, stage 3: t_ref + round(D × P / 256) + 2 × trim. -/
def centreTime (s : Sighting) (pace : Nat) (trim : Int) : Time :=
  s.reference + usTime (travelTime s.distance pace) + BitVec.ofInt 48 (2 * trim)

/-- R85, stage 5: the line period, with STRETCHED and COMPRESSED. -/
structure LinePeriod where
  count      : Nat
  stretched  : Bool
  compressed : Bool
  deriving DecidableEq, Repr

/-- R85: round(g × P / 2,560), clamped to 500 with COMPRESSED and to 65,536 with STRETCHED. -/
def periodFor (pitch pace : Nat) : LinePeriod :=
  let c := roundDiv (pitch * pace) 2560
  if c < 500 then { count := 500, stretched := false, compressed := true }
  else if 65536 < c then { count := 65536, stretched := true, compressed := false }
  else { count := c, stretched := false, compressed := false }

/-- R87, stage 6: ceil((end − start) × 100 / c). -/
def countLines (start stop : Time) (c : Nat) : Nat := ceilDiv ((stop - start).toNat * 100) c

/-- R90, stage 7: start minus 200 µs. -/
def lampRequestTime (start : Time) : Time := start - usTime 200

/-- The result of one computation (R81). -/
structure Timing where
  centre      : Time
  start       : Time
  stop        : Time
  lampRequest : Time
  period      : LinePeriod
  lineCount   : Nat
  narrowed    : Bool
  deriving DecidableEq, Repr

/-- The one of two times that lies first (R79). -/
def firstOf (a b : Time) : Time := if liesBefore b a then b else a

/-- The one of two times that lies last (R79). -/
def lastOf (a b : Time) : Time := if liesAfter b a then b else a

/-- R84: the union of the windows that R82 and R83 give each sighting. -/
def unionWindow (sightings : List Sighting) (pace : Nat) (trim : Int) (w : Time) : Time × Time :=
  match sightings with
  | [] => (0, 0)
  | s :: rest =>
    let t := centreTime s pace trim
    rest.foldl (fun acc x =>
      let u := centreTime x pace trim
      (firstOf acc.1 (u - w), lastOf acc.2 (u + w))) (t - w, t + w)

/-- R81 to R88 and R90: stages 3 to 7 for a list of sightings, with narrowing. -/
def computeTiming (r : TrackRecord) (pace : Nat) (sightings : List Sighting) : Timing :=
  let w := usTime (travelTime r.windowHalfMm pace)
  let u := unionWindow sightings pace r.trim w
  let centre := u.1 + usTime ((u.2 - u.1).toNat / 2)
  let period := periodFor r.pitchUm pace
  let n := countLines u.1 u.2 period.count
  if n ≤ 4096 then
    { centre := centre, start := u.1, stop := u.2, lampRequest := lampRequestTime u.1, period := period,
      lineCount := n, narrowed := false }
  else
    let h := usTime (4096 * period.count / 200)
    { centre := centre, start := centre - h, stop := centre + h, lampRequest := lampRequestTime (centre - h),
      period := period, lineCount := countLines (centre - h) (centre + h) period.count, narrowed := true }

/-- R89: a start moved later after the computation; the line count and the lamp request time are formed again. -/
def Job.moveStart (j : Job) (t : Time) : Job :=
  { j with start := t, lineCount := countLines t j.stop j.linePeriod, lampRequest := lampRequestTime t }

/-- R96, R102: the start moved to the present, with LATE. -/
def Job.openLate (j : Job) (now : Time) : Job :=
  { j.moveStart now with flags := { j.flags with late := true } }

end Sys2Proof.Machine
end

