-- ==== Sys2Proof/Machine/Frontend.lean ====
section
/-! DEFINITION. The wheel sensor front end (01): heads, pairing, axle event queues and occupancy inputs of one track. -/

namespace Sys2Proof.Machine

/-! ### Heads (01 §1.1) -/

/-- The head's input is at the level that the polarity it took names as active. -/
def Head.active (h : Head) : Bool := h.polarity.names h.high

/-- R1: a head begins watching: it takes its settings from the record and looks at its input once. -/
def Head.watch (h : Head) (polarity : Polarity) (qualifyUs stuckMs : Nat) (now : Time) : Head :=
  { h with polarity := polarity, qualifyUs := qualifyUs, stuckMs := stuckMs,
           state := if polarity.names h.high then .held now else .idle }

/-- R5: what a record write does to a head: FAULT heads of an enabled track stay, every other watches again; the
heads of a disabled track enter IDLE. -/
def Head.onRecord (h : Head) (r : TrackRecord) (i : PairId) (hd : HeadId) (now : Time) : Head :=
  if r.enabled then
    if h.state = .fault then h else h.watch (r.headPolarity i hd) r.qualifyUs r.stuckMs now
  else { h with state := .idle }

/-- R19: what RESET_PART does to a head: a head of an enabled track watches again, FAULT included. -/
def Head.onReset (h : Head) (r : TrackRecord) (i : PairId) (hd : HeadId) (now : Time) : Head :=
  if r.enabled then { h.watch (r.headPolarity i hd) r.qualifyUs r.stuckMs now with pulses := 0 }
  else { h with state := .idle, pulses := 0 }

/-- R2: the instant of the first sample of a candidate. -/
def Head.firstSampleAt (h : Head) (since : Time) : Time := since + usTime (h.qualifyUs / 2)

/-- R2: the instant of the second sample of a candidate. -/
def Head.secondSampleAt (h : Head) (since : Time) : Time := since + usTime h.qualifyUs

/-- R3: the instant of the stuck limit of a hold. -/
def Head.stuckAt (h : Head) (since : Time) : Time := since + usTime (h.stuckMs * 1000)

/-! ### Axle events and their queue (01 §1.3, §1.4) -/

/-- R7: the single-head event of a pulse. -/
def singleHeadEvent (i : PairId) (w : WaitingPulse) : AxleEvent :=
  { pair := i, time := w.stamp, position := w.head, direction := .unknown, transit := none, singleHead := true }

/-- R6: the paired event of a waiting pulse and a new pulse of the other head. -/
def pairedEvent (i : PairId) (w : WaitingPulse) (new : HeadId) (stamp : Time) : AxleEvent :=
  { pair := i
    time := match new with
      | .inner => stamp
      | .outer => w.stamp
    position := .inner
    direction := match new with
      | .inner => .inward
      | .outer => .outward
    transit := some (stamp - w.stamp).toNat
    singleHead := false }

/-- R10, R11, R13: an event is handed to its track's queue. -/
def FrontEnd.offer (f : FrontEnd) (m : Mode) (e : AxleEvent) : FrontEnd :=
  if m = .service then f
  else if f.queue.length < 16 then { f with queue := f.queue ++ [e] }
  else { f with discarded := f.discarded + 1, loss := true }

/-- R7: a single-head event is formed and counted. -/
def FrontEnd.formSingle (f : FrontEnd) (m : Mode) (i : PairId) (w : WaitingPulse) : FrontEnd :=
  (f.setPair i { f.pair i with singles := (f.pair i).singles + 1 }).offer m (singleHeadEvent i w)

/-- The waiting pulse of a pair is replaced. -/
def FrontEnd.setWaiting (f : FrontEnd) (i : PairId) (w : Option WaitingPulse) : FrontEnd :=
  f.setPair i { f.pair i with waiting := w }

/-- The transit ceiling of a pair in µs (R6). -/
def transitCeiling (r : TrackRecord) (i : PairId) : Nat := r.spacing i * 720

/-- R6, R8: a qualified pulse reaches the pairing logic of its pair. -/
def FrontEnd.pulse (f : FrontEnd) (m : Mode) (r : TrackRecord) (i : PairId) (h : HeadId) (stamp : Time) : FrontEnd :=
  let new : WaitingPulse := { head := h, stamp := stamp }
  if ((f.pair i).head h.other).state = .fault then f.formSingle m i new
  else
    match (f.pair i).waiting with
    | none => f.setWaiting i (some new)
    | some w =>
      if w.head = h then (f.formSingle m i w).setWaiting i (some new)
      else if (stamp - w.stamp).toNat ≤ transitCeiling r i then
        (f.setWaiting i none).offer m (pairedEvent i w h stamp)
      else (f.formSingle m i w).setWaiting i (some new)

/-- R8: the waiting pulse of a pair, if there is one, becomes a single-head event. -/
def FrontEnd.flushWaiting (f : FrontEnd) (m : Mode) (i : PairId) : FrontEnd :=
  match (f.pair i).waiting with
  | none => f
  | some w => (f.setWaiting i none).formSingle m i w

/-- R7: the instant at which a waiting pulse expires: its stamp, the ceiling and q. -/
def ceilingAt (r : TrackRecord) (i : PairId) (w : WaitingPulse) : Time :=
  w.stamp + usTime (transitCeiling r i + r.qualifyUs)

/-- R13: the queue is emptied and its latch cleared, nothing counted. -/
def FrontEnd.emptyQueue (f : FrontEnd) : FrontEnd := { f with queue := [], loss := false }

/-! ### Occupancy (01 §1.6) -/

/-- Occupancy watching runs for an enabled track that uses its input (R14). -/
def TrackRecord.usesOccupancy (r : TrackRecord) : Bool := r.enabled && r.occUse

/-- R15: watching begins, the settled state taken from the input; or the settled state is CLEAR. -/
def Occupancy.restart (o : Occupancy) (r : TrackRecord) : Occupancy :=
  { o with occupied := r.usesOccupancy && r.occPolarity.names o.high, timer := none }

/-- R14: the input changes level. -/
def Occupancy.change (o : Occupancy) (r : TrackRecord) (now : Time) : Occupancy :=
  let high := !o.high
  if r.usesOccupancy then
    if r.occPolarity.names high = o.occupied then { o with high := high, timer := none }
    else { o with high := high, timer := some (now + usTime 50000) }
  else { o with high := high }

/-- R14: the settling timer expires. -/
def Occupancy.settle (o : Occupancy) (r : TrackRecord) : Occupancy :=
  { o with occupied := r.occPolarity.names o.high, timer := none }

/-! ### Record writes and resets -/

def SensorPair.onRecord (q : SensorPair) (r : TrackRecord) (i : PairId) (now : Time) : SensorPair :=
  { q with outer := q.outer.onRecord r i .outer now, inner := q.inner.onRecord r i .inner now, waiting := none }

def SensorPair.onReset (q : SensorPair) (r : TrackRecord) (i : PairId) (now : Time) : SensorPair :=
  { outer := q.outer.onReset r i .outer now, inner := q.inner.onReset r i .inner now, waiting := none, singles := 0 }

/-- R5: a track record is applied to the front end of its track. -/
def FrontEnd.onRecord (f : FrontEnd) (r : TrackRecord) (now : Time) : FrontEnd :=
  { f with pair1 := f.pair1.onRecord r .pair1 now, pair2 := f.pair2.onRecord r .pair2 now,
           occupancy := f.occupancy.restart r }

/-- R19: RESET_PART at the front end of a track. -/
def FrontEnd.onReset (f : FrontEnd) (r : TrackRecord) (now : Time) : FrontEnd :=
  { pair1 := f.pair1.onReset r .pair1 now, pair2 := f.pair2.onReset r .pair2 now, queue := [], loss := false,
    discarded := 0, occupancy := f.occupancy.restart r }

/-- R15: the record takes the track out of use of its occupancy input while its settled state is OCCUPIED. -/
def leavesOccupied (f : FrontEnd) (r : TrackRecord) : Bool := !r.usesOccupancy && f.occupancy.occupied

/-! ### What is due -/

/-- The first sample of a head's candidate is due (R2). -/
def Part.firstSampleDue (p : Part) (k : Track) (i : PairId) (h : HeadId) : Bool :=
  match (p.head k i h).state with
  | .candidate t false => reached p.now ((p.head k i h).firstSampleAt t)
  | _ => false

/-- The second sample of a head's candidate is due (R2). -/
def Part.secondSampleDue (p : Part) (k : Track) (i : PairId) (h : HeadId) : Bool :=
  match (p.head k i h).state with
  | .candidate t true => reached p.now ((p.head k i h).secondSampleAt t)
  | _ => false

/-- The stuck limit of a head is due (R3). -/
def Part.stuckDue (p : Part) (k : Track) (i : PairId) (h : HeadId) : Bool :=
  match (p.head k i h).state with
  | .held t => reached p.now ((p.head k i h).stuckAt t)
  | _ => false

/-- The expiry of a pair's waiting pulse is due (R7). -/
def Part.ceilingDue (p : Part) (k : Track) (i : PairId) : Bool :=
  match ((p.front.get k).pair i).waiting with
  | some w => reached p.now (ceilingAt (p.record k) i w)
  | none => false

/-- The settling timer of a track is due (R14). -/
def Part.settleDue (p : Part) (k : Track) : Bool :=
  match (p.front.get k).occupancy.timer with
  | some t => reached p.now t
  | none => false

/-! ### The rows of the heads and pairs -/

/-- R2: the input of a head turns active; a watched head in IDLE starts a candidate. -/
def Part.headInputActive (p : Part) (k : Track) (i : PairId) (h : HeadId) : Part :=
  let x := p.head k i h
  let pol := (p.record k).headPolarity i h
  if pol.names x.high then p
  else
    let x' := { x with high := pol.names true }
    if (p.record k).enabled && decide (x.state = .idle) then
      p.setHead k i h { x' with state := .candidate p.now false }
    else p.setHead k i h x'

/-- R3: the input of a head turns inactive; a head in HELD returns to IDLE. -/
def Part.headInputInactive (p : Part) (k : Track) (i : PairId) (h : HeadId) : Part :=
  let x := p.head k i h
  let pol := (p.record k).headPolarity i h
  if pol.names x.high then
    let x' := { x with high := !pol.names true }
    match x.state with
    | .held _ => p.setHead k i h { x' with state := .idle }
    | _ => p.setHead k i h x'
  else p

/-- R2: the first sample of a candidate. -/
def Part.firstSample (p : Part) (k : Track) (i : PairId) (h : HeadId) : Part :=
  let x := p.head k i h
  match x.state with
  | .candidate t false =>
    if reached p.now (x.firstSampleAt t) then
      p.setHead k i h { x with state := if x.active then .candidate t true else .idle }
    else p
  | _ => p

/-- R2: the second sample of a candidate: an active input makes it a qualified pulse, counted and paired. -/
def Part.secondSample (p : Part) (k : Track) (i : PairId) (h : HeadId) : Part :=
  let x := p.head k i h
  match x.state with
  | .candidate t true =>
    if reached p.now (x.secondSampleAt t) then
      if x.active then
        let p' := p.setHead k i h { x with state := .held t, pulses := x.pulses + 1 }
        p'.setFront k ((p'.front.get k).pulse p.mode (p.record k) i h t)
      else p.setHead k i h { x with state := .idle }
    else p
  | _ => p

/-- R3, R8: a head still HELD at its stuck limit enters FAULT, makes a notice, and its pair's waiting pulse becomes
a single-head event. -/
def Part.stuckLimit (p : Part) (k : Track) (i : PairId) (h : HeadId) : Part :=
  if p.stuckDue k i h then
    let p' := p.setHead k i h { p.head k i h with state := .fault }
    (p'.setFront k ((p'.front.get k).flushWaiting p.mode i)).notice (.headStuck k i h p.now)
  else p

/-- R7: a waiting pulse that has not been paired becomes a single-head event. -/
def Part.ceilingExpiry (p : Part) (k : Track) (i : PairId) : Part :=
  if p.ceilingDue k i then p.setFront k ((p.front.get k).flushWaiting p.mode i) else p

end Sys2Proof.Machine
end

