-- ==== Sys2Proof/Machine/Lamp.lean ====
section
/-! DEFINITION. The lamp arbiter (07): lamp entries, requests, grants, service and recovery of the one lamp bank. -/

namespace Sys2Proof.Machine

/-! ### The arbiter's own records -/

/-- The lamp entry of a job. -/
def Arbiter.entry (a : Arbiter) (t : Tag) : Option LampEntry := a.entries.find? (fun e => e.tag == t)

def Arbiter.modEntry (a : Arbiter) (t : Tag) (f : LampEntry → LampEntry) : Arbiter :=
  { a with entries := a.entries.map (fun e => if e.tag == t then f e else e) }

def Arbiter.removeEntry (a : Arbiter) (t : Tag) : Arbiter :=
  { a with entries := a.entries.filter (fun e => e.tag != t) }

def Arbiter.setPhase (a : Arbiter) (t : Tag) (ph : LampPhase) : Arbiter :=
  a.modEntry t (fun e => { e with phase := ph })

/-- R118: the level of the lamp-drive output of a track. -/
def Arbiter.lampOutput (a : Arbiter) (k : Track) : Bool :=
  match a.bank with
  | .inService _ k' _ => decide (k' = k)
  | _ => false

/-- R121: the first deferred entry of a track joins the pending set when the track has no request there. -/
def Arbiter.promote (a : Arbiter) (k : Track) : Arbiter :=
  match a.pendingSet.get k, a.deferral.get k with
  | none, t :: rest =>
    { a.setPhase t .requested with pendingSet := a.pendingSet.set k (some t), deferral := a.deferral.set k rest }
  | _, _ => a

/-- R121: a request joins the pending set, or is deferred behind its track's request. -/
def Arbiter.join (a : Arbiter) (k : Track) (t : Tag) : Arbiter :=
  match a.pendingSet.get k with
  | none => { a.setPhase t .requested with pendingSet := a.pendingSet.set k (some t) }
  | some _ => { a.setPhase t .deferred with deferral := a.deferral.set k (a.deferral.get k ++ [t]) }

/-- R121, R125: a request leaves the pending set or the deferral list of its track. -/
def Arbiter.withdraw (a : Arbiter) (k : Track) (t : Tag) : Arbiter :=
  if a.pendingSet.get k = some t then { a with pendingSet := a.pendingSet.set k none }.promote k
  else { a with deferral := a.deferral.set k ((a.deferral.get k).filter (· != t)) }

/-- R122: whether the request of entry `e` goes before that of `b`: lower priority number, then earlier start. A tie
leaves the request of the lower track number, which is met first. -/
def LampEntry.goesBefore (r : Quad TrackRecord) (e b : LampEntry) : Bool :=
  let pe := (r.get e.track).lampPriority
  let pb := (r.get b.track).lampPriority
  decide (pe < pb) || (decide (pe = pb) && liesBefore e.start b.start)

/-- The lamp entries of the requests in the pending set, in track order. -/
def Arbiter.requests (a : Arbiter) : List LampEntry :=
  Track.all.filterMap (fun k => (a.pendingSet.get k).bind a.entry)

/-- R122: the winner among the requests of the pending set. -/
def Arbiter.winner (a : Arbiter) (r : Quad TrackRecord) : Option LampEntry :=
  match a.requests with
  | [] => none
  | e :: rest => some (rest.foldl (fun b x => if x.goesBefore r b then x else b) e)

/-- R126: a change of mode out of ON_LINE clears the pending set and the deferral lists. -/
def Arbiter.clear (a : Arbiter) : Arbiter :=
  { a with
    entries := a.entries.map (fun e =>
      if e.phase = .requested ∨ e.phase = .deferred then { e with phase := .cleared } else e)
    pendingSet := .all none
    deferral := .all [] }

/-! ### Grants and service -/

/-- The lamp status of a job is written by the arbiter alone (07 §7.1). -/
def Part.setLamp (p : Part) (t : Tag) (st : LampStatus) : Part := p.modJob t (fun j => { j with lamp := st })

/-- R122: a grant is made whenever the bank is IDLE, the mode ON_LINE and the pending set holds a request. -/
def Part.grant (p : Part) : Part :=
  match p.lar.bank, p.mode, p.lar.winner p.records with
  | .idle, .onLine, some e =>
    let a := { p.lar.withdraw e.track e.tag with bank := .inService e.tag e.track p.now }
    (p.setLar (a.setPhase e.tag .serving)).setLamp e.tag (if atOrBefore p.now e.start then .lit else .partlyLit)
  | _, _, _ => p

/-- 02 §2.1: the recovery time of a recovery code, in ms. -/
def recoveryMs (code : Nat) : Nat :=
  match code with
  | 0 => 0
  | 1 => 1
  | 2 => 2
  | 3 => 3
  | 4 => 5
  | 5 => 7
  | 6 => 9
  | _ => 15

/-- R123, R124: the bank rests for the recovery time of the track just served; with a time of 0 it is IDLE again in
the same instant. -/
def Part.restedBank (p : Part) (k : Track) : Bank :=
  let ms := recoveryMs (p.record k).recoveryCode
  if ms = 0 then .idle else .recovery k (p.now + usTime (ms * 1000))

/-- R123, R124: service ends; the entry is removed, the output inactive, the bank rests, and a bank that is IDLE
again at once is granted to a waiting request. Where one step goes on to end the job of that request too (a cancel
request, a re-timing), R124 and R125 let the grant or the withdrawal be first; that the grant is first is the model's
choice (DESIGN CHOICE, log 19). -/
def Part.endService (p : Part) (k : Track) (t : Tag) : Part :=
  (p.setLar { p.lar.removeEntry t with bank := p.restedBank k }).grant

/-- R118, R123, R125: the arbiter is told of a job's window end. -/
def Part.lampWindowEnd (p : Part) (t : Tag) : Part :=
  match p.lar.entry t with
  | none => p
  | some e =>
    match e.phase with
    | .serving => p.endService e.track t
    | .awaiting => p.setLar (p.lar.removeEntry t)
    | .cleared => (p.setLar (p.lar.removeEntry t)).setLamp t .unlit
    | .requested | .deferred => ((p.setLar ((p.lar.withdraw e.track t).removeEntry t)).setLamp t .unlit).grant

/-- R123, R125: the arbiter is told that a job has ended without an image; its lamp status is kept. -/
def Part.lampJobEnd (p : Part) (t : Tag) : Part :=
  match p.lar.entry t with
  | none => p
  | some e =>
    match e.phase with
    | .serving => p.endService e.track t
    | .awaiting | .cleared => p.setLar (p.lar.removeEntry t)
    | .requested | .deferred => (p.setLar ((p.lar.withdraw e.track t).removeEntry t)).grant

/-! ### Request times -/

/-- R120: a request time is reached; the job is decided MASKED or DAYLIGHT, or it requests the bank. -/
def Part.decideRequest (p : Part) (t : Tag) : Part :=
  match p.lar.entry t with
  | none => p
  | some e =>
    let r := p.record e.track
    if r.lampMask then (p.setLar (p.lar.removeEntry t)).setLamp t .masked
    else if r.daylightUse && p.lar.daylight then (p.setLar (p.lar.removeEntry t)).setLamp t .daylight
    else ((p.setLar (p.lar.join e.track t)).setLamp t .pending).grant

/-- The request time of a job's AWAITING entry is due (R120). -/
def Part.requestDue (p : Part) (t : Tag) : Bool :=
  match p.lar.entry t with
  | some e => decide (e.phase = .awaiting) && reached p.now e.request
  | none => false

/-- R120: the decision is taken when it is due. -/
def Part.requestTime (p : Part) (t : Tag) : Part := if p.requestDue t then p.decideRequest t else p

/-- R118: the lamp entry of a job that enters the schedule; a request time already past is reached at once (R120). -/
def Part.enterLamp (p : Part) (j : Job) : Part :=
  (p.setLar { p.lar with
    entries := p.lar.entries ++
      [{ tag := j.tag, track := j.track, start := j.start, stop := j.stop, request := j.lampRequest,
         phase := .awaiting }] }).requestTime j.tag

/-- R119: the arbiter is given new times for a job that is still WAITING. -/
def Part.giveTimes (p : Part) (j : Job) : Part :=
  match p.lar.entry j.tag with
  | none => p
  | some e =>
    if e.start = j.start ∧ e.stop = j.stop ∧ e.request = j.lampRequest then p
    else
      (p.setLar (p.lar.modEntry j.tag
        (fun e => { e with start := j.start, stop := j.stop, request := j.lampRequest }))).requestTime j.tag

/-! ### Recovery, reset -/

/-- The recovery of the bank has run (R124). -/
def Part.recoveryDue (p : Part) : Bool :=
  match p.lar.bank with
  | .recovery _ t => reached p.now t
  | _ => false

/-- R124: the bank returns to IDLE, and in ON_LINE a waiting request is granted. -/
def Part.recoveryEnd (p : Part) : Part :=
  if p.recoveryDue then (p.setLar { p.lar with bank := .idle }).grant else p

/-- R128: RESET_PART at the arbiter. -/
def Part.lampReset (p : Part) : Part :=
  p.setLar { p.lar with
    entries := [], pendingSet := .all none, deferral := .all []
    bank := match p.lar.bank with
      | .inService _ k _ => p.restedBank k
      | b => b }

end Sys2Proof.Machine
end

