-- ==== Sys2Proof/Machine/Camera.lean ====
section
/-! DEFINITION. The camera ports (08): link state, triggers, line packets, FIFO, store writes and drain ends. -/

namespace Sys2Proof.Machine

/-- The job that a port serves. -/
def Part.portJob (p : Part) (k : Track) : Option Job := ((p.ports.get k).job).bind (fun pj => p.job pj.tag)

/-- A change made to the job that a port serves. -/
def Part.modPortJob (p : Part) (k : Track) (f : Job → Job) : Part :=
  match (p.ports.get k).job with
  | some pj => p.modJob pj.tag f
  | none => p

/-! ### Link state (R130) -/

/-- R130: the port loses sync while UP. -/
def Part.syncLost (p : Part) (k : Track) : Part :=
  let c := p.ports.get k
  if c.up then
    let p' := p.setPort k { c with up := false, losses := c.losses + 1 }
    if (p.record k).enabled then p'.notice (.linkDown k p.now) else p'
  else p

/-- R130: the port finds sync while DOWN. -/
def Part.syncFound (p : Part) (k : Track) : Part := p.setPort k { p.ports.get k with up := true }

/-! ### Store writes (R141) -/

/-- R141: a line is appended at the end of the job's slot and counted received; a marked one flags the job. -/
def Part.writeLine (p : Part) (k : Track) (l : Line) : Part :=
  match (p.ports.get k).job with
  | none => p
  | some pj =>
    let p := match p.slot pj.slot with
      | some s => p.setSlot pj.slot { s with lines := s.lines ++ [l] }
      | none => p
    p.modJob pj.tag (fun j =>
      { j with received := j.received + 1, flags := { j.flags with badCheck := j.flags.badCheck || l.badCheck } })

/-- R143: every line still in the FIFO is written, in order; the FIFO is empty and its latch clear (R139). -/
def Part.flushFifo (p : Part) (k : Track) : Part :=
  let q := (p.ports.get k).fifo.foldl (fun q l => q.writeLine k l) p
  q.setPort k { q.ports.get k with fifo := [], overrun := false }

/-! ### Drain ends (R107 to R109, R142 to R145) -/

/-- R145: the image header of a job. -/
def Job.header (j : Job) (entries : Nat) (kind : DrainEnd) (now : Time) : ImageHeader :=
  { tag := j.tag, track := j.track, passage := j.passage, sightings := j.sightings, pace := j.pace,
    centre := j.centre, start := j.start, stop := j.stop, lampRequest := j.lampRequest,
    linePeriod := j.linePeriod, lineCount := j.lineCount, triggered := j.triggered, received := j.received,
    lost := j.lost, entries := entries, lamp := j.lamp, flags := j.flags, drainEnd := kind, drainTime := now }

/-- R144: the fence that a drain end leaves, for `k` lines then added to lost. -/
def fenceAfter (expected : Option Word16) (k : Nat) : Option Fence :=
  match expected with
  | some e => if k = 0 then none else some { first := e, length := k }
  | none => none

/-- R108, R142 to R145: the drain of a port's job ends: header, HELD slot, IMAGE_READY; the job leaves the schedule,
the port is IDLE with the fence given, and an entry that waits for the slot may start its delivery (R152, R156). -/
def Part.finishDrain (p : Part) (k : Track) (kind : DrainEnd) (added : Nat) : Part :=
  match (p.ports.get k).job with
  | none => p
  | some pj =>
    match p.job pj.tag with
    | none => p
    | some j =>
      let entries := ((p.slot pj.slot).map (fun s => s.lines.length)).getD 0
      let c := p.ports.get k
      let p := p.setPort k { c with activity := .idle, job := none, generator := none,
                                    fence := fenceAfter c.expected added }
      let p := match p.slot pj.slot with
        | some s => p.setSlot pj.slot { s with state := .held, header := some (j.header entries kind p.now) }
        | none => p
      ((p.removeJob pj.tag).notice (.imageReady j pj.slot entries)).kickEngine

/-- R142: a DRAINING port whose job's received and lost counts add up to its triggered count ends its drain. -/
def Part.checkDrain (p : Part) (k : Track) : Part :=
  match (p.ports.get k).activity, p.portJob k with
  | .draining, some j => if j.received + j.lost = j.triggered then p.finishDrain k .complete 0 else p
  | _, _ => p

/-- R139, R141, R142: a store turn of a port completes: the line at the head of the FIFO is written, the latch clears
when the FIFO becomes empty, and a drain whose last line it accounts for ends. -/
def Part.finishTurn (p : Part) (k : Track) : Part :=
  let p := p.setFsc { p.fsc with turn := none }
  match (p.ports.get k).fifo with
  | [] => p
  | l :: rest =>
    let c := p.ports.get k
    let p := p.setPort k { c with fifo := rest, overrun := c.overrun && !rest.isEmpty }
    (p.writeLine k l).checkDrain k

/-- R141: a store turn that has begun for the port completes before a drain end takes effect. -/
def Part.completeTurn (p : Part) (k : Track) : Part :=
  match p.fsc.turn with
  | some u => if u.member = .port k then p.finishTurn k else p
  | none => p

/-- R143: the FIFO is flushed, the triggered lines then neither received nor lost are added to the lost count, and the
drain ends. -/
def Part.flushDrain (p : Part) (k : Track) (kind : DrainEnd) : Part :=
  let p := p.flushFifo k
  match p.portJob k with
  | none => p
  | some j =>
    let left := j.triggered - (j.received + j.lost)
    (p.modPortJob k (fun x => { x with lost := x.lost + left })).finishDrain k kind left

/-- R107, R109, R141 to R143: a drain reaches its deadline or is cut. A store turn begun for the port completes first;
where its line is the last outstanding, the drain is then complete, and nothing is left to end. -/
def Part.forceDrain (p : Part) (k : Track) (kind : DrainEnd) : Part :=
  let p := p.completeTurn k
  if (p.portJob k).isSome then p.flushDrain k kind else p

/-- The drain deadline of a job is due (R107). -/
def Part.deadlineDue (p : Part) (t : Tag) : Bool :=
  match p.job t with
  | some j => decide (j.state = .draining) && ((j.drainDeadline.map (fun d => reached p.now d)).getD false)
  | none => false

/-- R107: a DRAINING job reaches its drain deadline. -/
def Part.drainDeadline (p : Part) (t : Tag) : Part :=
  match p.job t with
  | some j => if p.deadlineDue t then p.forceDrain j.track .deadline else p
  | none => p

/-! ### Triggers (R132, R133) -/

/-- R132: the port is started with a job, its slot and its line period. The first trigger is due at once; where the
window opens part-way through a microsecond (the clock count is past start × 100), that trigger 0 comes at the count of
the opening is the model's choice (DESIGN CHOICE, log 29). -/
def Part.startPort (p : Part) (k : Track) (t : Tag) (slot linePeriod : Nat) : Part :=
  p.setPort k { p.ports.get k with
    activity := .triggering, job := some { tag := t, slot := slot }, expected := none,
    generator := some { load := BitVec.ofNat 16 (linePeriod - 1), count := 0 } }

/-- R133: the trigger generator stops and the port becomes DRAINING. -/
def Part.stopTriggers (p : Part) (k : Track) : Part :=
  p.setPort k { p.ports.get k with activity := .draining, generator := none }

/-- R92, R132: the generator's count has run out before the end of the window. -/
def Part.triggerDue (p : Part) (k : Track) : Bool :=
  match (p.ports.get k).generator, p.portJob k with
  | some g, some j => decide (g.count = 0) && liesBefore p.now j.stop
  | _, _ => false

/-- R92: the clock counts from the present to the clock count start × 100 + i × c. After an opening part-way through a
microsecond trigger 1 keeps its place at start × 100 + c, less than c after trigger 0 (DESIGN CHOICE, log 29). -/
def Part.countsTo (p : Part) (j : Job) (i c : Nat) : Nat := i * c - ((p.now - j.start).toNat * 100 + p.tb.sub)

/-- R132: a trigger: a pulse of 100 clock counts, one more line triggered, and the next after n + 1 counts (R86). -/
def Part.trigger (p : Part) (k : Track) : Part :=
  match (p.ports.get k).generator, p.portJob k with
  | some g, some j =>
    if p.triggerDue k then
      (p.setPort k { p.ports.get k with
        pulse := some 100
        generator := some { g with count := p.countsTo j (j.triggered + 1) (g.load.toNat + 1) } }).modPortJob k
          (fun j => { j with triggered := j.triggered + 1 })
    else p
  | _, _ => p

/-- R132: the trigger output of a port is active. -/
def Port.output (c : Port) : Bool := c.pulse.isSome

/-- The trigger pulse of a port has been active for 100 clock counts (R132). -/
def Part.pulseDue (p : Part) (k : Track) : Bool := decide ((p.ports.get k).pulse = some 0)

/-- R132: a trigger pulse ends; the trigger output becomes inactive. -/
def Part.pulseEnd (p : Part) (k : Track) : Part :=
  if p.pulseDue k then p.setPort k { p.ports.get k with pulse := none } else p

/-! ### Line packets (R134 to R138) -/

/-- R134: the room of a job at its port. -/
def lineRoom (j : Job) (c : Port) : Nat := j.triggered - (j.received + j.lost + c.fifo.length)

/-- R144: a sequence number lies within a fence. -/
def Fence.covers (f : Fence) (q : Word16) : Bool := decide ((q - f.first).toNat < f.length)

/-- R134: a stray line is discarded and counted. -/
def Part.strayLine (p : Part) (k : Track) : Part :=
  let c := p.ports.get k
  p.setPort k { c with stray := c.stray + 1 }

/-- R137: the check value that the port forms over a packet's contents. -/
def lineCheck (sequence pixelCount : Word16) (pixels : List Byte) : BitVec 32 :=
  BitVec.ofNat 32 (sequence.toNat + pixelCount.toNat +
    (pixels.foldl (fun (acc : Nat × Nat) px => (acc.1 + acc.2 * px.toNat, acc.2 + 1)) (0, 1)).1)

/-- R138: a whole line reaches the FIFO: it enters, or it is discarded with the latch set and the job OVERRUN. -/
def Part.offerLine (p : Part) (k : Track) (l : Line) : Part :=
  let c := p.ports.get k
  if c.fifo.length < 8 ∧ c.overrun = false then
    p.setPort k { c with fifo := c.fifo ++ [l], expected := some (l.sequence + 1) }
  else
    (p.setPort k { c with overrun := true, discarded := c.discarded + 1, expected := some l.sequence }).modPortJob k
      (fun j => { j with flags := { j.flags with overrun := true } })

/-- R136, R137: a line that belongs to the job is tested for length and check. -/
def Part.takeLine (p : Part) (k : Track) (pk : LinePacket) (gap : Bool) : Part :=
  if pk.pixelCount = 2048 ∧ pk.pixels.length = 2048 then
    p.offerLine k { sequence := pk.sequence, badCheck := lineCheck pk.sequence pk.pixelCount pk.pixels != pk.check,
                    gap := gap, pixels := pk.pixels }
  else
    (p.setPort k { p.ports.get k with expected := some (pk.sequence + 1) }).modPortJob k
      (fun j => { j with lost := j.lost + 1 })

/-- R134 to R138 and R142: a line packet reaches a port that is UP. -/
def Part.linePacket (p : Part) (k : Track) (pk : LinePacket) : Part :=
  let c := p.ports.get k
  if c.up then
    match c.activity, p.portJob k with
    | .idle, _ => p.strayLine k
    | _, none => p.strayLine k
    | _, some j =>
      if (c.fence.map (fun f => f.covers pk.sequence)).getD false ∨ lineRoom j c = 0 then p.strayLine k
      else
        match c.expected with
        | none => (p.takeLine k pk false).checkDrain k
        | some e =>
          let d := (pk.sequence - e).toNat
          if 32768 ≤ d ∨ lineRoom j c ≤ d then p.strayLine k
          else if d = 0 then (p.takeLine k pk false).checkDrain k
          else ((p.modPortJob k (fun j => { j with lost := j.lost + d })).takeLine k pk true).checkDrain k
  else p

/-! ### Store turns of the ports (R140, R141) -/

/-- A store turn of a port has come to its end (R140). -/
def Part.writeTurnDue (p : Part) (k : Track) : Bool :=
  match p.fsc.turn with
  | some u => decide (u.member = .port k) && decide (u.left = 0)
  | none => false

/-- R140, R141: a port's store turn completes when its 20 clock counts have run. -/
def Part.writeTurn (p : Part) (k : Track) : Part := if p.writeTurnDue k then p.finishTurn k else p

/-- R140: a member is ready for a turn of the store. -/
def Part.memberReady (p : Part) : StoreMember → Bool
  | .port k => !(p.ports.get k).fifo.isEmpty
  | .readEngine => (p.fsc.engine.map ReadEngine.ready).getD false

/-- R140: the members in the fixed cycle, from the one after the member last served. -/
def storeCycleAfter : StoreMember → List StoreMember
  | .port .t1 => [.port .t2, .port .t3, .port .t4, .readEngine, .port .t1]
  | .port .t2 => [.port .t3, .port .t4, .readEngine, .port .t1, .port .t2]
  | .port .t3 => [.port .t4, .readEngine, .port .t1, .port .t2, .port .t3]
  | .port .t4 => [.readEngine, .port .t1, .port .t2, .port .t3, .port .t4]
  | .readEngine => [.port .t1, .port .t2, .port .t3, .port .t4, .readEngine]

/-- R140: a path that waits gives its turn of 20 clock counts to the first ready member of the cycle. -/
def Part.beginTurn (p : Part) : Part :=
  match p.fsc.turn with
  | some _ => p
  | none =>
    match (storeCycleAfter p.fsc.last).find? p.memberReady with
    | none => p
    | some m => p.setFsc { p.fsc with turn := some { member := m, left := 20 }, last := m }

/-- R147: RESET_PART at a port. The job is dropped without a drain end, also where a begun store turn holds its last
outstanding line (DEDUCED, log 37). -/
def Port.onReset (c : Port) : Port :=
  { Port.reset with up := c.up }

end Sys2Proof.Machine
end

