-- ==== Sys2Proof/Machine/Schedule.lean ====
section
/-! DEFINITION. The capture scheduler (06): tags, jobs from sightings, merging, separation, re-timing, window open and
end, and the ends of jobs. -/

namespace Sys2Proof.Machine

/-! ### The schedule order (R94) -/

/-- R94: `a` stands before `b`: an earlier start read against the present, or an equal start and an earlier entry. -/
def Job.before (now : Time) (a b : Job) : Bool :=
  decide ((a.start - now).toInt < (b.start - now).toInt) ||
  (a.start == b.start && decide (a.entryOrder < b.entryOrder))

/-- A job put at its place in a schedule in order. -/
def insertJob (now : Time) (j : Job) : List Job → List Job
  | [] => [j]
  | x :: rest => if j.before now x then j :: x :: rest else x :: insertJob now j rest

/-- The jobs put into the order of R94. -/
def sortJobs (now : Time) : List Job → List Job
  | [] => []
  | j :: rest => insertJob now j (sortJobs now rest)

/-- The schedule with every job at the place its start gives it (R94). -/
def Part.resort (p : Part) : Part := p.setJobs (sortJobs p.now p.csc.jobs)

/-- A job that has changed takes its new place (R94). -/
def Part.replaceJob (p : Part) (j : Job) : Part := (p.modJob j.tag (fun _ => j)).resort

/-! ### Tags (R95) -/

/-- A tag in use by a job of the schedule or by a slot that is FILLING or HELD (R95). -/
def Part.tagUsed (p : Part) (t : Tag) : Bool :=
  p.csc.jobs.any (fun j => j.tag == t) || (p.slotWithTag t).isSome

/-- R95: the tag after a tag, from 255 to 1. -/
def nextTag (t : Tag) : Tag := if t = 255 then 1 else t + 1

/-- R95: the counter advanced past the tags in use, within a number of values. -/
def Part.allocateTag (p : Part) : Nat → Tag → Tag
  | 0, t => t
  | n + 1, t => if p.tagUsed (nextTag t) then p.allocateTag n (nextTag t) else nextTag t

/-! ### Computing a job (R81 to R91) -/

/-- The passage of a track and number is open. -/
def Part.passageOpen (p : Part) (k : Track) (num : Count16) : Bool :=
  decide ((p.passage k).state ≠ .vacant) && (p.passage k).number == num

/-- R81: the pace of a computation. -/
def Part.jobPace (p : Part) (j : Job) : Nat :=
  if p.passageOpen j.track j.passage then (p.passage j.track).pace.getD (p.record j.track).defaultPace else j.pace

/-- R91: the passage flags that a computation copies, SLOW, FAST and NO_SPEED; a job whose passage has closed keeps
the copies it took last. -/
def Part.copiedFlags (p : Part) (j : Job) : Bool × Bool × Bool :=
  let r := p.passage j.track
  if p.passageOpen j.track j.passage then (r.flags.slow, r.flags.fast, r.flags.noSpeed || r.pace.isNone)
  else (j.flags.slow, j.flags.fast, j.flags.noSpeed)

/-- R81: a computation replaces, as one whole, the job's times, line period, line count, pace and flags. -/
def Part.computeJob (p : Part) (j : Job) : Job :=
  let pace := p.jobPace j
  let t := computeTiming (p.record j.track) pace j.sightings
  let c := p.copiedFlags j
  { j with
    pace := pace, centre := t.centre, start := t.start, stop := t.stop, lampRequest := t.lampRequest,
    linePeriod := t.period.count, lineCount := t.lineCount,
    flags := j.flags.computed t.period.stretched t.period.compressed t.narrowed c.1 c.2.1 c.2.2 }

/-! ### Overlap and separation (R98) -/

/-- R98: each window's start lies at or before the other's end. -/
def Job.overlaps (a b : Job) : Bool := atOrBefore a.start b.stop && atOrBefore b.start a.stop

/-- R98: what separation leaves: the window kept, or empty; the job carries every move that was made. -/
inductive Separation where
  | kept (j : Job)
  | empty (j : Job)
  deriving DecidableEq, Repr

/-- R89, R98: one move of a window's start to an instant, with CLIPPED. The lamp request time is formed again, and so
is the planned line count, unless the start now lies at or after the end: an empty window is not counted. -/
def Job.clip (j : Job) (t : Time) : Separation :=
  let c := { j with flags := { j.flags with clipped := true } }
  if atOrBefore j.stop t then .empty { c with start := t, lampRequest := lampRequestTime t } else .kept (c.moveStart t)

/-- R98: the window separated from jobs in start order: its start moves behind each that it overlaps, until it
overlaps none or is empty. The first argument bounds the moves: each job is met once. -/
def separate : Nat → List Job → Job → Separation
  | 0, _, j => .kept j
  | n + 1, others, j =>
    match others.find? (fun o => j.overlaps o) with
    | none => .kept j
    | some o =>
      match j.clip (o.stop + usTime 1) with
      | .empty j' => .empty j'
      | .kept j' => separate n others j'

/-- The jobs of a track, in schedule order. -/
def Part.trackJobs (p : Part) (k : Track) : List Job := p.csc.jobs.filter (fun j => j.track == k)

/-! ### Ending without an image (R110) -/

/-- R110: a job ends: the arbiter is told, the job leaves the schedule, JOB_ENDED is made. -/
def Part.endJob (p : Part) (t : Tag) (reason : EndReason) (cause : CancelCause) : Part :=
  match p.job t with
  | none => p
  | some j => ((p.lampJobEnd t).removeJob t).notice (.jobEnded j p.now reason cause)

/-- R111, R112, R113: the WAITING jobs that a test names end CANCELLED, in schedule order. -/
def Part.cancelJobs (p : Part) (test : Job → Bool) (cause : CancelCause) : Part :=
  (p.csc.jobs.filter (fun j => decide (j.state = .waiting) && test j)).foldl
    (fun q j => q.endJob j.tag .cancelled cause) p

/-- R111: a cancel request carries a track and a passage number. -/
def Part.cancelPassage (p : Part) (k : Track) (num : Count16) (cause : CancelCause) : Part :=
  p.cancelJobs (fun j => j.track == k && j.passage == num) cause

/-! ### Window open (R104, R105) -/

/-- R105, R151: the slot found becomes FILLING with the job's tag. -/
def Part.claimSlot (p : Part) (n : Nat) (t : Tag) : Part :=
  p.setSlot n { state := .filling, tag := t, lines := [], header := none }

/-- R104, R105: a WAITING job opens, or ends NO_SLOT or CAMERA_DOWN. -/
def Part.openJob (p : Part) (t : Tag) : Part :=
  match p.job t with
  | none => p
  | some j =>
    match p.freeSlot j.track with
    | none => p.endJob t .noSlot .none
    | some n =>
      if (p.ports.get j.track).up then
        let p := if (p.ports.get j.track).activity = .draining then p.forceDrain j.track .cut else p
        ((p.claimSlot n t).startPort j.track t n j.linePeriod).modJob t
          (fun x => { x with state := .opened, slot := some n })
      else p.endJob t .cameraDown .none

/-- The start of a WAITING job is due (R104). -/
def Part.openDue (p : Part) (t : Tag) : Bool :=
  match p.job t with
  | some j => decide (j.state = .waiting) && reached p.now j.start
  | none => false

/-- R104: a WAITING job opens when gantry time reaches its start, or at once when its start is past. -/
def Part.openIfDue (p : Part) (t : Tag) : Part := if p.openDue t then p.openJob t else p

/-! ### Window end (R106) -/

/-- R106: the window of an OPEN job ends, with the drain deadline 1,000 µs after the instant given. -/
def Part.endWindow (p : Part) (t : Tag) (base : Time) : Part :=
  match p.job t with
  | none => p
  | some j =>
    (((p.stopTriggers j.track).lampWindowEnd t).modJob t
      (fun x => { x with state := .draining, drainDeadline := some (base + usTime 1000) })).checkDrain j.track

/-- The end of an OPEN job is due (R106). -/
def Part.endDue (p : Part) (t : Tag) : Bool :=
  match p.job t with
  | some j => decide (j.state = .opened) && reached p.now j.stop
  | none => false

/-- R106: gantry time reaches the end of an OPEN job. -/
def Part.windowEnd (p : Part) (t : Tag) : Part :=
  match p.job t with
  | some j => if p.endDue t then p.endWindow t j.stop else p
  | none => p

/-! ### Re-timing (R101, R102) -/

/-- Step 1 of R102: a re-timed job whose end has passed ends TOO_LATE. -/
def Part.settleLate (p : Part) (tags : List Tag) : Part :=
  ((p.csc.jobs.filter (fun j => tags.contains j.tag && reached p.now j.stop)).map Job.tag).foldl
    (fun q t => q.endJob t .tooLate .none) p

/-- Step 2 of R102 for one job: separated from the OPEN and DRAINING jobs of the track and from those visited. A job
left empty ends OVERLAP as its moves have left it (R89, R91, R98). -/
def Part.settleOne (k : Track) (acc : Part × List Tag) (t : Tag) : Part × List Tag :=
  let p := acc.1
  match p.job t with
  | none => acc
  | some j =>
    let others := (p.trackJobs k).filter (fun o =>
      o.tag != t && (decide (o.state ≠ .waiting) || acc.2.contains o.tag))
    match separate (others.length + 1) others j with
    | .empty j' => ((p.replaceJob j').endJob t .overlap .none, acc.2)
    | .kept j' => (p.replaceJob j', acc.2 ++ [t])

/-- Step 3 of R102 for one job: a start that has passed is moved to the present with LATE, and the job opens. -/
def Part.settleOpen (p : Part) (t : Tag) : Part :=
  match p.job t with
  | none => p
  | some j =>
    if liesBefore j.start p.now then
      let j' := j.openLate p.now
      ((p.replaceJob j').giveTimes j').openJob t
    else p

/-- The tags of the WAITING jobs of a track, in schedule order. -/
def Part.waitingTags (p : Part) (k : Track) : List Tag :=
  ((p.trackJobs k).filter (fun j => decide (j.state = .waiting))).map Job.tag

/-- R102, R114: the changed times of a job still WAITING are given to the arbiter. -/
def Part.passTimes (p : Part) (t : Tag) : Part :=
  match p.job t with
  | none => p
  | some j => if j.state = .waiting then p.giveTimes j else p

/-- R102: the jobs of a track are settled in three steps after a re-timing of the tags given. -/
def Part.settleTrack (p : Part) (k : Track) (tags : List Tag) : Part :=
  let p := p.settleLate tags
  let p := ((p.waitingTags k).foldl (Part.settleOne k) (p, [])).1
  let p := (p.waitingTags k).foldl Part.settleOpen p
  (p.waitingTags k).foldl Part.passTimes p

/-- R101: the WAITING jobs of a track that a test names are computed anew, and the track is settled. -/
def Part.retime (p : Part) (k : Track) (test : Job → Bool) : Part :=
  let named := fun (j : Job) => j.track == k && decide (j.state = .waiting) && test j
  let tags := (p.csc.jobs.filter named).map Job.tag
  if tags.isEmpty then p
  else ((p.setJobs (p.csc.jobs.map (fun j => if named j then p.computeJob j else j))).resort).settleTrack k tags

/-- R48, R101: a pace change of a passage re-times its WAITING jobs, in ON_LINE only. -/
def Part.retimePassage (p : Part) (k : Track) (num : Count16) : Part :=
  if p.mode = .onLine then p.retime k (fun j => j.passage == num) else p

/-! ### Sightings (R96 to R100) -/

/-- R100: a dropped sighting makes a notice, with its own window as R96 computed it. -/
def Part.dropSighting (p : Part) (j : Job) (s : Sighting) (reason : DropReason) : Part :=
  p.notice (.sightingDropped j.track j.passage s reason j.centre j.start j.stop)

/-- R96: the mark is UNKNOWN-A or UNKNOWN-B. -/
def Mark.isUnknown : Mark → Bool
  | .unknownA => true
  | .unknownB => true
  | _ => false

/-- R99: the job of one sighting before its computation. -/
def Job.ofSighting (k : Track) (num : Count16) (s : Sighting) : Job :=
  { tag := 0, track := k, passage := num, sightings := [s], pace := 0, centre := 0, start := 0, stop := 0,
    lampRequest := 0, linePeriod := 0, lineCount := 0, state := .waiting, slot := none, lamp := .none,
    triggered := 0, received := 0, lost := 0, drainDeadline := none, entryOrder := 0,
    flags := { orientationUnknown := s.mark.isUnknown } }

/-- R96, R97: a start that has passed is moved to the present with LATE. -/
def Job.lateIfPassed (j : Job) (now : Time) : Job := if liesBefore j.start now then j.openLate now else j

/-- R51: the scheduler reports a job it creates to the tracker of the track. The total wraps (log 32). -/
def Part.countJob (p : Part) (k : Track) : Part :=
  p.setPassage k { p.passage k with jobCount := (p.passage k).jobCount + 1 }

/-- R99: a job is made with a newly allocated tag and enters the schedule, or SCHEDULE_FULL. `own` is the sighting's
own window of R96, `j` the window after separation. -/
def Part.placeJob (p : Part) (own j : Job) (s : Sighting) : Part :=
  if 32 ≤ p.csc.jobs.length then p.dropSighting own s .scheduleFull
  else
    let t := p.allocateTag 255 p.csc.tagCounter
    let j := { j with tag := t, entryOrder := p.csc.nextEntry }
    let p := { p with csc := { jobs := insertJob p.now j p.csc.jobs, tagCounter := t,
                               nextEntry := p.csc.nextEntry + 1 } }
    ((p.countJob j.track).enterLamp j).openIfDue t

/-- R97: the job offered a sighting, computed anew with it, when every condition of the merge holds. -/
def Part.mergeInto (p : Part) (o : Job) (num : Count16) (s : Sighting) : Option Job :=
  let m := p.computeJob { o with
    sightings := o.sightings ++ [s]
    flags := { o.flags with orientationUnknown := o.flags.orientationUnknown || s.mark.isUnknown } }
  let m' := m.lateIfPassed p.now
  if o.state = .waiting ∧ o.passage = num ∧ o.sightings.length < 4 ∧ m.flags.narrowed = false ∧
      ((p.trackJobs o.track).filter (fun x => x.tag != o.tag)).all (fun x => !m'.overlaps x) = true then some m'
  else none

/-- R96 to R99: the scheduler takes a sighting of a track and a passage. -/
def Part.takeSighting (p : Part) (k : Track) (num : Count16) (s : Sighting) : Part :=
  let own := p.computeJob (Job.ofSighting k num s)
  if reached p.now own.stop then p.dropSighting own s .tooLate
  else
    let own := own.lateIfPassed p.now
    match (p.trackJobs k).find? (fun o => own.overlaps o) with
    | none => p.placeJob own own s
    | some o =>
      match p.mergeInto o num s with
      | some m => ((p.replaceJob m).giveTimes m).openIfDue m.tag
      | none =>
        match separate ((p.trackJobs k).length + 1) (p.trackJobs k) own with
        | .empty _ => p.dropSighting own s .overlap
        | .kept j => p.placeJob own j s

/-! ### Modes (R112, R113) -/

/-- R112: an OPEN job at the change to SERVICE: its window ends at once, with MODE_ABORT. -/
def Part.abortWindow (p : Part) (t : Tag) : Part :=
  (p.modJob t (fun j => { j with flags := { j.flags with modeAbort := true } })).endWindow t p.now

/-- R112: the change to SERVICE: each job is cancelled, aborted or left to drain. R112 orders the ends of the WAITING
jobs among themselves; that an OPEN job is taken at its place among them, so that the IMAGE_READY of a drain that ends
at once stands between their JOB_ENDEDs, is the model's choice (DESIGN CHOICE, log 33). -/
def Part.schedulerToService (p : Part) : Part :=
  p.csc.jobs.foldl (fun q j =>
    match j.state with
    | .waiting => q.endJob j.tag .cancelled .mode
    | .opened => q.abortWindow j.tag
    | .draining => q) p

/-- R113: the change from ON_LINE to STANDBY: each WAITING job ends CANCELLED. -/
def Part.schedulerToStandby (p : Part) : Part := p.cancelJobs (fun _ => true) .mode

end Sys2Proof.Machine
end

