-- ==== Sys2Proof/Machine/Matching.lean ====
section
/-! DEFINITION. The axle pattern matcher (04): candidates, the arrival rule, the coupling timer, declarations and
sightings. -/

namespace Sys2Proof.Machine

/-! ### Candidates (R62) -/

/-- The axle count of a type. -/
def VehicleType.axles (t : VehicleType) : Nat := t.gaps.length + 1

/-- R62: the gap list in the order in which an orientation meets it. -/
def VehicleType.oriented (t : VehicleType) : Facing → List Nat
  | .forward => t.gaps
  | .reversed => t.gaps.reverse

/-- A measured gap agrees with a listed one within the type's tolerance. -/
def VehicleType.agrees (t : VehicleType) (measured listed : Nat) : Bool := decide (natDist measured listed ≤ t.tolerance)

/-- R62: a candidate is alive for the measured gaps of the pending axles after the first. -/
def VehicleType.alive (t : VehicleType) (facing : Facing) (gaps : List Nat) : Bool :=
  decide (gaps.length ≤ t.gaps.length) && (gaps.zip (t.oriented facing)).all (fun m => t.agrees m.1 m.2)

/-- The vehicle type at an index of the table, if the entry is valid. -/
def Part.vehicleType (p : Part) (i : Nat) : Option VehicleType := (p.types[i]?).bind id

/-- The gaps kept in the pending entries after the first. -/
def pendingGaps (l : List PendingAxle) : List Nat := l.tail.map (fun a => a.gap.getD 0)

/-- The candidates of one type index, FORWARD before REVERSED. -/
def Part.candidatesOf (p : Part) (gaps : List Nat) (i : Nat) : List Candidate :=
  match p.vehicleType i with
  | none => []
  | some t =>
    ([Facing.forward, Facing.reversed].filter (fun d => t.alive d gaps)).map
      (fun d => { index := i, facing := d, complete := decide (t.gaps.length = gaps.length) })

/-- R62: the candidate set of a pending list, in table order; empty for an empty list. -/
def Part.candidateSet (p : Part) (l : List PendingAxle) : List Candidate :=
  match l with
  | [] => []
  | _ => (List.range 64).flatMap (p.candidatesOf (pendingGaps l))

/-- The oriented gap list of a candidate. -/
def Part.orientedOf (p : Part) (c : Candidate) : List Nat :=
  ((p.vehicleType c.index).map (fun t => t.oriented c.facing)).getD []

/-- The minimum coupling gap of a candidate's type. -/
def Part.couplingGapOf (p : Part) (c : Candidate) : Nat :=
  ((p.vehicleType c.index).map VehicleType.couplingGap).getD 0

/-! ### Pace and distance (R59 to R61) -/

/-- R60: the pace of a conversion: P, or the default pace of the track record. -/
def Part.matchPace (p : Part) (k : Track) : Nat := (p.passage k).pace.getD (p.record k).defaultPace

/-- R60: a conversion made while the passage has no pace flags it NO_SPEED. -/
def Part.flagNoSpeed (p : Part) (k : Track) : Part :=
  match (p.passage k).pace with
  | some _ => p
  | none => p.setPassage k { p.passage k with flags := { (p.passage k).flags with noSpeed := true } }

/-- R61: the gap from the last pending axle's inner-equivalent time to the arriving axle's. -/
def axleGap (last arriving : Time) (pace : Nat) : Nat :=
  if (arriving - last).toInt ≤ 0 then 0 else roundDiv ((arriving - last).toInt.toNat * 256) pace

/-! ### Declaring a vehicle (R71 to R75) -/

/-- R72: the orientation of a declared vehicle. -/
def orientationOf (set : List Candidate) (c : Candidate) : Orientation :=
  let both := set.any (fun x => x.index == c.index && x.complete && decide (x.facing = .forward)) &&
    set.any (fun x => x.index == c.index && x.complete && decide (x.facing = .reversed))
  if both then .unknown
  else
    match c.facing with
    | .forward => .forward
    | .reversed => .reversed

/-- R73: the distances behind the first axle, with their marks, that one offset gives. -/
def sightingOffsets (o : Orientation) (span f : Nat) : List (Nat × Mark) :=
  match o with
  | .forward => [(f, .forward)]
  | .reversed => [(span - f, .reversed)]
  | .unknown => if f = span - f then [(f, .unknownA)] else [(f, .unknownA), (span - f, .unknownB)]

/-- The offsets of a pantograph list with their indexes, in the order of the list. -/
def indexed (l : List Nat) : List (Nat × Nat) := (List.range l.length).zip l

/-- R73, R74: the sightings of a declared vehicle, in their order. -/
def sightingsOf (t : VehicleType) (index : Nat) (o : Orientation) (ordinal : Count16) (reference : Time)
    (approach : Nat) : List Sighting :=
  (indexed t.pantographs).flatMap (fun ip =>
    (sightingOffsets o t.span ip.2).map (fun pm =>
      { vehicle := ordinal, index := index, pantograph := ip.1, mark := pm.2, reference := reference,
        distance := approach + pm.1 }))

/-- R51, R75: a sighting is reported to the tracker, whose total wraps (log 32); in ON_LINE, while the passage is not
closing, it is handed to the capture scheduler. -/
def Part.handSighting (k : Track) (closing : Bool) (p : Part) (s : Sighting) : Part :=
  let p := p.setPassage k { p.passage k with sightingCount := (p.passage k).sightingCount + 1 }
  if p.mode = .onLine ∧ closing = false then p.takeSighting k (p.passage k).number s else p

/-- R71: the vehicle is counted and entered in the vehicle list, or LIST_FULL is set. That the vehicle count, which is
the vehicle's ordinal, goes from 65,535 to 0 is the model's choice (DESIGN CHOICE, log 32). -/
def Passage.enterVehicle (r : Passage) (v : VehicleEntry) : Passage :=
  if r.matcher.vehicles.length < 64 then
    { r with vehicleCount := r.vehicleCount + 1, matcher := { r.matcher with vehicles := r.matcher.vehicles ++ [v] } }
  else { r with vehicleCount := r.vehicleCount + 1, flags := { r.flags with listFull := true } }

/-- The pending list and the candidate set are emptied and the coupling timer stopped. -/
def Matcher.clear (m : Matcher) : Matcher := { m with pending := [], candidates := [], coupling := none }

/-- R71: a vehicle is declared from the pending axles, for a complete candidate; then the list is emptied. R30 and R62
have no passage open while the table changes, but a handling begun before a change to SERVICE keeps one open (R35, R53);
that a declaration at its end reads the type as the table then holds it, and that a type cleared by then empties the
list with no vehicle declared and no axle counted, is the model's choice (DESIGN CHOICE, log 34). -/
def Part.declare (p : Part) (k : Track) (closing : Bool) (c : Candidate) : Part :=
  let r := p.passage k
  match r.matcher.pending, p.vehicleType c.index with
  | first :: _, some t =>
    let o := orientationOf r.matcher.candidates c
    let r' := r.enterVehicle { index := c.index, orientation := o, firstAxle := first.ordinal,
                               axles := r.matcher.pending.length }
    let approach := (p.record k).approach (r.entryPair.getD .pair1)
    let p := (sightingsOf t c.index o r'.vehicleCount first.time approach).foldl
      (Part.handSighting k closing) (p.setPassage k r')
    p.setMatcher k (p.passage k).matcher.clear
  | _, _ => p.setMatcher k (p.passage k).matcher.clear

/-! ### Arrival of an axle (R58 to R67) -/

/-- R67: the coupling distance of a set: the largest of the complete candidates' coupling gaps and of the partial
candidates' next gaps with tolerance, for k pending axles. -/
def Part.couplingDistance (p : Part) (set : List Candidate) (k : Nat) : Nat :=
  (set.map (fun c =>
    if c.complete then p.couplingGapOf c
    else ((p.orientedOf c)[k - 1]?).getD 0 + ((p.vehicleType c.index).map VehicleType.tolerance).getD 0)).foldl max 0

/-- R67: the coupling timer starts when the set holds a complete candidate. -/
def Part.startCoupling (p : Part) (k : Track) : Part :=
  let m := (p.passage k).matcher
  match m.pending.getLast?, m.candidates.any Candidate.complete with
  | some last, true =>
    let p := p.flagNoSpeed k
    let d := p.couplingDistance m.candidates m.pending.length
    p.setMatcher k { (p.passage k).matcher with
      coupling := some { distance := d, deadline := last.time + usTime (travelTime d (p.matchPace k)) } }
  | _, _ => p

/-- R63: an axle arrives at an empty list. -/
def Part.arriveEmpty (p : Part) (k : Track) (a : PendingAxle) : Part :=
  let l := [{ a with gap := none }]
  p.setMatcher k { (p.passage k).matcher with pending := l, candidates := p.candidateSet l }

/-- R66: the oldest entries are dropped until a candidate is alive or the arriving axle stands alone; with the
number dropped. -/
def Part.dropOldest (p : Part) : List PendingAxle → PendingAxle → Nat → List PendingAxle × List Candidate × Nat
  | [], a, n => ([a], p.candidateSet [a], n)
  | _ :: rest, a, n =>
    let set := p.candidateSet (rest ++ [a])
    if set.isEmpty && !rest.isEmpty then p.dropOldest rest a (n + 1) else (rest ++ [a], set, n + 1)

/-- R64: the partial candidates that survive a gap, marked complete or partial anew; k axles were pending. -/
def Part.survivors (p : Part) (set : List Candidate) (k g : Nat) : List Candidate :=
  (set.filter (fun c =>
    !c.complete && ((p.vehicleType c.index).map (fun t =>
      ((t.oriented c.facing)[k - 1]?).any (fun listed => t.agrees g listed))).getD false)).map
    (fun c => { c with complete := decide (((p.vehicleType c.index).map VehicleType.axles).getD 0 = k + 1) })

/-- R66: the third step of the arrival rule. -/
def Part.arriveDropping (p : Part) (k : Track) (a : PendingAxle) : Part :=
  let r := p.passage k
  let d := p.dropOldest r.matcher.pending a 0
  p.setPassage k { r with
    flags := { r.flags with unmatched := true }
    matcher := { r.matcher with pending := d.1, candidates := d.2.1,
                                unmatched := r.matcher.unmatched + BitVec.ofNat 16 d.2.2 } }

/-- R63 to R66: the arrival rule, for an axle with its gap. -/
def Part.arrive (p : Part) (k : Track) (a : PendingAxle) (g : Nat) : Part :=
  let m := (p.passage k).matcher
  match m.pending with
  | [] => p.arriveEmpty k a
  | _ =>
    let alive := p.survivors m.candidates m.pending.length g
    if alive.isEmpty then
      match m.candidates.find? (fun c => c.complete && decide (p.couplingGapOf c ≤ g)) with
      | some c => (p.declare k false c).arriveEmpty k a
      | none => p.arriveDropping k { a with gap := some g }
    else
      p.setMatcher k { m with pending := m.pending ++ [{ a with gap := some g }], candidates := alive }

/-- R59: the inner-equivalent time of an axle, at the pace of R60; with the flag of a conversion. -/
def Part.innerTime (p : Part) (k : Track) (i : PairId) (position : HeadId) (t : Time) : Part × Time :=
  match position with
  | .inner => (p, t)
  | .outer =>
    let p := p.flagNoSpeed k
    (p, t + usTime (travelTime ((p.record k).spacing i) (p.matchPace k)))

/-- R61: the gap from the last pending axle, with the flag of a conversion; 0 and no conversion when the time does
not advance. -/
def Part.measureGap (p : Part) (k : Track) (t : Time) : Part × Nat :=
  match (p.passage k).matcher.pending.getLast? with
  | none => (p, 0)
  | some last =>
    let p := if (t - last.time).toInt ≤ 0 then p else p.flagNoSpeed k
    (p, axleGap last.time t (p.matchPace k))

/-- R58: an entry axle is handed to the matcher: the coupling timer stops, the axle is measured, the arrival rule is
applied, and the coupling timer starts when the set holds a complete candidate. -/
def Part.handAxle (p : Part) (k : Track) (e : AxleEvent) (ordinal : Count16) : Part :=
  let p := p.setMatcher k { (p.passage k).matcher with coupling := none }
  let a := p.innerTime k e.pair e.position e.time
  let g := a.1.measureGap k a.2
  (g.1.arrive k { ordinal := ordinal, position := e.position, time := a.2, gap := none } g.2).startCoupling k

/-! ### The coupling timer (R68, R69) -/

/-- R68: a pace change moves the deadline of a running coupling timer. -/
def Part.moveCoupling (p : Part) (k : Track) : Part :=
  let m := (p.passage k).matcher
  match m.coupling, m.pending.getLast? with
  | some c, some last =>
    p.setMatcher k { m with
      coupling := some { c with deadline := last.time + usTime (travelTime c.distance (p.matchPace k)) } }
  | _, _ => p

/-- The first complete candidate of the set, in table order (R69, R77). -/
def Matcher.firstComplete (m : Matcher) : Option Candidate := m.candidates.find? Candidate.complete

/-- The deadline of a running coupling timer is reached. -/
def Part.couplingPast (p : Part) (k : Track) : Bool :=
  match (p.passage k).matcher.coupling with
  | some c => reached p.now c.deadline
  | none => false

/-- R69: the coupling timer expires: the first complete candidate is declared. -/
def Part.expireCoupling (p : Part) (k : Track) : Part :=
  match (p.passage k).matcher.firstComplete with
  | some c => p.declare k false c
  | none => p.setMatcher k (p.passage k).matcher.clear

/-- R49, R77: the matcher finishes a passage that closes. -/
def Part.finishMatching (p : Part) (k : Track) : Part :=
  let r := p.passage k
  match r.matcher.firstComplete with
  | some c => p.declare k true c
  | none =>
    let left := r.matcher.pending.length
    p.setPassage k { r with
      flags := { r.flags with unmatched := r.flags.unmatched || decide (0 < left) }
      matcher := { r.matcher.clear with unmatched := r.matcher.unmatched + BitVec.ofNat 16 left } }

end Sys2Proof.Machine
end

