-- ==== Sys2Proof/Machine/Tracking.lean ====
section
/-! DEFINITION. The passage tracker (03): taking events, classes of axles, pace, suspension, and the close of
passages. -/

namespace Sys2Proof.Machine

/-! ### Closing (R49, R50) -/

/-- R49: a passage closes: the matcher finishes, PASSAGE_CLOSED is made, the record returns to VACANT. -/
def Part.closePassage (p : Part) (k : Track) (reason : CloseReason) : Part :=
  if (p.passage k).state = .vacant then p
  else
    let p := p.finishMatching k
    let r := p.passage k
    (p.notice (.passageClosed k r p.now reason)).setPassage k (Passage.vacant r.number)

/-- R55: RESET_PART clears an open record without a notice, its passage number kept. -/
def Part.clearPassage (p : Part) (k : Track) : Part := p.setPassage k (Passage.vacant (p.passage k).number)

/-! ### Reports, mode changes and resets at a tracker (R35, R43, R53, R55) -/

/-- R43: a report of the settled occupancy state: CLEAR closes a passage in CLEARING. -/
def Part.takeReport (p : Part) (k : Track) (occupied : Bool) : Part :=
  if (p.passage k).state = .clearing ∧ occupied = false then p.closePassage k .normal else p

/-- What a deferred report, mode change or reset does when it is taken (R43, R53, R55). -/
def Part.takeDeferred (k : Track) (p : Part) : Deferred → Part
  | .report occupied => p.takeReport k occupied
  | .toService => p.closePassage k .aborted
  | .reset => p.clearPassage k

/-- R35: what reaches a tracker that handles an event waits for the end of the handling; else it is taken at once. -/
def Part.reachTracker (p : Part) (k : Track) (d : Deferred) : Part :=
  match (p.trackers.get k).handling with
  | some h => p.setTracker k { p.trackers.get k with handling := some { h with deferred := h.deferred ++ [d] } }
  | none => Part.takeDeferred k p d

/-! ### Suspension (R41) -/

/-- R41, R76: matching is suspended, if it is not suspended already. -/
def Passage.suspend (r : Passage) : Passage :=
  if r.flags.matchSuspended then r
  else { r with flags := { r.flags with matchSuspended := true }, matcher := r.matcher.clear }

/-! ### Pace (R46 to R48) -/

/-- R46 to R48: a pace update from a transit at a pair: the flags, the filter, and a change passed to the matcher
and the scheduler. -/
def Part.updatePace (p : Part) (k : Track) (i : PairId) (transit : Option Nat) : Part :=
  match transit with
  | none => p
  | some d =>
    let r := p.passage k
    let a := axlePace d ((p.record k).spacing i)
    let pace := filterPace r.pace a.pace
    let p := p.setPassage k { r with
      pace := some pace
      flags := { r.flags with slow := r.flags.slow || a.slow, fast := r.flags.fast || a.fast } }
    if r.pace = some pace then p else (p.moveCoupling k).retimePassage k r.number

/-! ### The classes of axles (R36 to R40) -/

/-- R36: a passage opens at an event. -/
def Passage.opened (r : Passage) (e : AxleEvent) : Passage :=
  { Passage.vacant (r.number + 1) with state := .running, entryPair := some e.pair, openTime := e.time }

/-- R38, R39: an axle leaves: inside is decremented, or COUNT_ERROR is set when it is 0 already. -/
def Passage.leave (r : Passage) : Passage :=
  if r.inside = 0 then { r with flags := { r.flags with countError := true } } else { r with inside := r.inside - 1 }

/-- R37: an entry axle. -/
def Part.entryAxle (p : Part) (k : Track) (e : AxleEvent) : Part :=
  let r := p.passage k
  let p := p.setPassage k { r with entries := r.entries + 1, inside := r.inside + 1 }
  let p := p.updatePace k e.pair e.transit
  if (p.passage k).flags.matchSuspended then p else p.handAxle k e (r.entries + 1)

/-- R38: an exit axle. -/
def Part.exitAxle (p : Part) (k : Track) (e : AxleEvent) : Part :=
  let r := (p.passage k).leave
  (p.setPassage k { r with exits := r.exits + 1 }).updatePace k e.pair e.transit

/-- R39: a backout. -/
def Part.backout (p : Part) (k : Track) : Part :=
  let r := (p.passage k).leave
  let p := p.setPassage k { r with backouts := r.backouts + 1, flags := { r.flags with reversal := true } }
  let p := p.cancelPassage k r.number .reversal
  p.setPassage k (p.passage k).suspend

/-- R40: a conflict. -/
def Part.conflict (p : Part) (k : Track) : Part :=
  let r := p.passage k
  let p := p.setPassage k { r with inside := r.inside + 1, flags := { r.flags with conflict := true } }
  let p := p.cancelPassage k r.number .conflict
  p.setPassage k (p.passage k).suspend

/-- 03 §3.3: an event in an open passage, by its pair and its direction. -/
def Part.classify (p : Part) (k : Track) (e : AxleEvent) : Part :=
  if (p.passage k).entryPair = some e.pair then
    match e.direction with
    | .outward => p.backout k
    | _ => p.entryAxle k e
  else
    match e.direction with
    | .inward => p.conflict k
    | _ => p.exitAxle k e

/-! ### Taking an event (R35) -/

/-- R45: the silence deadline of a take: silence_s seconds past the present. -/
def Part.silenceAt (p : Part) (k : Track) : Time := p.now + usTime ((p.record k).silenceS * 1000000)

/-- R35, steps 2 to 4: the silence deadline moves, a loss mark flags and suspends the passage, and a record in CLEARING
returns to RUNNING. -/
def Passage.taken (r : Passage) (deadline : Time) (marked : Bool) : Passage :=
  let r := { r with silence := some deadline, state := .running }
  if marked then { r with flags := { r.flags with axleLoss := true } }.suspend else r

/-- R35, step 6, and R42: with no axle inside, the record enters CLEARING when the settled occupancy state is OCCUPIED,
and else a close is due at the end of the handling, which begins here. That the settled state is read at the take, not
at the end of the handling, is the model's choice (DESIGN CHOICE, log 31). -/
def Part.examineInside (p : Part) (k : Track) : Part :=
  let r := p.passage k
  let empty := decide (r.inside = 0)
  let occupied := (p.front.get k).occupancy.occupied
  p.setTracker k { p.trackers.get k with
    passage := { r with state := if empty && occupied then .clearing else r.state }
    handling := some { takenAt := p.now, closeDue := empty && !occupied, deferred := [] } }

/-- R35, steps 2 to 6, in an open passage. -/
def Part.handleEvent (p : Part) (k : Track) (e : AxleEvent) (marked : Bool) : Part :=
  ((p.setPassage k ((p.passage k).taken (p.silenceAt k) marked)).classify k e).examineInside k

/-- An event of a track is ready to be taken: its queue holds one and no handling is in progress (R10, R35). -/
def Part.takeDue (p : Part) (k : Track) : Bool :=
  !(p.front.get k).queue.isEmpty && decide ((p.trackers.get k).handling = none)

/-- R12: the queue without its head; the latch clears when the queue becomes empty. -/
def FrontEnd.dequeue (f : FrontEnd) : FrontEnd :=
  { f with queue := f.queue.tail, loss := f.loss && !f.queue.tail.isEmpty }

/-- R12, R35, R36: the tracker takes the event at the head of its track's queue. That the handling of a stray event
ends at the take itself, with no EVENT_HANDLING_END, is the model's choice (DESIGN CHOICE, log 12). -/
def Part.takeEvent (p : Part) (k : Track) : Part :=
  if p.takeDue k then
    let f := p.front.get k
    match f.queue with
    | [] => p
    | e :: _ =>
      let p := p.setFront k f.dequeue
      if (p.passage k).state = .vacant then
        if e.direction = .outward then
          p.setTracker k { p.trackers.get k with stray := (p.trackers.get k).stray + 1 }
        else (p.setPassage k ((p.passage k).opened e)).handleEvent k e f.loss
      else p.handleEvent k e f.loss
  else p

/-! ### The end of a handling (R35, R42, R69) -/

/-- The coupling expiry that is taken at the end of a handling (R69). -/
def Part.couplingAtEnd (p : Part) (k : Track) : Part := if p.couplingPast k then p.expireCoupling k else p

/-- R35, R42, R49, R69: the handling of an event ends: the close due to it, then what was deferred in the order in
which it came, and a coupling expiry due by then, before them or after them. -/
def Part.endHandling (p : Part) (k : Track) (couplingFirst : Bool) : Part :=
  match (p.trackers.get k).handling with
  | none => p
  | some h =>
    let p := p.setTracker k { p.trackers.get k with handling := none }
    let p := if couplingFirst then p.couplingAtEnd k else p
    let p := if h.closeDue then p.closePassage k .normal else p
    let p := h.deferred.foldl (Part.takeDeferred k) p
    p.couplingAtEnd k

/-! ### Timers of a passage -/

/-- The silence deadline of an open passage is due; it cannot expire during a handling (R35, R45). -/
def Part.silenceDue (p : Part) (k : Track) : Bool :=
  decide ((p.passage k).state ≠ .vacant) && decide ((p.trackers.get k).handling = none) &&
  ((p.passage k).silence.map (fun t => reached p.now t)).getD false

/-- R45: the silence timer expires and the passage closes TIMED_OUT. -/
def Part.silenceExpiry (p : Part) (k : Track) : Part :=
  if p.silenceDue k then p.closePassage k .timedOut else p

/-- The coupling timer of a track is due outside a handling (R69). -/
def Part.couplingDue (p : Part) (k : Track) : Bool :=
  decide ((p.trackers.get k).handling = none) && p.couplingPast k

/-- R69: the coupling timer expires. -/
def Part.couplingExpiry (p : Part) (k : Track) : Part := if p.couplingDue k then p.expireCoupling k else p

/-! ### Occupancy and record writes at the front end and the tracker -/

/-- R14: an occupancy input changes level. -/
def Part.occupancyChange (p : Part) (k : Track) : Part :=
  let f := p.front.get k
  p.setFront k { f with occupancy := f.occupancy.change (p.record k) p.now }

/-- R14, R43: the settling timer expires, and the change is reported to the tracker. -/
def Part.settleExpiry (p : Part) (k : Track) : Part :=
  if p.settleDue k then
    let f := p.front.get k
    let o := f.occupancy.settle (p.record k)
    (p.setFront k { f with occupancy := o }).reachTracker k (.report o.occupied)
  else p

/-- R5, R15, R24: a record replaces that of its track and is applied to the front end at once. -/
def Part.writeRecord (p : Part) (k : Track) (r : TrackRecord) : Part :=
  let f := p.front.get k
  let q := { p with records := p.records.set k r, front := p.front.set k (f.onRecord r p.now) }
  if leavesOccupied f r then q.reachTracker k (.report false) else q

/-- R29: the four records of a page replace those in force, track 1 first. -/
def Part.loadRecords (p : Part) (q : Quad TrackRecord) : Part :=
  Track.all.foldl (fun p k => p.writeRecord k (q.get k)) p

/-- R1, R4: HEAD_CLEAR takes a head out of FAULT: it begins watching. -/
def Part.clearHead (p : Part) (k : Track) (i : PairId) (h : HeadId) : Part :=
  let r := p.record k
  p.setHead k i h ((p.head k i h).watch (r.headPolarity i h) r.qualifyUs r.stuckMs p.now)

end Sys2Proof.Machine
end

