-- ==== Sys2Proof/Machine/Management.lean ====
section
/-! DEFINITION. The management responder (10): mode changes, resets, the calibration page, and the running of every
command of the catalogue against the block it concerns. -/

namespace Sys2Proof.Machine

/-! ### Mode changes (R174, R175) -/

/-- R13: the front end of every track at a change to SERVICE. -/
def Part.emptyQueues (p : Part) : Part := { p with front := p.front.map FrontEnd.emptyQueue }

/-- What one block does when the mode changes from `old` to `new` (R13, R53, R112, R113, R126). -/
def Part.blockTakesMode (old new : Mode) (p : Part) (b : ModeBlock) : Part :=
  match b with
  | .sensors => if new = .service then p.emptyQueues else p
  | .scheduler =>
    match old, new with
    | _, .service => p.schedulerToService
    | .onLine, .standby => p.schedulerToStandby
    | _, _ => p
  | .arbiter => if old = .onLine then p.setLar p.lar.clear else p
  | .tracker k => if new = .service then p.reachTracker k .toService else p

/-- Every block that reacts to a mode change. -/
def ModeBlock.all : List ModeBlock :=
  [.sensors, .scheduler, .arbiter, .tracker .t1, .tracker .t2, .tracker .t3, .tracker .t4]

/-- An order over every block: the one given, each block once, then the blocks that it leaves out (log 10). -/
def fullOrder (order : List ModeBlock) : List ModeBlock :=
  order.eraseDups ++ ModeBlock.all.filter (fun b => !order.contains b)

/-- R175: the change is passed to every block. -/
def Part.passMode (p : Part) (old new : Mode) (order : List ModeBlock) : Part :=
  (fullOrder order).foldl (Part.blockTakesMode old new) p

/-- R175, R26: some track record in force has enabled = yes. -/
def Part.someTrackEnabled (p : Part) : Bool := p.records.toList.any TrackRecord.enabled

/-- R174, R175: MODE_SET. The mode, the recorder address and the reply come in that order, then the blocks. -/
def Part.runModeSet (order : List ModeBlock) (r : CommandRecord) (p : Part) : Part :=
  match Mode.ofCode (r.byteAt 0) with
  | none => p.refuse r .badArgument
  | some new =>
    let old := p.mode
    if new = old then (p.setMgr { p.mgr with recorder := some r.source }).reply r .ok 0 .empty
    else if new ≠ .service ∧ p.someTrackEnabled = false then p.refuse r .notReady
    else
      ((p.setMgr { p.mgr with mode := new, recorder := some r.source }).reply r .ok 0 .empty).passMode old new order

/-! ### Reading commands (R176, R177) -/

/-- R17. -/
def HeadState.report : HeadState → HeadReport
  | .idle => .idle
  | .candidate .. => .candidate
  | .held _ => .held
  | .fault => .fault

def FrontEnd.report (f : FrontEnd) : FrontReport :=
  let hs := [f.pair1.outer, f.pair1.inner, f.pair2.outer, f.pair2.inner]
  { heads := hs.map (fun h => h.state.report)
    waiting := [f.pair1.waiting.map WaitingPulse.head, f.pair2.waiting.map WaitingPulse.head]
    queued := f.queue.length, loss := f.loss, occupied := f.occupancy.occupied
    pulses := hs.map Head.pulses, singles := [f.pair1.singles, f.pair2.singles], discarded := f.discarded }

/-- R56. -/
def Tracker.report (t : Tracker) : PassageReport :=
  { state := t.passage.state, number := t.passage.number, stray := t.stray }

/-- R129; the bank is held outside ON_LINE (R126). -/
def Part.lampReport (p : Part) : LampReport :=
  { bank := p.lar.bank, requests := p.lar.pendingSet, deferred := p.lar.deferral.map List.length,
    daylight := p.lar.daylight, held := decide (p.mode ≠ .onLine) }

/-- R149. -/
def Port.report (c : Port) : PortReport :=
  { up := c.up, activity := c.activity, job := c.job, fifo := c.fifo.length, overrun := c.overrun,
    expected := c.expected, fence := c.fence, stray := c.stray, discarded := c.discarded, losses := c.losses }

/-- R167. -/
def Part.retrievalReport (p : Part) : RetrievalReport :=
  { entries := p.fsc.fetches.map (fun e => (e.tag, e.phase)), delivering := p.fsc.engine.map ReadEngine.tag,
    frames := p.mgr.images.length }

/-- R177, R178. -/
def Part.responderReport (p : Part) : ResponderReport :=
  { mode := p.mode, recorder := p.mgr.recorder, time := p.now, intake := p.mgr.intake.length,
    control := p.mgr.control.length, images := p.mgr.images.length, waiting := p.mgr.waiting.length,
    link := p.mgr.link, page := p.cal.state, writing := p.cal.write.isSome, autoLoad := p.cal.autoLoad,
    intakeDrops := p.mgr.intakeDrops, noticeDrops := p.mgr.noticeDrops, ignored := p.mgr.ignored }

/-- R177: the contents of a STATUS reply. -/
def Part.statusReport (p : Part) : StatusReport :=
  { front := p.front.map FrontEnd.report, passages := p.trackers.map Tracker.report, lamp := p.lampReport,
    ports := p.ports.map Port.report, retrieval := p.retrievalReport, responder := p.responderReport }

def Part.runStatus (r : CommandRecord) (p : Part) : Part := p.reply r .ok 0 (.status p.statusReport)

def Part.runIdent (r : CommandRecord) (p : Part) : Part :=
  p.reply r .ok 0 (.ident Config.partCode Config.siliconRevision p.mgr.linkAddr)

def Part.runTimeRead (r : CommandRecord) (p : Part) : Part := p.reply r .ok 0 (.time p.now)

/-- R167: the report of one slot. -/
def Part.slotReport (p : Part) (n : Nat) : SlotReport :=
  let s := (p.slot n).getD .empty
  { state := s.state, tag := s.tag, track := trackOfSlot p.records n, lines := s.lines.length,
    fetched := p.slotFetched n }

def Part.runSlotRead (r : CommandRecord) (p : Part) : Part :=
  p.reply r .ok 0 (.slots ((List.range 64).map p.slotReport) (Track.all.map (regionOf p.records)))

/-- R117. -/
def Part.runScheduleRead (r : CommandRecord) (p : Part) : Part :=
  p.reply r .ok 0 (.schedule p.csc.tagCounter p.csc.jobs)

/-- R56. -/
def Part.runPassageRead (r : CommandRecord) (p : Part) : Part :=
  match Track.ofNumber (r.byteAt 0) with
  | none => p.refuse r .badArgument
  | some k => p.reply r .ok 0 (.passage (p.passage k))

/-! ### Track records (R21 to R28) -/

/-- R22: the slot counts with that of one track replaced. -/
def sumWith (q : Quad TrackRecord) (k : Track) (t : TrackRecord) : Nat := slotSum (q.set k t)

/-- R21 to R24: TRACK_WRITE in SERVICE. -/
def Part.runTrackWrite (r : CommandRecord) (p : Part) : Part :=
  match Track.ofNumber (r.byteAt 0) with
  | none => p.refuse r .badArgument
  | some k =>
    let bytes := r.args.drop 1
    match firstBadField bytes with
    | some n => p.reply r .badArgument n .empty
    | none =>
      let t := trackRecordOf bytes
      if 64 < sumWith p.records k t then p.refuse r .tableFull
      else if t.slots ≠ (p.record k).slots ∧ p.someSlotUsed = true then p.refuse r .inUse
      else (p.reply r .ok 0 .empty).writeRecord k t

/-- R26: TRACK_READ. -/
def Part.runTrackRead (r : CommandRecord) (p : Part) : Part :=
  match Track.ofNumber (r.byteAt 0) with
  | none => p.refuse r .badArgument
  | some k => p.reply r .ok 0 (.track (p.record k) (regionOf p.records k))

/-- R27: the trim of a track is replaced; in ON_LINE a change re-times the track's WAITING jobs (R101). The reply,
with the trim that results, is placed before any notice of the re-timing (log 17). -/
def Part.setTrim (p : Part) (r : CommandRecord) (k : Track) (t : Int) : Part :=
  let old := p.record k
  let p := (p.reply r .ok 0 (.trim t))
  let p := { p with records := p.records.set k { old with trim := t } }
  if p.mode = .onLine ∧ t ≠ old.trim then p.retime k (fun _ => true) else p

/-- R27: TRIM_SET. -/
def Part.runTrimSet (r : CommandRecord) (p : Part) : Part :=
  match Track.ofNumber (r.byteAt 0) with
  | none => p.refuse r .badArgument
  | some k =>
    let t := signedByte (r.byteAt 1)
    if -64 ≤ t ∧ t ≤ 63 then p.setTrim r k t else p.refuse r .badArgument

/-- R27: a step within the limits of the trim. -/
def steppedTrim (t step : Int) : Int :=
  if step = 1 then (if t = 63 then t else t + 1) else if t = -64 then t else t - 1

/-- R27: TRIM_STEP. -/
def Part.runTrimStep (r : CommandRecord) (p : Part) : Part :=
  match Track.ofNumber (r.byteAt 0) with
  | none => p.refuse r .badArgument
  | some k =>
    let step := signedByte (r.byteAt 1)
    if step = 1 ∨ step = -1 then p.setTrim r k (steppedTrim (p.record k).trim step) else p.refuse r .badArgument

/-- R28: the number of the first lamp field out of range, among 20 to 23. -/
def firstBadLampField (priority mask code daylight : Nat) : Option Nat :=
  if 7 < priority then some 20 else if 1 < mask then some 21 else if 7 < code then some 22
  else if 1 < daylight then some 23 else none

/-- R28: LAMP_SET. -/
def Part.runLampSet (r : CommandRecord) (p : Part) : Part :=
  match Track.ofNumber (r.byteAt 0) with
  | none => p.refuse r .badArgument
  | some k =>
    match firstBadLampField (r.byteAt 1) (r.byteAt 2) (r.byteAt 3) (r.byteAt 4) with
    | some n => p.reply r .badArgument n .empty
    | none =>
      { p.reply r .ok 0 .empty with
        records := p.records.set k { p.record k with
          lampPriority := r.byteAt 1, lampMask := decide (r.byteAt 2 = 1), recoveryCode := r.byteAt 3,
          daylightUse := decide (r.byteAt 4 = 1) } }

/-! ### Vehicle types (R31 to R33) -/

/-- R31, R32: TYPE_WRITE. -/
def Part.runTypeWrite (r : CommandRecord) (p : Part) : Part :=
  let t := typeArgsOf r.args
  match t.firstBad with
  | some n => p.reply r .badArgument n .empty
  | none => { p.reply r .ok 0 .empty with types := p.types.setIfInBounds t.index (some t.vehicleType) }

/-- R32: TYPE_CLEAR. -/
def Part.runTypeClear (r : CommandRecord) (p : Part) : Part :=
  let i := r.byteAt 0
  if i < 64 then { p.reply r .ok 0 .empty with types := p.types.setIfInBounds i none }
  else if i = 255 then { p.reply r .ok 0 .empty with types := Vector.replicate 64 none }
  else p.refuse r .badArgument

/-- R33: TYPE_READ. -/
def Part.runTypeRead (r : CommandRecord) (p : Part) : Part :=
  let i := r.byteAt 0
  if i < 64 then p.reply r .ok 0 (.vehicleType (p.vehicleType i)) else p.refuse r .badArgument

/-! ### HEAD_CLEAR (R4) -/

def Part.runHeadClear (r : CommandRecord) (p : Part) : Part :=
  match Track.ofNumber (r.byteAt 0), PairId.ofNumber (r.byteAt 1), HeadId.ofCode (r.byteAt 2) with
  | some k, some i, some h =>
    if (p.head k i h).state = .fault then
      if ((p.record k).headPolarity i h).names (p.head k i h).high then p.refuse r .busy
      else (p.reply r .ok 0 .empty).clearHead k i h
    else p.reply r .ok 0 .empty
  | _, _, _ => p.refuse r .badArgument

/-! ### Retrieval (R153, R155, R162) -/

/-- R153: SLOT_RELEASE. -/
def Part.runSlotRelease (r : CommandRecord) (p : Part) : Part :=
  match p.slotWithTag (BitVec.ofNat 8 (r.byteAt 0)) with
  | none => p.refuse r .noSuchTag
  | some n =>
    if ((p.slot n).map Slot.state) = some .filling ∨ p.slotFetched n = true then p.refuse r .inUse
    else (p.reply r .ok 0 .empty).setSlot n .empty

/-- R155: FETCH. That a BAD_ARGUMENT of check 1 carries the number 0 is the model's choice (DESIGN CHOICE, log 36). -/
def Part.runFetch (r : CommandRecord) (p : Part) : Part :=
  let t : Tag := BitVec.ofNat 8 (r.byteAt 0)
  let first := fieldAt r.args 1 2
  let count := fieldAt r.args 3 2
  if 4096 ≤ first ∨ 4096 < count then p.refuse r .badArgument
  else
    match p.slotWithTag t with
    | none => p.refuse r .noSuchTag
    | some n =>
      if (p.fetchOf t).isSome then p.refuse r .duplicate
      else if 8 ≤ p.fsc.fetches.length then p.refuse r .queueFull
      else
        let st := ((p.slot n).map Slot.state).getD .held
        let q := p.reply r .accepted 0 (.fetch t n st)
        (q.setFsc { q.fsc with
          fetches := q.fsc.fetches ++
            [{ token := r.token, source := r.source, tag := t, slot := n, first := first, count := count,
               phase := .waiting, requested := none, delivered := 0, frames := 0, lastLine := none,
               cancelled := false, done := none }] }).kickEngine

/-- R162: an entry in DELIVERING is marked, and a complete frame that the engine keeps becomes the last. -/
def Part.cancelDelivery (p : Part) (t : Tag) : Part :=
  let p := p.modFetch t (fun e => { e with cancelled := true })
  p.setFsc { p.fsc with engine := p.fsc.engine.map (fun g =>
    { g with kept := g.kept.map (fun f => { f with last := true }) }) }

/-- R162: what a cancellation does to the entry of a tag, by its phase. -/
def Part.cancelFetch (p : Part) (t : Tag) : Part :=
  match p.fetchOf t with
  | none => p
  | some e =>
    match e.phase with
    | .waiting => p.finishFetch { e with cancelled := true }
    | .delivering => p.cancelDelivery t
    | .sending => p.modFetch t (fun e => { e with cancelled := true })
    | .finishing => p

/-- R162, R164: FETCH_CANCEL. A read begun for the entry's own delivery completes before the cancellation. Where that
read completes a frame, the header's frame among them, R164 has the frame done before the cancellation takes effect and
R162 has a frame under assembly become the last; that the frame so completed is placed unmarked where the image data
queue has room, so that the next line frame is the last one, is the model's choice (DESIGN CHOICE, log 27). -/
def Part.runFetchCancel (r : CommandRecord) (p : Part) : Part :=
  let t : Tag := BitVec.ofNat 8 (r.byteAt 0)
  match p.fetchOf t with
  | none => p.refuse r .noSuchTag
  | some e =>
    let q := p.reply r .ok 0 .empty
    (if e.phase = .delivering then q.completeRead else q).cancelFetch t

/-! ### The calibration page (R178 to R181) -/

/-- R178: the page is valid. -/
def Page.valid (g : Page) : Bool := g.agrees && recordsOk g.records

/-- R178: the page state that a reading of the page decides. -/
def Page.state (g : Page) : PageState := if g.valid then .valid g.flag else .invalid

/-- R178, R179: a page write starts: the page is invalid from now on, and the reply is deferred. That the page holds
the records and the flag from before the write until the write verifies, and keeps them where a power-on reset ends the
write, is the model's choice (DESIGN CHOICE, log 9). -/
def Part.startWrite (p : Part) (r : CommandRecord) (records : Quad TrackRecord) (flag : Bool) : Part :=
  { p with cal := { p.cal with
      page := { p.cal.page with agrees := false }
      state := .invalid
      write := some { records := records, flag := flag, started := p.now, source := r.source, code := r.code,
                      token := r.token } } }

/-- R179: CAL_STORE. -/
def Part.runCalStore (r : CommandRecord) (p : Part) : Part :=
  if 1 < r.byteAt 0 then p.refuse r .badArgument
  else p.startWrite r p.records (decide (r.byteAt 0 = 1))

/-- R179: CAL_AUTOLOAD. -/
def Part.runCalAutoload (r : CommandRecord) (p : Part) : Part :=
  if 1 < r.byteAt 0 then p.refuse r .badArgument
  else
    let p := { p with cal := { p.cal with state := p.cal.page.state } }
    if p.cal.page.valid then p.startWrite r p.cal.page.records (decide (r.byteAt 0 = 1))
    else p.refuse r .badPage

/-- R180: the page's slot counts differ from those in force. -/
def slotsDiffer (a b : Quad TrackRecord) : Bool :=
  Track.all.any (fun k => decide ((a.get k).slots ≠ (b.get k).slots))

/-- R180: CAL_LOAD. -/
def Part.runCalLoad (r : CommandRecord) (p : Part) : Part :=
  let p := { p with cal := { p.cal with state := p.cal.page.state } }
  if p.cal.page.valid then
    if slotsDiffer p.cal.page.records p.records && p.someSlotUsed then p.refuse r .inUse
    else (p.reply r .ok 0 .empty).loadRecords p.cal.page.records
  else p.refuse r .badPage

/-- R179: a page write ends: the page holds what was to be written and is VALID when it verifies, else it is
INVALID; the deferred reply takes a place in the control queue or waits for one (R171). That the page of a write that
does not verify holds the records and the flag from before the write is the model's choice (DESIGN CHOICE, log 9). -/
def Part.endWrite (p : Part) (verified : Bool) : Part :=
  match p.cal.write with
  | none => p
  | some w =>
    let reply : ControlRecord :=
      { dest := w.source, body := .reply w.code w.token (if verified then .ok else .storeFailed) 0 .empty }
    let page : Page := if verified then { records := w.records, flag := w.flag, agrees := true } else p.cal.page
    ({ p with cal := { p.cal with
        page := page, write := none
        state := if verified then .valid w.flag else .invalid } } : Part).placeOrWait reply

/-! ### Resets (R181 to R183) -/

/-- R181: auto-load after a power-on reset. -/
def Part.autoLoad (p : Part) : Part :=
  let g := p.cal.page
  let p := { p with cal := { p.cal with state := g.state } }
  if g.valid then
    if g.flag then
      let p := { p with cal := { p.cal with autoLoad := .loaded } }
      p.loadRecords g.records
    else { p with cal := { p.cal with autoLoad := .flagClear } }
  else { p with cal := { p.cal with autoLoad := .invalid } }

/-- R183 and the power-on states of every block: what the reset keeps is the page (invalid if a write was in
progress, with what it held before the write, log 9), the link address, and the levels of the lines into the part
(logs 6 and 8). -/
def Part.powerOnState (p : Part) : Part :=
  { tb := { time := 0, sub := 0 }
    records := .all .unset
    types := Vector.replicate 64 none
    front := p.front.map FrontEnd.powerOn
    trackers := .all .reset
    csc := .reset
    lar := .reset p.lar.daylight
    ports := .all .reset
    fsc := .reset
    mgr := .reset p.mgr.linkAddr p.mgr.link
    cal := { page := p.cal.page, state := .invalid, write := none, autoLoad := .invalid }
    free := p.free }

/-- R181, R183: a power-on reset with its auto-load. -/
def Part.powerOn (p : Part) : Part := p.powerOnState.autoLoad

/-- R165: RESET_PART at a slot. -/
def Slot.onReset (s : Slot) : Slot := if s.state = .filling then .empty else s

/-- R165: RESET_PART at the frame store controller; the search of the store path begins at CP1. A turn
in progress ends with the reset (DEDUCED, log 37). -/
def Store.onReset (s : Store) : Store :=
  { slots := s.slots.map Slot.onReset, turn := none, last := .readEngine, fetches := [], engine := none }

/-- R55: RESET_PART at the tracker of a track: the stray count, and the record at once or when its handling ends. That
the stray count of a tracker that handles an event becomes 0 at once, with the record alone waiting for the end of the
handling, is the model's choice (DESIGN CHOICE, log 35). -/
def Part.resetTracker (p : Part) (k : Track) : Part :=
  (p.setTracker k { p.trackers.get k with stray := 0 }).reachTracker k .reset

/-- R19: RESET_PART at the front end of every track. -/
def Part.resetFront (p : Part) : Part :=
  { p with front :=
    { one := p.front.one.onReset p.records.one p.now
      two := p.front.two.onReset p.records.two p.now
      three := p.front.three.onReset p.records.three p.now
      four := p.front.four.onReset p.records.four p.now } }

/-- R182: RESET_PART. The mode is SERVICE, the blocks take the reset (R19, R55, R116, R128, R147, R165), the intake,
the control queue, the waiting records and the image data queue are discarded, the three counts are 0, and the reply
carries the numbers discarded. A store turn begun before ends with the reset, and its line goes into a slot that is then
freed (R147). That this holds too where the line is the last one outstanding of a DRAINING job, with no drain end under
R142, so that the slot is FREE and not HELD, and that the path is free at once, is read into R147 and R165 (DEDUCED,
log 37). -/
def Part.runResetPart (r : CommandRecord) (p : Part) : Part :=
  let commands := p.mgr.intake.length
  let records := p.mgr.control.length + p.mgr.waiting.length
  let p := (p.resetFront.lampReset)
  let p := { p with csc := { p.csc with jobs := [] }, ports := p.ports.map Port.onReset, fsc := p.fsc.onReset }
  let p := Track.all.foldl Part.resetTracker p
  let p := p.setMgr { p.mgr with
    mode := .service, intake := [], control := [], waiting := [], images := [],
    intakeDrops := 0, noticeDrops := 0, ignored := 0 }
  p.reply r .ok 0 (.reset commands records)

end Sys2Proof.Machine
end

