-- ==== Sys2Proof/Machine/Run.lean ====
section
/-! DEFINITION. How a command acts: on the part, and never on the queue of the commands that wait. -/

namespace Sys2Proof.Machine

/-- The outcome of a command that changes the part and leaves the queue alone. Every command of the table has one:
no rule of the spec stops the part. -/
def State.onPart (s : State) (f : Part → Part) : Host.Outcome State Fault Refusal :=
  .next { s with part := f s.part }

end Sys2Proof.Machine
end

