-- ==== Sys2Proof/Machine/CameraRows.lean ====
section
/-! DEFINITION. The rows of the camera ports. -/

namespace Sys2Proof.Machine

/-- R132: TRIGGER. -/
def execTrigger (k : Track) (s : State) : Host.Outcome State Fault Refusal :=
  s.onPart (fun p => p.trigger k)

/-- R132: TRIGGER_PULSE_END. -/
def execTriggerPulseEnd (k : Track) (s : State) : Host.Outcome State Fault Refusal :=
  s.onPart (fun p => p.pulseEnd k)

/-- R130: CAMERA_SYNC_LOST. -/
def execCameraSyncLost (k : Track) (s : State) : Host.Outcome State Fault Refusal :=
  s.onPart (fun p => p.syncLost k)

/-- R130: CAMERA_SYNC_FOUND. -/
def execCameraSyncFound (k : Track) (s : State) : Host.Outcome State Fault Refusal :=
  s.onPart (fun p => p.syncFound k)

/-- R134 to R138: LINE_PACKET. -/
def execLinePacket (k : Track) (packet : LinePacket) (s : State) : Host.Outcome State Fault Refusal :=
  s.onPart (fun p => p.linePacket k packet)

/-- R141: STORE_TURN_WRITE. -/
def execStoreTurnWrite (k : Track) (s : State) : Host.Outcome State Fault Refusal :=
  s.onPart (fun p => p.writeTurn k)

end Sys2Proof.Machine
end

