-- ==== Sys2Proof/Machine/CaptureRows.lean ====
section
/-! DEFINITION. The rows of the capture schedule and the lamp bank. -/

namespace Sys2Proof.Machine

/-- R104, R105: WINDOW_OPEN. -/
def execWindowOpen (tag : Tag) (s : State) : Host.Outcome State Fault Refusal :=
  s.onPart (fun p => p.openIfDue tag)

/-- R106: WINDOW_END. -/
def execWindowEnd (tag : Tag) (s : State) : Host.Outcome State Fault Refusal :=
  s.onPart (fun p => p.windowEnd tag)

/-- R107: DRAIN_DEADLINE. -/
def execDrainDeadline (tag : Tag) (s : State) : Host.Outcome State Fault Refusal :=
  s.onPart (fun p => p.drainDeadline tag)

/-- R120: LAMP_REQUEST_TIME. -/
def execLampRequestTime (tag : Tag) (s : State) : Host.Outcome State Fault Refusal :=
  s.onPart (fun p => p.requestTime tag)

/-- R124: RECOVERY_END. -/
def execRecoveryEnd (s : State) : Host.Outcome State Fault Refusal :=
  s.onPart Part.recoveryEnd

end Sys2Proof.Machine
end

