-- ==== Sys2Proof/Machine/LinkRows.lean ====
section
/-! DEFINITION. The rows of the recorder link. -/

namespace Sys2Proof.Machine

/-- R168, R169: FRAME_ACCEPT. -/
def execFrameAccept (frame : List Byte) (s : State) : Host.Outcome State Fault Refusal :=
  s.onPart (fun p => p.acceptFrame frame)

/-- R173: TAKE_FOR_SENDING. -/
def execTakeForSending (s : State) : Host.Outcome State Fault Refusal :=
  s.onPart Part.takeForSending

/-- R173: FRAME_SENDING_END. -/
def execFrameSendingEnd (s : State) : Host.Outcome State Fault Refusal :=
  s.onPart Part.sendingEnd

/-- R173: ETHERNET_LINK_LOST. -/
def execEthernetLinkLost (s : State) : Host.Outcome State Fault Refusal :=
  s.onPart Part.linkLost

/-- R173: ETHERNET_LINK_FOUND. -/
def execEthernetLinkFound (s : State) : Host.Outcome State Fault Refusal :=
  s.onPart Part.linkFound

end Sys2Proof.Machine
end

