-- ==== Sys2Proof/Machine/ModeRows.lean ====
section
/-! DEFINITION. The rows that reset the part or change its mode. -/

namespace Sys2Proof.Machine

/-- R181, R183: POWER_ON_RESET. -/
def execPowerOnReset (s : State) : Host.Outcome State Fault Refusal :=
  s.onPart Part.powerOn

/-- R182: RESET_PART. -/
def execResetPart (s : State) : Host.Outcome State Fault Refusal :=
  s.onPart (fun p => p.runsCommand .resetPart Part.runResetPart)

/-- R175: MODE_SET. -/
def execModeSet (order : List ModeBlock) (s : State) : Host.Outcome State Fault Refusal :=
  s.onPart (fun p => p.runsCommand .modeSet (Part.runModeSet order))

end Sys2Proof.Machine
end

