-- ==== Sys2Proof/Machine/PassageRows.lean ====
section
/-! DEFINITION. The rows of the passage tracker and the axle pattern matcher. -/

namespace Sys2Proof.Machine

/-- R35 to R42: EVENT_TAKE. -/
def execEventTake (k : Track) (s : State) : Host.Outcome State Fault Refusal :=
  s.onPart (fun p => p.takeEvent k)

/-- R35, R42: EVENT_HANDLING_END. -/
def execEventHandlingEnd (k : Track) (couplingFirst : Bool) (s : State) : Host.Outcome State Fault Refusal :=
  s.onPart (fun p => p.endHandling k couplingFirst)

/-- R45: SILENCE_TIMER_EXPIRY. -/
def execSilenceTimerExpiry (k : Track) (s : State) : Host.Outcome State Fault Refusal :=
  s.onPart (fun p => p.silenceExpiry k)

/-- R69: COUPLING_TIMER_EXPIRY. -/
def execCouplingTimerExpiry (k : Track) (s : State) : Host.Outcome State Fault Refusal :=
  s.onPart (fun p => p.couplingExpiry k)

end Sys2Proof.Machine
end

