-- ==== Sys2Proof/Machine/ReadRows.lean ====
section
/-! DEFINITION. The rows that read the state of the part, HEAD_CLEAR, and the answer to an unknown command. -/

namespace Sys2Proof.Machine

/-- R170: UNKNOWN_COMMAND, a record that fails check 1. -/
def execUnknownCommand (s : State) : Host.Outcome State Fault Refusal :=
  s.onPart (fun p => p.runs none (fun r q => q.refuse r .badArgument))

/-- R176: IDENT. -/
def execIdent (s : State) : Host.Outcome State Fault Refusal :=
  s.onPart (fun p => p.runsCommand .ident Part.runIdent)

/-- R177: STATUS. -/
def execStatus (s : State) : Host.Outcome State Fault Refusal :=
  s.onPart (fun p => p.runsCommand .status Part.runStatus)

/-- R176: TIME_READ. -/
def execTimeRead (s : State) : Host.Outcome State Fault Refusal :=
  s.onPart (fun p => p.runsCommand .timeRead Part.runTimeRead)

/-- R4: HEAD_CLEAR. -/
def execHeadClear (s : State) : Host.Outcome State Fault Refusal :=
  s.onPart (fun p => p.runsCommand .headClear Part.runHeadClear)

/-- R117: SCHEDULE_READ. -/
def execScheduleRead (s : State) : Host.Outcome State Fault Refusal :=
  s.onPart (fun p => p.runsCommand .scheduleRead Part.runScheduleRead)

/-- R56: PASSAGE_READ. -/
def execPassageRead (s : State) : Host.Outcome State Fault Refusal :=
  s.onPart (fun p => p.runsCommand .passageRead Part.runPassageRead)

/-- R167: SLOT_READ. -/
def execSlotRead (s : State) : Host.Outcome State Fault Refusal :=
  s.onPart (fun p => p.runsCommand .slotRead Part.runSlotRead)

end Sys2Proof.Machine
end

