-- ==== Sys2Proof/Machine/RetrievalRows.lean ====
section
/-! DEFINITION. The rows of image retrieval. -/

namespace Sys2Proof.Machine

/-- R155: FETCH. -/
def execFetch (s : State) : Host.Outcome State Fault Refusal :=
  s.onPart (fun p => p.runsCommand .fetch Part.runFetch)

/-- R162: FETCH_CANCEL. -/
def execFetchCancel (s : State) : Host.Outcome State Fault Refusal :=
  s.onPart (fun p => p.runsCommand .fetchCancel Part.runFetchCancel)

/-- R153: SLOT_RELEASE. -/
def execSlotRelease (s : State) : Host.Outcome State Fault Refusal :=
  s.onPart (fun p => p.runsCommand .slotRelease Part.runSlotRelease)

/-- R158, R159: STORE_TURN_READ. -/
def execStoreTurnRead (s : State) : Host.Outcome State Fault Refusal :=
  s.onPart Part.readTurn

end Sys2Proof.Machine
end

