-- ==== Sys2Proof/Machine/SensorRows.lean ====
section
/-! DEFINITION. The rows of the wheel sensor front end. -/

namespace Sys2Proof.Machine

/-- R2: HEAD_INPUT_ACTIVE. -/
def execHeadInputActive (k : Track) (pair : PairId) (head : HeadId) (s : State) : Host.Outcome State Fault Refusal :=
  s.onPart (fun p => p.headInputActive k pair head)

/-- R3: HEAD_INPUT_INACTIVE. -/
def execHeadInputInactive (k : Track) (pair : PairId) (head : HeadId) (s : State) : Host.Outcome State Fault Refusal :=
  s.onPart (fun p => p.headInputInactive k pair head)

/-- R2: CANDIDATE_FIRST_SAMPLE. -/
def execCandidateFirstSample (k : Track) (pair : PairId) (head : HeadId) (s : State) : Host.Outcome State Fault Refusal :=
  s.onPart (fun p => p.firstSample k pair head)

/-- R2, R6: CANDIDATE_SECOND_SAMPLE. -/
def execCandidateSecondSample (k : Track) (pair : PairId) (head : HeadId) (s : State) : Host.Outcome State Fault Refusal :=
  s.onPart (fun p => p.secondSample k pair head)

/-- R3, R8: HEAD_STUCK_LIMIT. -/
def execHeadStuckLimit (k : Track) (pair : PairId) (head : HeadId) (s : State) : Host.Outcome State Fault Refusal :=
  s.onPart (fun p => p.stuckLimit k pair head)

/-- R7: PAIR_CEILING_EXPIRY. -/
def execPairCeilingExpiry (k : Track) (pair : PairId) (s : State) : Host.Outcome State Fault Refusal :=
  s.onPart (fun p => p.ceilingExpiry k pair)

/-- R14: OCCUPANCY_INPUT_CHANGE. -/
def execOccupancyInputChange (k : Track) (s : State) : Host.Outcome State Fault Refusal :=
  s.onPart (fun p => p.occupancyChange k)

/-- R14, R43: OCCUPANCY_SETTLE_EXPIRY. -/
def execOccupancySettleExpiry (k : Track) (s : State) : Host.Outcome State Fault Refusal :=
  s.onPart (fun p => p.settleExpiry k)

end Sys2Proof.Machine
end

