-- ==== Sys2Proof/Machine/TableRows.lean ====
section
/-! DEFINITION. The rows of the track records, the vehicle type table and the calibration page. -/

namespace Sys2Proof.Machine

/-- R21 to R24: TRACK_WRITE. -/
def execTrackWrite (s : State) : Host.Outcome State Fault Refusal :=
  s.onPart (fun p => p.runsCommand .trackWrite Part.runTrackWrite)

/-- R26: TRACK_READ. -/
def execTrackRead (s : State) : Host.Outcome State Fault Refusal :=
  s.onPart (fun p => p.runsCommand .trackRead Part.runTrackRead)

/-- R27: TRIM_SET. -/
def execTrimSet (s : State) : Host.Outcome State Fault Refusal :=
  s.onPart (fun p => p.runsCommand .trimSet Part.runTrimSet)

/-- R27: TRIM_STEP. -/
def execTrimStep (s : State) : Host.Outcome State Fault Refusal :=
  s.onPart (fun p => p.runsCommand .trimStep Part.runTrimStep)

/-- R28: LAMP_SET. -/
def execLampSet (s : State) : Host.Outcome State Fault Refusal :=
  s.onPart (fun p => p.runsCommand .lampSet Part.runLampSet)

/-- R31, R32: TYPE_WRITE. -/
def execTypeWrite (s : State) : Host.Outcome State Fault Refusal :=
  s.onPart (fun p => p.runsCommand .typeWrite Part.runTypeWrite)

/-- R32: TYPE_CLEAR. -/
def execTypeClear (s : State) : Host.Outcome State Fault Refusal :=
  s.onPart (fun p => p.runsCommand .typeClear Part.runTypeClear)

/-- R33: TYPE_READ. -/
def execTypeRead (s : State) : Host.Outcome State Fault Refusal :=
  s.onPart (fun p => p.runsCommand .typeRead Part.runTypeRead)

/-- R179: CAL_STORE. -/
def execCalStore (s : State) : Host.Outcome State Fault Refusal :=
  s.onPart (fun p => p.runsCommand .calStore Part.runCalStore)

/-- R180: CAL_LOAD. -/
def execCalLoad (s : State) : Host.Outcome State Fault Refusal :=
  s.onPart (fun p => p.runsCommand .calLoad Part.runCalLoad)

/-- R179: CAL_AUTOLOAD. -/
def execCalAutoload (s : State) : Host.Outcome State Fault Refusal :=
  s.onPart (fun p => p.runsCommand .calAutoload Part.runCalAutoload)

/-- R179: PAGE_WRITE_END. -/
def execPageWriteEnd (verified : Bool) (s : State) : Host.Outcome State Fault Refusal :=
  s.onPart (fun p => p.endWrite verified)

end Sys2Proof.Machine
end

