-- ==== Sys2Proof/Machine/Dispatch.lean ====
section
/-! DEFINITION. The dispatch of a command to its meaning: one arm per row of spec/opcode_table.json. -/

namespace Sys2Proof.Machine

def exec (i : Instr) (s : State) : Host.Outcome State Fault Refusal :=
  match i with
  | .powerOnReset => Sys2Proof.Machine.execPowerOnReset s
  | .frameAccept frame => Sys2Proof.Machine.execFrameAccept frame s
  | .unknownCommand => Sys2Proof.Machine.execUnknownCommand s
  | .ident => Sys2Proof.Machine.execIdent s
  | .status => Sys2Proof.Machine.execStatus s
  | .timeRead => Sys2Proof.Machine.execTimeRead s
  | .modeSet order => Sys2Proof.Machine.execModeSet order s
  | .resetPart => Sys2Proof.Machine.execResetPart s
  | .trackWrite => Sys2Proof.Machine.execTrackWrite s
  | .trackRead => Sys2Proof.Machine.execTrackRead s
  | .trimSet => Sys2Proof.Machine.execTrimSet s
  | .trimStep => Sys2Proof.Machine.execTrimStep s
  | .lampSet => Sys2Proof.Machine.execLampSet s
  | .typeWrite => Sys2Proof.Machine.execTypeWrite s
  | .typeClear => Sys2Proof.Machine.execTypeClear s
  | .typeRead => Sys2Proof.Machine.execTypeRead s
  | .headClear => Sys2Proof.Machine.execHeadClear s
  | .scheduleRead => Sys2Proof.Machine.execScheduleRead s
  | .passageRead => Sys2Proof.Machine.execPassageRead s
  | .slotRead => Sys2Proof.Machine.execSlotRead s
  | .fetch => Sys2Proof.Machine.execFetch s
  | .fetchCancel => Sys2Proof.Machine.execFetchCancel s
  | .slotRelease => Sys2Proof.Machine.execSlotRelease s
  | .calStore => Sys2Proof.Machine.execCalStore s
  | .calLoad => Sys2Proof.Machine.execCalLoad s
  | .calAutoload => Sys2Proof.Machine.execCalAutoload s
  | .pageWriteEnd verified => Sys2Proof.Machine.execPageWriteEnd verified s
  | .takeForSending => Sys2Proof.Machine.execTakeForSending s
  | .ethernetLinkLost => Sys2Proof.Machine.execEthernetLinkLost s
  | .ethernetLinkFound => Sys2Proof.Machine.execEthernetLinkFound s
  | .headInputActive k pair head => Sys2Proof.Machine.execHeadInputActive k pair head s
  | .headInputInactive k pair head => Sys2Proof.Machine.execHeadInputInactive k pair head s
  | .candidateFirstSample k pair head => Sys2Proof.Machine.execCandidateFirstSample k pair head s
  | .candidateSecondSample k pair head => Sys2Proof.Machine.execCandidateSecondSample k pair head s
  | .headStuckLimit k pair head => Sys2Proof.Machine.execHeadStuckLimit k pair head s
  | .pairCeilingExpiry k pair => Sys2Proof.Machine.execPairCeilingExpiry k pair s
  | .occupancyInputChange k => Sys2Proof.Machine.execOccupancyInputChange k s
  | .occupancySettleExpiry k => Sys2Proof.Machine.execOccupancySettleExpiry k s
  | .eventTake k => Sys2Proof.Machine.execEventTake k s
  | .eventHandlingEnd k couplingFirst => Sys2Proof.Machine.execEventHandlingEnd k couplingFirst s
  | .silenceTimerExpiry k => Sys2Proof.Machine.execSilenceTimerExpiry k s
  | .couplingTimerExpiry k => Sys2Proof.Machine.execCouplingTimerExpiry k s
  | .windowOpen tag => Sys2Proof.Machine.execWindowOpen tag s
  | .trigger k => Sys2Proof.Machine.execTrigger k s
  | .windowEnd tag => Sys2Proof.Machine.execWindowEnd tag s
  | .drainDeadline tag => Sys2Proof.Machine.execDrainDeadline tag s
  | .lampRequestTime tag => Sys2Proof.Machine.execLampRequestTime tag s
  | .recoveryEnd => Sys2Proof.Machine.execRecoveryEnd s
  | .cameraSyncLost k => Sys2Proof.Machine.execCameraSyncLost k s
  | .cameraSyncFound k => Sys2Proof.Machine.execCameraSyncFound k s
  | .linePacket k packet => Sys2Proof.Machine.execLinePacket k packet s
  | .storeTurnWrite k => Sys2Proof.Machine.execStoreTurnWrite k s
  | .storeTurnRead => Sys2Proof.Machine.execStoreTurnRead s
  | .frameSendingEnd => Sys2Proof.Machine.execFrameSendingEnd s
  | .triggerPulseEnd k => Sys2Proof.Machine.execTriggerPulseEnd k s

end Sys2Proof.Machine
end

