-- ==== Sys2Proof/Machine/Tick.lean ====
section
/-! DEFINITION. What happens while no command waits: the timed steps that have come due, and one count of the line
clock (logs 2 and 12). -/

namespace Sys2Proof.Machine

/-! ### One clock count of 10 ns -/

/-- R92: the line clock advances by one count; gantry time once every 100 counts. -/
def Timebase.advance (t : Timebase) : Timebase :=
  if t.sub = 99 then { time := t.time + 1, sub := 0 } else { t with sub := t.sub + 1 }

/-- R132: the trigger generator and the trigger pulse of a port run by one count. -/
def Port.advance (c : Port) : Port :=
  { c with
    generator := c.generator.map (fun g => { g with count := g.count - 1 })
    pulse := c.pulse.map (fun n => n - 1) }

/-- One clock count: a store turn begins if the path waits for one (R140, log 16), every running count advances, and
the daylight input takes a level that nothing fixes (log 6). -/
def Part.tick (p : Part) : Part :=
  let q := p.beginTurn
  { q with
    tb := q.tb.advance
    ports := q.ports.map Port.advance
    fsc := { q.fsc with turn := q.fsc.turn.map (fun u => { u with left := u.left - 1 }) }
    mgr := { q.mgr with wire := q.mgr.wire.map (fun w => { w with left := w.left - 1 }) }
    lar := { q.lar with daylight := Config.daylightLevel q.free }
    free := q.free + 1 }

/-! ### The timed steps that are due -/

/-- A command named when a condition holds. -/
def whenDue (b : Bool) (c : Instr) : List Instr := if b then [c] else []

/-- The timed steps of a head (R2, R3). -/
def Part.dueAtHead (p : Part) (k : Track) (i : PairId) (h : HeadId) : List Instr :=
  whenDue (p.firstSampleDue k i h) (.candidateFirstSample k i h) ++
  whenDue (p.secondSampleDue k i h) (.candidateSecondSample k i h) ++
  whenDue (p.stuckDue k i h) (.headStuckLimit k i h)

/-- The timed steps of a pair (R7). -/
def Part.dueAtPair (p : Part) (k : Track) (i : PairId) : List Instr :=
  p.dueAtHead k i .outer ++ p.dueAtHead k i .inner ++ whenDue (p.ceilingDue k i) (.pairCeilingExpiry k i)

/-- The end of a handling is due at the latest 2 µs after the take (R35, log 12). With a coupling expiry and a close
both due at it, either may be taken first (R49). -/
def Part.dueHandlingEnd (p : Part) (k : Track) : List Instr :=
  match (p.trackers.get k).handling with
  | none => []
  | some h =>
    if reached p.now (h.takenAt + usTime 2) then
      .eventHandlingEnd k true :: whenDue (p.couplingPast k) (.eventHandlingEnd k false)
    else []

/-- The timed steps of a track. -/
def Part.dueAtTrack (p : Part) (k : Track) : List Instr :=
  p.dueAtPair k .pair1 ++ p.dueAtPair k .pair2 ++
  whenDue (p.settleDue k) (.occupancySettleExpiry k) ++
  whenDue (p.takeDue k) (.eventTake k) ++
  p.dueHandlingEnd k ++
  whenDue (p.silenceDue k) (.silenceTimerExpiry k) ++
  whenDue (p.couplingDue k) (.couplingTimerExpiry k) ++
  whenDue (p.triggerDue k) (.trigger k) ++
  whenDue (p.pulseDue k) (.triggerPulseEnd k) ++
  whenDue (p.writeTurnDue k) (.storeTurnWrite k)

/-- The timed steps of a job (R104, R106, R107, R120). -/
def Part.dueAtJob (p : Part) (t : Tag) : List Instr :=
  whenDue (p.openDue t) (.windowOpen t) ++ whenDue (p.endDue t) (.windowEnd t) ++
  whenDue (p.deadlineDue t) (.drainDeadline t) ++ whenDue (p.requestDue t) (.lampRequestTime t)

/-- The row that runs a command of the catalogue; MODE_SET takes its order of blocks from a free value (log 10). -/
def Part.rowOf (p : Part) : Command → Instr
  | .ident => .ident
  | .status => .status
  | .timeRead => .timeRead
  | .modeSet => .modeSet (Config.blockOrder p.free)
  | .resetPart => .resetPart
  | .trackWrite => .trackWrite
  | .trackRead => .trackRead
  | .trimSet => .trimSet
  | .trimStep => .trimStep
  | .lampSet => .lampSet
  | .typeWrite => .typeWrite
  | .typeClear => .typeClear
  | .typeRead => .typeRead
  | .headClear => .headClear
  | .scheduleRead => .scheduleRead
  | .passageRead => .passageRead
  | .slotRead => .slotRead
  | .fetch => .fetch
  | .fetchCancel => .fetchCancel
  | .slotRelease => .slotRelease
  | .calStore => .calStore
  | .calLoad => .calLoad
  | .calAutoload => .calAutoload

/-- R169: the record at the head of the intake is run when the control queue has an unclaimed free place. -/
def Part.dueAtIntake (p : Part) : List Instr :=
  match p.mgr.intake with
  | [] => []
  | r :: _ =>
    whenDue p.freePlace (match r.command with
      | none => .unknownCommand
      | some c => p.rowOf c)

/-- R179: a page write ends at the latest 60 ms after its start, and may verify or not (log 12). -/
def Part.dueAtPage (p : Part) : List Instr :=
  match p.cal.write with
  | none => []
  | some w => if reached p.now (w.started + usTime 60000) then [.pageWriteEnd true, .pageWriteEnd false] else []

/-- Every timed step that is due. -/
def Part.dueSteps (p : Part) : List Instr :=
  Track.all.flatMap p.dueAtTrack ++
  p.csc.jobs.flatMap (fun j => p.dueAtJob j.tag) ++
  whenDue p.recoveryDue .recoveryEnd ++ whenDue p.readTurnDue .storeTurnRead ++
  whenDue p.wireDue .frameSendingEnd ++ whenDue p.sendDue .takeForSending ++
  p.dueAtIntake ++ p.dueAtPage

/-- The timed step that is taken next, of those due; nothing fixes which (log 2). -/
def Part.nextDue (p : Part) : Option Instr :=
  match p.dueSteps with
  | [] => none
  | l => l[Config.choice p.free % l.length]?

/-- The model's counter after a free value has been read. -/
def Part.bumpFree (p : Part) : Part := { p with free := p.free + 1 }

end Sys2Proof.Machine
end

