-- ==== Sys2Proof/Machine/Step.lean ====
section
/-! DEFINITION. One step of the machine: the command at the front of the queue, or the passage of time. -/

namespace Sys2Proof.Machine

/-- The command at the front of the queue runs on the machine with the rest of the queue. On an empty queue a timed
step that is due is taken, or the line clock advances by one count (logs 1 and 2). -/
def step (s : State) : Host.Outcome State Fault Refusal :=
  match s.pending with
  | c :: rest => exec c { s with pending := rest }
  | [] =>
    match s.part.nextDue with
    | some c => exec c { s with part := s.part.bumpFree }
    | none => .next { s with part := s.part.tick }

/-- The machine with the command that a word spells at the front of its queue; no word spells one. -/
def State.withFetchWord (s : State) (nbits w : Nat) : State :=
  match decodeTableWord nbits w with
  | some c => { s with pending := c :: s.pending }
  | none => s

end Sys2Proof.Machine
end

