-- ==== Sys2Proof/Safety.lean ====
section
/-! DEFINITION. What counts as a safe part: the bounds of its queues and tables, the ranges of its records in force, the
quiet of its axle event queues in SERVICE, the tags of its jobs, and a page that is being written. With it what the end
of a drain, the release of a lamp entry and the close of a passage leave, for the statements. -/

namespace Sys2Proof.Machine

/-- R21, R22: every record in force lies in the ranges of 02 §2.1, and the four slot counts sum to at most 64. -/
def Part.RecordsInRange (p : Part) : Prop := recordsOk p.records = true

/-- The places that the spec gives each queue: 4 in the command intake (R169), 16 in the control queue (R171), 2 in the
image data queue (R173), 8 in the fetch queue (R154), 32 in the schedule (R94), 16 in each axle event queue (R10) and
8 in each line FIFO (R138). -/
structure Part.WithinPlaces (p : Part) : Prop where
  intake  : p.mgr.intake.length ≤ 4
  control : p.mgr.control.length ≤ 16
  images  : p.mgr.images.length ≤ 2
  fetches : p.fsc.fetches.length ≤ 8
  jobs    : p.csc.jobs.length ≤ 32
  events  : ∀ k : Track, (p.front.get k).queue.length ≤ 16
  lines   : ∀ k : Track, (p.ports.get k).fifo.length ≤ 8

/-- R13: in SERVICE every axle event queue is empty with its LOSS latch clear. -/
def Part.QuietInService (p : Part) : Prop :=
  p.mode = .service → ∀ k : Track, (p.front.get k).queue = [] ∧ (p.front.get k).loss = false

/-- The line clock count inside the microsecond lies in 0..99 (R92). -/
def Part.ClockInRange (p : Part) : Prop := p.tb.sub < 100

/-- R95: no two jobs of the schedule carry the same tag, and none carries 0. -/
def Part.TagsDistinct (p : Part) : Prop := (p.csc.jobs.map Job.tag).Nodup ∧ ∀ j ∈ p.csc.jobs, j.tag ≠ 0

/-- R178, R179: while a page write is in progress the page's check value does not agree, and the page state is
INVALID. -/
def Part.PageGuarded (p : Part) : Prop :=
  ∀ w : PageWrite, p.cal.write = some w → p.cal.page.agrees = false ∧ p.cal.state = .invalid

/-- The bank of the part is in service for a job (07 §7.1). -/
def Bank.serving : Bank → Bool
  | .inService _ _ _ => true
  | _ => false

/-! ### The responder, in the terms of the claims -/

/-- The responder takes the record `r` next and finds in it the command `c` (R169 and check 1 of R170). -/
def Part.Takes (p : Part) (c : Command) (r : CommandRecord) (rest : List CommandRecord) : Prop :=
  p.mgr.intake = r :: rest ∧ p.freePlace = true ∧ r.command = some c

/-- The responder takes the record `r` next, and its command `c` passes checks 1 to 3 of R170. -/
def Part.Runs (p : Part) (c : Command) (r : CommandRecord) (rest : List CommandRecord) : Prop :=
  p.Takes c r rest ∧ c.takenIn p.mode = true ∧ (p.cal.write.isSome && r.keptByWrite c) = false

/-- The reply to the command of a record, as it stands in the control queue (R170). -/
def CommandRecord.answer (r : CommandRecord) (st : Status) (n : Nat) (c : Reply) : ControlRecord :=
  { dest := r.source, body := .reply r.code r.token st n c }

/-- The part after a record has left the intake and its reply stands at the tail of the control queue, nothing else
changed (R170). -/
def Part.answered (p : Part) (r : CommandRecord) (rest : List CommandRecord) (st : Status) (n : Nat) (c : Reply) :
    Part :=
  { p with mgr := { p.mgr with intake := rest, control := p.mgr.control ++ [r.answer st n c] } }

/-- The notice of a block, as it stands in the control queue (R172). -/
def Part.noticeRecord (p : Part) (n : Notice) : ControlRecord :=
  { dest := p.mgr.recorder.getD broadcast, body := .notice n }

/-- R156, R157: the read engine of the part `t` has become idle, or an entry has become eligible at an idle one, with
`fetches` in the fetch queue: the delivery of the first WAITING entry whose slot is HELD starts, its range fixed from the
lines of the slot, and with no such entry the engine is idle. -/
structure Part.DeliveryStarted (t : Part) (fetches : List FetchEntry) : Prop where
  idle   : (∀ e ∈ fetches, e.phase = .waiting → ∀ x : Slot, t.slot e.slot = some x → x.state ≠ .held) →
    t.fsc.engine = none ∧ t.fsc.fetches = fetches
  starts : ∀ (before : List FetchEntry) (e : FetchEntry) (after : List FetchEntry) (x : Slot),
    fetches = before ++ e :: after →
    (∀ y ∈ before, y.phase = .waiting → ∀ z : Slot, t.slot y.slot = some z → z.state ≠ .held) →
    e.phase = .waiting → t.slot e.slot = some x → x.state = .held →
    let m := x.lines.length
    t.fsc.engine = some
      { tag := e.tag, slot := e.slot, number := 0, lines := [], next := e.first,
        stop := if e.count = 0 then m else min (e.first + e.count) m, kept := none } ∧
    t.fsc.fetches = fetches.map (fun y => if y.tag == e.tag then
      { y with phase := .delivering, requested := some (if e.count = 0 then m - e.first else e.count) } else y)

/-- R108, R145, R152: `t` is the part `p` after the drain of a job has ended, the job `j` as it then stands: its slot,
which was `x`, is HELD with the lines given and the image header, the schedule holds the jobs given, and IMAGE_READY is
made or, without a free place, counted as dropped (R172). At an idle read engine an entry that waited for the slot is
eligible (R156); a delivery in progress goes on. -/
structure Part.DrainEnded (p t : Part) (j : Job) (n : Nat) (x : Slot) (lines : List Line) (kind : DrainEnd)
    (jobs : List Job) : Prop where
  slot   : t.slot n = some
    { state := .held, tag := x.tag, lines := lines,
      header := some
       { tag := j.tag, track := j.track, passage := j.passage, sightings := j.sightings, pace := j.pace,
         centre := j.centre, start := j.start, stop := j.stop, lampRequest := j.lampRequest,
         linePeriod := j.linePeriod, lineCount := j.lineCount, triggered := j.triggered, received := j.received,
         lost := j.lost, entries := lines.length, lamp := j.lamp, flags := j.flags, drainEnd := kind,
         drainTime := p.now } }
  jobs   : t.csc = { p.csc with jobs := jobs }
  idle   : p.fsc.engine = none → t.DeliveryStarted p.fsc.fetches
  busy   : p.fsc.engine ≠ none → t.fsc.engine = p.fsc.engine ∧ t.fsc.fetches = p.fsc.fetches
  notice : t.mgr =
    if p.freePlace then { p.mgr with control := p.mgr.control ++ [p.noticeRecord (.imageReady j n lines.length)] }
    else { p.mgr with noticeDrops := p.mgr.noticeDrops + 1 }

/-- R121, R123, R125: `a` is what the arbiter of `p` becomes when it is told that the window of the job of its lamp entry
`e` has ended, or that the job has ended. The entry is gone. A service ends, and the bank rests for the recovery time of
the track served, or is IDLE at once with a time of 0 (R124) and granted to a request that waits. A request is withdrawn,
from the pending set with the promotion of its track's first deferred entry, or from its track's deferral list; where the
bank is not IDLE or is held, nothing is granted then. -/
structure Part.LampFreed (p : Part) (e : LampEntry) (a : Arbiter) : Prop where
  gone      : a.entry e.tag = none
  unheld    : e.phase = .awaiting ∨ e.phase = .cleared → a = p.lar.removeEntry e.tag
  rests     : e.phase = .serving → recoveryMs (p.record e.track).recoveryCode ≠ 0 → a = { p.lar.removeEntry e.tag with
    bank := .recovery e.track (p.now + BitVec.ofNat 48 (recoveryMs (p.record e.track).recoveryCode * 1000)) }
  idle      : e.phase = .serving → recoveryMs (p.record e.track).recoveryCode = 0 →
    p.mode ≠ .onLine ∨ (p.lar.removeEntry e.tag).requests = [] → a = { p.lar.removeEntry e.tag with bank := .idle }
  regranted : e.phase = .serving → recoveryMs (p.record e.track).recoveryCode = 0 → p.mode = .onLine →
    ∀ w : LampEntry, (p.lar.removeEntry e.tag).winner p.records = some w → a.bank = .inService w.tag w.track p.now
  withdrawn : e.phase = .requested ∨ e.phase = .deferred → p.lar.bank ≠ .idle ∨ p.mode ≠ .onLine →
    p.lar.pendingSet.get e.track = some e.tag → p.lar.deferral.get e.track = [] →
    a = { p.lar.removeEntry e.tag with pendingSet := p.lar.pendingSet.set e.track none }
  promoted  : e.phase = .requested ∨ e.phase = .deferred → p.lar.bank ≠ .idle ∨ p.mode ≠ .onLine →
    p.lar.pendingSet.get e.track = some e.tag → ∀ (d : Tag) (l : List Tag), p.lar.deferral.get e.track = d :: l →
    a = { (p.lar.removeEntry e.tag).setPhase d .requested with
      pendingSet := p.lar.pendingSet.set e.track (some d), deferral := p.lar.deferral.set e.track l }
  dropped   : e.phase = .requested ∨ e.phase = .deferred → p.lar.bank ≠ .idle ∨ p.mode ≠ .onLine →
    p.lar.pendingSet.get e.track ≠ some e.tag → a = { p.lar.removeEntry e.tag with
      deferral := p.lar.deferral.set e.track ((p.lar.deferral.get e.track).filter (fun t => t != e.tag)) }

/-- R49, R50, R77: `final` is the passage record of a track that closes, as it stands when the matcher has finished. With
no complete candidate the axles that pended are unmatched; else the first complete candidate is declared, counted and
entered in the vehicle list or LIST_FULL, and its sightings are counted; nothing else of the record changes. The totals
wrap (log 32). A candidate whose type has been cleared leaves no vehicle and no unmatched axle (log 34). -/
structure Part.FinishedAs (p : Part) (k : Track) (final : Passage) : Prop where
  unmatched : (p.passage k).matcher.firstComplete = none →
    let r := p.passage k
    let n := r.matcher.pending.length
    final = { r with
      flags := { r.flags with unmatched := r.flags.unmatched || decide (0 < n) }
      matcher := { r.matcher with
        pending := [], candidates := [], coupling := none
        unmatched := r.matcher.unmatched + BitVec.ofNat 16 n } }
  declared  : ∀ (c : Candidate) (v : VehicleType) (a : PendingAxle) (l : List PendingAxle),
    (p.passage k).matcher.firstComplete = some c → p.vehicleType c.index = some v →
    (p.passage k).matcher.pending = a :: l →
    let r := p.passage k
    let m := r.matcher
    ∃ o : Orientation,
      (o = .unknown ↔ (∃ x ∈ m.candidates, x.index = c.index ∧ x.complete = true ∧ x.facing = .forward) ∧
        (∃ x ∈ m.candidates, x.index = c.index ∧ x.complete = true ∧ x.facing = .reversed)) ∧
      (o = .forward → c.facing = .forward) ∧ (o = .reversed → c.facing = .reversed) ∧
      final = { r with
        vehicleCount := r.vehicleCount + 1
        sightingCount := r.sightingCount + BitVec.ofNat 16
          (v.pantographs.map (fun x => if o = .unknown ∧ x ≠ v.span - x then 2 else 1)).sum
        flags := { r.flags with listFull := r.flags.listFull || decide (64 ≤ m.vehicles.length) }
        matcher := { m with
          pending := [], candidates := [], coupling := none
          vehicles := if m.vehicles.length < 64 then m.vehicles ++
              [{ index := c.index, orientation := o, firstAxle := a.ordinal, axles := l.length + 1 }]
            else m.vehicles } }
  cleared   : ∀ c : Candidate, (p.passage k).matcher.firstComplete = some c →
    p.vehicleType c.index = none ∨ (p.passage k).matcher.pending = [] →
    let r := p.passage k
    final = { r with matcher := { r.matcher with pending := [], candidates := [], coupling := none } }

/-- R49, R50, R172: `t` is the part `p` after a close of the passage of a track for a reason: the matcher finishes,
PASSAGE_CLOSED is made or, without a free place, counted as dropped, and the record returns to VACANT with its number
kept; nothing else changes. A record that is VACANT is not closed. -/
def Part.ClosedAs (p : Part) (k : Track) (reason : CloseReason) (t : Part) : Prop :=
  if (p.passage k).state = .vacant then t = p
  else ∃ final : Passage, p.FinishedAs k final ∧ t = { p with
    trackers := p.trackers.set k { p.trackers.get k with passage := Passage.vacant (p.passage k).number }
    mgr :=
      if p.freePlace then
        { p.mgr with control := p.mgr.control ++ [p.noticeRecord (.passageClosed k final p.now reason)] }
      else { p.mgr with noticeDrops := p.mgr.noticeDrops + 1 } }

/-- R43, R53, R55: `t` is the part `p` after a tracker has taken what waited for the end of a handling: a report that the
settled state is CLEAR closes a passage in CLEARING, and any other report changes nothing; a change to SERVICE closes an
open passage ABORTED; a RESET_PART clears the record, its number kept. -/
def Part.DeferredTaken (p : Part) (k : Track) (d : Deferred) (t : Part) : Prop :=
  match d with
  | .report occupied =>
    if (p.passage k).state = .clearing ∧ occupied = false then p.ClosedAs k .normal t else t = p
  | .toService => p.ClosedAs k .aborted t
  | .reset => t = p.setPassage k (Passage.vacant (p.passage k).number)

/-- R35: what waited for the end of a handling, taken one by one in the order in which it came. -/
def Part.AllDeferredTaken (k : Track) (t : Part) : List Deferred → Part → Prop
  | [], p => t = p
  | d :: rest, p => ∃ q : Part, p.DeferredTaken k d q ∧ Part.AllDeferredTaken k t rest q

/-- A machine with another part and the same queue of commands. -/
def State.withPart (s : State) (p : Part) : State := { s with part := p }

end Sys2Proof.Machine
end

