-- ==== Sys2Proof/WellFormed.lean ====
section
/-! DEFINITION. The operands that a command may carry, checked apart from what the command does. -/

namespace Sys2Proof

/-- A tag that names a job: 1 to 255 (00, Tags). -/
def Tag.named (t : Tag) : Bool := t != 0

/-- 11 §11.1: a frame with its 20-byte header and a body whose length fits its two-byte field; the shortest frame that
is examined holds its two addresses and its type value. -/
def frameLengthOk (frame : List Byte) : Bool :=
  decide (14 ≤ frame.length) && decide (frame.length ≤ 20 + 65535)

/-- An order of blocks names no block twice (R175). -/
def orderOk : List ModeBlock → Bool
  | [] => true
  | b :: rest => !rest.contains b && orderOk rest

/-- The operands of a command are ones that the part can meet. A line packet may carry any number of pixels, and a
record of the intake any argument bytes: the part tests those itself (R136, R170). -/
def Instr.wellFormed : Instr → Bool
  | .powerOnReset => true
  | .frameAccept frame => frameLengthOk frame
  | .unknownCommand => true
  | .ident => true
  | .status => true
  | .timeRead => true
  | .modeSet order => orderOk order
  | .resetPart => true
  | .trackWrite => true
  | .trackRead => true
  | .trimSet => true
  | .trimStep => true
  | .lampSet => true
  | .typeWrite => true
  | .typeClear => true
  | .typeRead => true
  | .headClear => true
  | .scheduleRead => true
  | .passageRead => true
  | .slotRead => true
  | .fetch => true
  | .fetchCancel => true
  | .slotRelease => true
  | .calStore => true
  | .calLoad => true
  | .calAutoload => true
  | .pageWriteEnd _ => true
  | .takeForSending => true
  | .ethernetLinkLost => true
  | .ethernetLinkFound => true
  | .headInputActive _ _ _ => true
  | .headInputInactive _ _ _ => true
  | .candidateFirstSample _ _ _ => true
  | .candidateSecondSample _ _ _ => true
  | .headStuckLimit _ _ _ => true
  | .pairCeilingExpiry _ _ => true
  | .occupancyInputChange _ => true
  | .occupancySettleExpiry _ => true
  | .eventTake _ => true
  | .eventHandlingEnd _ _ => true
  | .silenceTimerExpiry _ => true
  | .couplingTimerExpiry _ => true
  | .windowOpen tag => tag.named
  | .trigger _ => true
  | .windowEnd tag => tag.named
  | .drainDeadline tag => tag.named
  | .lampRequestTime tag => tag.named
  | .recoveryEnd => true
  | .cameraSyncLost _ => true
  | .cameraSyncFound _ => true
  | .linePacket _ _ => true
  | .storeTurnWrite _ => true
  | .storeTurnRead => true
  | .frameSendingEnd => true
  | .triggerPulseEnd _ => true

end Sys2Proof
end

