-- ==== Sys2Proof/Certificates/Slice0/Obligations.lean ====
section
/-! DEFINITION. The statements of the GD-4T model for the provers. -/

open Sys2Proof Sys2Proof.Machine

/-! ### The machine -/

/-- The command at the front of the queue runs on the machine with the rest of the queue. -/
def Obligations.StepRunsFrontCommand : Prop :=
  ∀ (c : Instr) (rest : List Instr) (p : Part),
    step { part := p, pending := c :: rest } = exec c { part := p, pending := rest }

/-- On an empty queue with no timed step due, the line clock advances by one count, gantry time once every 100 counts
(R92); the generator count and the pulse count of every port (R132) and the count of the wire (R173) fall by one. A
store turn in progress runs by one count; with none in progress the ready member that comes first in the cycle after
the member last served begins its 20 counts (R140, log 16). The daylight input takes some level (log 6). Nothing else
changes. That time passes on an empty queue alone is the model's choice (logs 1, 2 and 29). -/
def Obligations.IdleStepCountsTheLineClock : Prop :=
  ∀ s : State, s.pending = [] → s.part.dueSteps = [] →
    let p := s.part
    let ready : StoreMember → Prop
      | .port k => (p.ports.get k).fifo ≠ []
      | .readEngine => ∃ g : ReadEngine, p.fsc.engine = some g ∧ g.kept = none ∧ (g.number = 0 ∨ g.next < g.stop)
    let place : StoreMember → Nat
      | .port k => k.number
      | .readEngine => 5
    let behind (m : StoreMember) : Nat := (place m + 4 - place p.fsc.last) % 5
    ∃ (fsc : Store) (level : Bool), step s = .next (s.withPart { p with
        tb := if p.tb.sub = 99 then { time := p.tb.time + 1, sub := 0 } else { p.tb with sub := p.tb.sub + 1 }
        ports := p.ports.map (fun c => { c with
          generator := c.generator.map (fun g => { g with count := g.count - 1 })
          pulse := c.pulse.map (fun n => n - 1) })
        mgr := { p.mgr with wire := p.mgr.wire.map (fun w => { w with left := w.left - 1 }) }
        fsc := fsc, lar := { p.lar with daylight := level }, free := p.free + 1 }) ∧
      (∀ u : StoreTurn, p.fsc.turn = some u → fsc = { p.fsc with turn := some { u with left := u.left - 1 } }) ∧
      (p.fsc.turn = none → (∀ m : StoreMember, ¬ ready m) → fsc = p.fsc) ∧
      (∀ m : StoreMember, p.fsc.turn = none → ready m → (∀ x : StoreMember, ready x → behind m ≤ behind x) →
        fsc = { p.fsc with turn := some { member := m, left := 19 }, last := m })

/-- No command faults and none is refused, and none touches the queue of the commands that wait. That a row which is
not due, or names nothing, answers a next state, and that no command touches the queue, is the model's choice
(log 1). -/
def Obligations.EveryCommandAnswersNext : Prop :=
  ∀ (c : Instr) (s : State), ∃ t : State, exec c s = .next t ∧ t.pending = s.pending

/-! ### What only some commands change -/

/-- R20: a track record in force is written by TRACK_WRITE, CAL_LOAD and auto-load, by TRIM_SET, TRIM_STEP and
LAMP_SET, and a power-on reset unsets it; nothing else changes a record. R30: nothing but TYPE_WRITE and TYPE_CLEAR,
in SERVICE, and a power-on reset changes the vehicle type table. -/
def Obligations.TablesChangeOnlyByTheirCommands : Prop :=
  ∀ (c : Instr) (s t : State), exec c s = .next t →
    (t.part.records = s.part.records ∨
      c ∈ [.powerOnReset, .trackWrite, .trimSet, .trimStep, .lampSet, .calLoad]) ∧
    (t.part.types = s.part.types ∨ c = .powerOnReset ∨
      ((c = .typeWrite ∨ c = .typeClear) ∧ s.part.mode = .service))

/-- R175: only MODE_SET, RESET_PART and a power-on reset change the mode. R174: only MODE_SET and a power-on reset
change the recorder address. The link address is fixed (R183). That no command but a power-on reset changes gantry time
and the line clock rests on the model's choice that time passes on an empty queue alone (log 1). -/
def Obligations.ModeAndAddressesKept : Prop :=
  ∀ (c : Instr) (s t : State), exec c s = .next t →
    (t.part.mode = s.part.mode ∨ c = .resetPart ∨ c = .powerOnReset ∨ ∃ order, c = .modeSet order) ∧
    (t.part.mgr.recorder = s.part.mgr.recorder ∨ c = .powerOnReset ∨ ∃ order, c = .modeSet order) ∧
    t.part.mgr.linkAddr = s.part.mgr.linkAddr ∧
    (t.part.tb = s.part.tb ∨ c = .powerOnReset)

/-! ### Invariants that every step keeps -/

/-- R21, R22: the records in force stay in their ranges, and their slot counts sum to at most 64. -/
def Obligations.RecordsInRangeKept : Prop :=
  ∀ s t : State, s.part.RecordsInRange → step s = .next t → t.part.RecordsInRange

/-- R10, R94, R138, R154, R169, R171, R173: no queue ever holds more than its places. R95: no two jobs of the schedule
ever carry the same tag, and none carries 0. -/
def Obligations.PlacesKept : Prop :=
  ∀ s t : State, step s = .next t →
    (s.part.WithinPlaces → t.part.WithinPlaces) ∧ (s.part.TagsDistinct → t.part.TagsDistinct)

/-- R13: in SERVICE every axle event queue stays empty with its LOSS latch clear. R92: the line clock count inside the
microsecond stays in 0 to 99. R178, R179: a page that is being written stays invalid, with the page state INVALID. -/
def Obligations.QuietInServiceKept : Prop :=
  ∀ s t : State, step s = .next t →
    (s.part.QuietInService → t.part.QuietInService) ∧ (s.part.ClockInRange → t.part.ClockInRange) ∧
    (s.part.PageGuarded → t.part.PageGuarded)

/-- The machine right after reset meets the invariants. That the calibration page has never been written is the
model's choice (log 9). -/
def Obligations.ResetMeetsTheInvariants : Prop :=
  State.reset.part.RecordsInRange ∧ State.reset.part.WithinPlaces ∧ State.reset.part.TagsDistinct ∧
  State.reset.part.QuietInService ∧ State.reset.part.ClockInRange ∧ State.reset.part.PageGuarded

/-- R122, R126: a step that leaves the bank in a service it was not in before leaves the part in ON_LINE. -/
def Obligations.GrantsOnlyOnLine : Prop :=
  ∀ s t : State, step s = .next t → t.part.lar.bank.serving = true → t.part.lar.bank ≠ s.part.lar.bank →
    t.part.mode = .onLine

/-- R75, R113: a job that was not in the schedule before a step enters it in ON_LINE alone. -/
def Obligations.JobsMadeOnlyOnLine : Prop :=
  ∀ s t : State, step s = .next t → ∀ j ∈ t.part.csc.jobs,
    (∃ i ∈ s.part.csc.jobs, i.tag = j.tag) ∨ t.part.mode = .onLine

/-! ### Capture timing arithmetic (05) -/

/-- R80: the axle pace is the rounded quotient, clamped with FAST at 2,304 and with SLOW at 184,320; a transit within
the transit ceiling of R6 never exceeds 184,320 before the clamp. R47: the filtered pace lies between the old pace and
the axle pace, a difference of less than 4 leaves it unchanged, and any other moves it. -/
def Obligations.AxleAndFilteredPace : Prop :=
  (∀ transit spacing : Nat, 0 < spacing →
     let a := roundDiv (transit * 256) spacing
     let x := axlePace transit spacing
     2304 ≤ x.pace ∧ x.pace ≤ 184320 ∧ (x.fast = true ↔ a ≤ 2304) ∧ (x.slow = true ↔ 184320 ≤ a) ∧
     (2304 < a → a < 184320 → x.pace = a) ∧ (x.fast = true → x.pace = 2304) ∧ (x.slow = true → x.pace = 184320) ∧
     (transit ≤ spacing * 720 → a ≤ 184320)) ∧
  (∀ pace a : Nat,
     (pace ≤ a → pace ≤ filterPace (some pace) a ∧ filterPace (some pace) a ≤ a) ∧
     (a ≤ pace → a ≤ filterPace (some pace) a ∧ filterPace (some pace) a ≤ pace) ∧
     (filterPace (some pace) a = pace ↔ natDist pace a < 4) ∧ filterPace none a = a)

/-- R82, R83: a job of one sighting whose window needs no narrowing is centred on t_ref + round(D × P / 256) + 2 ×
trim and runs from w before to w after it, w = round(W × P / 256). R84: the window of several sightings, whose own
windows lie near each other in time (R79), runs from the start that lies first to the end that lies last, and its
centre is the start + trunc((end − start) / 2). R85, R87, R88, R90: its line period is that of the pitch and the pace,
it is narrowed exactly when more than 4,096 lines would be planned, and its lamp request time is 200 µs before its
start. R81, R91: a computation gives a job, as one whole, the times, the line period, the line count and the flags
STRETCHED, COMPRESSED and NARROWED that result at the timing pace. While the passage is open that is its pace, or
without one the default pace of the record in force, and its flags SLOW, FAST and NO_SPEED are copied, with NO_SPEED
where the default pace is used; once the passage has closed the job keeps its timing pace and its copies. Nothing else
of the job changes. -/
def Obligations.SingleSightingWindow : Prop :=
  (∀ (r : TrackRecord) (pace : Nat) (x : Sighting), r.windowHalfMm ≤ 3000 → pace ≤ 184320 →
    let w := roundDiv (r.windowHalfMm * pace) 256
    let c := x.reference + BitVec.ofNat 48 (roundDiv (x.distance * pace) 256) + BitVec.ofInt 48 (2 * r.trim)
    let g := computeTiming r pace [x]
    g.narrowed = false →
      g.centre = c ∧ g.start = c - BitVec.ofNat 48 w ∧ g.stop = c + BitVec.ofNat 48 w ∧
      g.lampRequest = g.start - 200#48 ∧ g.lineCount = ceilDiv (2 * w * 100) g.period.count) ∧
  (∀ (r : TrackRecord) (pace : Nat) (l : List Sighting) (base : Time),
    let w := BitVec.ofNat 48 (roundDiv (r.windowHalfMm * pace) 256)
    let own (x : Sighting) : Time :=
      x.reference + BitVec.ofNat 48 (roundDiv (x.distance * pace) 256) + BitVec.ofInt 48 (2 * r.trim)
    let g := computeTiming r pace l
    l ≠ [] → (∀ x ∈ l, (own x - w - base).toNat < 2 ^ 46 ∧ (own x + w - base).toNat < 2 ^ 46) →
    ∃ first ∈ l, ∃ last ∈ l,
      (∀ x ∈ l, (own first - w - base).toNat ≤ (own x - w - base).toNat ∧
        (own x + w - base).toNat ≤ (own last + w - base).toNat) ∧
      let start := own first - w
      let stop := own last + w
      let n := ceilDiv ((stop - start).toNat * 100) g.period.count
      g.period = periodFor r.pitchUm pace ∧ g.centre = start + BitVec.ofNat 48 ((stop - start).toNat / 2) ∧
      g.lampRequest = g.start - 200#48 ∧ g.narrowed = decide (4096 < n) ∧
      (n ≤ 4096 → g.start = start ∧ g.stop = stop ∧ g.lineCount = n)) ∧
  (∀ (p : Part) (j : Job),
    let r := p.passage j.track
    let m := p.computeJob j
    let g := computeTiming (p.record j.track) m.pace j.sightings
    let timed : Job := { j with
      pace := m.pace, centre := g.centre, start := g.start, stop := g.stop, lampRequest := g.lampRequest
      linePeriod := g.period.count, lineCount := g.lineCount
      flags := { j.flags with
        stretched := g.period.stretched, compressed := g.period.compressed, narrowed := g.narrowed } }
    (r.state ≠ .vacant → r.number = j.passage →
      (∀ pace : Nat, r.pace = some pace → m.pace = pace) ∧
      (r.pace = none → m.pace = (p.record j.track).defaultPace) ∧
      m = { timed with flags := { timed.flags with
        slow := r.flags.slow, fast := r.flags.fast, noSpeed := r.flags.noSpeed || r.pace.isNone } }) ∧
    (r.state = .vacant ∨ r.number ≠ j.passage → m.pace = j.pace ∧ m = timed))

/-- R88: a planned line count never exceeds 4,096, and is 4,096 whenever the window is narrowed. -/
def Obligations.LineCountAtMost4096 : Prop :=
  ∀ (r : TrackRecord) (pace : Nat) (l : List Sighting),
    (computeTiming r pace l).lineCount ≤ 4096 ∧
    ((computeTiming r pace l).narrowed = true →
      (computeTiming r pace l).lineCount = 4096 ∧
      (computeTiming r pace l).start =
        (computeTiming r pace l).centre - BitVec.ofNat 48 (4096 * (computeTiming r pace l).period.count / 200) ∧
      (computeTiming r pace l).stop =
        (computeTiming r pace l).centre + BitVec.ofNat 48 (4096 * (computeTiming r pace l).period.count / 200))

/-- R85: the line period is round(g × P / 2,560) clock counts, clamped to 500 with COMPRESSED below it and to 65,536
with STRETCHED above it. R86: the generator load n = c − 1 of a line period fits its 16 bits, and it is the load with which
a port starts. -/
def Obligations.LinePeriodAndLoad : Prop :=
  (∀ pitch pace : Nat,
    let c := roundDiv (pitch * pace) 2560
    let x := periodFor pitch pace
    500 ≤ x.count ∧ x.count ≤ 65536 ∧ (x.compressed = true ↔ c < 500) ∧ (x.stretched = true ↔ 65536 < c) ∧
    (c < 500 → x.count = 500) ∧ (65536 < c → x.count = 65536) ∧ (500 ≤ c → c ≤ 65536 → x.count = c)) ∧
  (∀ (p : Part) (k : Track) (t : Tag) (slot c : Nat), 500 ≤ c → c ≤ 65536 →
    ∃ g : Generator, ((p.startPort k t slot c).ports.get k).generator = some g ∧ g.load.toNat + 1 = c)

/-! ### Bytes of the link (11) -/

/-- The 35 bytes of a record that lies in its ranges read back as the record, and pass the checks of R21. -/
def Obligations.TrackRecordRoundTrip : Prop :=
  ∀ r : TrackRecord, r.inRange = true →
    trackRecordOf (encTrackRecord r) = r ∧ (encTrackRecord r).length = 35 ∧
    firstBadField (encTrackRecord r) = none

/-- R185 and 11 §11.1: every frame sent has at least 60 bytes, carries the part's link address as its source and the
type value 0xB7D2. -/
def Obligations.SentFramesAreFramed : Prop :=
  ∀ (source : LinkAddr) (f : Frame),
    60 ≤ (f.bytes source).length ∧ headerField (f.bytes source) 6 6 = source.toNat ∧
    headerField (f.bytes source) 12 2 = 0xB7D2

/-! ### Resets -/

/-- R18, R54, R115, R118, R148, R154, R166, R183: what a power-on reset leaves, whatever auto-load then does; and where
auto-load writes no record, every head is IDLE and every settled occupancy state CLEAR. That the level of every input
line and of the link is kept is the model's choice (logs 6 and 8). -/
def Obligations.PowerOnResetState : Prop :=
  ∀ s : State, ∃ t : State, exec .powerOnReset s = .next t ∧ t.pending = s.pending ∧
    t.part.tb.time = 0 ∧ t.part.tb.sub = 0 ∧ t.part.mode = .service ∧ t.part.mgr.recorder = none ∧
    t.part.mgr.intake = [] ∧ t.part.mgr.control = [] ∧ t.part.mgr.waiting = [] ∧ t.part.mgr.images = [] ∧
    t.part.mgr.wire = none ∧ t.part.mgr.linkAddr = s.part.mgr.linkAddr ∧ t.part.mgr.link = s.part.mgr.link ∧
    t.part.mgr.intakeDrops = 0 ∧ t.part.mgr.noticeDrops = 0 ∧ t.part.mgr.ignored = 0 ∧
    t.part.cal.write = none ∧
    t.part.csc.jobs = [] ∧ t.part.csc.tagCounter = 0 ∧
    t.part.lar.entries = [] ∧ t.part.lar.bank = .idle ∧ t.part.lar.daylight = s.part.lar.daylight ∧
    t.part.fsc.fetches = [] ∧ t.part.fsc.engine = none ∧ t.part.fsc.turn = none ∧ t.part.fsc.last = .readEngine ∧
    (∀ n < 64, t.part.slot n = some { state := .free, tag := 0, lines := [], header := none }) ∧
    (∀ i < 64, t.part.vehicleType i = none) ∧
    ∀ k : Track, t.part.passage k = Passage.vacant 0 ∧ (t.part.trackers.get k).stray = 0 ∧
      (t.part.trackers.get k).handling = none ∧ t.part.ports.get k = .reset ∧
      (t.part.front.get k).queue = [] ∧ (t.part.front.get k).loss = false ∧
      (t.part.front.get k).discarded = 0 ∧ t.part.lar.pendingSet.get k = none ∧ t.part.lar.deferral.get k = [] ∧
      (t.part.front.get k).occupancy.timer = none ∧
      (t.part.front.get k).occupancy.high = (s.part.front.get k).occupancy.high ∧
      (∀ i : PairId, ((t.part.front.get k).pair i).waiting = none ∧ ((t.part.front.get k).pair i).singles = 0 ∧
        ∀ h : HeadId, (t.part.head k i h).pulses = 0 ∧ (t.part.head k i h).high = (s.part.head k i h).high) ∧
      (s.part.cal.page.valid = false ∨ s.part.cal.page.flag = false →
        (t.part.front.get k).occupancy.occupied = false ∧
        ∀ (i : PairId) (h : HeadId), (t.part.head k i h).state = .idle)

/-- R181, R183: the page, whose contents are kept, decides the records after a power-on reset, each record loaded
applied to the front end of its track; the mode is SERVICE, and no notice and no frame is made. Three points are the
model's choice: when a page is valid at all, by the one bit that stands for its check value and by its never having
been written (log 9); the level of every input line, which is kept (log 6); and the settings of a head that is not
watched, which the front end of a disabled track shows (log 30). -/
def Obligations.PowerOnResetAutoLoads : Prop :=
  ∀ s : State, ∃ t : State, exec .powerOnReset s = .next t ∧ t.part.cal.page = s.part.cal.page ∧
    t.part.mode = .service ∧ t.part.mgr.control = [] ∧ t.part.mgr.waiting = [] ∧ t.part.mgr.images = [] ∧
    t.part.mgr.wire = none ∧
    (s.part.cal.page.valid = false →
      t.part.records = .all .unset ∧ t.part.cal.autoLoad = .invalid ∧ t.part.cal.state = .invalid) ∧
    (s.part.cal.page.valid = true → s.part.cal.page.flag = false →
      t.part.records = .all .unset ∧ t.part.cal.autoLoad = .flagClear ∧ t.part.cal.state = .valid false) ∧
    (s.part.cal.page.valid = true → s.part.cal.page.flag = true →
      t.part.records = s.part.cal.page.records ∧ t.part.cal.autoLoad = .loaded ∧ t.part.cal.state = .valid true ∧
      ∀ k : Track, t.part.front.get k =
        (s.part.front.get k).powerOn.onRecord (s.part.cal.page.records.get k) 0)

/-- R182 with R19, R55, R116, R128, R147 and R165: what RESET_PART discards and what it keeps. Every head of an
enabled track, FAULT included, watches again with the settings of its record, HELD from now on if its input is active;
a bank in service rests for the recovery time of its track, and with a time of 0 is IDLE at once, which is read into
R124 (log 19); the store path begins its search at CP1 (R140); a tracker that handles an event takes the reset when it
ends. That the stray count of such a tracker is 0 at once is the model's choice (log 35). That a store turn begun before
ends with the reset, and that the slot is FREE also where the turn holds the last outstanding line of a DRAINING job, is
read into R147 (log 37). -/
def Obligations.ResetPartState : Prop :=
  ∀ (s : State) (r : CommandRecord) (rest : List CommandRecord), s.part.Runs .resetPart r rest →
    ∃ t : State, exec .resetPart s = .next t ∧ t.pending = s.pending ∧
      t.part.mode = .service ∧ t.part.mgr.intake = [] ∧ t.part.mgr.waiting = [] ∧ t.part.mgr.images = [] ∧
      t.part.mgr.control =
        [r.answer .ok 0 (.reset rest.length (s.part.mgr.control.length + s.part.mgr.waiting.length))] ∧
      t.part.mgr.intakeDrops = 0 ∧ t.part.mgr.noticeDrops = 0 ∧ t.part.mgr.ignored = 0 ∧
      t.part.mgr.wire = s.part.mgr.wire ∧ t.part.mgr.recorder = s.part.mgr.recorder ∧
      t.part.mgr.linkAddr = s.part.mgr.linkAddr ∧ t.part.mgr.link = s.part.mgr.link ∧
      t.part.tb = s.part.tb ∧ t.part.records = s.part.records ∧ t.part.types = s.part.types ∧
      t.part.cal = s.part.cal ∧
      t.part.csc.jobs = [] ∧ t.part.csc.tagCounter = s.part.csc.tagCounter ∧
      t.part.lar.entries = [] ∧ t.part.lar.daylight = s.part.lar.daylight ∧
      (∀ (tag : Tag) (k : Track) (g : Time), s.part.lar.bank = .inService tag k g → t.part.lar.bank =
        if recoveryMs (s.part.record k).recoveryCode = 0 then .idle
        else .recovery k (s.part.now + BitVec.ofNat 48 (recoveryMs (s.part.record k).recoveryCode * 1000))) ∧
      (s.part.lar.bank.serving = false → t.part.lar.bank = s.part.lar.bank) ∧
      t.part.fsc.fetches = [] ∧ t.part.fsc.engine = none ∧ t.part.fsc.turn = none ∧ t.part.fsc.last = .readEngine ∧
      (∀ (n : Nat) (x : Slot), s.part.slot n = some x →
        t.part.slot n = some (if x.state = .filling then .empty else x)) ∧
      ∀ k : Track, t.part.ports.get k = { Port.reset with up := (s.part.ports.get k).up } ∧
        (t.part.front.get k).queue = [] ∧ (t.part.front.get k).loss = false ∧
        (t.part.front.get k).discarded = 0 ∧ (t.part.trackers.get k).stray = 0 ∧
        t.part.lar.pendingSet.get k = none ∧ t.part.lar.deferral.get k = [] ∧
        ((s.part.trackers.get k).handling = none → (t.part.trackers.get k).handling = none ∧
          t.part.passage k = Passage.vacant (s.part.passage k).number) ∧
        (∀ h : Handling, (s.part.trackers.get k).handling = some h → t.part.passage k = s.part.passage k ∧
          (t.part.trackers.get k).handling = some { h with deferred := h.deferred ++ [.reset] }) ∧
        let rec' := s.part.record k
        let o := (s.part.front.get k).occupancy
        (t.part.front.get k).occupancy = { o with
          occupied := rec'.enabled && rec'.occUse && rec'.occPolarity.names o.high, timer := none } ∧
        ∀ i : PairId, ((t.part.front.get k).pair i).waiting = none ∧ ((t.part.front.get k).pair i).singles = 0 ∧
          ∀ h : HeadId,
            let x := s.part.head k i h
            let pol := rec'.headPolarity i h
            (rec'.enabled = true → t.part.head k i h =
              { state := if pol.names x.high then .held s.part.now else .idle, polarity := pol,
                qualifyUs := rec'.qualifyUs, stuckMs := rec'.stuckMs, high := x.high, pulses := 0 }) ∧
            (rec'.enabled = false → t.part.head k i h = { x with state := .idle, pulses := 0 })

/-! ### Modes (10 §10.4) -/

/-- R170, R174, R175: MODE_SET to the mode in force sets the recorder address; an unknown code is refused with
BAD_ARGUMENT, and ON_LINE or STANDBY with NOT_READY while no track is enabled; a change from SERVICE, or from STANDBY
to ON_LINE, sets the mode and the recorder address (R52). Each is answered, and nothing else changes. A change from
ON_LINE to STANDBY is answered too; every WAITING job ends, and no other (R113), and with places for them all each
makes its JOB_ENDED, CANCELLED with cause MODE, behind the reply in the order of the schedule; the arbiter clears its
requests and its deferral lists, and the entries cleared stay in phase CLEARED (R126); every other entry whose job did
not wait is kept; the bank is kept unless it served a WAITING job, and then rests for the recovery time of its track
(R123), with a time of 0 IDLE at once (log 19); every front end, passage record, port and slot keeps what it holds
(R52). All of it in whatever order the blocks take the change. -/
def Obligations.ModeSetAnswers : Prop :=
  (∀ (s : State) (r : CommandRecord) (rest : List CommandRecord) (order : List ModeBlock),
     s.part.Runs .modeSet r rest →
     (Mode.ofCode (r.byteAt 0) = some s.part.mode →
       exec (.modeSet order) s = .next (s.withPart
         ((s.part.answered r rest .ok 0 .empty).setMgr
           { (s.part.answered r rest .ok 0 .empty).mgr with recorder := some r.source }))) ∧
     (Mode.ofCode (r.byteAt 0) = none →
       exec (.modeSet order) s = .next (s.withPart (s.part.answered r rest .badArgument 0 .empty))) ∧
     (∀ m : Mode, Mode.ofCode (r.byteAt 0) = some m → m ≠ s.part.mode → m ≠ .service →
       (∀ k : Track, (s.part.record k).enabled = false) →
       exec (.modeSet order) s = .next (s.withPart (s.part.answered r rest .notReady 0 .empty)))) ∧
  (∀ (s : State) (r : CommandRecord) (rest : List CommandRecord) (order : List ModeBlock) (m : Mode) (k : Track),
     s.part.Runs .modeSet r rest → Mode.ofCode (r.byteAt 0) = some m → (s.part.record k).enabled = true →
     (s.part.mode ≠ .onLine → m ≠ s.part.mode → m ≠ .service →
       exec (.modeSet order) s = .next (s.withPart
         ((s.part.answered r rest .ok 0 .empty).setMgr
           { (s.part.answered r rest .ok 0 .empty).mgr with mode := m, recorder := some r.source }))) ∧
     (s.part.mode = .onLine → m = .standby →
       ∃ t : State, exec (.modeSet order) s = .next t ∧ t.pending = s.pending ∧ t.part.mode = .standby ∧
         t.part.mgr.recorder = some r.source ∧ t.part.mgr.intake = rest ∧
         (s.part.mgr.control ++ [r.answer .ok 0 .empty]) <+: t.part.mgr.control ∧
         (∀ j ∈ t.part.csc.jobs, j ∈ s.part.csc.jobs ∧ j.state ≠ .waiting) ∧
         (s.part.TagsDistinct →
           t.part.csc = { s.part.csc with jobs := s.part.csc.jobs.filter (fun j => decide (j.state ≠ .waiting)) }) ∧
         (∀ e ∈ t.part.lar.entries, e.phase ≠ .requested ∧ e.phase ≠ .deferred) ∧
         (let p := s.part
          let ended := p.csc.jobs.filter (fun j => decide (j.state = .waiting))
          (p.TagsDistinct → p.mgr.control.length + p.mgr.waiting.length + 1 + ended.length ≤ 16 →
            t.part.mgr.control = p.mgr.control ++ r.answer .ok 0 .empty :: ended.map (fun j =>
              { dest := r.source, body := .notice (.jobEnded j p.now .cancelled .mode) })) ∧
          (∀ e ∈ p.lar.entries, (∀ j ∈ ended, j.tag ≠ e.tag) →
            (e.phase = .requested ∨ e.phase = .deferred → { e with phase := .cleared } ∈ t.part.lar.entries) ∧
            (e.phase ≠ .requested → e.phase ≠ .deferred → (∀ i : Track, e.tag ∉ p.lar.deferral.get i) →
              e ∈ t.part.lar.entries)) ∧
          (∀ j ∈ ended, t.part.lar.entry j.tag = none) ∧
          ((∀ j ∈ ended, ∀ e : LampEntry, p.lar.entry j.tag = some e → e.phase ≠ .serving) →
            t.part.lar.bank = p.lar.bank) ∧
          (∀ j ∈ ended, ∀ e : LampEntry, p.lar.entry j.tag = some e → e.phase = .serving →
            (∀ x ∈ p.lar.entries, x.phase = .serving → x = e) →
            t.part.lar.bank = if recoveryMs (p.record e.track).recoveryCode = 0 then .idle
              else .recovery e.track (p.now + BitVec.ofNat 48 (recoveryMs (p.record e.track).recoveryCode * 1000)))) ∧
         (∀ j : Track, t.part.lar.pendingSet.get j = none ∧ t.part.lar.deferral.get j = []) ∧
         t.part.front = s.part.front ∧ t.part.trackers = s.part.trackers ∧ t.part.ports = s.part.ports ∧
         t.part.fsc = s.part.fsc ∧ t.part.records = s.part.records ∧ t.part.types = s.part.types ∧
         t.part.tb = s.part.tb ∧ t.part.cal = s.part.cal))

/-- R13, R53, R112, R126, R175: a change to SERVICE empties the axle event queues, leaves in the schedule jobs that
drain alone, clears every lamp request, and closes every passage whose tracker handles no event; the reply is placed
before the notices, in whatever order the blocks take the change. R112: no WAITING job stays, a job that drains with
lines outstanding is kept as it is, and an OPEN job with lines outstanding drains, with MODE_ABORT and its deadline
1,000 µs from now. R53: a tracker that handles an event takes the change when the handling ends. With places for every
notice, each WAITING job that no port serves makes its JOB_ENDED, CANCELLED with cause MODE, in schedule order (R110),
and each passage that closes its PASSAGE_CLOSED, ABORTED (R50), with the record as the matcher leaves it when it
finishes (R49, R77). That the totals of a vehicle declared there go from 65,535 to 0 is the model's choice (log 32),
and so is what a type cleared leaves (log 34). -/
def Obligations.ModeSetToServiceEndsOperation : Prop :=
  ∀ (s : State) (r : CommandRecord) (rest : List CommandRecord) (order : List ModeBlock),
    let p := s.part
    let notice (x : Notice) : ControlRecord := { dest := r.source, body := .notice x }
    let room : Prop := p.mgr.control.length + p.mgr.waiting.length + p.csc.jobs.length + 5 ≤ 16
    let unserved (i : Job) : Bool := Track.all.all (fun k => (p.ports.get k).job.map (fun x => x.tag) != some i.tag)
    s.part.Runs .modeSet r rest → s.part.mode ≠ .service → Mode.ofCode (r.byteAt 0) = some .service →
    ∃ t : State, exec (.modeSet order) s = .next t ∧ t.pending = s.pending ∧ t.part.mode = .service ∧
      t.part.mgr.recorder = some r.source ∧ t.part.mgr.intake = rest ∧
      (s.part.mgr.control ++ [r.answer .ok 0 .empty]) <+: t.part.mgr.control ∧
      (∀ j ∈ t.part.csc.jobs, j.state = .draining) ∧
      t.part.records = s.part.records ∧ t.part.types = s.part.types ∧ t.part.tb = s.part.tb ∧
      (p.TagsDistinct →
        (∀ j ∈ t.part.csc.jobs, ∃ i ∈ p.csc.jobs, i.tag = j.tag ∧ i.state ≠ .waiting) ∧
        (∀ i ∈ p.csc.jobs, i.state = .draining → i.received + i.lost ≠ i.triggered → i ∈ t.part.csc.jobs) ∧
        (∀ i ∈ p.csc.jobs, i.state = .opened → i.received + i.lost ≠ i.triggered → ∃ lamp : LampStatus,
          (lamp = i.lamp ∨ (lamp = .unlit ∧ p.lar.entry i.tag ≠ none)) ∧
          { i with
            state := .draining, drainDeadline := some (p.now + 1000#48), lamp := lamp
            flags := { i.flags with modeAbort := true } } ∈ t.part.csc.jobs) ∧
        (room → ((p.csc.jobs.filter (fun i => decide (i.state = .waiting) && unserved i)).map
          (fun i => notice (.jobEnded i p.now .cancelled .mode))).Sublist t.part.mgr.control)) ∧
      ∀ k : Track, (t.part.front.get k).queue = [] ∧ (t.part.front.get k).loss = false ∧
        ((s.part.trackers.get k).handling = none → (t.part.passage k).state = .vacant ∧
          (t.part.passage k).number = (s.part.passage k).number ∧
          (room → (p.passage k).state ≠ .vacant → ∃ final : Passage, p.FinishedAs k final ∧
            notice (.passageClosed k final p.now .aborted) ∈ t.part.mgr.control)) ∧
        (∀ h : Handling, (p.trackers.get k).handling = some h → t.part.trackers.get k =
          { p.trackers.get k with handling := some { h with deferred := h.deferred ++ [.toService] } }) ∧
        (s.part.mode = .onLine → t.part.lar.pendingSet.get k = none ∧ t.part.lar.deferral.get k = [])

/-! ### Checks 1 to 3 of R170 -/

/-- R170, R179, R182, R185: a record that names no command, or is wrongly framed, is answered BAD_ARGUMENT with number
0; a command that the catalogue does not allow in the mode in force is answered WRONG_MODE; while a page write is in
progress CAL_STORE, CAL_LOAD and CAL_AUTOLOAD in SERVICE, RESET_PART and a MODE_SET to ON_LINE or STANDBY are answered
BUSY; nothing else changes. -/
def Obligations.ResponderChecks : Prop :=
  ((∀ (s : State) (r : CommandRecord) (rest : List CommandRecord),
      s.part.mgr.intake = r :: rest → s.part.freePlace = true → r.command = none →
      exec .unknownCommand s = .next (s.withPart (s.part.answered r rest .badArgument 0 .empty))) ∧
   (∀ (s : State) (r : CommandRecord) (rest : List CommandRecord),
      let refused (c : Command) (i : Instr) : Prop :=
        s.part.Takes c r rest → exec i s = .next (s.withPart (s.part.answered r rest .wrongMode 0 .empty))
      (s.part.mode ≠ .service →
        refused .trackWrite .trackWrite ∧ refused .typeWrite .typeWrite ∧ refused .typeClear .typeClear ∧
        refused .calStore .calStore ∧ refused .calLoad .calLoad ∧ refused .calAutoload .calAutoload) ∧
      (s.part.mode = .onLine → refused .lampSet .lampSet))) ∧
  (∀ (s : State) (r : CommandRecord) (rest : List CommandRecord) (w : PageWrite) (order : List ModeBlock),
     s.part.cal.write = some w →
     let busy (c : Command) (i : Instr) : Prop :=
       s.part.Takes c r rest → exec i s = .next (s.withPart (s.part.answered r rest .busy 0 .empty))
     (s.part.mode = .service → busy .calStore .calStore ∧ busy .calLoad .calLoad ∧ busy .calAutoload .calAutoload) ∧
     busy .resetPart .resetPart ∧
     (Mode.ofCode (r.byteAt 0) = some .onLine ∨ Mode.ofCode (r.byteAt 0) = some .standby →
       busy .modeSet (.modeSet order)))

/-! ### Commands that read -/

/-- R26, R56, R117, R167, R176, R177: IDENT, STATUS, TIME_READ, SCHEDULE_READ, SLOT_READ, TRACK_READ and PASSAGE_READ
are answered OK in every mode with what the part holds as they are run; a track number outside 1 to 4 is refused with
BAD_ARGUMENT, number 0; nothing else changes. What STATUS reports of every block is spelled out (R17, R56, R129, R149,
R167, R177, R178), and so is what SLOT_READ reports of a slot (R167). -/
def Obligations.ReadingCommandsReply : Prop :=
  (∀ (s : State) (r : CommandRecord) (rest : List CommandRecord),
     let p := s.part
     let q := p.setMgr { p.mgr with intake := rest }
     let replies (c : Command) (i : Instr) (x : Reply) : Prop :=
       p.Takes c r rest → exec i s = .next (s.withPart (p.answered r rest .ok 0 x))
     replies .ident .ident (.ident Config.partCode Config.siliconRevision p.mgr.linkAddr) ∧
     replies .status .status (.status q.statusReport) ∧
     replies .timeRead .timeRead (.time p.tb.time) ∧
     replies .scheduleRead .scheduleRead (.schedule p.csc.tagCounter p.csc.jobs) ∧
     replies .slotRead .slotRead
       (.slots ((List.range 64).map p.slotReport) (Track.all.map (regionOf p.records)))) ∧
  (∀ (s : State) (r : CommandRecord) (rest : List CommandRecord),
     let p := s.part
     (p.Takes .trackRead r rest →
       (∀ k : Track, r.byteAt 0 = k.number → exec .trackRead s =
         .next (s.withPart (p.answered r rest .ok 0 (.track (p.record k) (regionOf p.records k))))) ∧
       (r.byteAt 0 = 0 ∨ 4 < r.byteAt 0 → exec .trackRead s =
         .next (s.withPart (p.answered r rest .badArgument 0 .empty)))) ∧
     (p.Takes .passageRead r rest →
       (∀ k : Track, r.byteAt 0 = k.number → exec .passageRead s =
         .next (s.withPart (p.answered r rest .ok 0 (.passage (p.passage k))))) ∧
       (r.byteAt 0 = 0 ∨ 4 < r.byteAt 0 → exec .passageRead s =
         .next (s.withPart (p.answered r rest .badArgument 0 .empty))))) ∧
  (∀ p : Part,
     let head (h : Head) : HeadReport := match h.state with
       | .idle => .idle
       | .candidate _ _ => .candidate
       | .held _ => .held
       | .fault => .fault
     p.statusReport =
       { front := p.front.map (fun f =>
           { heads := [head f.pair1.outer, head f.pair1.inner, head f.pair2.outer, head f.pair2.inner]
             waiting := [f.pair1.waiting.map WaitingPulse.head, f.pair2.waiting.map WaitingPulse.head]
             queued := f.queue.length, loss := f.loss, occupied := f.occupancy.occupied
             pulses := [f.pair1.outer.pulses, f.pair1.inner.pulses, f.pair2.outer.pulses, f.pair2.inner.pulses]
             singles := [f.pair1.singles, f.pair2.singles], discarded := f.discarded })
         passages := p.trackers.map (fun t =>
           { state := t.passage.state, number := t.passage.number, stray := t.stray })
         lamp :=
           { bank := p.lar.bank, requests := p.lar.pendingSet, deferred := p.lar.deferral.map List.length
             daylight := p.lar.daylight, held := decide (p.mode ≠ .onLine) }
         ports := p.ports.map (fun c =>
           { up := c.up, activity := c.activity, job := c.job, fifo := c.fifo.length, overrun := c.overrun
             expected := c.expected, fence := c.fence, stray := c.stray, discarded := c.discarded
             losses := c.losses })
         retrieval :=
           { entries := p.fsc.fetches.map (fun e => (e.tag, e.phase))
             delivering := p.fsc.engine.map ReadEngine.tag, frames := p.mgr.images.length }
         responder :=
           { mode := p.mode, recorder := p.mgr.recorder, time := p.tb.time, intake := p.mgr.intake.length
             control := p.mgr.control.length, images := p.mgr.images.length, waiting := p.mgr.waiting.length
             link := p.mgr.link, page := p.cal.state, writing := p.cal.write.isSome, autoLoad := p.cal.autoLoad
             intakeDrops := p.mgr.intakeDrops, noticeDrops := p.mgr.noticeDrops, ignored := p.mgr.ignored } }) ∧
  (∀ (p : Part) (n : Nat) (x : Slot), p.slot n = some x → ∃ (k : Option Track) (fetched : Bool),
     p.slotReport n = { state := x.state, tag := x.tag, track := k, lines := x.lines.length, fetched := fetched } ∧
     (∀ j : Track, k = some j ↔ inRegion p.records j n = true) ∧
     (fetched = true ↔ ∃ e ∈ p.fsc.fetches, e.slot = n))

/-- R33: TYPE_READ answers in any mode whether the entry is valid, with its fields if it is, and refuses an index
outside 0 to 63 with BAD_ARGUMENT; nothing else changes. -/
def Obligations.TypeReadReplies : Prop :=
  ∀ (s : State) (r : CommandRecord) (rest : List CommandRecord), s.part.Takes .typeRead r rest →
    (r.byteAt 0 ≤ 63 → exec .typeRead s = .next (s.withPart
      (s.part.answered r rest .ok 0 (.vehicleType (s.part.vehicleType (r.byteAt 0)))))) ∧
    (63 < r.byteAt 0 → exec .typeRead s =
      .next (s.withPart (s.part.answered r rest .badArgument 0 .empty)))

/-! ### Tables (02) -/

/-- R21, R22, R23: the checks of TRACK_WRITE in their order; a refused one changes nothing but for its reply. The first
field out of range is the first, in the order of the fields, whose received value does not lie in its range of 02 §2.1:
a yes-or-no or polarity field carries 0 or 1, a numeric field lies between its limits or, in a record with enabled =
no, is 0. -/
def Obligations.TrackWriteChecksInOrder : Prop :=
  (∀ (s : State) (r : CommandRecord) (rest : List CommandRecord), s.part.Runs .trackWrite r rest →
    let p := s.part
    let bytes := r.args.drop 1
    let new := trackRecordOf bytes
    (r.byteAt 0 = 0 ∨ 4 < r.byteAt 0 →
      exec .trackWrite s = .next (s.withPart (p.answered r rest .badArgument 0 .empty))) ∧
    ∀ k : Track, r.byteAt 0 = k.number →
      (∀ n : Nat, firstBadField bytes = some n →
        exec .trackWrite s = .next (s.withPart (p.answered r rest .badArgument n .empty))) ∧
      (firstBadField bytes = none → 64 < slotSum (p.records.set k new) →
        exec .trackWrite s = .next (s.withPart (p.answered r rest .tableFull 0 .empty))) ∧
      (firstBadField bytes = none → slotSum (p.records.set k new) ≤ 64 → new.slots ≠ (p.record k).slots →
        (∃ (n : Nat) (x : Slot), p.slot n = some x ∧ x.state ≠ .free) →
        exec .trackWrite s = .next (s.withPart (p.answered r rest .inUse 0 .empty)))) ∧
  (∀ bytes : List Byte,
    let v (n : Nat) : Nat := rawField bytes n
    let lies (n lo hi : Nat) : Prop := (lo ≤ v n ∧ v n ≤ hi) ∨ (v 1 ≠ 1 ∧ v n = 0)
    let ok (n : Nat) : Prop := match n with
      | 2 | 3 => lies n 500 3000
      | 4 | 5 => lies n 40000 200000
      | 10 => lies n 20 2000
      | 11 => lies n 5 500
      | 14 => lies n 2 60
      | 15 => lies n 100 2000
      | 16 => lies n 100 3000
      | 17 => lies n 2304 184320
      | 18 => v n ≤ 64
      | 19 => -64 ≤ signedByte (v n) ∧ signedByte (v n) ≤ 63
      | 20 | 22 => v n ≤ 7
      | _ => v n ≤ 1
    (firstBadField bytes = none ↔ ∀ n : Nat, 1 ≤ n → n ≤ 23 → ok n) ∧
    ∀ n : Nat, firstBadField bytes = some n ↔ 1 ≤ n ∧ n ≤ 23 ∧ ¬ ok n ∧ ∀ m : Nat, 1 ≤ m → m < n → ok m)

/-- R24: a TRACK_WRITE that passes its checks replaces the record of its track whole and is answered OK. R1, R5: the
heads of an enabled track that are not in FAULT begin to watch with the settings of the new record, HELD from now on
if the input is active and IDLE if not, those in FAULT stay, those of a disabled track enter IDLE, and waiting pulses
are discarded; R15: the settled occupancy state is taken from the input, or is CLEAR where the input is not used. The
event queue and the counts are kept. The other tracks, the page, the types, the schedule, the lamp entries, the ports
and the slots keep what they hold, and so does every passage record that is not closed by the CLEAR that the write
reports. That the reply stands before any notice is the model's choice (log 17), and that a restart of watching that
turns OCCUPIED into CLEAR reports nothing to the tracker is read into R15 (log 28). -/
def Obligations.TrackWriteReplacesRecord : Prop :=
  ∀ (s : State) (r : CommandRecord) (rest : List CommandRecord) (k : Track), s.part.Runs .trackWrite r rest →
    let p := s.part
    let new := trackRecordOf (r.args.drop 1)
    let f := p.front.get k
    r.byteAt 0 = k.number → firstBadField (r.args.drop 1) = none → slotSum (p.records.set k new) ≤ 64 →
    (new.slots = (p.record k).slots ∨ ∀ (n : Nat) (x : Slot), p.slot n = some x → x.state = .free) →
    ∃ t : State, exec .trackWrite s = .next t ∧ t.pending = s.pending ∧
      t.part.records = p.records.set k new ∧
      (∀ j : Track, j ≠ k → t.part.front.get j = p.front.get j ∧ t.part.trackers.get j = p.trackers.get j) ∧
      (let g := t.part.front.get k
       g.queue = f.queue ∧ g.loss = f.loss ∧ g.discarded = f.discarded ∧
       g.occupancy = { f.occupancy with
         occupied := new.enabled && new.occUse && new.occPolarity.names f.occupancy.high, timer := none } ∧
       ∀ i : PairId, (g.pair i).waiting = none ∧ (g.pair i).singles = (f.pair i).singles ∧
         ∀ h : HeadId,
           let x := p.head k i h
           let pol := new.headPolarity i h
           (new.enabled = true → x.state = .fault → t.part.head k i h = x) ∧
           (new.enabled = true → x.state ≠ .fault → t.part.head k i h = { x with
             state := if pol.names x.high then .held p.tb.time else .idle, polarity := pol,
             qualifyUs := new.qualifyUs, stuckMs := new.stuckMs }) ∧
           (new.enabled = false → t.part.head k i h = { x with state := .idle })) ∧
      ((new.enabled = true ∧ new.occUse = true) ∨ f.occupancy.occupied = false ∨
        ((p.trackers.get k).handling = none ∧ (p.passage k).state ≠ .clearing) → t.part.trackers = p.trackers) ∧
      (p.mgr.control ++ [r.answer .ok 0 .empty]) <+: t.part.mgr.control ∧ t.part.mgr.intake = rest ∧
      t.part.types = p.types ∧ t.part.cal = p.cal ∧ t.part.csc = p.csc ∧ t.part.lar = p.lar ∧
      t.part.fsc = p.fsc ∧ t.part.ports = p.ports ∧ t.part.tb = p.tb ∧ t.part.mode = p.mode

/-- R27: TRIM_SET puts the trim carried into the record, TRIM_STEP moves it by one within −64 to +63, and each answers
OK with the trim that results, or refuses a track outside 1 to 4, a trim or a step with BAD_ARGUMENT; no other field
of any record, no front end and no passage record changes, and unless the trim of the track changes in ON_LINE nothing
else does. That the reply stands before any notice is the model's choice (log 17), and so is trigger 0 of a job that
opens late inside a microsecond (log 29). R101, R102: a trim that changes in ON_LINE re-times every WAITING job of the
track, and a re-timing that names no WAITING job changes nothing. Of a track whose one WAITING job is named: the job
is computed anew and ends TOO_LATE when its end has passed; else it is separated from another job of the track (R98),
the clip forming its line count and lamp request time again (R89), or ends OVERLAP with the start, the lamp request
time and CLIPPED of the move that empties it; else a start that has passed is moved to the present with LATE and the
job opens; else it stands in the schedule, in order, with the new times, which its lamp entry is given (R119). -/
def Obligations.TrimCommandsSetTrim : Prop :=
  (∀ (s : State) (r : CommandRecord) (rest : List CommandRecord) (k : Track),
    let p := s.part
    let v := signedByte (r.byteAt 1)
    let sets (i : Instr) (x : Int) : Prop :=
      let q : Part :=
        { p.answered r rest .ok 0 (.trim x) with records := p.records.set k { p.record k with trim := x } }
      (p.mode ≠ .onLine ∨ x = (p.record k).trim → exec i s = .next (s.withPart q)) ∧
      (p.mode = .onLine → x ≠ (p.record k).trim → exec i s = .next (s.withPart (q.retime k (fun _ => true)))) ∧
      ∃ t : State, exec i s = .next t ∧ t.part.records = q.records ∧
        (p.mgr.control ++ [r.answer .ok 0 (.trim x)]) <+: t.part.mgr.control ∧ t.part.mgr.intake = rest ∧
        t.part.front = p.front ∧ t.part.trackers = p.trackers ∧ t.part.types = p.types ∧ t.part.cal = p.cal
    let refused (i : Instr) : Prop := exec i s = .next (s.withPart (p.answered r rest .badArgument 0 .empty))
    (r.byteAt 0 = 0 ∨ 4 < r.byteAt 0 →
      (p.Takes .trimSet r rest → refused .trimSet) ∧ (p.Takes .trimStep r rest → refused .trimStep)) ∧
    (r.byteAt 0 = k.number →
      (p.Takes .trimSet r rest → -64 ≤ v → v ≤ 63 → sets .trimSet v) ∧
      (p.Takes .trimSet r rest → v < -64 ∨ 63 < v → refused .trimSet) ∧
      (p.Takes .trimStep r rest → v = 1 →
        sets .trimStep (if (p.record k).trim = 63 then 63 else (p.record k).trim + 1)) ∧
      (p.Takes .trimStep r rest → v = -1 →
        sets .trimStep (if (p.record k).trim = -64 then -64 else (p.record k).trim - 1)) ∧
      (p.Takes .trimStep r rest → v ≠ 1 → v ≠ -1 → refused .trimStep))) ∧
  (∀ (p : Part) (k : Track) (named : Job → Bool),
    ((∀ j ∈ p.csc.jobs, j.track = k → j.state = .waiting → named j = false) → p.retime k named = p) ∧
    ∀ j : Job, p.TagsDistinct → p.job j.tag = some j → j.track = k → j.state = .waiting → named j = true →
      (∀ x ∈ p.csc.jobs, x.track = k → x.tag ≠ j.tag → x.state ≠ .waiting) →
      let t := p.retime k named
      let m := p.computeJob j
      let unlit (l : List Job) : List Job := l.map (fun x => { x with lamp := .none })
      let ends (m' : Job) (reason : EndReason) : Prop :=
        (∀ x ∈ t.csc.jobs, x.tag ≠ j.tag) ∧ t.lar.entry j.tag = none ∧
        (p.freePlace = true → t.mgr = { p.mgr with
          control := p.mgr.control ++ [p.noticeRecord (.jobEnded m' p.now reason .none)] })
      let stands (m' : Job) : Prop :=
        (unlit t.csc.jobs).Perm (unlit (p.csc.jobs.map (fun x => if x.tag == j.tag then m' else x))) ∧
        t.csc.jobs.Pairwise (fun a b => b.before p.now a = false) ∧ t.mgr = p.mgr ∧ t.ports = p.ports ∧
        t.fsc = p.fsc ∧ (∀ e : LampEntry, p.lar.entry j.tag = some e → e.phase = .awaiting →
          reached p.now m'.lampRequest = false →
          t.lar.entry j.tag = some { e with start := m'.start, stop := m'.stop, request := m'.lampRequest })
      let moved (u : Time) : Job :=
        { m with start := u, lineCount := ceilDiv ((m.stop - u).toNat * 100) m.linePeriod, lampRequest := u - 200#48 }
      (reached p.now m.stop = true → ends m .tooLate) ∧
      (reached p.now m.stop = false →
        ((∀ x ∈ p.csc.jobs, x.track = k → x.tag ≠ j.tag → m.overlaps x = false) →
          (liesBefore m.start p.now = false → stands m) ∧
          (∀ n : Nat, liesBefore m.start p.now = true → p.freeSlot k = some n → (p.ports.get k).up = true →
            (p.ports.get k).activity = .idle → ∃ lamp : LampStatus,
              t.job j.tag = some { moved p.now with
                flags := { m.flags with late := true }, state := .opened, slot := some n, lamp := lamp } ∧
              t.ports = p.ports.set k { p.ports.get k with
                activity := .triggering, job := some { tag := j.tag, slot := n }, expected := none
                generator := some { load := BitVec.ofNat 16 (m.linePeriod - 1), count := 0 } } ∧
              t.slot n = some { state := .filling, tag := j.tag, lines := [], header := none } ∧ t.mgr = p.mgr)) ∧
        ∀ o ∈ p.csc.jobs, o.track = k → o.tag ≠ j.tag → m.overlaps o = true →
          (∀ x ∈ p.csc.jobs, x.track = k → x.tag = j.tag ∨ x.tag = o.tag) →
          let u := o.stop + 1#48
          (atOrBefore m.stop u = true →
            ends { m with start := u, lampRequest := u - 200#48, flags := { m.flags with clipped := true } } .overlap) ∧
          (atOrBefore m.stop u = false → liesBefore u p.now = false →
            stands { moved u with flags := { m.flags with clipped := true } })))

/-- R28: an accepted LAMP_SET replaces the four lamp fields of its track's record together and nothing else; a field
out of its range is refused with BAD_ARGUMENT and its number, a track number outside 1 to 4 with number 0. -/
def Obligations.LampSetReplacesLampFields : Prop :=
  ∀ (s : State) (r : CommandRecord) (rest : List CommandRecord), s.part.Runs .lampSet r rest →
    let p := s.part
    let refused (n : Nat) : Prop :=
      exec .lampSet s = .next (s.withPart (p.answered r rest .badArgument n .empty))
    (r.byteAt 0 = 0 ∨ 4 < r.byteAt 0 → refused 0) ∧
    ∀ k : Track, r.byteAt 0 = k.number →
      (7 < r.byteAt 1 → refused 20) ∧
      (r.byteAt 1 ≤ 7 → 1 < r.byteAt 2 → refused 21) ∧
      (r.byteAt 1 ≤ 7 → r.byteAt 2 ≤ 1 → 7 < r.byteAt 3 → refused 22) ∧
      (r.byteAt 1 ≤ 7 → r.byteAt 2 ≤ 1 → r.byteAt 3 ≤ 7 → 1 < r.byteAt 4 → refused 23) ∧
      (r.byteAt 1 ≤ 7 → r.byteAt 2 ≤ 1 → r.byteAt 3 ≤ 7 → r.byteAt 4 ≤ 1 →
        exec .lampSet s = .next (s.withPart { p.answered r rest .ok 0 .empty with
          records := p.records.set k { p.record k with
            lampPriority := r.byteAt 1, lampMask := decide (r.byteAt 2 = 1), recoveryCode := r.byteAt 3,
            daylightUse := decide (r.byteAt 4 = 1) } }))

/-- R31, R32: TYPE_WRITE answers BAD_ARGUMENT with the number of the first check that fails, and else makes its entry
valid with the fields carried and the span computed; TYPE_CLEAR empties one entry, or all with 255; nothing else
changes. Each of the eleven checks holds exactly when the condition of R31 does (R184 for the places beyond the gaps
and the offsets). -/
def Obligations.TypeTableCommands : Prop :=
  (∀ (s : State) (r : CommandRecord) (rest : List CommandRecord),
    let p := s.part
    let a := typeArgsOf r.args
    (p.Runs .typeWrite r rest →
      (∀ n : Nat, 1 ≤ n → n ≤ 11 → a.checkOk n = false → (∀ m : Nat, 1 ≤ m → m < n → a.checkOk m = true) →
        exec .typeWrite s = .next (s.withPart (p.answered r rest .badArgument n .empty))) ∧
      ((∀ n : Nat, 1 ≤ n → n ≤ 11 → a.checkOk n = true) →
        exec .typeWrite s = .next (s.withPart { p.answered r rest .ok 0 .empty with
          types := p.types.setIfInBounds a.index (some
            { name := a.name, gaps := a.gaps, span := a.gaps.sum, tolerance := a.tolerance,
              couplingGap := a.couplingGap, pantographs := a.offsets }) }))) ∧
    (p.Runs .typeClear r rest →
      (r.byteAt 0 ≤ 63 → exec .typeClear s = .next (s.withPart { p.answered r rest .ok 0 .empty with
          types := p.types.setIfInBounds (r.byteAt 0) none })) ∧
      (r.byteAt 0 = 255 → exec .typeClear s = .next (s.withPart { p.answered r rest .ok 0 .empty with
          types := Vector.replicate 64 none })) ∧
      (63 < r.byteAt 0 → r.byteAt 0 ≠ 255 →
        exec .typeClear s = .next (s.withPart (p.answered r rest .badArgument 0 .empty))))) ∧
  (∀ a : TypeArgs,
    (a.checkOk 1 = true ↔ a.index ≤ 63) ∧
    (a.checkOk 2 = true ↔ ∀ b ∈ a.name, 0x20 ≤ b.toNat ∧ b.toNat ≤ 0x7E) ∧
    (a.checkOk 3 = true ↔ 2 ≤ a.axles ∧ a.axles ≤ 8) ∧
    (a.checkOk 4 = true ↔ (∀ g ∈ a.gaps, 1000 ≤ g ∧ g ≤ 20000) ∧ ∀ g ∈ a.spareGaps, g = 0) ∧
    (a.checkOk 5 = true ↔ a.gaps.sum ≤ 24000) ∧
    (a.checkOk 6 = true ↔ 20 ≤ a.tolerance ∧ a.tolerance ≤ 500) ∧
    (a.gaps ≠ [] → (a.checkOk 7 = true ↔ ∀ g ∈ a.gaps, 2 * a.tolerance < g)) ∧
    (a.checkOk 8 = true ↔ 1500 ≤ a.couplingGap ∧ a.couplingGap ≤ 10000) ∧
    (a.checkOk 9 = true ↔ a.pantCount ≤ 2) ∧
    (a.checkOk 10 = true ↔ (∀ f ∈ a.offsets, f ≤ a.gaps.sum) ∧ ∀ f ∈ a.spareOffsets, f = 0) ∧
    (a.checkOk 11 = true ↔ ∀ x y : Nat, a.offsets = [x, y] → x ≠ y))

/-! ### Calibration page (10 §10.6) -/

/-- R178, R179: CAL_STORE and CAL_AUTOLOAD start a page write, which makes the page invalid and defers the reply; a
flag of another code is refused with BAD_ARGUMENT, and CAL_AUTOLOAD on an invalid page with BAD_PAGE. A page write
that verifies leaves the page with what was written, VALID, and answers OK; one that does not leaves the page INVALID
and answers STORE_FAILED; the deferred reply takes a free place of the control queue, or waits (R171). Nothing else
changes. That a page keeps the records and the flag from before a write until the write verifies is the model's choice
(log 9). -/
def Obligations.PageWriteStartsAndEnds : Prop :=
  (∀ (s : State) (r : CommandRecord) (rest : List CommandRecord),
     let p := s.part
     let taken := p.setMgr { p.mgr with intake := rest }
     let started (records : Quad TrackRecord) : Part := { taken with cal :=
       { p.cal with
         page := { p.cal.page with agrees := false }, state := .invalid
         write := some { records := records, flag := decide (r.byteAt 0 = 1), started := p.now, source := r.source,
                         code := r.code, token := r.token } } }
     (p.Runs .calStore r rest →
       (r.byteAt 0 ≤ 1 → exec .calStore s = .next (s.withPart (started p.records))) ∧
       (1 < r.byteAt 0 → exec .calStore s = .next (s.withPart (p.answered r rest .badArgument 0 .empty)))) ∧
     (p.Runs .calAutoload r rest →
       (r.byteAt 0 ≤ 1 → p.cal.page.valid = true →
         exec .calAutoload s = .next (s.withPart (started p.cal.page.records))) ∧
       (r.byteAt 0 ≤ 1 → p.cal.page.valid = false →
         exec .calAutoload s = .next (s.withPart
           { p.answered r rest .badPage 0 .empty with cal := { p.cal with state := .invalid } })) ∧
       (1 < r.byteAt 0 → exec .calAutoload s = .next (s.withPart (p.answered r rest .badArgument 0 .empty))))) ∧
  (∀ (s : State) (w : PageWrite) (verified : Bool), s.part.cal.write = some w →
     let p := s.part
     let answer : ControlRecord :=
       { dest := w.source, body := .reply w.code w.token (if verified then .ok else .storeFailed) 0 .empty }
     let done : Part := { p with cal := { p.cal with
       page := if verified then { records := w.records, flag := w.flag, agrees := true } else p.cal.page
       state := if verified then .valid w.flag else .invalid
       write := none } }
     exec (.pageWriteEnd verified) s = .next (s.withPart (done.setMgr
       (if p.mgr.control.length + p.mgr.waiting.length < 16 then { p.mgr with control := p.mgr.control ++ [answer] }
        else { p.mgr with waiting := p.mgr.waiting ++ [answer] }))))

/-- R29, R180: CAL_LOAD on a valid page whose slot counts may be taken puts the four records of the page in force and
answers OK; a page that fails its check is refused with BAD_PAGE, and one whose slot counts differ while a slot is not
FREE with IN_USE, the records kept. That the reply stands before any notice is the model's choice (log 17). -/
def Obligations.CalLoadReplacesRecords : Prop :=
  ∀ (s : State) (r : CommandRecord) (rest : List CommandRecord), s.part.Runs .calLoad r rest →
    let p := s.part
    (p.cal.page.valid = false → exec .calLoad s = .next (s.withPart
      { p.answered r rest .badPage 0 .empty with cal := { p.cal with state := .invalid } })) ∧
    (p.cal.page.valid = true → (∃ k : Track, (p.cal.page.records.get k).slots ≠ (p.record k).slots) →
      (∃ (n : Nat) (x : Slot), p.slot n = some x ∧ x.state ≠ .free) →
      exec .calLoad s = .next (s.withPart
        { p.answered r rest .inUse 0 .empty with cal := { p.cal with state := .valid p.cal.page.flag } })) ∧
    (p.cal.page.valid = true → ((∀ k : Track, (p.cal.page.records.get k).slots = (p.record k).slots) ∨
        ∀ (n : Nat) (x : Slot), p.slot n = some x → x.state = .free) →
      ∃ t : State, exec .calLoad s = .next t ∧ t.pending = s.pending ∧ t.part.records = p.cal.page.records ∧
        (∀ k : Track, t.part.front.get k = (p.front.get k).onRecord (p.cal.page.records.get k) p.now) ∧
        t.part.cal = { p.cal with state := .valid p.cal.page.flag } ∧
        (p.mgr.control ++ [r.answer .ok 0 .empty]) <+: t.part.mgr.control ∧ t.part.mgr.intake = rest ∧
        t.part.types = p.types ∧ t.part.fsc = p.fsc ∧ t.part.ports = p.ports)

/-! ### Heads, the link and the intake -/

/-- R1, R4: HEAD_CLEAR takes a head whose input is inactive out of FAULT into IDLE with the settings of the record in
force, refuses one whose input is active with BUSY, and changes nothing at a head that is not in FAULT; nothing else
changes. -/
def Obligations.HeadClearLeavesFault : Prop :=
  ∀ (s : State) (r : CommandRecord) (rest : List CommandRecord), s.part.Takes .headClear r rest →
    let p := s.part
    (∀ (k : Track) (i : PairId) (h : HeadId), r.byteAt 0 = k.number → PairId.ofNumber (r.byteAt 1) = some i →
      HeadId.ofCode (r.byteAt 2) = some h →
      let x := p.head k i h
      let rec' := p.record k
      let active := (rec'.headPolarity i h).names x.high
      (x.state = .fault → active = false → exec .headClear s = .next (s.withPart
        ((p.answered r rest .ok 0 .empty).setHead k i h { x with
          state := .idle, polarity := rec'.headPolarity i h, qualifyUs := rec'.qualifyUs,
          stuckMs := rec'.stuckMs }))) ∧
      (x.state = .fault → active = true →
        exec .headClear s = .next (s.withPart (p.answered r rest .busy 0 .empty))) ∧
      (x.state ≠ .fault → exec .headClear s = .next (s.withPart (p.answered r rest .ok 0 .empty)))) ∧
    ((r.byteAt 0 = 0 ∨ 4 < r.byteAt 0) ∨ (r.byteAt 1 = 0 ∨ 2 < r.byteAt 1) ∨ 1 < r.byteAt 2 →
      exec .headClear s = .next (s.withPart (p.answered r rest .badArgument 0 .empty)))

/-- R168, R169: a frame of the part's type that is addressed to it, or that is a broadcast IDENT, joins the intake or,
at a full intake, is counted and discarded; another broadcast is counted ignored; every other frame, and any frame
without link, changes nothing. R168, R185 and 11 §11.1: the record that joins holds the source address, the code and
the token of the frame, as its arguments the bytes of the body up to the body length, and whether the class is 0x01
and the body length lies within the bytes received. R170, R185, 11 §11.4: such a record names the command of its code
in the catalogue when its arguments have the length given there. What is read beyond the end of a frame of fewer than
20 bytes is a free value (log 13). -/
def Obligations.FrameAcceptFillsIntake : Prop :=
  (∀ (s : State) (frame : List Byte),
    let p := s.part
    let dest := headerField frame 0 6
    let mine : Prop := p.mgr.link = true ∧ 14 ≤ frame.length ∧ headerField frame 12 2 = 0xB7D2
    let accepted : Prop := (dest = 2 ^ 48 - 1 ∧ frameByte frame 15 = 0x01) ∨
      (dest ≠ 2 ^ 48 - 1 ∧ dest = p.mgr.linkAddr.toNat)
    (mine → accepted → p.mgr.intake.length < 4 → exec (.frameAccept frame) s =
      .next (s.withPart (p.setMgr { p.mgr with intake := p.mgr.intake ++ [commandRecord frame] }))) ∧
    (mine → accepted → 4 ≤ p.mgr.intake.length → exec (.frameAccept frame) s =
      .next (s.withPart (p.setMgr { p.mgr with intakeDrops := p.mgr.intakeDrops + 1 }))) ∧
    (mine → dest = 2 ^ 48 - 1 → frameByte frame 15 ≠ 0x01 → exec (.frameAccept frame) s =
      .next (s.withPart (p.setMgr { p.mgr with ignored := p.mgr.ignored + 1 }))) ∧
    (mine → dest ≠ 2 ^ 48 - 1 → dest ≠ p.mgr.linkAddr.toNat → exec (.frameAccept frame) s = .next s) ∧
    (p.mgr.link = false ∨ headerField frame 12 2 ≠ 0xB7D2 → exec (.frameAccept frame) s = .next s)) ∧
  (∀ (dest source : LinkAddr) (cls code : Byte) (token : Word16) (n : Nat) (body : List Byte), n < 65536 →
    commandRecord (be 6 dest.toNat ++ be 6 source.toNat ++ be 2 0xB7D2 ++ [cls, code] ++ be 2 token.toNat ++ be 2 n ++
      body) =
      { source := source, code := code, token := token, args := body.take n
        framed := decide (cls = 0x01 ∧ n ≤ body.length) }) ∧
  (∀ (r : CommandRecord) (c : Command), r.command = some c ↔ r.framed = true ∧
    (r.code.toNat, c, r.args.length) ∈ ([
      (0x01, .ident, 0), (0x02, .status, 0), (0x03, .timeRead, 0), (0x04, .modeSet, 1), (0x05, .resetPart, 0),
      (0x10, .trackWrite, 36), (0x11, .trackRead, 1), (0x12, .trimSet, 2), (0x13, .trimStep, 2), (0x14, .lampSet, 5),
      (0x20, .typeWrite, 33), (0x21, .typeClear, 1), (0x22, .typeRead, 1), (0x30, .headClear, 3),
      (0x31, .scheduleRead, 0), (0x32, .passageRead, 1), (0x33, .slotRead, 0), (0x40, .fetch, 5),
      (0x41, .fetchCancel, 1), (0x42, .slotRelease, 1), (0x50, .calStore, 1), (0x51, .calLoad, 0),
      (0x52, .calAutoload, 1)] : List (Nat × Command × Nat)))

/-- R171, R173: the head of the control queue is taken before any image data frame, and the wire is then busy for 0.8
ns a byte, in whole clock counts (log 15); the waiting record that was made first takes the place that is freed, and
the entry of a FETCH_DONE then leaves the fetch queue (R161); the wire frees when its time has run; a frame on the
wire at the loss of link is lost; nothing else changes. R159: when a frame leaves the image data queue, the frame that
the read engine keeps takes the place and is counted in its entry, after which the engine goes on or, after the last,
is idle with the entry SENDING, and the first eligible entry's delivery starts (R156). That a command to end a sending
or to take a record whose time has not come changes nothing is the model's choice (log 1). -/
def Obligations.SendingTakesControlFirst : Prop :=
  (∀ s : State,
     let p := s.part
     (∀ (r : ControlRecord) (rest : List ControlRecord), p.mgr.link = true → p.mgr.wire = none →
       p.mgr.control = r :: rest → p.mgr.waiting = [] →
       exec .takeForSending s = .next (s.withPart (p.setMgr { p.mgr with
         control := rest
         wire := some { frame := .control r
                        left := wireCounts ((Frame.control r).bytes p.mgr.linkAddr).length } }))) ∧
     (∀ (f : ImageFrame) (rest : List ImageFrame), p.mgr.link = true → p.mgr.wire = none → p.mgr.control = [] →
       p.mgr.images = f :: rest → f.last = false → (∀ g : ReadEngine, p.fsc.engine = some g → g.kept = none) →
       exec .takeForSending s = .next (s.withPart (p.setMgr { p.mgr with
         images := rest
         wire := some { frame := .image f, left := wireCounts ((Frame.image f).bytes p.mgr.linkAddr).length } }))) ∧
     (∀ w : Wire, p.mgr.wire = some w →
       (w.left = 0 → exec .frameSendingEnd s = .next (s.withPart (p.setMgr { p.mgr with wire := none }))) ∧
       (w.left ≠ 0 → exec .frameSendingEnd s = .next s) ∧ exec .takeForSending s = .next s) ∧
     exec .ethernetLinkLost s = .next (s.withPart (p.setMgr { p.mgr with link := false, wire := none })) ∧
     exec .ethernetLinkFound s = .next (s.withPart (p.setMgr { p.mgr with link := true }))) ∧
  (∀ (s : State) (r w : ControlRecord) (rest ws : List ControlRecord),
     let p := s.part
     p.mgr.link = true → p.mgr.wire = none → p.mgr.control = r :: rest → rest.length < 16 → p.mgr.waiting = w :: ws →
     exec .takeForSending s = .next (s.withPart { p with
       mgr := { p.mgr with
         control := rest ++ [w], waiting := ws
         wire := some { frame := .control r
                        left := wireCounts ((Frame.control r).bytes p.mgr.linkAddr).length } }
       fsc := { p.fsc with
         fetches := match w.body with
           | .fetchDone d => p.fsc.fetches.filter (fun e => e.tag != d.tag)
           | _ => p.fsc.fetches } })) ∧
  (∀ (s : State) (f kept : ImageFrame) (rest : List ImageFrame) (g : ReadEngine),
     let p := s.part
     let becomes (engine : Option ReadEngine) (phase : FetchEntry → FetchPhase) : Prop :=
       exec .takeForSending s = .next (s.withPart { p with
         mgr := { p.mgr with
           images := rest ++ [kept]
           wire := some { frame := .image f, left := wireCounts ((Frame.image f).bytes p.mgr.linkAddr).length } }
         fsc := { p.fsc with
           engine := engine
           fetches := p.fsc.fetches.map (fun e => if e.tag == kept.tag then { e with
               frames := e.frames + 1
               delivered := e.delivered + (match kept.content with | .header _ => 0 | .lines ls => ls.length)
               lastLine := (match kept.content with
                 | .header _ => e.lastLine
                 | .lines ls => (ls.getLast?.map Prod.fst).or e.lastLine)
               phase := phase e }
             else e) } })
     p.mgr.link = true → p.mgr.wire = none → p.mgr.control = [] → p.mgr.images = f :: rest → f.last = false →
     rest.length < 2 → p.fsc.engine = some g → g.kept = some kept →
     (kept.last = false → becomes (some { g with number := g.number + 1, lines := [], kept := none })
       FetchEntry.phase) ∧
     (kept.last = true → (∀ e ∈ p.fsc.fetches, e.tag ≠ kept.tag → e.phase = .waiting →
         ∀ x : Slot, p.slot e.slot = some x → x.state ≠ .held) →
       becomes none (fun _ => .sending)) ∧
     (kept.last = true → ∃ t : State, exec .takeForSending s = .next t ∧ t.part.mgr.images = rest ++ [kept] ∧
       t.part.fsc.slots = p.fsc.slots ∧ t.part.fsc.turn = p.fsc.turn ∧
       t.part.DeliveryStarted (p.fsc.fetches.map (fun e => if e.tag == kept.tag then { e with
           frames := e.frames + 1
           delivered := e.delivered + (match kept.content with | .header _ => 0 | .lines ls => ls.length)
           lastLine := (match kept.content with
             | .header _ => e.lastLine
             | .lines ls => (ls.getLast?.map Prod.fst).or e.lastLine)
           phase := .sending }
         else e))))

/-! ### Image slots and retrieval (09) -/

/-- R155, R156, R157: the checks of FETCH in their order; an accepted FETCH appends its WAITING entry and is answered
ACCEPTED with the slot and its state. On an idle engine, with no earlier entry eligible, the delivery of a HELD slot
starts, its range clamped to the lines that the slot holds, and the entry of a FILLING slot waits for its image. That
the refusal of check 1 carries the number 0 is the model's choice (log 36). -/
def Obligations.FetchChecksAndAccepts : Prop :=
  ∀ (s : State) (r : CommandRecord) (rest : List CommandRecord), s.part.Takes .fetch r rest →
    let p := s.part
    let tag : Tag := BitVec.ofNat 8 (r.byteAt 0)
    let first := fieldAt r.args 1 2
    let count := fieldAt r.args 3 2
    let refused (st : Status) : Prop := exec .fetch s = .next (s.withPart (p.answered r rest st 0 .empty))
    (4096 ≤ first ∨ 4096 < count → refused .badArgument) ∧
    (first < 4096 → count ≤ 4096 →
      (p.slotWithTag tag = none → refused .noSuchTag) ∧
      ∀ (n : Nat) (x : Slot), p.slotWithTag tag = some n → p.slot n = some x →
        let entry : FetchEntry :=
          { token := r.token, source := r.source, tag := tag, slot := n, first := first, count := count,
            phase := .waiting, requested := none, delivered := 0, frames := 0, lastLine := none,
            cancelled := false, done := none }
        let m := x.lines.length
        let none_eligible : Prop := ∀ e ∈ p.fsc.fetches, e.phase = .waiting →
          ∀ y : Slot, p.slot e.slot = some y → y.state ≠ .held
        ((∃ e ∈ p.fsc.fetches, e.tag = tag) → refused .duplicate) ∧
        ((∀ e ∈ p.fsc.fetches, e.tag ≠ tag) →
          (8 ≤ p.fsc.fetches.length → refused .queueFull) ∧
          (p.fsc.fetches.length < 8 → p.fsc.engine.isSome = true ∨ (none_eligible ∧ x.state = .filling) →
            exec .fetch s = .next (s.withPart ((p.answered r rest .accepted 0 (.fetch tag n x.state)).setFsc
              { p.fsc with fetches := p.fsc.fetches ++ [entry] }))) ∧
          (p.fsc.fetches.length < 8 → p.fsc.engine = none → none_eligible → x.state = .held →
            exec .fetch s = .next (s.withPart ((p.answered r rest .accepted 0 (.fetch tag n .held)).setFsc
              { p.fsc with
                fetches := p.fsc.fetches ++ [{ entry with
                  phase := .delivering, requested := some (if count = 0 then m - first else count) }]
                engine := some { tag := tag, slot := n, number := 0, lines := [], next := first,
                                 stop := if count = 0 then m else min (first + count) m, kept := none } })))))

/-- R162: FETCH_CANCEL by the phase of the entry: NO_SUCH_TAG without one; a WAITING entry leaves with a FETCH_DONE of
no lines placed behind the reply; an entry DELIVERING, with no read of the store begun for it, or SENDING is marked.
R164: a read of the store begun for a delivery completes first, as at the end of its turn, and the entry is marked in
the phase in which the read leaves it. That a frame which this read completes goes unmarked where the image data queue
has room is the model's choice (log 27), and so is that the reply stands before the FETCH_DONE (log 17). -/
def Obligations.FetchCancelByPhase : Prop :=
  ∀ (s : State) (r : CommandRecord) (rest : List CommandRecord), s.part.Takes .fetchCancel r rest →
    let p := s.part
    let tag : Tag := BitVec.ofNat 8 (r.byteAt 0)
    ((∀ e ∈ p.fsc.fetches, e.tag ≠ tag) →
      exec .fetchCancel s = .next (s.withPart (p.answered r rest .noSuchTag 0 .empty))) ∧
    ∀ e : FetchEntry, p.fetchOf tag = some e →
      (e.phase = .waiting → e.requested = none → e.delivered = 0 → e.frames = 0 → e.lastLine = none →
        p.mgr.control.length + p.mgr.waiting.length + 1 < 16 →
        ∃ t : State, exec .fetchCancel s = .next t ∧
          t.part.mgr.control = p.mgr.control ++ [r.answer .ok 0 .empty,
            { dest := e.source, body := .fetchDone { token := e.token, tag := tag, delivered := 0, notDelivered := 0,
                                                     lastLine := none, frames := 0, cancelled := true } }] ∧
          t.part.fsc = { p.fsc with fetches := p.fsc.fetches.filter (fun x => x.tag != tag) } ∧
          t.part.csc = p.csc ∧ t.part.records = p.records ∧ t.part.mgr.intake = rest) ∧
      (e.phase = .delivering → (∀ u : StoreTurn, p.fsc.turn = some u → u.member ≠ .readEngine) →
        exec .fetchCancel s = .next (s.withPart ((p.answered r rest .ok 0 .empty).setFsc { p.fsc with
          fetches := p.fsc.fetches.map (fun x => if x.tag == tag then { x with cancelled := true } else x)
          engine := p.fsc.engine.map (fun g =>
            { g with kept := g.kept.map (fun f => { f with last := true }) }) }))) ∧
      (e.phase = .delivering → (∃ u : StoreTurn, p.fsc.turn = some u ∧ u.member = .readEngine) →
        let q := p.answered r rest .ok 0 .empty
        ∃ u : Part,
          exec .storeTurnRead (s.withPart (q.setFsc { q.fsc with turn := some { member := .readEngine, left := 0 } })) =
            .next (s.withPart u) ∧
          exec .fetchCancel s = .next (s.withPart (u.setFsc { u.fsc with
            fetches := u.fsc.fetches.map (fun x => if x.tag == tag then { x with cancelled := true } else x)
            engine :=
              if (u.fetchOf tag).map FetchEntry.phase = some .delivering then u.fsc.engine.map (fun g =>
                { g with kept := g.kept.map (fun f => { f with last := true }) })
              else u.fsc.engine }))) ∧
      (e.phase = .sending →
        exec .fetchCancel s = .next (s.withPart ((p.answered r rest .ok 0 .empty).setFsc { p.fsc with
          fetches := p.fsc.fetches.map (fun x => if x.tag == tag then { x with cancelled := true } else x) }))) ∧
      (e.phase = .finishing → exec .fetchCancel s = .next (s.withPart (p.answered r rest .ok 0 .empty)))

/-- R153: SLOT_RELEASE without a slot of the tag is refused with NO_SUCH_TAG, of a FILLING slot or of one that a fetch
entry names with IN_USE; else the slot becomes FREE with tag 0, no line entry and no header; nothing else changes. -/
def Obligations.SlotReleaseFreesHeldSlot : Prop :=
  ∀ (s : State) (r : CommandRecord) (rest : List CommandRecord), s.part.Takes .slotRelease r rest →
    let p := s.part
    let tag : Tag := BitVec.ofNat 8 (r.byteAt 0)
    (p.slotWithTag tag = none →
      exec .slotRelease s = .next (s.withPart (p.answered r rest .noSuchTag 0 .empty))) ∧
    ∀ (n : Nat) (x : Slot), p.slotWithTag tag = some n → p.slot n = some x →
      (x.state = .filling ∨ (∃ e ∈ p.fsc.fetches, e.slot = n) →
        exec .slotRelease s = .next (s.withPart (p.answered r rest .inUse 0 .empty))) ∧
      (x.state = .held → (∀ e ∈ p.fsc.fetches, e.slot ≠ n) →
        exec .slotRelease s = .next (s.withPart ((p.answered r rest .ok 0 .empty).setSlot n
          { state := .free, tag := 0, lines := [], header := none })))

/-- R158, R159: a store turn of the read engine that has come to its end reads the header into frame 0, or the next
line of the range into the frame under assembly. A frame is complete with its fourth line or the last line of the
range, and frame 0 at once; it is marked last when nothing of the range is left, or when the entry is cancelled
(R162), whose frame under assembly still takes its four lines or the rest of the range. A complete frame is placed in
an image data queue with room and counted, after which the engine goes on or, after the last, is idle with the entry
SENDING, at which the first eligible entry's delivery starts (R156, R157); without room the engine keeps it. -/
def Obligations.StoreTurnReadFillsFrames : Prop :=
  ∀ (s : State) (g : ReadEngine) (e : FetchEntry) (x : Slot),
    let p := s.part
    p.fsc.turn = some { member := .readEngine, left := 0 } → p.fsc.engine = some g → p.fetchOf g.tag = some e →
    p.slot g.slot = some x →
    let frame (last : Bool) (c : ImageContent) : ImageFrame :=
      { dest := e.source, token := e.token, tag := g.tag, number := g.number, last := last, content := c }
    let counted (f : FetchEntry → FetchEntry) : List FetchEntry :=
      p.fsc.fetches.map (fun y => if y.tag == g.tag then f y else y)
    let becomes (images : List ImageFrame) (g' : ReadEngine) (f : FetchEntry → FetchEntry) : Prop :=
      exec .storeTurnRead s = .next (s.withPart { p with
        mgr := { p.mgr with images := images }
        fsc := { p.fsc with turn := none, engine := some g', fetches := counted f } })
    let ends (images : List ImageFrame) (f : FetchEntry → FetchEntry) : Prop :=
      ∃ t : State, exec .storeTurnRead s = .next t ∧
        t = s.withPart { p with mgr := { p.mgr with images := images }, fsc := t.part.fsc } ∧
        t.part.fsc.slots = p.fsc.slots ∧ t.part.fsc.turn = none ∧ t.part.fsc.last = p.fsc.last ∧
        t.part.DeliveryStarted (counted f)
    let finished (next : Nat) : Prop := g.stop ≤ next ∨ e.cancelled = true
    (g.number = 0 →
      (p.mgr.images.length < 2 → ¬ finished g.next →
        becomes (p.mgr.images ++ [frame false (.header x.header)]) { g with number := 1, lines := [], kept := none }
          (fun y => { y with frames := y.frames + 1 })) ∧
      (p.mgr.images.length < 2 → finished g.next →
        ends (p.mgr.images ++ [frame true (.header x.header)])
          (fun y => { y with frames := y.frames + 1, phase := .sending })) ∧
      (2 ≤ p.mgr.images.length → becomes p.mgr.images
        { g with kept := some (frame (decide (g.stop ≤ g.next) || e.cancelled) (.header x.header)) } id)) ∧
    (∀ l : Line, g.number ≠ 0 → x.lines[g.next]? = some l →
      let ls := g.lines ++ [(g.next, l)]
      let read : ReadEngine := { g with lines := ls, next := g.next + 1 }
      let whole : Prop := ls.length = 4 ∨ g.stop ≤ g.next + 1
      (¬ whole → becomes p.mgr.images read id) ∧
      (p.mgr.images.length < 2 → whole → ¬ finished (g.next + 1) →
        becomes (p.mgr.images ++ [frame false (.lines ls)]) { read with number := g.number + 1, lines := [], kept := none }
          (fun y => { y with frames := y.frames + 1, delivered := y.delivered + ls.length, lastLine := some g.next })) ∧
      (p.mgr.images.length < 2 → whole → finished (g.next + 1) →
        ends (p.mgr.images ++ [frame true (.lines ls)])
          (fun y => { y with frames := y.frames + 1, delivered := y.delivered + ls.length, lastLine := some g.next,
                             phase := .sending })) ∧
      (2 ≤ p.mgr.images.length → whole → becomes p.mgr.images
        { read with kept := some (frame (decide (g.stop ≤ g.next + 1) || e.cancelled) (.lines ls)) } id))

/-- R160, R161: when the last frame of a delivery is taken for sending, the FETCH_DONE of its entry is made with the
counts of the entry, and the entry leaves the fetch queue as it takes its place in the control queue. -/
def Obligations.LastFrameTakenEndsFetch : Prop :=
  ∀ (s : State) (f : ImageFrame) (rest : List ImageFrame) (e : FetchEntry),
    let p := s.part
    p.mgr.link = true → p.mgr.wire = none → p.mgr.control = [] → p.mgr.waiting = [] → p.mgr.images = f :: rest →
    f.last = true → p.fetchOf f.tag = some e → (∀ g : ReadEngine, p.fsc.engine = some g → g.kept = none) →
    ∃ t : State, exec .takeForSending s = .next t ∧
      t.part.mgr.images = rest ∧
      t.part.mgr.control = [
        { dest := e.source
          body := .fetchDone { token := e.token, tag := f.tag, delivered := e.delivered,
                               notDelivered := e.requested.getD 0 - e.delivered, lastLine := e.lastLine,
                               frames := e.frames, cancelled := e.cancelled } }] ∧
      t.part.fsc = { p.fsc with fetches := p.fsc.fetches.filter (fun x => x.tag != f.tag) } ∧
      t.part.csc = p.csc ∧ t.part.records = p.records

/-! ### Wheel sensor front end (01) -/

/-- R2, R3, R4: a watched head in IDLE whose input turns active enters CANDIDATE at the present; a head in HELD whose
input turns inactive returns to IDLE; in FAULT neither change moves the head; nothing else changes. -/
def Obligations.HeadInputsMoveHeads : Prop :=
  ∀ (s : State) (k : Track) (i : PairId) (h : HeadId),
    let p := s.part
    let x := p.head k i h
    let pol := (p.record k).headPolarity i h
    (pol.names x.high = false →
      ((p.record k).enabled = true → x.state = .idle → exec (.headInputActive k i h) s = .next (s.withPart
        (p.setHead k i h { x with high := pol.names true, state := .candidate p.now false }))) ∧
      ((p.record k).enabled = false ∨ x.state ≠ .idle → exec (.headInputActive k i h) s = .next (s.withPart
        (p.setHead k i h { x with high := pol.names true })))) ∧
    (pol.names x.high = true →
      (∀ since : Time, x.state = .held since → exec (.headInputInactive k i h) s = .next (s.withPart
        (p.setHead k i h { x with high := !pol.names true, state := .idle }))) ∧
      ((∀ since : Time, x.state ≠ .held since) → exec (.headInputInactive k i h) s = .next (s.withPart
        (p.setHead k i h { x with high := !pol.names true }))))

/-- R2: the two samples of a candidate, at t_e + trunc(q/2) and t_e + q: an inactive input abandons it without record;
an active one at both makes a qualified pulse stamped t_e, counted, that reaches the pairing logic, and the head
enters HELD with its hold start t_e; nothing else changes. -/
def Obligations.CandidateSamples : Prop :=
  ∀ (s : State) (k : Track) (i : PairId) (h : HeadId) (since : Time),
    let p := s.part
    let x := p.head k i h
    (x.state = .candidate since false → p.now = since + BitVec.ofNat 48 (x.qualifyUs / 2) →
      (x.polarity.names x.high = true → exec (.candidateFirstSample k i h) s = .next (s.withPart
        (p.setHead k i h { x with state := .candidate since true }))) ∧
      (x.polarity.names x.high = false → exec (.candidateFirstSample k i h) s = .next (s.withPart
        (p.setHead k i h { x with state := .idle })))) ∧
    (x.state = .candidate since true → p.now = since + BitVec.ofNat 48 x.qualifyUs →
      (x.polarity.names x.high = true → exec (.candidateSecondSample k i h) s = .next (s.withPart
        (p.setFront k (((p.front.get k).setHead i h { x with state := .held since, pulses := x.pulses + 1 }).pulse
          p.mode (p.record k) i h since)))) ∧
      (x.polarity.names x.high = false → exec (.candidateSecondSample k i h) s = .next (s.withPart
        (p.setHead k i h { x with state := .idle }))))

/-- R6, R8: the table of pairing. With the partner not in FAULT a pulse waits, forms a paired event timed by the inner
stamp, or pushes the waiting pulse out as a counted single-head event; with the partner in FAULT it becomes a
single-head event at once. -/
def Obligations.PairingTable : Prop :=
  ∀ (f : FrontEnd) (m : Mode) (r : TrackRecord) (i : PairId) (h : HeadId) (stamp : Time),
    let single (f : FrontEnd) (w : WaitingPulse) : FrontEnd :=
      (f.setPair i { f.pair i with singles := (f.pair i).singles + 1 }).offer m
        { pair := i, time := w.stamp, position := w.head, direction := .unknown, transit := none, singleHead := true }
    let waits (f : FrontEnd) (w : Option WaitingPulse) : FrontEnd := f.setPair i { f.pair i with waiting := w }
    let new : WaitingPulse := { head := h, stamp := stamp }
    (((f.pair i).head h.other).state = .fault → f.pulse m r i h stamp = single f new) ∧
    (((f.pair i).head h.other).state ≠ .fault →
      ((f.pair i).waiting = none → f.pulse m r i h stamp = waits f (some new)) ∧
      (∀ w : WaitingPulse, (f.pair i).waiting = some w →
        (w.head = h → f.pulse m r i h stamp = waits (single f w) (some new)) ∧
        (w.head = h.other → (stamp - w.stamp).toNat ≤ r.spacing i * 720 →
          f.pulse m r i h stamp = (waits f none).offer m
            { pair := i
              time := if h = .inner then stamp else w.stamp
              position := .inner
              direction := if h = .inner then .inward else .outward
              transit := some (stamp - w.stamp).toNat, singleHead := false }) ∧
        (w.head = h.other → r.spacing i * 720 < (stamp - w.stamp).toNat →
          f.pulse m r i h stamp = waits (single f w) (some new))))

/-- R10, R11, R12, R13: outside SERVICE an event joins a queue of fewer than 16, and at a full queue is discarded and
counted with the LOSS latch set; in SERVICE it joins nothing. The take of the last event clears the latch, any other
take keeps it. -/
def Obligations.EventQueueAndLossLatch : Prop :=
  ∀ (f : FrontEnd) (m : Mode) (e : AxleEvent),
    (m = .service → f.offer m e = f) ∧
    (m ≠ .service → f.queue.length < 16 → f.offer m e = { f with queue := f.queue ++ [e] }) ∧
    (m ≠ .service → 16 ≤ f.queue.length → f.offer m e = { f with discarded := f.discarded + 1, loss := true }) ∧
    (∀ e' : AxleEvent, f.queue = [e'] → f.dequeue = { f with queue := [], loss := false }) ∧
    (∀ (a b : AxleEvent) (l : List AxleEvent), f.queue = a :: b :: l → f.dequeue = { f with queue := b :: l })

/-- R3, R7, R8: a head still HELD at its stuck limit enters FAULT, its pair's waiting pulse becomes a single-head
event and a FAULT notice is made in every mode; a waiting pulse that reaches its stamp plus the ceiling plus q becomes
a single-head event; nothing else changes. -/
def Obligations.StuckLimitAndCeiling : Prop :=
  ∀ (s : State) (k : Track) (i : PairId),
    let p := s.part
    let single (f : FrontEnd) (w : WaitingPulse) : FrontEnd :=
      (f.setPair i { f.pair i with waiting := none, singles := (f.pair i).singles + 1 }).offer p.mode
        { pair := i, time := w.stamp, position := w.head, direction := .unknown, transit := none, singleHead := true }
    (∀ (h : HeadId) (since : Time), (p.head k i h).state = .held since →
      p.now = since + BitVec.ofNat 48 ((p.head k i h).stuckMs * 1000) → p.freePlace = true →
      let f := (p.front.get k).setHead i h { p.head k i h with state := .fault }
      let f' := match ((p.front.get k).pair i).waiting with
        | some w => single f w
        | none => f
      exec (.headStuckLimit k i h) s = .next (s.withPart ((p.setFront k f').setMgr
        { p.mgr with control := p.mgr.control ++ [p.noticeRecord (.headStuck k i h p.now)] }))) ∧
    (∀ w : WaitingPulse, ((p.front.get k).pair i).waiting = some w →
      p.now = w.stamp + BitVec.ofNat 48 ((p.record k).spacing i * 720 + (p.record k).qualifyUs) →
      exec (.pairCeilingExpiry k i) s = .next (s.withPart (p.setFront k (single (p.front.get k) w))))

/-- R14: on a track that uses its occupancy input a change away from the settled state starts the 50 ms timer and a
change back abandons it; at its expiry the settled state takes the input's level. Elsewhere the
level alone changes. -/
def Obligations.OccupancySettles : Prop :=
  ∀ (s : State) (k : Track),
    let p := s.part
    let o := (p.front.get k).occupancy
    let pol := (p.record k).occPolarity
    let uses := (p.record k).enabled = true ∧ (p.record k).occUse = true
    let becomes (i : Instr) (o' : Occupancy) : Prop :=
      exec i s = .next (s.withPart (p.setFront k { p.front.get k with occupancy := o' }))
    (uses → pol.names (!o.high) ≠ o.occupied →
      becomes (.occupancyInputChange k) { o with high := !o.high, timer := some (p.now + 50000#48) }) ∧
    (uses → pol.names (!o.high) = o.occupied →
      becomes (.occupancyInputChange k) { o with high := !o.high, timer := none }) ∧
    (¬ uses → becomes (.occupancyInputChange k) { o with high := !o.high }) ∧
    (o.timer = some p.now → (p.trackers.get k).handling = none →
      ((p.passage k).state ≠ .clearing ∨ pol.names o.high = true) →
      becomes (.occupancySettleExpiry k) { o with occupied := pol.names o.high, timer := none })

/-! ### Passage tracker (03) -/

/-- R12, R35, R36, R37, R45: the take of an event while the passage record is VACANT: an outward event is stray and is
only counted; any other opens a passage with the next number, whose entry axle it is, starts its silence timer, and
passes a loss mark on as AXLE_LOSS and a suspension; no other track's passage or front end changes. That the handling
of a stray event ends at the take, with none begun, is the model's choice (log 12). -/
def Obligations.EventTakeOpensPassage : Prop :=
  ∀ (s : State) (k : Track) (e : AxleEvent) (rest : List AxleEvent),
    let p := s.part
    let f := p.front.get k
    let f' : FrontEnd := { f with queue := rest, loss := f.loss && !rest.isEmpty }
    let old := p.passage k
    f.queue = e :: rest → (p.trackers.get k).handling = none → old.state = .vacant →
    (e.direction = .outward → exec (.eventTake k) s = .next (s.withPart ((p.setFront k f').setTracker k
      { p.trackers.get k with stray := (p.trackers.get k).stray + 1 }))) ∧
    (e.direction ≠ .outward → ∃ t : State, exec (.eventTake k) s = .next t ∧
      t.part.front = p.front.set k f' ∧
      (t.part.passage k).state = .running ∧ (t.part.passage k).number = old.number + 1 ∧
      (t.part.passage k).entryPair = some e.pair ∧ (t.part.passage k).openTime = e.time ∧
      (t.part.passage k).entries = 1 ∧ (t.part.passage k).exits = 0 ∧ (t.part.passage k).backouts = 0 ∧
      (t.part.passage k).inside = 1 ∧
      (t.part.passage k).silence = some (p.now + BitVec.ofNat 48 ((p.record k).silenceS * 1000000)) ∧
      (t.part.passage k).pace = e.transit.map (fun d => (axlePace d ((p.record k).spacing e.pair)).pace) ∧
      (t.part.passage k).flags.axleLoss = f.loss ∧ (t.part.passage k).flags.matchSuspended = f.loss ∧
      (t.part.passage k).matcher.pending.length = (if f.loss then 0 else 1) ∧
      (t.part.trackers.get k).handling = some { takenAt := p.now, closeDue := false, deferred := [] } ∧
      (t.part.trackers.get k).stray = (p.trackers.get k).stray ∧
      (∀ j : Track, j ≠ k → t.part.trackers.get j = p.trackers.get j) ∧
      t.part.records = p.records ∧ t.part.types = p.types ∧ t.part.cal = p.cal ∧
      (p.mode ≠ .onLine → t.part.csc = p.csc ∧ t.part.lar = p.lar ∧ t.part.ports = p.ports ∧
        t.part.fsc = p.fsc ∧ t.part.mgr = p.mgr))

/-- R35, R37 to R42: the take of an event in an open passage, by its pair and its direction: an entry axle, an exit
axle, a backout or a conflict, with its counts and flags. R46 to R48, R68: an entry axle or an exit axle with a
transit moves the pace by the filter toward the axle pace of the transit and the spacing of its pair, with FAST or
SLOW set where that is clamped; a changed pace moves the deadline of a running coupling timer, and in ON_LINE re-times
the WAITING jobs of the passage (R101); an event without a transit, a backout and a conflict leave the pace. An entry
axle is then handed to the matcher with its ordinal unless matching is suspended, and nothing else of the part changes
by either axle. A backout and a conflict suspend matching and end the WAITING jobs of the passage, and no other, each
with its JOB_ENDED, CANCELLED with cause REVERSAL or CONFLICT, in the order of the schedule where places are free
(R111). A loss mark flags AXLE_LOSS and suspends matching; at no axle inside the record enters CLEARING on a track
that is OCCUPIED, and else a close is due at the end of the handling. That the settled occupancy state is read at the
take, not at the end of the handling, is the model's choice (log 31). -/
def Obligations.EventTakeClassesAxle : Prop :=
  ∀ (s : State) (k : Track) (e : AxleEvent) (rest : List AxleEvent),
    let p := s.part
    let f := p.front.get k
    let r := p.passage k
    let atEntry := r.entryPair = some e.pair
    let left : Count16 := if r.inside = 0 then 0 else r.inside - 1
    let inner : Bool := decide (r.entryPair = some e.pair)
    let paces : Prop := (inner = true ∧ e.direction ≠ .outward) ∨ (inner = false ∧ e.direction ≠ .inward)
    let deadline : Time := p.now + BitVec.ofNat 48 ((p.record k).silenceS * 1000000)
    let taken : Passage := { r with
      silence := some deadline, state := .running
      flags := { r.flags with
        axleLoss := r.flags.axleLoss || f.loss, matchSuspended := r.flags.matchSuspended || f.loss }
      matcher := if f.loss && !r.flags.matchSuspended then
          { r.matcher with pending := [], candidates := [], coupling := none }
        else r.matcher }
    let counted : Passage :=
      if inner then { taken with entries := r.entries + 1, inside := r.inside + 1 }
      else { taken with
        exits := r.exits + 1, inside := left
        flags := { taken.flags with countError := r.flags.countError || decide (r.inside = 0) } }
    let measured (d : Nat) : AxlePace := axlePace d ((p.record k).spacing e.pair)
    let paced : Passage := match e.transit with
      | none => counted
      | some d => { counted with
          pace := some (filterPace r.pace (measured d).pace)
          flags := { counted.flags with
            fast := r.flags.fast || (measured d).fast, slow := r.flags.slow || (measured d).slow } }
    let moved : Passage := match paced.matcher.coupling, paced.matcher.pending.getLast?, paced.pace with
      | some c, some last, some pace =>
        let due : Time := last.time + BitVec.ofNat 48 (roundDiv (c.distance * pace) 256)
        if r.pace = some pace then paced
        else { paced with matcher := { paced.matcher with coupling := some { c with deadline := due } } }
      | _, _, _ => paced
    let axled : Part := { p with
      front := p.front.set k { f with queue := rest, loss := f.loss && !rest.isEmpty }
      trackers := p.trackers.set k { p.trackers.get k with passage := moved } }
    let timed : Part :=
      if p.mode = .onLine ∧ paced.pace ≠ r.pace then axled.retime k (fun j => j.passage == r.number) else axled
    let handed : Part :=
      if inner && !counted.flags.matchSuspended then timed.handAxle k e (r.entries + 1) else timed
    let waits (j : Job) : Bool := decide (j.state = .waiting) && j.track == k && j.passage == r.number
    let unlit (l : List Job) : List Job := l.map (fun x => { x with lamp := .none })
    let cause : CancelCause := if inner then .reversal else .conflict
    f.queue = e :: rest → (p.trackers.get k).handling = none → r.state ≠ .vacant →
    ∃ t : State, exec (.eventTake k) s = .next t ∧
      t.part.front = p.front.set k { f with queue := rest, loss := f.loss && !rest.isEmpty } ∧
      let r' := t.part.passage k
      let empty := decide (r'.inside = 0)
      (atEntry → e.direction ≠ .outward → r'.entries = r.entries + 1 ∧ r'.inside = r.inside + 1 ∧
        r'.exits = r.exits ∧ r'.backouts = r.backouts ∧ r'.flags.countError = r.flags.countError ∧
        r'.flags.reversal = r.flags.reversal ∧ r'.flags.conflict = r.flags.conflict) ∧
      (¬ atEntry → e.direction ≠ .inward → r'.exits = r.exits + 1 ∧ r'.inside = left ∧
        r'.entries = r.entries ∧ r'.backouts = r.backouts ∧
        r'.flags.countError = (r.flags.countError || decide (r.inside = 0)) ∧
        r'.flags.reversal = r.flags.reversal ∧ r'.flags.conflict = r.flags.conflict) ∧
      (atEntry → e.direction = .outward → r'.backouts = r.backouts + 1 ∧ r'.inside = left ∧
        r'.entries = r.entries ∧ r'.exits = r.exits ∧ r'.flags.reversal = true ∧
        r'.flags.countError = (r.flags.countError || decide (r.inside = 0)) ∧
        r'.flags.conflict = r.flags.conflict) ∧
      (¬ atEntry → e.direction = .inward → r'.inside = r.inside + 1 ∧ r'.flags.conflict = true ∧
        r'.entries = r.entries ∧ r'.exits = r.exits ∧ r'.backouts = r.backouts ∧
        r'.flags.countError = r.flags.countError ∧ r'.flags.reversal = r.flags.reversal) ∧
      ((atEntry ∧ e.direction = .outward) ∨ (¬ atEntry ∧ e.direction = .inward) →
        r'.flags.matchSuspended = true ∧
        (∀ j ∈ t.part.csc.jobs, j.state = .waiting → j.track = k → j.passage ≠ r.number) ∧
        (p.TagsDistinct → unlit t.part.csc.jobs = unlit (p.csc.jobs.filter (fun j => !waits j)) ∧
          (p.mgr.control.length + p.mgr.waiting.length + (p.csc.jobs.filter waits).length ≤ 16 →
            ∃ ended : List Job, unlit ended = unlit (p.csc.jobs.filter waits) ∧ t.part.mgr = { p.mgr with
              control := p.mgr.control ++
                ended.map (fun j => p.noticeRecord (.jobEnded j p.now .cancelled cause)) }))) ∧
      (paces → t = s.withPart { handed with
        trackers := handed.trackers.set k { handed.trackers.get k with
          passage := { handed.passage k with state := if empty && f.occupancy.occupied then .clearing else .running }
          handling := some { takenAt := p.now, closeDue := empty && !f.occupancy.occupied, deferred := [] } } }) ∧
      (∀ d : Nat, paces → e.transit = some d → r'.pace = some (filterPace r.pace (measured d).pace) ∧
        r'.flags.fast = (r.flags.fast || (measured d).fast) ∧ r'.flags.slow = (r.flags.slow || (measured d).slow)) ∧
      (¬ paces ∨ e.transit = none → r'.pace = r.pace ∧ r'.flags.fast = r.flags.fast ∧ r'.flags.slow = r.flags.slow) ∧
      r'.number = r.number ∧ r'.entryPair = r.entryPair ∧ r'.openTime = r.openTime ∧
      r'.silence = some (p.now + BitVec.ofNat 48 ((p.record k).silenceS * 1000000)) ∧
      r'.flags.axleLoss = (r.flags.axleLoss || f.loss) ∧ (f.loss = true → r'.flags.matchSuspended = true) ∧
      r'.state = (if empty && f.occupancy.occupied then .clearing else .running) ∧
      (t.part.trackers.get k).handling =
        some { takenAt := p.now, closeDue := empty && !f.occupancy.occupied, deferred := [] } ∧
      (∀ j : Track, j ≠ k → t.part.trackers.get j = p.trackers.get j) ∧ t.part.records = p.records

/-- R42, R43, R45, R49, R50, R77: a passage that closes, at the end of a handling at which a close is due, at the
settling of the occupancy input to CLEAR while it is CLEARING, or at the expiry of its silence timer: its record
returns to VACANT with its number kept, and nothing reaches the capture scheduler. R35, R42, R43, R49, R53, R55, R69:
the end of any handling is the expiry of the coupling timer if it is due and taken first, with the passage still open;
then the close, if one is due; then what was deferred, in the order in which it came, a report of CLEAR closing a
passage in CLEARING, a change to SERVICE closing an open one ABORTED, a RESET_PART clearing the record without a
notice; then the expiry if it is due by then. That the close goes before what was deferred is read into R35 (log 21).
Four ends with no coupling timer past and the two timers are spelled out. PASSAGE_CLOSED carries the record as it
stood when the matcher had finished: with no complete candidate the axles that pended are unmatched; else the first
complete candidate is declared, counted and entered in the vehicle list or LIST_FULL, and its sightings are counted;
nothing else of the record changes. Without a free place the notice is dropped and counted (R172). That the totals go
from 65,535 to 0 is the model's choice (log 32). The types are those of the table as the passage closes: where a
handling spans a change to SERVICE that, and that a type cleared by then leaves no vehicle, is the model's choice (log
34). -/
def Obligations.PassageCloses : Prop :=
  ∀ (s : State) (k : Track) (first : Bool),
    let p := s.part
    let r := p.passage k
    let f := p.front.get k
    let closes (i : Instr) (reason : CloseReason) (front : Quad FrontEnd) : Prop :=
      ∃ (t : State) (final : Passage), exec i s = .next t ∧ p.FinishedAs k final ∧
      t.part = { p with
        front := front
        trackers := p.trackers.set k { p.trackers.get k with passage := Passage.vacant r.number, handling := none }
        mgr := if p.freePlace then
            { p.mgr with control := p.mgr.control ++ [p.noticeRecord (.passageClosed k final p.now reason)] }
          else { p.mgr with noticeDrops := p.mgr.noticeDrops + 1 } }
    let ends (passage : Passage) : Prop := exec (.eventHandlingEnd k first) s = .next (s.withPart
      (p.setTracker k { p.trackers.get k with passage := passage, handling := none }))
    let idle : Part := p.setTracker k { p.trackers.get k with handling := none }
    (∀ h : Handling, (p.trackers.get k).handling = some h → ∃ (a b c : Part) (t : State),
      (first = true → exec (.couplingTimerExpiry k) (s.withPart idle) = .next (s.withPart a)) ∧
      (first = false → a = idle) ∧
      (h.closeDue = true → a.ClosedAs k .normal b) ∧ (h.closeDue = false → b = a) ∧
      Part.AllDeferredTaken k c h.deferred b ∧
      exec (.couplingTimerExpiry k) (s.withPart c) = .next t ∧ exec (.eventHandlingEnd k first) s = .next t) ∧
    (∀ h : Handling, (p.trackers.get k).handling = some h → p.couplingPast k = false →
      (h.deferred = [] ∨ h.deferred = [.toService] → h.closeDue = true → r.state ≠ .vacant →
        closes (.eventHandlingEnd k first) .normal p.front) ∧
      (h.deferred = [.toService] → h.closeDue = false → r.state ≠ .vacant →
        closes (.eventHandlingEnd k first) .aborted p.front) ∧
      (h.deferred = [.reset] → h.closeDue = false → ends (Passage.vacant r.number)) ∧
      (h.deferred = [] → h.closeDue = false → ends r)) ∧
    ((p.trackers.get k).handling = none → r.state = .clearing → f.occupancy.timer = some p.now →
      (p.record k).occPolarity.names f.occupancy.high = false →
      closes (.occupancySettleExpiry k) .normal
        (p.front.set k { f with occupancy := { f.occupancy with occupied := false, timer := none } })) ∧
    ((p.trackers.get k).handling = none → r.state ≠ .vacant → r.silence = some p.now →
      closes (.silenceTimerExpiry k) .timedOut p.front)

/-! ### Axle pattern matcher (04) -/

/-- R62: a candidate stands in the set of a pending list exactly when its type is valid, the list is not empty and no
longer than the type's axles, and every measured gap agrees with the listed gap that the orientation meets there
within the tolerance; it is complete exactly when the list is as long as the type's axles. The set is in table order,
FORWARD before REVERSED. -/
def Obligations.CandidateSetMembers : Prop :=
  ∀ (p : Part) (l : List PendingAxle) (c : Candidate),
    let measured := l.tail.map (fun a => a.gap.getD 0)
    (p.candidateSet l).Pairwise (fun a b =>
      a.index < b.index ∨ (a.index = b.index ∧ a.facing = .forward ∧ b.facing = .reversed)) ∧
    (c ∈ p.candidateSet l ↔ l ≠ [] ∧ c.index < 64 ∧ ∃ v : VehicleType, p.vehicleType c.index = some v ∧
      let listed := match c.facing with
        | .forward => v.gaps
        | .reversed => v.gaps.reverse
      measured.length ≤ listed.length ∧
      (∀ (i x y : Nat), measured[i]? = some x → listed[i]? = some y → natDist x y ≤ v.tolerance) ∧
      (c.complete = true ↔ measured.length = listed.length))

/-- R69, R71 to R75: at the expiry of the coupling timer the first complete candidate is declared: the vehicle is
counted and enters the vehicle list, or LIST_FULL is set; its orientation is UNKNOWN when both orientations of its
type are complete in the set; each pantograph makes its one or two sightings, with their marks and distances behind
the first pending axle, the ordinal of the vehicle, that axle's time and the approach of the entry pair; each is
counted, and in ON_LINE handed to the capture scheduler, in that order; then the pending list, the candidate set and
the timer are emptied. R63 to R66, the arrival rule: an axle enters an empty list; else the partial candidates that
its gap agrees with survive, partial or complete anew, and the axle joins the list; else the first complete candidate
whose coupling gap the gap reaches is declared and the axle enters an empty list; else the oldest axles are dropped as
unmatched, one by one, until some candidate is alive for those left with the arriving axle, or it is left alone. R67:
when the set holds a complete candidate, the coupling timer starts with the largest of the complete candidates'
coupling gaps and the partial candidates' next gaps with tolerance. R58 to R61: an entry axle is handed with the timer
stopped; one timed by its outer head is given the time at which it would reach the inner head; the gap is measured
from the last pending axle, or is 0 where there is none or the time does not advance; each conversion is made at the
pace of the passage or, without one, at the default pace with NO_SPEED. That a gap of a time that does not advance
makes no conversion, and so sets no NO_SPEED, is read into R60 and R61 (log 22); that the totals go from 65,535 to 0
is the model's choice (log 32). -/
def Obligations.CouplingExpiryDeclares : Prop :=
  (∀ (s : State) (k : Track) (ct : CouplingTimer) (c : Candidate),
    let p := s.part
    (p.trackers.get k).handling = none → (p.passage k).matcher.coupling = some ct →
    reached p.now ct.deadline = true → (p.passage k).matcher.firstComplete = some c →
    exec (.couplingTimerExpiry k) s = .next (s.withPart (p.declare k false c))) ∧
  (∀ (p : Part) (k : Track) (a : PendingAxle) (l : List PendingAxle) (c : Candidate) (v : VehicleType) (i : PairId),
    let r := p.passage k
    let m := r.matcher
    let both := (∃ x ∈ m.candidates, x.index = c.index ∧ x.complete = true ∧ x.facing = .forward) ∧
      (∃ x ∈ m.candidates, x.index = c.index ∧ x.complete = true ∧ x.facing = .reversed)
    m.pending = a :: l → p.vehicleType c.index = some v → r.entryPair = some i →
    ∃ o : Orientation,
      (both → o = .unknown) ∧ (¬ both → c.facing = .forward → o = .forward) ∧
      (¬ both → c.facing = .reversed → o = .reversed) ∧
      let places (f : Nat) : List (Nat × Mark) := match o with
        | .forward => [(f, .forward)]
        | .reversed => [(v.span - f, .reversed)]
        | .unknown => if f = v.span - f then [(f, .unknownA)] else [(f, .unknownA), (v.span - f, .unknownB)]
      let sightings : List Sighting := v.pantographs.zipIdx.flatMap (fun f => (places f.1).map (fun x =>
        { vehicle := r.vehicleCount + 1, index := c.index, pantograph := f.2, mark := x.2, reference := a.time
          distance := (match i with | .pair1 => (p.record k).approach1 | .pair2 => (p.record k).approach2) + x.1 }))
      let listed : Passage := { r with
        vehicleCount := r.vehicleCount + 1
        flags := { r.flags with listFull := r.flags.listFull || decide (64 ≤ m.vehicles.length) }
        matcher := { m with vehicles := if m.vehicles.length < 64 then m.vehicles ++
            [{ index := c.index, orientation := o, firstAxle := a.ordinal, axles := l.length + 1 }]
          else m.vehicles } }
      let reported (q : Part) (x : Sighting) : Part :=
        let q' := q.setPassage k { q.passage k with sightingCount := (q.passage k).sightingCount + 1 }
        if p.mode = .onLine then q'.takeSighting k r.number x else q'
      let u := sightings.foldl reported (p.setPassage k listed)
      let cleared (x : Matcher) : Matcher := { x with pending := [], candidates := [], coupling := none }
      p.declare k false c = u.setMatcher k (cleared (u.passage k).matcher) ∧
      (u.passage k = { listed with
        sightingCount := r.sightingCount + BitVec.ofNat 16
          (v.pantographs.map (fun x => if o = .unknown ∧ x ≠ v.span - x then 2 else 1)).sum
        jobCount := (u.passage k).jobCount }) ∧
      (∀ j : Track, j ≠ k → u.trackers.get j = p.trackers.get j) ∧ u.front = p.front ∧ u.records = p.records ∧
      (p.mode ≠ .onLine → u = p.setPassage k (u.passage k) ∧ (u.passage k).jobCount = r.jobCount)) ∧
  (∀ (p : Part) (k : Track) (a : PendingAxle) (g : Nat),
    let r := p.passage k
    let m := r.matcher
    let n := m.pending.length
    let q := p.arrive k a g
    let new : PendingAxle := { a with gap := some g }
    let enters (p : Part) : Part := p.setMatcher k { (p.passage k).matcher with
      pending := [{ a with gap := none }], candidates := p.candidateSet [{ a with gap := none }] }
    let next (c : Candidate) : Option Nat := (p.vehicleType c.index).bind (fun v =>
      (match c.facing with | .forward => v.gaps | .reversed => v.gaps.reverse)[n - 1]?)
    let survive (c : Candidate) : Option Candidate := (p.vehicleType c.index).bind (fun v => (next c).bind (fun y =>
      if c.complete = false ∧ natDist g y ≤ v.tolerance then
        some { c with complete := decide (v.gaps.length = n) }
      else none))
    let alive := m.candidates.filterMap survive
    let due (c : Candidate) : Bool :=
      c.complete && decide (((p.vehicleType c.index).map VehicleType.couplingGap).getD 0 ≤ g)
    (m.pending = [] → q = enters p) ∧
    (m.pending ≠ [] → alive ≠ [] →
      q = p.setMatcher k { m with pending := m.pending ++ [new], candidates := alive }) ∧
    (m.pending ≠ [] → alive = [] → ∀ c : Candidate, m.candidates.find? due = some c →
      q = enters (p.declare k false c)) ∧
    (m.pending ≠ [] → alive = [] → (∀ c ∈ m.candidates, due c = false) → ∃ d : Nat, 1 ≤ d ∧ d ≤ n ∧
      (∀ i : Nat, 1 ≤ i → i < d → p.candidateSet (m.pending.drop i ++ [new]) = []) ∧
      (p.candidateSet (m.pending.drop d ++ [new]) ≠ [] ∨ d = n) ∧
      q = p.setPassage k { r with
        flags := { r.flags with unmatched := true }
        matcher := { m with
          pending := m.pending.drop d ++ [new], candidates := p.candidateSet (m.pending.drop d ++ [new])
          unmatched := m.unmatched + BitVec.ofNat 16 d } }) ∧
    let distance (c : Candidate) : Nat :=
      if c.complete then ((p.vehicleType c.index).map VehicleType.couplingGap).getD 0
      else (next c).getD 0 + ((p.vehicleType c.index).map VehicleType.tolerance).getD 0
    ((∀ c ∈ m.candidates, c.complete = false) → p.startCoupling k = p) ∧
    (∀ last : PendingAxle, m.pending.getLast? = some last → (∃ c ∈ m.candidates, c.complete = true) →
      ∃ C : Nat, (∀ c ∈ m.candidates, distance c ≤ C) ∧ (∃ c ∈ m.candidates, distance c = C) ∧
        let length := roundDiv (C * r.pace.getD (p.record k).defaultPace) 256
        p.startCoupling k = p.setPassage k { r with
          flags := { r.flags with noSpeed := r.flags.noSpeed || r.pace.isNone }
          matcher := { m with
            coupling := some { distance := C, deadline := last.time + BitVec.ofNat 48 length } } })) ∧
  (∀ (p : Part) (k : Track) (e : AxleEvent) (ordinal : Count16),
    let r := p.passage k
    let m := r.matcher
    let pace := r.pace.getD (p.record k).defaultPace
    let outer := decide (e.position = .outer)
    let time : Time :=
      if outer then e.time + BitVec.ofNat 48 (roundDiv ((p.record k).spacing e.pair * pace) 256) else e.time
    let handed (gap : Nat) (converts : Bool) : Part :=
      let stopped := p.setPassage k { r with
        flags := { r.flags with noSpeed := r.flags.noSpeed || (r.pace.isNone && converts) }
        matcher := { m with coupling := none } }
      (stopped.arrive k { ordinal := ordinal, position := e.position, time := time, gap := none } gap).startCoupling k
    (m.pending = [] → p.handAxle k e ordinal = handed 0 outer) ∧
    ∀ last : PendingAxle, m.pending.getLast? = some last →
      (0 < (time - last.time).toInt →
        p.handAxle k e ordinal = handed (roundDiv ((time - last.time).toInt.toNat * 256) pace) true) ∧
      ((time - last.time).toInt ≤ 0 → p.handAxle k e ordinal = handed 0 outer))

/-! ### Capture scheduler (06) -/

/-- R95: with at most 32 jobs the counter always comes to a tag from 1 to 255 that no job of the schedule and no slot
that is not FREE carries, and it is the first such after the counter in the cycle of the 255 tags. R96 to R100: a
sighting whose own window has passed is dropped TOO_LATE; a start that has passed is moved to the present with LATE; a
window that overlaps no job of its track is placed; one that overlaps is merged into the first job that it overlaps
when every condition of R97 holds, which takes the new computation whole and moves to its place, its lamp entry given
the new times (R119), and else is separated from the jobs of the track and placed, or dropped OVERLAP. A window placed
becomes a job with an allocated tag at the place of its start, counted by the passage and entered with the lamp
arbiter, or at 32 jobs is dropped SCHEDULE_FULL; where the lamp request time of a job placed has passed it is decided
at once, and where its start has passed the job opens at once, each as by its own command (R99, R104, R120). A drop
carries the sighting's own window, with its late move (log 18). That the jobs count of a passage goes from 65,535 to 0
is the model's choice (log 32). R98, R89: separation leaves a window that overlaps no job of the track, or an empty
one. -/
def Obligations.TagAllocationFindsUnusedTag : Prop :=
  (∀ (p : Part) (counter : Tag), p.csc.jobs.length ≤ 32 →
    let t := p.allocateTag 255 counter
    t ≠ 0 ∧ (∀ j ∈ p.csc.jobs, j.tag ≠ t) ∧
    (∀ (n : Nat) (x : Slot), p.slot n = some x → x.state ≠ .free → x.tag ≠ t) ∧
    ∃ n : Nat, n < 255 ∧ t = nextTag^[n + 1] counter ∧
      ∀ m < n, (∃ j ∈ p.csc.jobs, j.tag = nextTag^[m + 1] counter) ∨
        ∃ (i : Nat) (x : Slot), p.slot i = some x ∧ x.state ≠ .free ∧ x.tag = nextTag^[m + 1] counter) ∧
  (∀ (p : Part) (k : Track) (num : Count16) (s : Sighting),
    let t := p.takeSighting k num s
    let unknown : Bool := decide (s.mark = .unknownA ∨ s.mark = .unknownB)
    let late (j : Job) : Job :=
      if liesBefore j.start p.now then { j with
        start := p.now, lineCount := ceilDiv ((j.stop - p.now).toNat * 100) j.linePeriod
        lampRequest := p.now - 200#48, flags := { j.flags with late := true } }
      else j
    let own := p.computeJob
      { tag := 0, track := k, passage := num, sightings := [s], pace := 0, centre := 0, start := 0, stop := 0,
        lampRequest := 0, linePeriod := 0, lineCount := 0, state := .waiting, slot := none, lamp := .none,
        triggered := 0, received := 0, lost := 0, drainDeadline := none, entryOrder := 0,
        flags := { orientationUnknown := unknown } }
    let w := late own
    let js := p.csc.jobs.filter (fun x => x.track == k)
    let drops (reason : DropReason) (x : Job) : Prop :=
      t = p.notice (.sightingDropped k num s reason x.centre x.start x.stop)
    let places (x : Job) : Prop :=
      (32 ≤ p.csc.jobs.length → drops .scheduleFull w) ∧
      (let tag := p.allocateTag 255 p.csc.tagCounter
       let entered : Part := { p with
         csc := { jobs := insertJob p.now { x with tag := tag, entryOrder := p.csc.nextEntry } p.csc.jobs
                  tagCounter := tag, nextEntry := p.csc.nextEntry + 1 }
         trackers := p.trackers.set k { p.trackers.get k with
           passage := { p.passage k with jobCount := (p.passage k).jobCount + 1 } }
         lar := { p.lar with entries := p.lar.entries ++
           [{ tag := tag, track := k, start := x.start, stop := x.stop, request := x.lampRequest,
              phase := .awaiting }] } }
       p.csc.jobs.length < 32 → (∀ e ∈ p.lar.entries, e.tag ≠ tag) → ∃ d : Part,
         (reached p.now x.lampRequest = false → d = entered) ∧
         (reached p.now x.lampRequest = true →
           exec (.lampRequestTime tag) { part := entered, pending := [] } = .next { part := d, pending := [] }) ∧
         (reached p.now x.start = false → t = d) ∧
         (reached p.now x.start = true →
           exec (.windowOpen tag) { part := d, pending := [] } = .next { part := t, pending := [] }))
    (reached p.now own.stop = true → drops .tooLate own) ∧
    (reached p.now own.stop = false →
      ((∀ o ∈ js, w.overlaps o = false) → places w) ∧
      ∀ o : Job, js.find? (fun x => w.overlaps x) = some o →
        let m := p.computeJob { o with
          sightings := o.sightings ++ [s]
          flags := { o.flags with orientationUnknown := o.flags.orientationUnknown || unknown } }
        let merges : Prop := o.state = .waiting ∧ o.passage = num ∧ o.sightings.length < 4 ∧
          m.flags.narrowed = false ∧ ∀ x ∈ js, x.tag ≠ o.tag → (late m).overlaps x = false
        (merges → ∃ d : Part,
          (d.csc.jobs.map (fun x => { x with lamp := .none })).Perm
            ((p.csc.jobs.map (fun x => if x.tag == o.tag then late m else x)).map (fun x => { x with lamp := .none })) ∧
          d.csc.jobs.Pairwise (fun a b => b.before p.now a = false) ∧ d.csc.tagCounter = p.csc.tagCounter ∧
          d.trackers = p.trackers ∧ d.mgr = p.mgr ∧ d.ports = p.ports ∧ d.fsc = p.fsc ∧ d.records = p.records ∧
          d.tb = p.tb ∧
          (∀ e : LampEntry, p.lar.entry o.tag = some e →
            e.phase ≠ .awaiting ∨ reached p.now (late m).lampRequest = false → d.lar.entry o.tag = some
              { e with start := (late m).start, stop := (late m).stop, request := (late m).lampRequest }) ∧
          (reached p.now (late m).start = false → t = d) ∧
          (reached p.now (late m).start = true →
            exec (.windowOpen o.tag) { part := d, pending := [] } = .next { part := t, pending := [] })) ∧
        (¬ merges → ∀ x : Job,
          (separate (js.length + 1) js w = .empty x → drops .overlap w) ∧
          (separate (js.length + 1) js w = .kept x → places x)))) ∧
  (∀ (js : List Job) (w x : Job) (base : Time),
    (∀ o ∈ w :: js, (o.start - base).toNat < 2 ^ 46 ∧ (o.stop - base).toNat < 2 ^ 46) →
    let moves (o : Job) : Job := { w with
      start := o.stop + 1#48, lampRequest := o.stop + 1#48 - 200#48, flags := { w.flags with clipped := true } }
    ((∀ o ∈ js, w.overlaps o = false) → separate (js.length + 1) js w = .kept w) ∧
    (separate (js.length + 1) js w = .kept x → (∀ o ∈ js, x.overlaps o = false) ∧
      (x = w ∨ ∃ o ∈ js, x = { moves o with
        lineCount := ceilDiv ((w.stop - (o.stop + 1#48)).toNat * 100) w.linePeriod })) ∧
    (separate (js.length + 1) js w = .empty x → atOrBefore w.stop x.start = true ∧
      ∃ o ∈ js, x = { moves o with lineCount := x.lineCount })) ∧
  (∀ (now : Time) (j : Job) (l : List Job), (insertJob now j l).Perm (j :: l) ∧
    (l.Pairwise (fun a b => b.before now a = false) →
      (insertJob now j l).Pairwise (fun a b => b.before now a = false)))

/-- R25, R104, R151: the regions of the tracks are disjoint; the slot that a job of a track is given is the
lowest-numbered FREE slot of the track's region, and none is found only when the region holds no FREE slot. -/
def Obligations.FreeSlotIsLowestOfRegion : Prop :=
  ∀ (p : Part) (k : Track),
    (∀ (j : Track) (n : Nat), inRegion p.records k n = true → inRegion p.records j n = true → j = k) ∧
    (∀ n : Nat, p.freeSlot k = some n →
      inRegion p.records k n = true ∧ (∃ x : Slot, p.slot n = some x ∧ x.state = .free) ∧
      ∀ (m : Nat) (x : Slot), m < n → inRegion p.records k m = true → p.slot m = some x → x.state ≠ .free) ∧
    (p.freeSlot k = none → ∀ (m : Nat) (x : Slot), inRegion p.records k m = true → p.slot m = some x →
      x.state ≠ .free)

/-- R104, R105, R110, R132, R151: a WAITING job at its start: on an idle port that is UP it takes its slot, starts the
port and is OPEN; with no free slot it ends NO_SLOT, and on a port that is DOWN it ends CAMERA_DOWN, each with its
JOB_ENDED, every other job kept but for its lamp status, and the arbiter ends its service or withdraws its request
(R123, R125); nothing else changes. R109, R142, R143, R144: on a port that drains, that drain is cut first: the lines
of the FIFO are written, the triggered lines neither received nor lost are lost, and a fence covers them; at an idle
read engine the entry that comes first among those whose slots are HELD starts (R152, R156); it ends complete where a
store turn begun for the port writes the last line outstanding. That trigger 0 of a job that opens part-way through a
microsecond comes at the count of the opening is the model's choice (log 29), and so is that a begun turn completes
within the drain end (log 26). A recovery time of 0 passes within the step (log 19). -/
def Obligations.WindowOpensJob : Prop :=
  ∀ (s : State) (j : Job),
    let p := s.part
    let k := j.track
    let c := p.ports.get k
    let unlit (l : List Job) : List Job := l.map (fun x => { x with lamp := .none })
    let ended (reason : EndReason) : Responder :=
      { p.mgr with control := p.mgr.control ++ [p.noticeRecord (.jobEnded j p.now reason .none)] }
    let ends (reason : EndReason) : Prop :=
      (p.lar.entry j.tag = none → exec (.windowOpen j.tag) s = .next (s.withPart { p with
        csc := { p.csc with jobs := p.csc.jobs.filter (fun x => x.tag != j.tag) }, mgr := ended reason })) ∧
      ∃ t : State, exec (.windowOpen j.tag) s = .next t ∧ t.part.mgr = ended reason ∧
        t.part.csc = { p.csc with jobs := t.part.csc.jobs } ∧
        unlit t.part.csc.jobs = unlit (p.csc.jobs.filter (fun x => x.tag != j.tag)) ∧
        t.part.lar.entry j.tag = none ∧ (∀ e : LampEntry, p.lar.entry j.tag = some e → p.LampFreed e t.part.lar) ∧
        t.part.fsc = p.fsc ∧ t.part.ports = p.ports ∧ t.part.trackers = p.trackers ∧ t.part.records = p.records
    let started (n : Nat) (c : Port) : Port := { c with
      activity := .triggering, job := some { tag := j.tag, slot := n }, expected := none
      generator := some { load := BitVec.ofNat 16 (j.linePeriod - 1), count := 0 } }
    p.job j.tag = some j → j.state = .waiting → reached p.now j.start = true →
    (p.freeSlot k = none → p.freePlace = true → ends .noSlot) ∧
    ∀ n : Nat, p.freeSlot k = some n →
      (c.up = false → p.freePlace = true → ends .cameraDown) ∧
      (c.up = true → c.activity = .idle → exec (.windowOpen j.tag) s = .next (s.withPart { p with
        fsc := { p.fsc with
          slots := p.fsc.slots.setIfInBounds n { state := .filling, tag := j.tag, lines := [], header := none } }
        ports := p.ports.set k (started n c)
        csc := { p.csc with jobs := p.csc.jobs.map (fun x =>
          if x.tag == j.tag then { x with state := .opened, slot := some n } else x) } })) ∧
      (∀ (d : Job) (m : Nat) (x : Slot), c.up = true → c.activity = .draining →
        c.job = some { tag := d.tag, slot := m } → p.job d.tag = some d → d.tag ≠ j.tag → p.slot m = some x →
        x.state ≠ .free → d.received + c.fifo.length + d.lost ≤ d.triggered →
        let left := d.triggered - (d.received + c.fifo.length + d.lost)
        let d' : Job := { d with
          received := d.received + c.fifo.length, lost := d.lost + left
          flags := { d.flags with badCheck := d.flags.badCheck || c.fifo.any Line.badCheck } }
        let last : Prop := (∃ u : StoreTurn, p.fsc.turn = some u ∧ u.member = .port k) ∧ c.fifo.length = 1 ∧ left = 0
        ∃ (t : State) (kind : DrainEnd), exec (.windowOpen j.tag) s = .next t ∧
          (last → kind = .complete) ∧ (¬ last → kind = .cut) ∧
          p.DrainEnded t.part d' m x (x.lines ++ c.fifo) kind
            ((p.csc.jobs.filter (fun y => y.tag != d.tag)).map (fun y =>
              if y.tag == j.tag then { y with state := .opened, slot := some n } else y)) ∧
          t.part.slot n = some { state := .filling, tag := j.tag, lines := [], header := none } ∧
          (∀ i : Nat, i ≠ n → i ≠ m → t.part.slot i = p.slot i) ∧
          t.part.job j.tag = some { j with state := .opened, slot := some n } ∧
          t.part.ports = p.ports.set k (started n { c with
            fifo := [], overrun := false
            fence := c.expected.bind (fun e => if left = 0 then none else some { first := e, length := left }) }) ∧
          t.part.lar = p.lar ∧ t.part.trackers = p.trackers ∧ t.part.records = p.records)

/-- R106, R107, R108, R133, R142, R143, R144, R145: at its end an OPEN job whose lines are not all accounted for
becomes DRAINING, its triggers stopped, with its deadline 1,000 µs later; at its end with all accounted for, or at its
drain deadline, the drain ends: the lines of the FIFO are written, every triggered line is received or lost, the slot
is HELD with its header, IMAGE_READY is made, the job alone leaves the schedule, an entry that waited for the slot may
start its delivery (R152, R156) and the port is IDLE, with a fence over the lines that the drain end counts lost, if
the port expects a sequence number. At its deadline it ends complete where a store turn begun for the port writes the
last line outstanding; that such a turn completes within the drain end is the model's choice (log 26). R121, R123,
R125: at the window end a service of the bank for the job ends and the bank rests, and a request that the bank has not
been granted is withdrawn, the first deferred one of its track promoted, and the job UNLIT; the drain deadline leaves
the arbiter alone. That a recovery time of 0 passes within the step is the model's choice (log 19). -/
def Obligations.WindowEndAndDrainEnd : Prop :=
  ∀ (s : State) (j : Job) (n : Nat) (x : Slot),
    let p := s.part
    let k := j.track
    let c := p.ports.get k
    let left := j.triggered - (j.received + c.fifo.length + j.lost)
    let freed (a : Arbiter) (lamp : LampStatus) : Prop :=
      (p.lar.entry j.tag = none → a = p.lar ∧ lamp = j.lamp) ∧
      (∀ e : LampEntry, p.lar.entry j.tag = some e → p.LampFreed e a ∧
        lamp = if e.phase = .awaiting ∨ e.phase = .serving then j.lamp else .unlit)
    let unlit (l : List Job) : List Job := l.map (fun x => { x with lamp := .none })
    let others : List Job := p.csc.jobs.filter (fun y => y.tag != j.tag)
    let drained (i : Instr) (j' : Job) (kind : DrainEnd) (overrun : Bool) (lamp : LampStatus) (jobs : List Job)
        (t : State) : Prop :=
      exec i s = .next t ∧
      p.DrainEnded t.part { j' with
        received := j.received + c.fifo.length, lost := j.lost + left, lamp := lamp
        flags := { j.flags with badCheck := j.flags.badCheck || c.fifo.any Line.badCheck } } n x (x.lines ++ c.fifo)
        kind jobs ∧
      (∀ m : Nat, m ≠ n → t.part.slot m = p.slot m) ∧
      t.part.ports = p.ports.set k { c with
        activity := .idle, job := none, generator := none, fifo := [], overrun := overrun
        fence := c.expected.bind (fun e => if left = 0 then none else some { first := e, length := left }) } ∧
      t.part.records = p.records ∧ t.part.trackers = p.trackers
    p.job j.tag = some j → c.job = some { tag := j.tag, slot := n } → p.slot n = some x →
    (j.state = .opened → reached p.now j.stop = true →
      let closing : Job := { j with state := .draining, drainDeadline := some (j.stop + 1000#48) }
      (j.received + j.lost ≠ j.triggered → ∃ (t : State) (lamp : LampStatus), exec (.windowEnd j.tag) s = .next t ∧
        t.part.ports = p.ports.set k { c with activity := .draining, generator := none } ∧
        t.part.job j.tag = some { closing with lamp := lamp } ∧ t.part.csc = { p.csc with jobs := t.part.csc.jobs } ∧
        unlit t.part.csc.jobs = unlit (p.csc.jobs.map (fun y => if y.tag == j.tag then
          { y with state := .draining, drainDeadline := some (j.stop + 1000#48) } else y)) ∧ freed t.part.lar lamp ∧ t.part.fsc = p.fsc ∧
        t.part.mgr = p.mgr ∧ t.part.records = p.records ∧ t.part.trackers = p.trackers) ∧
      (j.received + j.lost = j.triggered → c.fifo = [] → ∃ (t : State) (lamp : LampStatus) (jobs : List Job),
        drained (.windowEnd j.tag) closing .complete c.overrun lamp jobs t ∧ freed t.part.lar lamp ∧
        unlit jobs = unlit others ∧ (p.lar.entry j.tag = none → jobs = others))) ∧
    (∀ d : Time, j.state = .draining → j.drainDeadline = some d → reached p.now d = true →
      j.received + c.fifo.length + j.lost ≤ j.triggered →
      let last : Prop := (∃ u : StoreTurn, p.fsc.turn = some u ∧ u.member = .port k) ∧ c.activity = .draining ∧
        c.fifo.length = 1 ∧ left = 0
      ∃ (t : State) (kind : DrainEnd), drained (.drainDeadline j.tag) j kind false j.lamp others t ∧ t.part.lar = p.lar ∧
        (last → kind = .complete) ∧ (¬ last → kind = .deadline))

/-! ### Lamp arbiter (07) -/

/-- R120, R121, R122: at its request time a job of a masked track, or of one that uses daylight in daylight, is
decided without a lamp; any other requests the bank: behind its track's request it is deferred, and at an idle bank in
ON_LINE with no other request it is granted, LIT when its window has not begun and PARTLY_LIT else; nothing else
changes. -/
def Obligations.LampRequestDecided : Prop :=
  ∀ (s : State) (e : LampEntry),
    let p := s.part
    let k := e.track
    let r := p.record k
    let status (x : LampStatus) : Scheduler :=
      { p.csc with jobs := p.csc.jobs.map (fun j => if j.tag == e.tag then { j with lamp := x } else j) }
    let phase (x : LampPhase) : List LampEntry :=
      p.lar.entries.map (fun y => if y.tag == e.tag then { y with phase := x } else y)
    let becomes (a : Arbiter) (x : LampStatus) : Prop :=
      exec (.lampRequestTime e.tag) s = .next (s.withPart { p with lar := a, csc := status x })
    let removed : Arbiter := { p.lar with entries := p.lar.entries.filter (fun y => y.tag != e.tag) }
    let requests : Prop := r.lampMask = false ∧ (r.daylightUse = false ∨ p.lar.daylight = false)
    p.lar.entry e.tag = some e → e.phase = .awaiting → reached p.now e.request = true →
    (r.lampMask = true → becomes removed .masked) ∧
    (r.lampMask = false → r.daylightUse = true → p.lar.daylight = true → becomes removed .daylight) ∧
    (requests → p.lar.bank ≠ .idle ∨ p.mode ≠ .onLine →
      (p.lar.pendingSet.get k = none → becomes
        { p.lar with entries := phase .requested, pendingSet := p.lar.pendingSet.set k (some e.tag) } .pending) ∧
      (∀ t : Tag, p.lar.pendingSet.get k = some t → becomes
        { p.lar with entries := phase .deferred, deferral := p.lar.deferral.set k (p.lar.deferral.get k ++ [e.tag]) }
        .pending)) ∧
    (requests → p.lar.bank = .idle → p.mode = .onLine → p.lar.pendingSet = .all none → p.lar.deferral = .all [] →
      becomes { p.lar with entries := phase .serving, bank := .inService e.tag k p.now }
        (if atOrBefore p.now e.start then .lit else .partlyLit))

/-- R122, R124: the winner among the requests is one of them, and no request has a lower priority number; among the
requests of its priority number none starts earlier, and of those with the same start none has a lower track number,
where the requests are those of their tracks and their starts lie near each other (R79); at the end of the recovery the
bank is IDLE, and in ON_LINE it is granted to the winner at once, and to nothing when no request waits. -/
def Obligations.RecoveryEndGrantsWinner : Prop :=
  ∀ (s : State) (k : Track),
    let p := s.part
    let a : Arbiter := { p.lar with bank := .idle }
    (∀ e : LampEntry, p.lar.winner p.records = some e → e ∈ p.lar.requests ∧
      (∀ x ∈ p.lar.requests, (p.record e.track).lampPriority ≤ (p.record x.track).lampPriority) ∧
      ((∀ (j : Track) (t : Tag) (x : LampEntry), p.lar.pendingSet.get j = some t → p.lar.entry t = some x →
          x.track = j) →
        (∃ base : Time, ∀ x ∈ p.lar.requests, (x.start - base).toNat < 2 ^ 47) →
        ∀ x ∈ p.lar.requests, (p.record x.track).lampPriority = (p.record e.track).lampPriority →
          liesBefore x.start e.start = false ∧ (x.start = e.start → e.track.number ≤ x.track.number))) ∧
    (p.lar.bank = .recovery k p.now →
      (p.mode ≠ .onLine ∨ p.lar.requests = [] → exec .recoveryEnd s = .next (s.withPart { p with lar := a })) ∧
      (p.mode = .onLine → ∀ e : LampEntry, p.lar.winner p.records = some e →
        ∃ t : State, exec .recoveryEnd s = .next t ∧ t.part.lar.bank = .inService e.tag e.track p.now ∧
          (∀ j ∈ t.part.csc.jobs, j.tag = e.tag →
            j.lamp = (if atOrBefore p.now e.start then .lit else .partlyLit)) ∧
          (∀ j : Track, t.part.lar.lampOutput j = decide (j = e.track)) ∧
          t.part.ports = p.ports ∧ t.part.fsc = p.fsc ∧ t.part.mgr = p.mgr ∧ t.part.records = p.records))

/-! ### Camera ports (08) -/

/-- R130: a loss of sync takes a port that is UP DOWN, is counted, and on an enabled track makes LINK_DOWN, or without
a free place counts it dropped (R172); sync found takes it UP. R92, R132: a trigger that falls due before the end of
the window makes the output active for 100 clock counts, counts a line, and the next falls due n + 1 counts after it,
and after a late opening at its own place in the grid of the window's start, which is the model's choice (log 29); the
pulse ends after its counts. Nothing else changes. That a loss of sync at a DOWN port, or the end of a pulse that has
not run, changes nothing is the model's choice (log 1). -/
def Obligations.PortSyncAndTriggers : Prop :=
  ∀ (s : State) (k : Track),
    let p := s.part
    let c := p.ports.get k
    let lost : Part := p.setPort k { c with up := false, losses := c.losses + 1 }
    (c.up = true → (p.record k).enabled = false → exec (.cameraSyncLost k) s = .next (s.withPart lost)) ∧
    (c.up = true → (p.record k).enabled = true → p.freePlace = true →
      exec (.cameraSyncLost k) s = .next (s.withPart (lost.setMgr
        { p.mgr with control := p.mgr.control ++ [p.noticeRecord (.linkDown k p.now)] }))) ∧
    (c.up = true → (p.record k).enabled = true → p.freePlace = false →
      exec (.cameraSyncLost k) s = .next (s.withPart (lost.setMgr
        { p.mgr with noticeDrops := p.mgr.noticeDrops + 1 }))) ∧
    (c.up = false → exec (.cameraSyncLost k) s = .next s) ∧
    exec (.cameraSyncFound k) s = .next (s.withPart (p.setPort k { c with up := true })) ∧
    (c.pulse = some 0 → exec (.triggerPulseEnd k) s = .next (s.withPart (p.setPort k { c with pulse := none }))) ∧
    (c.pulse ≠ some 0 → exec (.triggerPulseEnd k) s = .next s) ∧
    (∀ (g : Generator) (j : Job) (n : Nat), c.generator = some g → c.job = some { tag := j.tag, slot := n } →
      p.job j.tag = some j → g.count = 0 → 1 ≤ (j.stop - p.now).toNat → (j.stop - p.now).toNat ≤ 2 ^ 47 →
      let elapsed := (p.now - j.start).toNat * 100 + p.tb.sub
      let triggers (count : Nat) : Prop := exec (.trigger k) s = .next (s.withPart { p with
        ports := p.ports.set k { c with pulse := some 100, generator := some { g with count := count } }
        csc := { p.csc with jobs := p.csc.jobs.map (fun x =>
          if x.tag == j.tag then { x with triggered := x.triggered + 1 } else x) } })
      (elapsed = j.triggered * (g.load.toNat + 1) → triggers (g.load.toNat + 1)) ∧
      (elapsed ≤ (j.triggered + 1) * (g.load.toNat + 1) →
        triggers ((j.triggered + 1) * (g.load.toNat + 1) - elapsed)))

/-- R134, R135, R136, R137, R138: a line packet at a port that triggers or drains: a port that is DOWN ignores it; on
an idle port, inside the fence (R144), at no room, behind the number expected or too far ahead of it, it is stray;
else the lines skipped are lost, and the line enters the FIFO with its marks, or is discarded with the latch set and
the job OVERRUN, or, of a wrong length, is lost. R137: the check value is the sum of the sequence number, the pixel
count and each pixel times its place, modulo 2^32. R142: a lost line that accounts for the last of a draining port
ends the drain, at which an entry that waited for the slot may start its delivery (R152, R156). -/
def Obligations.LinePacketTested : Prop :=
  (∀ (sequence pixelCount : Word16) (pixels : List Byte), lineCheck sequence pixelCount pixels =
    BitVec.ofNat 32 (sequence.toNat + pixelCount.toNat + (pixels.zipIdx.map (fun x => (x.2 + 1) * x.1.toNat)).sum)) ∧
  ∀ (s : State) (k : Track) (pk : LinePacket),
    let p := s.part
    let c := p.ports.get k
    let stray : Prop := exec (.linePacket k pk) s = .next (s.withPart (p.setPort k { c with stray := c.stray + 1 }))
    let whole : Prop := pk.pixelCount = 2048#16 ∧ pk.pixels.length = 2048
    (c.up = false → exec (.linePacket k pk) s = .next s) ∧
    (c.up = true → c.activity = .idle → stray) ∧
    ∀ (j : Job) (n : Nat), c.up = true → c.activity ≠ .idle → c.job = some { tag := j.tag, slot := n } →
      p.job j.tag = some j →
      let room := j.triggered - (j.received + j.lost + c.fifo.length)
      let fenced : Prop := ∃ f : Fence, c.fence = some f ∧ (pk.sequence - f.first).toNat < f.length
      (room = 0 ∨ fenced → stray) ∧
      (∀ e : Word16, c.expected = some e → 32768 ≤ (pk.sequence - e).toNat ∨ room ≤ (pk.sequence - e).toNat →
        stray) ∧
      ∀ d : Nat, ¬ fenced → d < room → (c.expected = none ∧ d = 0) ∨
          (∃ e : Word16, c.expected = some e ∧ (pk.sequence - e).toNat = d ∧ d < 32768) →
        let line : Line :=
          { sequence := pk.sequence, badCheck := lineCheck pk.sequence pk.pixelCount pk.pixels != pk.check,
            gap := decide (0 < d), pixels := pk.pixels }
        let becomes (c' : Port) (f : Job → Job) : Prop :=
          exec (.linePacket k pk) s = .next (s.withPart { p with
            ports := p.ports.set k c'
            csc := { p.csc with jobs := p.csc.jobs.map (fun x => if x.tag == j.tag then f x else x) } })
        let last : Prop := c.activity = .draining ∧ j.received + j.lost + d + 1 = j.triggered
        (whole → c.fifo.length < 8 → c.overrun = false → becomes
          { c with fifo := c.fifo ++ [line], expected := some (pk.sequence + 1) }
          (fun x => { x with lost := x.lost + d })) ∧
        (whole → 8 ≤ c.fifo.length ∨ c.overrun = true → becomes
          { c with overrun := true, discarded := c.discarded + 1, expected := some pk.sequence }
          (fun x => { x with lost := x.lost + d, flags := { x.flags with overrun := true } })) ∧
        (¬ whole → ¬ last → becomes { c with expected := some (pk.sequence + 1) }
          (fun x => { x with lost := x.lost + d + 1 })) ∧
        (∀ x : Slot, ¬ whole → last → p.slot n = some x → ∃ t : State, exec (.linePacket k pk) s = .next t ∧
          p.DrainEnded t.part { j with lost := j.lost + d + 1 } n x x.lines .complete
            (p.csc.jobs.filter (fun y => y.tag != j.tag)) ∧
          (∀ m : Nat, m ≠ n → t.part.slot m = p.slot m) ∧
          t.part.ports = p.ports.set k { c with
            activity := .idle, job := none, generator := none, fence := none, expected := some (pk.sequence + 1) } ∧
          t.part.lar = p.lar ∧ t.part.trackers = p.trackers ∧ t.part.records = p.records)

/-- R139, R141: a store turn of a port that has come to its end writes the line at the head of the FIFO behind the
lines of the job's slot, counts it received, flags BAD_CHECK for a marked one, and clears the overrun latch when it
empties the FIFO; nothing else changes. R142: the line that accounts for the last of a draining port ends the drain,
at which an entry that waited for the slot may start its delivery (R152, R156). -/
def Obligations.StoreTurnWriteTakesLine : Prop :=
  ∀ (s : State) (k : Track) (l : Line) (rest : List Line) (tag : Tag) (n : Nat) (x : Slot),
    let p := s.part
    let c := p.ports.get k
    let c' : Port := { c with fifo := rest, overrun := c.overrun && !rest.isEmpty }
    let counted (j : Job) : Job := { j with
      received := j.received + 1, flags := { j.flags with badCheck := j.flags.badCheck || l.badCheck } }
    let last (j : Job) : Prop :=
      c.activity = .draining ∧ p.job tag = some j ∧ j.received + 1 + j.lost = j.triggered
    p.fsc.turn = some { member := .port k, left := 0 } → c.fifo = l :: rest →
    c.job = some { tag := tag, slot := n } → p.slot n = some x →
    ((∀ j : Job, ¬ last j) → exec (.storeTurnWrite k) s = .next (s.withPart { p with
      ports := p.ports.set k c'
      fsc := { p.fsc with turn := none, slots := p.fsc.slots.setIfInBounds n { x with lines := x.lines ++ [l] } }
      csc := { p.csc with jobs := p.csc.jobs.map (fun y => if y.tag == tag then counted y else y) } })) ∧
    (∀ j : Job, last j → ∃ t : State, exec (.storeTurnWrite k) s = .next t ∧
      p.DrainEnded t.part (counted j) n x (x.lines ++ [l]) .complete
        (p.csc.jobs.filter (fun y => y.tag != j.tag)) ∧
      (∀ m : Nat, m ≠ n → t.part.slot m = p.slot m) ∧ t.part.fsc.turn = none ∧
      t.part.ports = p.ports.set k { c' with activity := .idle, job := none, generator := none, fence := none } ∧
      t.part.lar = p.lar ∧ t.part.trackers = p.trackers ∧ t.part.records = p.records)
end

