-- ==== Sys2Proof/Laws/State.lean ====
section
/-! SUPPORT. One lemma per field per update of the part, so that no later proof unfolds a record update. -/

namespace Sys2Proof

@[simp] theorem Quad.get_all {α : Type} (a : α) (k : Track) : (Quad.all a).get k = a := by cases k <;> rfl

@[simp] theorem Quad.get_set_self {α : Type} (q : Quad α) (k : Track) (a : α) : (q.set k a).get k = a := by
  cases k <;> rfl

theorem Quad.get_set_other {α : Type} (q : Quad α) {j k : Track} (h : j ≠ k) (a : α) :
    (q.set k a).get j = q.get j := by
  cases j <;> cases k <;> first | rfl | exact absurd rfl h

@[simp] theorem Quad.get_map {α β : Type} (f : α → β) (q : Quad α) (k : Track) : (q.map f).get k = f (q.get k) := by
  cases k <;> rfl

@[simp] theorem Quad.set_get {α : Type} (q : Quad α) (k : Track) : q.set k (q.get k) = q := by cases k <;> rfl

@[simp] theorem Quad.set_set {α : Type} (q : Quad α) (k : Track) (a b : α) : (q.set k a).set k b = q.set k b := by
  cases k <;> rfl

namespace Machine

@[simp] theorem Part.setFront_tb (p : Part) (k : Track) (x : FrontEnd) :
    (p.setFront k x).tb = p.tb := rfl

@[simp] theorem Part.setFront_records (p : Part) (k : Track) (x : FrontEnd) :
    (p.setFront k x).records = p.records := rfl

@[simp] theorem Part.setFront_types (p : Part) (k : Track) (x : FrontEnd) :
    (p.setFront k x).types = p.types := rfl

@[simp] theorem Part.setFront_front (p : Part) (k : Track) (x : FrontEnd) :
    (p.setFront k x).front = p.front.set k x := rfl

@[simp] theorem Part.setFront_trackers (p : Part) (k : Track) (x : FrontEnd) :
    (p.setFront k x).trackers = p.trackers := rfl

@[simp] theorem Part.setFront_csc (p : Part) (k : Track) (x : FrontEnd) :
    (p.setFront k x).csc = p.csc := rfl

@[simp] theorem Part.setFront_lar (p : Part) (k : Track) (x : FrontEnd) :
    (p.setFront k x).lar = p.lar := rfl

@[simp] theorem Part.setFront_ports (p : Part) (k : Track) (x : FrontEnd) :
    (p.setFront k x).ports = p.ports := rfl

@[simp] theorem Part.setFront_fsc (p : Part) (k : Track) (x : FrontEnd) :
    (p.setFront k x).fsc = p.fsc := rfl

@[simp] theorem Part.setFront_mgr (p : Part) (k : Track) (x : FrontEnd) :
    (p.setFront k x).mgr = p.mgr := rfl

@[simp] theorem Part.setFront_cal (p : Part) (k : Track) (x : FrontEnd) :
    (p.setFront k x).cal = p.cal := rfl

@[simp] theorem Part.setFront_free (p : Part) (k : Track) (x : FrontEnd) :
    (p.setFront k x).free = p.free := rfl

@[simp] theorem Part.setTracker_tb (p : Part) (k : Track) (x : Tracker) :
    (p.setTracker k x).tb = p.tb := rfl

@[simp] theorem Part.setTracker_records (p : Part) (k : Track) (x : Tracker) :
    (p.setTracker k x).records = p.records := rfl

@[simp] theorem Part.setTracker_types (p : Part) (k : Track) (x : Tracker) :
    (p.setTracker k x).types = p.types := rfl

@[simp] theorem Part.setTracker_front (p : Part) (k : Track) (x : Tracker) :
    (p.setTracker k x).front = p.front := rfl

@[simp] theorem Part.setTracker_trackers (p : Part) (k : Track) (x : Tracker) :
    (p.setTracker k x).trackers = p.trackers.set k x := rfl

@[simp] theorem Part.setTracker_csc (p : Part) (k : Track) (x : Tracker) :
    (p.setTracker k x).csc = p.csc := rfl

@[simp] theorem Part.setTracker_lar (p : Part) (k : Track) (x : Tracker) :
    (p.setTracker k x).lar = p.lar := rfl

@[simp] theorem Part.setTracker_ports (p : Part) (k : Track) (x : Tracker) :
    (p.setTracker k x).ports = p.ports := rfl

@[simp] theorem Part.setTracker_fsc (p : Part) (k : Track) (x : Tracker) :
    (p.setTracker k x).fsc = p.fsc := rfl

@[simp] theorem Part.setTracker_mgr (p : Part) (k : Track) (x : Tracker) :
    (p.setTracker k x).mgr = p.mgr := rfl

@[simp] theorem Part.setTracker_cal (p : Part) (k : Track) (x : Tracker) :
    (p.setTracker k x).cal = p.cal := rfl

@[simp] theorem Part.setTracker_free (p : Part) (k : Track) (x : Tracker) :
    (p.setTracker k x).free = p.free := rfl

@[simp] theorem Part.setPassage_tb (p : Part) (k : Track) (x : Passage) :
    (p.setPassage k x).tb = p.tb := rfl

@[simp] theorem Part.setPassage_records (p : Part) (k : Track) (x : Passage) :
    (p.setPassage k x).records = p.records := rfl

@[simp] theorem Part.setPassage_types (p : Part) (k : Track) (x : Passage) :
    (p.setPassage k x).types = p.types := rfl

@[simp] theorem Part.setPassage_front (p : Part) (k : Track) (x : Passage) :
    (p.setPassage k x).front = p.front := rfl

@[simp] theorem Part.setPassage_trackers (p : Part) (k : Track) (x : Passage) :
    (p.setPassage k x).trackers = p.trackers.set k { p.trackers.get k with passage := x } := rfl

@[simp] theorem Part.setPassage_csc (p : Part) (k : Track) (x : Passage) :
    (p.setPassage k x).csc = p.csc := rfl

@[simp] theorem Part.setPassage_lar (p : Part) (k : Track) (x : Passage) :
    (p.setPassage k x).lar = p.lar := rfl

@[simp] theorem Part.setPassage_ports (p : Part) (k : Track) (x : Passage) :
    (p.setPassage k x).ports = p.ports := rfl

@[simp] theorem Part.setPassage_fsc (p : Part) (k : Track) (x : Passage) :
    (p.setPassage k x).fsc = p.fsc := rfl

@[simp] theorem Part.setPassage_mgr (p : Part) (k : Track) (x : Passage) :
    (p.setPassage k x).mgr = p.mgr := rfl

@[simp] theorem Part.setPassage_cal (p : Part) (k : Track) (x : Passage) :
    (p.setPassage k x).cal = p.cal := rfl

@[simp] theorem Part.setPassage_free (p : Part) (k : Track) (x : Passage) :
    (p.setPassage k x).free = p.free := rfl

@[simp] theorem Part.setPort_tb (p : Part) (k : Track) (x : Port) :
    (p.setPort k x).tb = p.tb := rfl

@[simp] theorem Part.setPort_records (p : Part) (k : Track) (x : Port) :
    (p.setPort k x).records = p.records := rfl

@[simp] theorem Part.setPort_types (p : Part) (k : Track) (x : Port) :
    (p.setPort k x).types = p.types := rfl

@[simp] theorem Part.setPort_front (p : Part) (k : Track) (x : Port) :
    (p.setPort k x).front = p.front := rfl

@[simp] theorem Part.setPort_trackers (p : Part) (k : Track) (x : Port) :
    (p.setPort k x).trackers = p.trackers := rfl

@[simp] theorem Part.setPort_csc (p : Part) (k : Track) (x : Port) :
    (p.setPort k x).csc = p.csc := rfl

@[simp] theorem Part.setPort_lar (p : Part) (k : Track) (x : Port) :
    (p.setPort k x).lar = p.lar := rfl

@[simp] theorem Part.setPort_ports (p : Part) (k : Track) (x : Port) :
    (p.setPort k x).ports = p.ports.set k x := rfl

@[simp] theorem Part.setPort_fsc (p : Part) (k : Track) (x : Port) :
    (p.setPort k x).fsc = p.fsc := rfl

@[simp] theorem Part.setPort_mgr (p : Part) (k : Track) (x : Port) :
    (p.setPort k x).mgr = p.mgr := rfl

@[simp] theorem Part.setPort_cal (p : Part) (k : Track) (x : Port) :
    (p.setPort k x).cal = p.cal := rfl

@[simp] theorem Part.setPort_free (p : Part) (k : Track) (x : Port) :
    (p.setPort k x).free = p.free := rfl

@[simp] theorem Part.setJobs_tb (p : Part) (x : List Job) :
    (p.setJobs x).tb = p.tb := rfl

@[simp] theorem Part.setJobs_records (p : Part) (x : List Job) :
    (p.setJobs x).records = p.records := rfl

@[simp] theorem Part.setJobs_types (p : Part) (x : List Job) :
    (p.setJobs x).types = p.types := rfl

@[simp] theorem Part.setJobs_front (p : Part) (x : List Job) :
    (p.setJobs x).front = p.front := rfl

@[simp] theorem Part.setJobs_trackers (p : Part) (x : List Job) :
    (p.setJobs x).trackers = p.trackers := rfl

@[simp] theorem Part.setJobs_csc (p : Part) (x : List Job) :
    (p.setJobs x).csc = { p.csc with jobs := x } := rfl

@[simp] theorem Part.setJobs_lar (p : Part) (x : List Job) :
    (p.setJobs x).lar = p.lar := rfl

@[simp] theorem Part.setJobs_ports (p : Part) (x : List Job) :
    (p.setJobs x).ports = p.ports := rfl

@[simp] theorem Part.setJobs_fsc (p : Part) (x : List Job) :
    (p.setJobs x).fsc = p.fsc := rfl

@[simp] theorem Part.setJobs_mgr (p : Part) (x : List Job) :
    (p.setJobs x).mgr = p.mgr := rfl

@[simp] theorem Part.setJobs_cal (p : Part) (x : List Job) :
    (p.setJobs x).cal = p.cal := rfl

@[simp] theorem Part.setJobs_free (p : Part) (x : List Job) :
    (p.setJobs x).free = p.free := rfl

@[simp] theorem Part.setLar_tb (p : Part) (x : Arbiter) :
    (p.setLar x).tb = p.tb := rfl

@[simp] theorem Part.setLar_records (p : Part) (x : Arbiter) :
    (p.setLar x).records = p.records := rfl

@[simp] theorem Part.setLar_types (p : Part) (x : Arbiter) :
    (p.setLar x).types = p.types := rfl

@[simp] theorem Part.setLar_front (p : Part) (x : Arbiter) :
    (p.setLar x).front = p.front := rfl

@[simp] theorem Part.setLar_trackers (p : Part) (x : Arbiter) :
    (p.setLar x).trackers = p.trackers := rfl

@[simp] theorem Part.setLar_csc (p : Part) (x : Arbiter) :
    (p.setLar x).csc = p.csc := rfl

@[simp] theorem Part.setLar_lar (p : Part) (x : Arbiter) :
    (p.setLar x).lar = x := rfl

@[simp] theorem Part.setLar_ports (p : Part) (x : Arbiter) :
    (p.setLar x).ports = p.ports := rfl

@[simp] theorem Part.setLar_fsc (p : Part) (x : Arbiter) :
    (p.setLar x).fsc = p.fsc := rfl

@[simp] theorem Part.setLar_mgr (p : Part) (x : Arbiter) :
    (p.setLar x).mgr = p.mgr := rfl

@[simp] theorem Part.setLar_cal (p : Part) (x : Arbiter) :
    (p.setLar x).cal = p.cal := rfl

@[simp] theorem Part.setLar_free (p : Part) (x : Arbiter) :
    (p.setLar x).free = p.free := rfl

@[simp] theorem Part.setFsc_tb (p : Part) (x : Store) :
    (p.setFsc x).tb = p.tb := rfl

@[simp] theorem Part.setFsc_records (p : Part) (x : Store) :
    (p.setFsc x).records = p.records := rfl

@[simp] theorem Part.setFsc_types (p : Part) (x : Store) :
    (p.setFsc x).types = p.types := rfl

@[simp] theorem Part.setFsc_front (p : Part) (x : Store) :
    (p.setFsc x).front = p.front := rfl

@[simp] theorem Part.setFsc_trackers (p : Part) (x : Store) :
    (p.setFsc x).trackers = p.trackers := rfl

@[simp] theorem Part.setFsc_csc (p : Part) (x : Store) :
    (p.setFsc x).csc = p.csc := rfl

@[simp] theorem Part.setFsc_lar (p : Part) (x : Store) :
    (p.setFsc x).lar = p.lar := rfl

@[simp] theorem Part.setFsc_ports (p : Part) (x : Store) :
    (p.setFsc x).ports = p.ports := rfl

@[simp] theorem Part.setFsc_fsc (p : Part) (x : Store) :
    (p.setFsc x).fsc = x := rfl

@[simp] theorem Part.setFsc_mgr (p : Part) (x : Store) :
    (p.setFsc x).mgr = p.mgr := rfl

@[simp] theorem Part.setFsc_cal (p : Part) (x : Store) :
    (p.setFsc x).cal = p.cal := rfl

@[simp] theorem Part.setFsc_free (p : Part) (x : Store) :
    (p.setFsc x).free = p.free := rfl

@[simp] theorem Part.setMgr_tb (p : Part) (x : Responder) :
    (p.setMgr x).tb = p.tb := rfl

@[simp] theorem Part.setMgr_records (p : Part) (x : Responder) :
    (p.setMgr x).records = p.records := rfl

@[simp] theorem Part.setMgr_types (p : Part) (x : Responder) :
    (p.setMgr x).types = p.types := rfl

@[simp] theorem Part.setMgr_front (p : Part) (x : Responder) :
    (p.setMgr x).front = p.front := rfl

@[simp] theorem Part.setMgr_trackers (p : Part) (x : Responder) :
    (p.setMgr x).trackers = p.trackers := rfl

@[simp] theorem Part.setMgr_csc (p : Part) (x : Responder) :
    (p.setMgr x).csc = p.csc := rfl

@[simp] theorem Part.setMgr_lar (p : Part) (x : Responder) :
    (p.setMgr x).lar = p.lar := rfl

@[simp] theorem Part.setMgr_ports (p : Part) (x : Responder) :
    (p.setMgr x).ports = p.ports := rfl

@[simp] theorem Part.setMgr_fsc (p : Part) (x : Responder) :
    (p.setMgr x).fsc = p.fsc := rfl

@[simp] theorem Part.setMgr_mgr (p : Part) (x : Responder) :
    (p.setMgr x).mgr = x := rfl

@[simp] theorem Part.setMgr_cal (p : Part) (x : Responder) :
    (p.setMgr x).cal = p.cal := rfl

@[simp] theorem Part.setMgr_free (p : Part) (x : Responder) :
    (p.setMgr x).free = p.free := rfl

@[simp] theorem Part.setSlot_tb (p : Part) (n : Nat) (x : Slot) :
    (p.setSlot n x).tb = p.tb := rfl

@[simp] theorem Part.setSlot_records (p : Part) (n : Nat) (x : Slot) :
    (p.setSlot n x).records = p.records := rfl

@[simp] theorem Part.setSlot_types (p : Part) (n : Nat) (x : Slot) :
    (p.setSlot n x).types = p.types := rfl

@[simp] theorem Part.setSlot_front (p : Part) (n : Nat) (x : Slot) :
    (p.setSlot n x).front = p.front := rfl

@[simp] theorem Part.setSlot_trackers (p : Part) (n : Nat) (x : Slot) :
    (p.setSlot n x).trackers = p.trackers := rfl

@[simp] theorem Part.setSlot_csc (p : Part) (n : Nat) (x : Slot) :
    (p.setSlot n x).csc = p.csc := rfl

@[simp] theorem Part.setSlot_lar (p : Part) (n : Nat) (x : Slot) :
    (p.setSlot n x).lar = p.lar := rfl

@[simp] theorem Part.setSlot_ports (p : Part) (n : Nat) (x : Slot) :
    (p.setSlot n x).ports = p.ports := rfl

@[simp] theorem Part.setSlot_fsc (p : Part) (n : Nat) (x : Slot) :
    (p.setSlot n x).fsc = { p.fsc with slots := p.fsc.slots.setIfInBounds n x } := rfl

@[simp] theorem Part.setSlot_mgr (p : Part) (n : Nat) (x : Slot) :
    (p.setSlot n x).mgr = p.mgr := rfl

@[simp] theorem Part.setSlot_cal (p : Part) (n : Nat) (x : Slot) :
    (p.setSlot n x).cal = p.cal := rfl

@[simp] theorem Part.setSlot_free (p : Part) (n : Nat) (x : Slot) :
    (p.setSlot n x).free = p.free := rfl

@[simp] theorem Part.setHead_tb (p : Part) (k : Track) (i : PairId) (h : HeadId) (x : Head) :
    (p.setHead k i h x).tb = p.tb := rfl

@[simp] theorem Part.setHead_records (p : Part) (k : Track) (i : PairId) (h : HeadId) (x : Head) :
    (p.setHead k i h x).records = p.records := rfl

@[simp] theorem Part.setHead_types (p : Part) (k : Track) (i : PairId) (h : HeadId) (x : Head) :
    (p.setHead k i h x).types = p.types := rfl

@[simp] theorem Part.setHead_front (p : Part) (k : Track) (i : PairId) (h : HeadId) (x : Head) :
    (p.setHead k i h x).front = p.front.set k ((p.front.get k).setHead i h x) := rfl

@[simp] theorem Part.setHead_trackers (p : Part) (k : Track) (i : PairId) (h : HeadId) (x : Head) :
    (p.setHead k i h x).trackers = p.trackers := rfl

@[simp] theorem Part.setHead_csc (p : Part) (k : Track) (i : PairId) (h : HeadId) (x : Head) :
    (p.setHead k i h x).csc = p.csc := rfl

@[simp] theorem Part.setHead_lar (p : Part) (k : Track) (i : PairId) (h : HeadId) (x : Head) :
    (p.setHead k i h x).lar = p.lar := rfl

@[simp] theorem Part.setHead_ports (p : Part) (k : Track) (i : PairId) (h : HeadId) (x : Head) :
    (p.setHead k i h x).ports = p.ports := rfl

@[simp] theorem Part.setHead_fsc (p : Part) (k : Track) (i : PairId) (h : HeadId) (x : Head) :
    (p.setHead k i h x).fsc = p.fsc := rfl

@[simp] theorem Part.setHead_mgr (p : Part) (k : Track) (i : PairId) (h : HeadId) (x : Head) :
    (p.setHead k i h x).mgr = p.mgr := rfl

@[simp] theorem Part.setHead_cal (p : Part) (k : Track) (i : PairId) (h : HeadId) (x : Head) :
    (p.setHead k i h x).cal = p.cal := rfl

@[simp] theorem Part.setHead_free (p : Part) (k : Track) (i : PairId) (h : HeadId) (x : Head) :
    (p.setHead k i h x).free = p.free := rfl

@[simp] theorem Part.pushControl_tb (p : Part) (r : ControlRecord) :
    (p.pushControl r).tb = p.tb := rfl

@[simp] theorem Part.pushControl_records (p : Part) (r : ControlRecord) :
    (p.pushControl r).records = p.records := rfl

@[simp] theorem Part.pushControl_types (p : Part) (r : ControlRecord) :
    (p.pushControl r).types = p.types := rfl

@[simp] theorem Part.pushControl_front (p : Part) (r : ControlRecord) :
    (p.pushControl r).front = p.front := rfl

@[simp] theorem Part.pushControl_trackers (p : Part) (r : ControlRecord) :
    (p.pushControl r).trackers = p.trackers := rfl

@[simp] theorem Part.pushControl_csc (p : Part) (r : ControlRecord) :
    (p.pushControl r).csc = p.csc := rfl

@[simp] theorem Part.pushControl_lar (p : Part) (r : ControlRecord) :
    (p.pushControl r).lar = p.lar := rfl

@[simp] theorem Part.pushControl_ports (p : Part) (r : ControlRecord) :
    (p.pushControl r).ports = p.ports := rfl

@[simp] theorem Part.pushControl_fsc (p : Part) (r : ControlRecord) :
    (p.pushControl r).fsc = p.fsc := rfl

@[simp] theorem Part.pushControl_mgr (p : Part) (r : ControlRecord) :
    (p.pushControl r).mgr = { p.mgr with control := p.mgr.control ++ [r] } := rfl

@[simp] theorem Part.pushControl_cal (p : Part) (r : ControlRecord) :
    (p.pushControl r).cal = p.cal := rfl

@[simp] theorem Part.pushControl_free (p : Part) (r : ControlRecord) :
    (p.pushControl r).free = p.free := rfl

@[simp] theorem Part.modJob_tb (p : Part) (t : Tag) (f : Job → Job) :
    (p.modJob t f).tb = p.tb := rfl

@[simp] theorem Part.modJob_records (p : Part) (t : Tag) (f : Job → Job) :
    (p.modJob t f).records = p.records := rfl

@[simp] theorem Part.modJob_types (p : Part) (t : Tag) (f : Job → Job) :
    (p.modJob t f).types = p.types := rfl

@[simp] theorem Part.modJob_front (p : Part) (t : Tag) (f : Job → Job) :
    (p.modJob t f).front = p.front := rfl

@[simp] theorem Part.modJob_trackers (p : Part) (t : Tag) (f : Job → Job) :
    (p.modJob t f).trackers = p.trackers := rfl

@[simp] theorem Part.modJob_csc (p : Part) (t : Tag) (f : Job → Job) :
    (p.modJob t f).csc = { p.csc with jobs := p.csc.jobs.map (fun j => if j.tag == t then f j else j) } := rfl

@[simp] theorem Part.modJob_lar (p : Part) (t : Tag) (f : Job → Job) :
    (p.modJob t f).lar = p.lar := rfl

@[simp] theorem Part.modJob_ports (p : Part) (t : Tag) (f : Job → Job) :
    (p.modJob t f).ports = p.ports := rfl

@[simp] theorem Part.modJob_fsc (p : Part) (t : Tag) (f : Job → Job) :
    (p.modJob t f).fsc = p.fsc := rfl

@[simp] theorem Part.modJob_mgr (p : Part) (t : Tag) (f : Job → Job) :
    (p.modJob t f).mgr = p.mgr := rfl

@[simp] theorem Part.modJob_cal (p : Part) (t : Tag) (f : Job → Job) :
    (p.modJob t f).cal = p.cal := rfl

@[simp] theorem Part.modJob_free (p : Part) (t : Tag) (f : Job → Job) :
    (p.modJob t f).free = p.free := rfl

@[simp] theorem Part.removeJob_tb (p : Part) (t : Tag) :
    (p.removeJob t).tb = p.tb := rfl

@[simp] theorem Part.removeJob_records (p : Part) (t : Tag) :
    (p.removeJob t).records = p.records := rfl

@[simp] theorem Part.removeJob_types (p : Part) (t : Tag) :
    (p.removeJob t).types = p.types := rfl

@[simp] theorem Part.removeJob_front (p : Part) (t : Tag) :
    (p.removeJob t).front = p.front := rfl

@[simp] theorem Part.removeJob_trackers (p : Part) (t : Tag) :
    (p.removeJob t).trackers = p.trackers := rfl

@[simp] theorem Part.removeJob_csc (p : Part) (t : Tag) :
    (p.removeJob t).csc = { p.csc with jobs := p.csc.jobs.filter (fun j => j.tag != t) } := rfl

@[simp] theorem Part.removeJob_lar (p : Part) (t : Tag) :
    (p.removeJob t).lar = p.lar := rfl

@[simp] theorem Part.removeJob_ports (p : Part) (t : Tag) :
    (p.removeJob t).ports = p.ports := rfl

@[simp] theorem Part.removeJob_fsc (p : Part) (t : Tag) :
    (p.removeJob t).fsc = p.fsc := rfl

@[simp] theorem Part.removeJob_mgr (p : Part) (t : Tag) :
    (p.removeJob t).mgr = p.mgr := rfl

@[simp] theorem Part.removeJob_cal (p : Part) (t : Tag) :
    (p.removeJob t).cal = p.cal := rfl

@[simp] theorem Part.removeJob_free (p : Part) (t : Tag) :
    (p.removeJob t).free = p.free := rfl

@[simp] theorem Part.reply_tb (p : Part) (r : CommandRecord) (st : Status) (n : Nat) (c : Reply) :
    (p.reply r st n c).tb = p.tb := rfl

@[simp] theorem Part.reply_records (p : Part) (r : CommandRecord) (st : Status) (n : Nat) (c : Reply) :
    (p.reply r st n c).records = p.records := rfl

@[simp] theorem Part.reply_types (p : Part) (r : CommandRecord) (st : Status) (n : Nat) (c : Reply) :
    (p.reply r st n c).types = p.types := rfl

@[simp] theorem Part.reply_front (p : Part) (r : CommandRecord) (st : Status) (n : Nat) (c : Reply) :
    (p.reply r st n c).front = p.front := rfl

@[simp] theorem Part.reply_trackers (p : Part) (r : CommandRecord) (st : Status) (n : Nat) (c : Reply) :
    (p.reply r st n c).trackers = p.trackers := rfl

@[simp] theorem Part.reply_csc (p : Part) (r : CommandRecord) (st : Status) (n : Nat) (c : Reply) :
    (p.reply r st n c).csc = p.csc := rfl

@[simp] theorem Part.reply_lar (p : Part) (r : CommandRecord) (st : Status) (n : Nat) (c : Reply) :
    (p.reply r st n c).lar = p.lar := rfl

@[simp] theorem Part.reply_ports (p : Part) (r : CommandRecord) (st : Status) (n : Nat) (c : Reply) :
    (p.reply r st n c).ports = p.ports := rfl

@[simp] theorem Part.reply_fsc (p : Part) (r : CommandRecord) (st : Status) (n : Nat) (c : Reply) :
    (p.reply r st n c).fsc = p.fsc := rfl

@[simp] theorem Part.reply_mgr (p : Part) (r : CommandRecord) (st : Status) (n : Nat) (c : Reply) :
    (p.reply r st n c).mgr = { p.mgr with control := p.mgr.control ++ [{ dest := r.source, body := .reply r.code r.token st n c }] } := rfl

@[simp] theorem Part.reply_cal (p : Part) (r : CommandRecord) (st : Status) (n : Nat) (c : Reply) :
    (p.reply r st n c).cal = p.cal := rfl

@[simp] theorem Part.reply_free (p : Part) (r : CommandRecord) (st : Status) (n : Nat) (c : Reply) :
    (p.reply r st n c).free = p.free := rfl

/-- Every command of the table answers a next state and leaves the queue of waiting commands alone. -/
theorem onPart_next (s : State) (f : Part → Part) : s.onPart f = .next { s with part := f s.part } := rfl

end Machine

end Sys2Proof
end

