-- ==== Sys2Proof/Laws/Shared.lean ====
section
/-! SUPPORT. For each shared operation one lemma that says once all that it can do. -/

namespace Sys2Proof

theorem Track.ofNumber_number (k : Track) : Track.ofNumber k.number = some k := by cases k <;> rfl

/-- A number outside 1 to 4 names no track. -/
theorem Track.ofNumber_none {n : Nat} (h : n = 0 ∨ 4 < n) : Track.ofNumber n = none := by
  unfold Track.ofNumber
  split <;> first | rfl | omega

namespace Machine

/-! ### Commands -/

/-- A command that turns the part into `q` answers the machine with `q`. -/
theorem State.next_withPart {s : State} {p q : Part} (h : p = q) :
    (Host.Outcome.next (s.withPart p) : Host.Outcome State Fault Refusal) = .next (s.withPart q) := h ▸ rfl

/-- A record taken from the intake leaves it and goes through checks 2 and 3 of R170. -/
theorem Part.Takes.runsCommand_eq {p : Part} {c : Command} {r : CommandRecord} {rest : List CommandRecord}
    (h : p.Takes c r rest) (run : CommandRecord → Part → Part) :
    p.runsCommand c run =
      match p.refusal c r with
      | some st => p.answered r rest st 0 .empty
      | none => run r (p.setMgr { p.mgr with intake := rest }) := by
  obtain ⟨h1, h2, h3⟩ := h
  unfold Part.runsCommand Part.runs Part.takes
  rw [h1]
  simp only [h2, h3, true_and, if_true]
  rfl

/-- A command that passes checks 1 to 3 of R170 is run. -/
theorem Part.Runs.runsCommand_eq {p : Part} {c : Command} {r : CommandRecord} {rest : List CommandRecord}
    (h : p.Runs c r rest) (run : CommandRecord → Part → Part) :
    p.runsCommand c run = run r (p.setMgr { p.mgr with intake := rest }) := by
  rw [h.1.runsCommand_eq]
  have : p.refusal c r = none := by
    unfold Part.refusal
    rw [if_pos h.2.1, h.2.2]
    rfl
  rw [this]

/-- A command that every mode allows and no page write keeps from being taken is run once it is taken. -/
theorem Part.Takes.runs {p : Part} {c : Command} {r : CommandRecord} {rest : List CommandRecord}
    (h : p.Takes c r rest) (mode : ∀ m : Mode, c.takenIn m = true) (free : r.keptByWrite c = false) :
    p.Runs c r rest := ⟨h, mode _, by rw [free, Bool.and_false]⟩

/-- The reply placed by a command that has taken its record. -/
theorem Part.reply_taken (p : Part) (r : CommandRecord) (rest : List CommandRecord) (st : Status) (n : Nat)
    (c : Reply) : (p.setMgr { p.mgr with intake := rest }).reply r st n c = p.answered r rest st n c := rfl

/-! ### Records of the control queue -/

/-- R172: a notice takes a free place, or is dropped and counted. -/
theorem Part.notice_cases (p : Part) (n : Notice) :
    (p.freePlace = true ∧ p.notice n = p.setMgr { p.mgr with control := p.mgr.control ++ [p.noticeRecord n] }) ∨
    (p.freePlace = false ∧ p.notice n = p.setMgr { p.mgr with noticeDrops := p.mgr.noticeDrops + 1 }) := by
  unfold Part.notice
  cases h : p.freePlace
  · exact .inr ⟨rfl, rfl⟩
  · exact .inl ⟨rfl, rfl⟩

/-- R171: a record that does not drop takes a free place, or waits behind the records that wait. -/
theorem Part.placeOrWait_cases (p : Part) (r : ControlRecord) :
    (p.freePlace = true ∧ p.placeOrWait r = p.setMgr { p.mgr with control := p.mgr.control ++ [r] }) ∨
    (p.freePlace = false ∧ p.placeOrWait r = p.setMgr { p.mgr with waiting := p.mgr.waiting ++ [r] }) := by
  unfold Part.placeOrWait
  cases h : p.freePlace
  · exact .inr ⟨rfl, rfl⟩
  · exact .inl ⟨rfl, rfl⟩

/-- A free place leaves the control queue with fewer than its 16 records. -/
theorem Part.freePlace_iff (p : Part) : p.freePlace = true ↔ p.mgr.control.length + p.mgr.waiting.length < 16 := by
  unfold Part.freePlace
  exact decide_eq_true_iff

/-! ### Time -/

/-- Gantry time has reached the present. -/
theorem reached_self (t : Time) : reached t t = true := by simp [reached, atOrBefore]

/-! ### Slots -/

/-- What a slot reads as after a write to a slot. -/
theorem Part.slot_setSlot (p : Part) (n m : Nat) (x : Slot) :
    (p.setSlot n x).slot m = if n = m ∧ m < 64 then some x else p.slot m := by
  unfold Part.slot Part.setSlot Part.setFsc
  simp only [Vector.getElem?_setIfInBounds]
  by_cases h : n = m
  · subst h
    by_cases g : n < 64
    · simp [g]
    · simp [g]
  · simp [h]

/-- A slot has a number from 0 to 63. -/
theorem Part.slot_lt {p : Part} {n : Nat} {x : Slot} (h : p.slot n = some x) : n < 64 := by
  unfold Part.slot at h
  exact (Vector.getElem?_eq_some_iff.mp h).1

/-- R23: some slot is not FREE. -/
theorem Part.someSlotUsed_iff (p : Part) :
    p.someSlotUsed = true ↔ ∃ (n : Nat) (x : Slot), p.slot n = some x ∧ x.state ≠ .free := by
  unfold Part.someSlotUsed Part.slot
  simp only [List.any_eq_true, decide_eq_true_eq]
  constructor
  · rintro ⟨x, hx, h⟩
    obtain ⟨i, hi, rfl⟩ := List.getElem_of_mem hx
    refine ⟨i, _, ?_, h⟩
    simp only [Vector.length_toList] at hi
    simp [hi]
  · rintro ⟨n, x, h, hx⟩
    obtain ⟨hn, rfl⟩ := Vector.getElem?_eq_some_iff.mp h
    exact ⟨_, by simp, hx⟩

/-! ### The schedule -/

theorem insertJob_length (now : Time) (j : Job) (l : List Job) : (insertJob now j l).length = l.length + 1 := by
  induction l with
  | nil => rfl
  | cons x l ih =>
    unfold insertJob
    split
    · rfl
    · simp [ih]

theorem sortJobs_length (now : Time) (l : List Job) : (sortJobs now l).length = l.length := by
  induction l with
  | nil => rfl
  | cons x l ih => simp [sortJobs, insertJob_length, ih]

theorem mem_insertJob {now : Time} {j x : Job} {l : List Job} : x ∈ insertJob now j l ↔ x = j ∨ x ∈ l := by
  induction l with
  | nil => simp [insertJob]
  | cons y l ih =>
    unfold insertJob
    split
    · simp
    · simp only [List.mem_cons, ih]
      tauto

/-- A schedule put into order holds the same jobs. -/
theorem mem_sortJobs {now : Time} {x : Job} {l : List Job} : x ∈ sortJobs now l ↔ x ∈ l := by
  induction l with
  | nil => simp [sortJobs]
  | cons y l ih => simp [sortJobs, mem_insertJob, ih]

/-- A job found by its tag carries the tag and stands in the schedule. -/
theorem Part.job_some {p : Part} {t : Tag} {j : Job} (h : p.job t = some j) : j.tag = t ∧ j ∈ p.csc.jobs := by
  unfold Part.job at h
  exact ⟨by simpa using List.find?_some h, List.mem_of_find?_eq_some h⟩

/-- R89, R98: a window whose start is moved is left empty, or has its line count and lamp request time formed again;
it is flagged CLIPPED either way. -/
theorem Job.clip_cases (j : Job) (t : Time) :
    (atOrBefore j.stop t = true ∧ j.clip t = .empty { j with
      start := t, lampRequest := lampRequestTime t, flags := { j.flags with clipped := true } }) ∨
    (atOrBefore j.stop t = false ∧ j.clip t = .kept { j with
      start := t, lineCount := countLines t j.stop j.linePeriod, lampRequest := lampRequestTime t,
      flags := { j.flags with clipped := true } }) := by
  unfold Job.clip
  cases h : atOrBefore j.stop t
  · exact .inr ⟨rfl, rfl⟩
  · exact .inl ⟨rfl, rfl⟩

/-- R98: a separation ends at a window that overlaps none of the jobs, or goes on behind the first that it overlaps. -/
theorem separate_succ (n : Nat) (others : List Job) (j : Job) :
    ((∀ o ∈ others, j.overlaps o = false) ∧ separate (n + 1) others j = .kept j) ∨
    ∃ o : Job, others.find? (fun x => j.overlaps x) = some o ∧
      ((∃ j' : Job, j.clip (o.stop + usTime 1) = .empty j' ∧ separate (n + 1) others j = .empty j') ∨
       ∃ j' : Job, j.clip (o.stop + usTime 1) = .kept j' ∧ separate (n + 1) others j = separate n others j') := by
  rw [separate]
  cases h : others.find? (fun x => j.overlaps x) with
  | none => exact .inl ⟨by simpa using h, rfl⟩
  | some o =>
    refine .inr ⟨o, rfl, ?_⟩
    cases g : j.clip (o.stop + usTime 1) with
    | empty j' => exact .inl ⟨j', rfl, by simp only [g]⟩
    | kept j' => exact .inr ⟨j', rfl, by simp only [g]⟩

/-! ### Axle events -/

/-- R10, R11, R13: what an event handed to its queue can do. -/
theorem FrontEnd.offer_cases (f : FrontEnd) (m : Mode) (e : AxleEvent) :
    (m = .service ∧ f.offer m e = f) ∨
    (m ≠ .service ∧ f.queue.length < 16 ∧ f.offer m e = { f with queue := f.queue ++ [e] }) ∨
    (m ≠ .service ∧ 16 ≤ f.queue.length ∧ f.offer m e = { f with discarded := f.discarded + 1, loss := true }) := by
  unfold FrontEnd.offer
  split
  · exact .inl ⟨‹_›, rfl⟩
  · split
    · exact .inr (.inl ⟨‹_›, ‹_›, rfl⟩)
    · exact .inr (.inr ⟨‹_›, Nat.not_lt.mp ‹_›, rfl⟩)

/-! ### The lamp bank -/

/-- R122: a grant is made to the winner at an IDLE bank in ON_LINE, and changes nothing else. -/
theorem Part.grant_cases (p : Part) :
    p.grant = p ∨ ∃ e : LampEntry, p.lar.bank = .idle ∧ p.mode = .onLine ∧ p.lar.winner p.records = some e ∧
      p.grant = (p.setLar (({ p.lar.withdraw e.track e.tag with
        bank := .inService e.tag e.track p.now } : Arbiter).setPhase e.tag .serving)).setLamp e.tag
          (if atOrBefore p.now e.start then .lit else .partlyLit) := by
  unfold Part.grant
  split
  · rename_i e h1 h2 h3
    exact .inr ⟨e, h1, h2, h3, rfl⟩
  · exact .inl rfl

/-- R110: the end of a job without an image. -/
theorem Part.endJob_cases (p : Part) (t : Tag) (reason : EndReason) (cause : CancelCause) :
    (p.job t = none ∧ p.endJob t reason cause = p) ∨ ∃ j : Job, p.job t = some j ∧
      p.endJob t reason cause = ((p.lampJobEnd t).removeJob t).notice (.jobEnded j p.now reason cause) := by
  unfold Part.endJob
  cases h : p.job t with
  | none => exact .inl ⟨rfl, rfl⟩
  | some j => exact .inr ⟨j, rfl, rfl⟩

end Machine
end Sys2Proof
end

