-- ==== Sys2Proof/Laws/Drain.lean ====
section
/-! SUPPORT. What the end of a drain does (06 R106 to R109, 08 R141 to R145), said once for each shared operation: the
writing of the lines of a FIFO, the flush, the end, and the end that counts what is left as lost. -/

namespace Sys2Proof.Machine

/-! ### Frames -/

theorem Part.kickEngine_slot (p : Part) (m : Nat) : p.kickEngine.slot m = p.slot m := by
  unfold Part.kickEngine
  split
  · rfl
  · split <;> rfl

/-- The start of a delivery changes the engine and the fetch entries alone. -/
theorem Part.kickEngine_frame (p : Part) :
    p.kickEngine.csc = p.csc ∧ p.kickEngine.mgr = p.mgr ∧ p.kickEngine.ports = p.ports ∧ p.kickEngine.lar = p.lar ∧
    p.kickEngine.trackers = p.trackers ∧ p.kickEngine.records = p.records ∧ p.kickEngine.fsc.turn = p.fsc.turn ∧
    p.kickEngine.tb = p.tb := by
  unfold Part.kickEngine
  split
  · simp
  · split <;> simp [Part.startDelivery, Part.modFetch, Part.setFsc]

/-- R156, R157: what an idle engine does, said once. -/
theorem Part.kickEngine_started {p : Part} (h : p.fsc.engine = none) : p.kickEngine.DeliveryStarted p.fsc.fetches := by
  have held : ∀ e : FetchEntry, p.eligible e = true ↔
      e.phase = .waiting ∧ ∃ x : Slot, p.slot e.slot = some x ∧ x.state = .held := by
    intro e
    unfold Part.eligible
    cases p.slot e.slot <;> simp
  constructor
  · intro hn
    have : p.fsc.fetches.find? p.eligible = none := by
      rw [List.find?_eq_none]
      intro e he h2
      obtain ⟨h3, x, h4, h5⟩ := (held e).mp h2
      exact hn e he h3 x (by rw [kickEngine_slot]; exact h4) h5
    unfold Part.kickEngine
    rw [h, this]
    exact ⟨h, rfl⟩
  · intro before e after x hf hb hw hx hh
    rw [kickEngine_slot] at hx
    have : p.fsc.fetches.find? p.eligible = some e := by
      rw [List.find?_eq_some_iff_append]
      refine ⟨(held e).mpr ⟨hw, x, hx, hh⟩, before, after, hf, ?_⟩
      intro y hy
      rw [Bool.not_eq_true', Bool.eq_false_iff]
      intro h2
      obtain ⟨h3, z, h4, h5⟩ := (held y).mp h2
      exact hb y hy h3 z (by rw [kickEngine_slot]; exact h4) h5
    unfold Part.kickEngine
    rw [h, this]
    simp [Part.startDelivery, Part.modFetch, Part.setFsc, hx, FetchEntry.rangeEnd, FetchEntry.requestedOf]

/-- An engine with a delivery in progress goes on with it. -/
theorem Part.kickEngine_busy {p : Part} (h : p.fsc.engine ≠ none) : p.kickEngine = p := by
  unfold Part.kickEngine
  split
  · rfl
  · contradiction

/-- A notice changes the responder alone. -/
theorem Part.notice_frame (p : Part) (x : Notice) :
    (p.notice x).csc = p.csc ∧ (p.notice x).fsc = p.fsc ∧ (p.notice x).ports = p.ports ∧ (p.notice x).lar = p.lar ∧
    (p.notice x).trackers = p.trackers ∧ (p.notice x).records = p.records ∧ (p.notice x).tb = p.tb := by
  unfold Part.notice Part.pushControl Part.setMgr
  split <;> simp

/-! ### The job of a tag after a change to it -/

/-- The job of a tag, after a change that keeps tags, is the changed job. -/
theorem find_mapped (tag : Tag) (f : Job → Job) (hf : ∀ j, (f j).tag = j.tag) (js : List Job) :
    (js.map (fun y => if y.tag == tag then f y else y)).find? (fun y => y.tag == tag) =
      (js.find? (fun y => y.tag == tag)).map f := by
  induction js with
  | nil => rfl
  | cons y js ih =>
    rw [List.map_cons, List.find?_cons, List.find?_cons]
    cases h : (y.tag == tag)
    · simp only [Bool.false_eq_true, if_false, h, ih]
    · simp only [if_true, hf, h, Option.map_some]

/-- The job of another tag is kept by it. -/
theorem find_mapped_ne {t tag : Tag} (ht : t ≠ tag) (f : Job → Job) (hf : ∀ j, (f j).tag = j.tag) (js : List Job) :
    (js.map (fun y => if y.tag == tag then f y else y)).find? (fun y => y.tag == t) =
      js.find? (fun y => y.tag == t) := by
  induction js with
  | nil => rfl
  | cons y js ih =>
    rw [List.map_cons, List.find?_cons, List.find?_cons]
    cases h : (y.tag == tag)
    · simp only [Bool.false_eq_true, if_false, ih]
    · have : (y.tag == t) = false := beq_eq_false_iff_ne.mpr (by rw [beq_iff_eq.mp h]; exact ht.symm)
      simp only [if_true, hf, this, ih]

/-! ### The end of a drain (R108, R145) -/

theorem fenceAfter_eq (e : Option Word16) (n : Nat) :
    fenceAfter e n = e.bind (fun e => if n = 0 then none else some { first := e, length := n }) := by
  cases e <;> rfl

/-- R108, R145: what the end of a drain does, read from a part `p` with the responder and the time of `q`. -/
theorem Part.finishDrain_spec {q p : Part} {k : Track} {j : Job} {n : Nat} {x : Slot} {kind : DrainEnd} {added : Nat}
    (hj : (q.ports.get k).job = some { tag := j.tag, slot := n }) (hp : q.job j.tag = some j)
    (hs : q.slot n = some x) (hm : q.mgr = p.mgr) (htb : q.tb = p.tb)
    (hc : q.csc.tagCounter = p.csc.tagCounter ∧ q.csc.nextEntry = p.csc.nextEntry)
    (he : q.fsc.engine = p.fsc.engine) (hf : q.fsc.fetches = p.fsc.fetches) :
    p.DrainEnded (q.finishDrain k kind added) j n x x.lines kind (q.csc.jobs.filter (fun y => y.tag != j.tag)) ∧
    (∀ m, m ≠ n → (q.finishDrain k kind added).slot m = q.slot m) ∧
    (q.finishDrain k kind added).fsc.turn = q.fsc.turn ∧
    (q.finishDrain k kind added).ports = q.ports.set k { q.ports.get k with
      activity := .idle, job := none, generator := none, fence := fenceAfter (q.ports.get k).expected added } ∧
    (q.finishDrain k kind added).csc = { q.csc with jobs := q.csc.jobs.filter (fun y => y.tag != j.tag) } ∧
    (q.finishDrain k kind added).lar = q.lar ∧ (q.finishDrain k kind added).trackers = q.trackers ∧
    (q.finishDrain k kind added).records = q.records := by
  have hn := Part.slot_lt hs
  have hs' : ∀ (c : Port), (q.setPort k c).slot n = some x := fun _ => hs
  unfold Part.finishDrain
  rw [hj]
  simp only [hp, hs, hs']
  have N := fun (r : Part) x => notice_frame r x
  have K := fun (r : Part) => kickEngine_frame r
  refine ⟨⟨?_, ?_, ?_, ?_, ?_⟩, ?_, ?_, ?_, ?_, ?_, ?_, ?_⟩
  · rw [kickEngine_slot]
    simp only [Part.slot, (N _ _).2.1]
    simp [Part.removeJob, Part.setJobs, Part.setSlot, Part.setFsc, Part.setPort, hn, Job.header]
    unfold Part.now at *
    simp [htb]
  · rw [(K _).1, (N _ _).1]
    simp only [Part.removeJob, Part.setJobs, Part.setSlot, Part.setFsc, Part.setPort, hc.1, hc.2]
  · intro h0
    rw [← hf]
    refine (show _ = q.fsc.fetches from ?_) ▸ kickEngine_started ?_
    · rw [(N _ _).2.1]; rfl
    · rw [(N _ _).2.1]; exact he.trans h0
  · intro h0
    rw [kickEngine_busy (by rw [(N _ _).2.1]; exact fun h => h0 (he.symm.trans h)), (N _ _).2.1]
    exact ⟨he, hf⟩
  · rw [(K _).2.1]
    simp only [Part.notice, Part.pushControl, Part.setMgr, Part.removeJob, Part.setJobs, Part.setSlot, Part.setFsc,
      Part.setPort, Part.freePlace, hm, Part.noticeRecord, Option.map_some, Option.getD_some]
    split <;> rename_i h <;> simp_all
  · intro m hmn
    rw [kickEngine_slot]
    simp only [Part.slot, (N _ _).2.1]
    simp [Part.removeJob, Part.setJobs, Part.setSlot, Part.setFsc, Part.setPort, Ne.symm hmn]
  · rw [(K _).2.2.2.2.2.2.1, (N _ _).2.1]; rfl
  · rw [(K _).2.2.1, (N _ _).2.2.1]; rfl
  · rw [(K _).1, (N _ _).1]; rfl
  · rw [(K _).2.2.2.1, (N _ _).2.2.2.1]; rfl
  · rw [(K _).2.2.2.2.1, (N _ _).2.2.2.2.1]; rfl
  · rw [(K _).2.2.2.2.2.1, (N _ _).2.2.2.2.2.1]; rfl

/-! ### The lines of a FIFO (R141, R143) -/

/-- R141: a job with the lines of a FIFO counted received. -/
def Job.counting (fifo : List Line) (j : Job) : Job :=
  { j with
    received := j.received + fifo.length
    flags := { j.flags with badCheck := j.flags.badCheck || fifo.any Line.badCheck } }

theorem Part.setSlot_setSlot (p : Part) (n : Nat) (a b : Slot) : (p.setSlot n a).setSlot n b = p.setSlot n b := by
  simp only [Part.setSlot, Part.setFsc]
  congr 2
  apply Vector.ext
  intro i hi
  simp only [Vector.getElem_setIfInBounds]
  split <;> rfl

theorem Part.setSlot_same {p : Part} {n : Nat} {x : Slot} (hs : p.slot n = some x) : p.setSlot n x = p := by
  obtain ⟨hn, hx⟩ := Vector.getElem?_eq_some_iff.mp hs
  have : p.fsc.slots.setIfInBounds n x = p.fsc.slots := by
    apply Vector.ext
    intro i hi
    simp only [Vector.getElem_setIfInBounds]
    split
    · rename_i h; subst h; exact hx.symm
    · rfl
  simp only [Part.setSlot, Part.setFsc]
  rw [this]

/-- R141: the lines of a FIFO, written one by one, stand behind the lines of the job's slot and are counted. -/
theorem Part.writeLines_eq (k : Track) (tag : Tag) (n : Nat) : ∀ (fifo : List Line) (p : Part) (x : Slot),
    (p.ports.get k).job = some { tag := tag, slot := n } → p.slot n = some x →
    fifo.foldl (fun q l => q.writeLine k l) p =
      (p.setSlot n { x with lines := x.lines ++ fifo }).modJob tag (Job.counting fifo) := by
  intro fifo
  induction fifo with
  | nil =>
    intro p x hj hs
    simp only [List.append_nil]
    rw [Part.setSlot_same hs]
    simp [Part.modJob, Part.setJobs, Job.counting]
  | cons l fifo ih =>
    intro p x hj hs
    rw [List.foldl_cons]
    have hn := Part.slot_lt hs
    have e : p.writeLine k l = (p.setSlot n { x with lines := x.lines ++ [l] }).modJob tag (Job.counting [l]) := by
      simp only [Part.writeLine, hj, hs]
      congr 1
      funext j
      simp [Job.counting]
    rw [e, ih ((p.setSlot n { x with lines := x.lines ++ [l] }).modJob tag (Job.counting [l]))
      { x with lines := x.lines ++ [l] } hj (by
        show (p.fsc.slots.setIfInBounds n _)[n]? = _
        rw [Vector.getElem?_setIfInBounds]
        simp [hn])]
    have e2 : ∀ (q : Part) (y : Slot) f, (q.modJob tag f).setSlot n y = (q.setSlot n y).modJob tag f := fun _ _ _ => rfl
    rw [e2, setSlot_setSlot]
    simp only [Part.modJob, Part.setJobs, List.append_assoc, List.singleton_append, List.map_map]
    congr 2
    apply List.map_congr_left
    intro j _
    simp only [Function.comp]
    split
    · rename_i h
      simp only [Job.counting, h, if_true]
      congr 1
      · simp; omega
      · simp [Bool.or_assoc]
    · rfl

/-- R143: the flush writes every line of the FIFO, empties it and clears the latch. -/
theorem Part.flushFifo_eq {p : Part} {k : Track} {tag : Tag} {n : Nat} {x : Slot}
    (hj : (p.ports.get k).job = some { tag := tag, slot := n }) (hs : p.slot n = some x) :
    p.flushFifo k = { p with
      ports := p.ports.set k { p.ports.get k with fifo := [], overrun := false }
      fsc := { p.fsc with slots := p.fsc.slots.setIfInBounds n { x with lines := x.lines ++ (p.ports.get k).fifo } }
      csc := { p.csc with jobs := p.csc.jobs.map (fun y =>
        if y.tag == tag then Job.counting (p.ports.get k).fifo y else y) } } := by
  unfold Part.flushFifo
  simp only [writeLines_eq k tag n _ p x hj hs]
  rfl

/-- Jobs changed under one tag and then cleared of that tag are the jobs without it. -/
theorem filter_mapped (tag : Tag) (f : Job → Job) (hf : ∀ j, (f j).tag = j.tag) (js : List Job) :
    (js.map (fun y => if y.tag == tag then f y else y)).filter (fun y => y.tag != tag) =
      js.filter (fun y => y.tag != tag) := by
  induction js with
  | nil => rfl
  | cons y js ih =>
    rw [List.map_cons, List.filter_cons, List.filter_cons, ih]
    cases h : (y.tag == tag)
    · simp only [Bool.false_eq_true, if_false, bne, h]
    · simp [bne, hf, h]

/-- R107, R109, R143, R144: the FIFO is flushed, what is left is lost and fenced, and the drain ends. -/
theorem Part.flushDrain_spec {q p : Part} {k : Track} {j : Job} {n : Nat} {x : Slot} {kind : DrainEnd}
    (hj : (q.ports.get k).job = some { tag := j.tag, slot := n }) (hp : q.job j.tag = some j)
    (hs : q.slot n = some x) (hm : q.mgr = p.mgr) (htb : q.tb = p.tb)
    (hc : q.csc.tagCounter = p.csc.tagCounter ∧ q.csc.nextEntry = p.csc.nextEntry)
    (he : q.fsc.engine = p.fsc.engine) (hf : q.fsc.fetches = p.fsc.fetches) :
    let c := q.ports.get k
    let left := j.triggered - (j.received + c.fifo.length + j.lost)
    let t := q.flushDrain k kind
    p.DrainEnded t { Job.counting c.fifo j with lost := j.lost + left } n x (x.lines ++ c.fifo) kind
      (q.csc.jobs.filter (fun y => y.tag != j.tag)) ∧
    (∀ m, m ≠ n → t.slot m = q.slot m) ∧
    t.ports = q.ports.set k { c with
      activity := .idle, job := none, generator := none, fifo := [], overrun := false
      fence := c.expected.bind (fun e => if left = 0 then none else some { first := e, length := left }) } ∧
    t.csc = { q.csc with jobs := q.csc.jobs.filter (fun y => y.tag != j.tag) } ∧
    t.lar = q.lar ∧ t.trackers = q.trackers ∧ t.records = q.records := by
  intro c left t
  have e := flushFifo_eq hj hs
  have hn := Part.slot_lt hs
  have hp' : q.csc.jobs.find? (fun y => y.tag == j.tag) = some j := hp
  have pj : (q.flushFifo k).portJob k = some (Job.counting c.fifo j) := by
    rw [e]
    simp only [Part.portJob, Quad.get_set_self, hj, Option.bind_some, Part.job]
    rw [find_mapped j.tag (Job.counting (q.ports.get k).fifo) (fun _ => rfl), hp']
    rfl
  let lose (y : Job) : Job := { Job.counting c.fifo y with lost := y.lost + left }
  let r : Part := { q with
    ports := q.ports.set k { q.ports.get k with fifo := [], overrun := false }
    fsc := { q.fsc with slots := q.fsc.slots.setIfInBounds n { x with lines := x.lines ++ (q.ports.get k).fifo } }
    csc := { q.csc with jobs := q.csc.jobs.map (fun y => if y.tag == j.tag then lose y else y) } }
  have e1 : (q.flushFifo k).modPortJob k (fun x => { x with lost := x.lost + left }) = r := by
    rw [e]
    simp only [Part.modPortJob, Quad.get_set_self, hj, Part.modJob, Part.setJobs, List.map_map, r]
    congr 2
    apply List.map_congr_left
    intro y _
    simp only [Function.comp]
    cases h : (y.tag == j.tag)
    · simp only [h, Bool.false_eq_true, if_false]
    · have h2 : (Job.counting (q.ports.get k).fifo y).tag == j.tag := h
      simp only [h2, if_true]
      rfl
  have eq : t = r.finishDrain k kind left := by
    show q.flushDrain k kind = _
    unfold Part.flushDrain
    simp only [pj]
    have hl : (Job.counting c.fifo j).triggered -
        ((Job.counting c.fifo j).received + (Job.counting c.fifo j).lost) = left := rfl
    rw [hl, e1]
  obtain ⟨f1, f2, f3, f4, f5, f6, f7, f8⟩ := finishDrain_spec (q := r) (p := p) (k := k) (j := lose j) (n := n)
    (x := { x with lines := x.lines ++ c.fifo }) (kind := kind) (added := left)
    (by simp [r, hj]; rfl)
    (by
      simp only [Part.job, r]
      rw [show (lose j).tag = j.tag from rfl, find_mapped j.tag lose (fun _ => rfl), hp']
      rfl)
    (by simp [Part.slot, hn, r]; rfl) hm htb hc he hf
  rw [eq]
  have fj : r.csc.jobs.filter (fun y => y.tag != j.tag) = q.csc.jobs.filter (fun y => y.tag != j.tag) :=
    filter_mapped j.tag lose (fun _ => rfl) _
  refine ⟨⟨?_, fj ▸ f1.jobs, f1.idle, f1.busy, f1.notice⟩, ?_, ?_, ?_, f6, f7, f8⟩
  · have := f1.slot; simpa using this
  · intro m hm
    rw [f2 m hm]
    simp [Part.slot, Ne.symm hm, r]
  · rw [f4]
    simp only [Quad.get_set_self, Quad.set_set, fenceAfter_eq, r]
    rfl
  · rw [f5]
    simp only [r]
    rw [show (lose j).tag = j.tag from rfl, filter_mapped j.tag lose (fun _ => rfl)]

/-! ### A store turn of a port (R139, R141, R142) -/

/-- R139, R141: the part after the line at the head of the FIFO has been written, before the counts are compared. -/
def Part.written (p : Part) (k : Track) (tag : Tag) (n : Nat) (x : Slot) (l : Line) (rest : List Line) : Part :=
  { p with
    ports := p.ports.set k { p.ports.get k with fifo := rest, overrun := (p.ports.get k).overrun && !rest.isEmpty }
    fsc := { p.fsc with turn := none, slots := p.fsc.slots.setIfInBounds n { x with lines := x.lines ++ [l] } }
    csc := { p.csc with jobs := p.csc.jobs.map (fun y => if y.tag == tag then Job.counting [l] y else y) } }

/-- R139, R141, R142: a store turn writes the line at the head of the FIFO, and the counts are compared. -/
theorem Part.finishTurn_eq {p : Part} {k : Track} {tag : Tag} {n : Nat} {x : Slot} {l : Line} {rest : List Line}
    (hf : (p.ports.get k).fifo = l :: rest) (hj : (p.ports.get k).job = some { tag := tag, slot := n })
    (hs : p.slot n = some x) : p.finishTurn k = (p.written k tag n x l rest).checkDrain k := by
  have h3 : p.fsc.slots[n]? = some x := hs
  unfold Part.finishTurn
  simp only [Part.setFsc, hf]
  simp [Part.written, Part.writeLine, Part.setPort, hj, Part.slot, h3, Part.setSlot, Part.setFsc, Part.modJob,
    Part.setJobs, Job.counting]

/-- R142: the comparison of the counts, at a port that serves a job of the schedule. -/
theorem Part.checkDrain_cases {p : Part} {k : Track} {j : Job} (h : p.portJob k = some j) :
    ((p.ports.get k).activity = .draining ∧ j.received + j.lost = j.triggered ∧
      p.checkDrain k = p.finishDrain k .complete 0) ∨
    (¬ ((p.ports.get k).activity = .draining ∧ j.received + j.lost = j.triggered) ∧ p.checkDrain k = p) := by
  unfold Part.checkDrain
  rw [h]
  cases ha : (p.ports.get k).activity
  · exact .inr ⟨by simp, rfl⟩
  · exact .inr ⟨by simp, rfl⟩
  · by_cases g : j.received + j.lost = j.triggered
    · exact .inl ⟨rfl, g, by simp [g]⟩
    · exact .inr ⟨by simp [g], by simp [g]⟩

/-- R107, R109, R141 to R144: a drain that reaches its deadline or is cut. It ends complete when a store turn begun for
the port writes the last outstanding line, and in the kind given otherwise. -/
theorem Part.forceDrain_spec {p : Part} {k : Track} {j : Job} {n : Nat} {x : Slot} {kind : DrainEnd}
    (hj : (p.ports.get k).job = some { tag := j.tag, slot := n }) (hp : p.job j.tag = some j)
    (hs : p.slot n = some x)
    (hle : j.received + (p.ports.get k).fifo.length + j.lost ≤ j.triggered) :
    let c := p.ports.get k
    let left := j.triggered - (j.received + c.fifo.length + j.lost)
    let t := p.forceDrain k kind
    (∃ kind' : DrainEnd,
      (((∃ u : StoreTurn, p.fsc.turn = some u ∧ u.member = .port k) ∧ c.activity = .draining ∧ c.fifo.length = 1 ∧
          left = 0) → kind' = .complete) ∧
      (¬ ((∃ u : StoreTurn, p.fsc.turn = some u ∧ u.member = .port k) ∧ c.activity = .draining ∧ c.fifo.length = 1 ∧
          left = 0) → kind' = kind) ∧
      p.DrainEnded t { Job.counting c.fifo j with lost := j.lost + left } n x (x.lines ++ c.fifo) kind'
        (p.csc.jobs.filter (fun y => y.tag != j.tag))) ∧
    (∀ m, m ≠ n → t.slot m = p.slot m) ∧
    t.ports = p.ports.set k { c with
      activity := .idle, job := none, generator := none, fifo := [], overrun := false
      fence := c.expected.bind (fun e => if left = 0 then none else some { first := e, length := left }) } ∧
    t.csc = { p.csc with jobs := p.csc.jobs.filter (fun y => y.tag != j.tag) } ∧
    t.lar = p.lar ∧ t.trackers = p.trackers ∧ t.records = p.records := by
  intro c left t
  have hn := Part.slot_lt hs
  have hp' : p.csc.jobs.find? (fun y => y.tag == j.tag) = some j := hp
  by_cases hu : ∃ u : StoreTurn, p.fsc.turn = some u ∧ u.member = .port k
  · obtain ⟨u, hu1, hu2⟩ := hu
    have et : t = if ((p.finishTurn k).portJob k).isSome then (p.finishTurn k).flushDrain k kind else p.finishTurn k := by
      show p.forceDrain k kind = _
      unfold Part.forceDrain Part.completeTurn
      simp only [hu1, hu2, if_true]
    by_cases hf : (p.ports.get k).fifo = []
    · have ef : p.finishTurn k = p.setFsc { p.fsc with turn := none } := by
        unfold Part.finishTurn
        simp [Part.setFsc, hf]
      have ep : ((p.finishTurn k).portJob k).isSome = true := by
        rw [ef]
        simp [Part.portJob, Part.setFsc, hj, Part.job, hp']
      rw [ep, if_pos rfl, ef] at et
      obtain ⟨f1, f2, f3, f4, f5, f6, f7⟩ := flushDrain_spec (q := p.setFsc { p.fsc with turn := none }) (p := p)
        (k := k) (j := j) (n := n) (x := x) (kind := kind) hj hp hs rfl rfl ⟨rfl, rfl⟩ rfl rfl
      rw [et]
      refine ⟨⟨kind, ?_, fun _ => rfl, f1⟩, f2, f3, f4, f5, f6, f7⟩
      rintro ⟨-, -, h, -⟩
      simp [c, hf] at h
    · obtain ⟨l, rest, hf⟩ := List.exists_cons_of_ne_nil hf
      let r := p.written k j.tag n x l rest
      have e0 : p.finishTurn k = r.checkDrain k := finishTurn_eq hf hj hs
      have hrj : (r.ports.get k).job = some { tag := j.tag, slot := n } := by simp [r, Part.written, hj]
      have hrp : r.job j.tag = some (Job.counting [l] j) := by
        simp only [Part.job, r, Part.written]
        rw [find_mapped j.tag (Job.counting [l]) (fun _ => rfl), hp']
        rfl
      have hrs : r.slot n = some { x with lines := x.lines ++ [l] } := by simp [Part.slot, r, Part.written, hn]
      have hpj : r.portJob k = some (Job.counting [l] j) := by simp [Part.portJob, hrj, hrp]
      have hra : (r.ports.get k).activity = c.activity := by simp [r, Part.written, c]
      have hcl : c.fifo.length = rest.length + 1 := by simp [c, hf]
      have hle' : j.received + (rest.length + 1) + j.lost ≤ j.triggered := by rw [hf] at hle; simpa using hle
      have fj : r.csc.jobs.filter (fun y => y.tag != j.tag) = p.csc.jobs.filter (fun y => y.tag != j.tag) :=
        filter_mapped j.tag (Job.counting [l]) (fun _ => rfl) _
      have hne : ∀ m, m ≠ n → r.slot m = p.slot m := fun m hm => by
        simp [Part.slot, r, Part.written, Ne.symm hm]
      rcases checkDrain_cases hpj with ⟨h1, h2, h3⟩ | ⟨h1, h3⟩
      · have hr : rest = [] := by
          have : (Job.counting [l] j).received = j.received + 1 := rfl
          have : (Job.counting [l] j).lost = j.lost := rfl
          have : (Job.counting [l] j).triggered = j.triggered := rfl
          have : rest.length = 0 := by omega
          exact List.length_eq_zero_iff.mp this
        subst hr
        have hleft : left = 0 := by
          have h2' : j.received + 1 + j.lost = j.triggered := h2
          simp only [left, hcl, List.length_nil]
          omega
        obtain ⟨f1, f2, f3, f4, f5, f6, f7, f8⟩ := finishDrain_spec (q := r) (p := p) (k := k)
          (j := Job.counting [l] j) (n := n) (x := { x with lines := x.lines ++ [l] }) (kind := .complete) (added := 0)
          hrj hrp hrs rfl rfl ⟨rfl, rfl⟩ rfl rfl
        have ep : ((p.finishTurn k).portJob k).isSome = false := by
          rw [e0, h3]
          simp [Part.portJob, f4]
        have et' : t = r.finishDrain k .complete 0 := by
          rw [et, ep, e0, h3]
          rfl
        rw [et']
        have hcf : c.fifo = [l] := hf
        refine ⟨⟨.complete, fun _ => rfl, fun h => absurd ⟨⟨u, hu1, hu2⟩, hra ▸ h1, by simp [hcf], hleft⟩ h, ?_⟩,
          fun m hm => (f2 m hm).trans (hne m hm), ?_, ?_, f6, f7, f8⟩
        · rw [hcf, hleft]
          exact ⟨f1.slot, fj ▸ f1.jobs, f1.idle, f1.busy, f1.notice⟩
        · rw [f4, hleft]
          simp only [Quad.get_set_self, Quad.set_set, fenceAfter_eq, r, Part.written, List.isEmpty_nil, Bool.not_true,
            Bool.and_false]
          rfl
        · rw [f5]
          simp only [r, Part.written]
          rw [show (Job.counting [l] j).tag = j.tag from rfl, filter_mapped j.tag (Job.counting [l]) (fun _ => rfl)]
      · have et' : t = r.flushDrain k kind := by
          rw [et, e0, h3, hpj]
          rfl
        obtain ⟨f1, f2, f3, f4, f5, f6, f7⟩ := flushDrain_spec (q := r) (p := p) (k := k)
          (j := Job.counting [l] j) (n := n) (x := { x with lines := x.lines ++ [l] }) (kind := kind) hrj hrp hrs rfl rfl
          ⟨rfl, rfl⟩ rfl rfl
        have hrf : (r.ports.get k).fifo = rest := by simp [r, Part.written]
        have hre : (r.ports.get k).expected = c.expected := by simp [r, Part.written, c]
        have hcf : c.fifo = l :: rest := hf
        have hl : (Job.counting [l] j).triggered - ((Job.counting [l] j).received + (r.ports.get k).fifo.length +
            (Job.counting [l] j).lost) = left := by
          simp only [Job.counting, hrf, left, hcl, List.length_singleton]
          omega
        rw [hl, hrf] at f1
        rw [hl, hre] at f3
        rw [et']
        refine ⟨⟨kind, ?_, fun _ => rfl, ?_⟩, fun m hm => (f2 m hm).trans (hne m hm), ?_, ?_, f5, f6, f7⟩
        · rintro ⟨-, h4, h5, h6⟩
          refine absurd ⟨hra ▸ h4, ?_⟩ h1
          have : rest.length = 0 := by omega
          simp only [left, hcl] at h6
          show j.received + 1 + j.lost = j.triggered
          omega
        · have ec : { Job.counting rest (Job.counting [l] j) with lost := (Job.counting [l] j).lost + left } =
              { Job.counting c.fifo j with lost := j.lost + left } := by
            simp only [Job.counting, hcf]
            congr 1
            · simp; omega
            · simp [Bool.or_assoc]
          have el : x.lines ++ [l] ++ rest = x.lines ++ c.fifo := by simp [hcf]
          rw [ec, el] at f1
          exact ⟨f1.slot, fj ▸ f1.jobs, f1.idle, f1.busy, f1.notice⟩
        · rw [f3]
          simp only [Quad.set_set, r, Part.written, Quad.get_set_self]
          rfl
        · rw [f4]
          simp only [r, Part.written]
          rw [show (Job.counting [l] j).tag = j.tag from rfl, filter_mapped j.tag (Job.counting [l]) (fun _ => rfl)]
  · have et : t = p.flushDrain k kind := by
      show p.forceDrain k kind = _
      have hc : p.completeTurn k = p := by
        unfold Part.completeTurn
        split
        · rename_i u hu1
          rw [if_neg]
          exact fun h => hu ⟨u, hu1, h⟩
        · rfl
      unfold Part.forceDrain
      rw [hc]
      have : (p.portJob k).isSome = true := by simp [Part.portJob, hj, hp]
      simp only [this, if_true]
    obtain ⟨f1, f2, f3, f4, f5, f6, f7⟩ := flushDrain_spec (q := p) (p := p) (k := k) (j := j) (n := n) (x := x)
      (kind := kind) hj hp hs rfl rfl ⟨rfl, rfl⟩ rfl rfl
    rw [et]
    exact ⟨⟨kind, fun h => absurd h.1 hu, fun _ => rfl, f1⟩, f2, f3, f4, f5, f6, f7⟩

end Sys2Proof.Machine
end

