-- ==== Sys2Proof/Laws/Kept.lean ====
section
/-! SUPPORT. What no operation of the sensor, passage, capture, lamp, camera and retrieval blocks changes: the tables,
the page, the timebase, the mode, the addresses, the intake and the link. -/

namespace Sys2Proof.Machine

/-- `q` has the tables, the page, the timebase and the responder's own state of `p`. -/
structure Part.Kept (p q : Part) : Prop where
  tb          : q.tb = p.tb
  records     : q.records = p.records
  types       : q.types = p.types
  cal         : q.cal = p.cal
  free        : q.free = p.free
  linkAddr    : q.mgr.linkAddr = p.mgr.linkAddr
  recorder    : q.mgr.recorder = p.mgr.recorder
  mode        : q.mgr.mode = p.mgr.mode
  intake      : q.mgr.intake = p.mgr.intake
  link        : q.mgr.link = p.mgr.link
  intakeDrops : q.mgr.intakeDrops = p.mgr.intakeDrops
  ignored     : q.mgr.ignored = p.mgr.ignored

theorem Part.Kept.refl (p : Part) : p.Kept p := ⟨rfl, rfl, rfl, rfl, rfl, rfl, rfl, rfl, rfl, rfl, rfl, rfl⟩

theorem Part.Kept.trans {p q r : Part} (h : p.Kept q) (g : q.Kept r) : p.Kept r :=
  ⟨g.tb.trans h.tb, g.records.trans h.records, g.types.trans h.types, g.cal.trans h.cal, g.free.trans h.free,
   g.linkAddr.trans h.linkAddr, g.recorder.trans h.recorder, g.mode.trans h.mode, g.intake.trans h.intake,
   g.link.trans h.link, g.intakeDrops.trans h.intakeDrops, g.ignored.trans h.ignored⟩

/-- A fold keeps what each of its steps keeps. -/
theorem Part.Kept.foldl {α : Type} {f : Part → α → Part} (hf : ∀ q a, Part.Kept q (f q a)) :
    ∀ (l : List α) (p : Part), p.Kept (l.foldl f p)
  | [], p => .refl p
  | a :: l, p => (hf p a).trans (Part.Kept.foldl hf l (f p a))

/-- An update of blocks other than the tables, the timebase, the page and the responder. -/
theorem Part.Kept.blocks (p : Part) (fr : Quad FrontEnd) (tr : Quad Tracker) (c : Scheduler) (l : Arbiter)
    (po : Quad Port) (s : Store) :
    p.Kept { p with front := fr, trackers := tr, csc := c, lar := l, ports := po, fsc := s } :=
  ⟨rfl, rfl, rfl, rfl, rfl, rfl, rfl, rfl, rfl, rfl, rfl, rfl⟩

/-- An update of the responder's outbound side alone. -/
theorem Part.Kept.outbound (p : Part) (c w : List ControlRecord) (i : List ImageFrame) (x : Option Wire)
    (n : Count32) :
    p.Kept (p.setMgr { p.mgr with control := c, waiting := w, images := i, wire := x, noticeDrops := n }) :=
  ⟨rfl, rfl, rfl, rfl, rfl, rfl, rfl, rfl, rfl, rfl, rfl, rfl⟩

/-! ### The setters -/

theorem Part.setFront_kept (p : Part) (k : Track) (x : FrontEnd) : p.Kept (p.setFront k x) := .blocks ..
theorem Part.setTracker_kept (p : Part) (k : Track) (x : Tracker) : p.Kept (p.setTracker k x) := .blocks ..
theorem Part.setPassage_kept (p : Part) (k : Track) (x : Passage) : p.Kept (p.setPassage k x) := .blocks ..
theorem Part.setMatcher_kept (p : Part) (k : Track) (x : Matcher) : p.Kept (p.setMatcher k x) := .blocks ..
theorem Part.setPort_kept (p : Part) (k : Track) (x : Port) : p.Kept (p.setPort k x) := .blocks ..
theorem Part.setJobs_kept (p : Part) (x : List Job) : p.Kept (p.setJobs x) := .blocks ..
theorem Part.setLar_kept (p : Part) (x : Arbiter) : p.Kept (p.setLar x) := .blocks ..
theorem Part.setFsc_kept (p : Part) (x : Store) : p.Kept (p.setFsc x) := .blocks ..
theorem Part.setSlot_kept (p : Part) (n : Nat) (x : Slot) : p.Kept (p.setSlot n x) := .blocks ..
theorem Part.setHead_kept (p : Part) (k : Track) (i : PairId) (h : HeadId) (x : Head) :
    p.Kept (p.setHead k i h x) := .blocks ..
theorem Part.modJob_kept (p : Part) (t : Tag) (f : Job → Job) : p.Kept (p.modJob t f) := .blocks ..
theorem Part.removeJob_kept (p : Part) (t : Tag) : p.Kept (p.removeJob t) := .blocks ..
theorem Part.resort_kept (p : Part) : p.Kept p.resort := .blocks ..
theorem Part.setLamp_kept (p : Part) (t : Tag) (st : LampStatus) : p.Kept (p.setLamp t st) := .blocks ..
theorem Part.modFetch_kept (p : Part) (t : Tag) (f : FetchEntry → FetchEntry) : p.Kept (p.modFetch t f) := .blocks ..
theorem Part.removeFetch_kept (p : Part) (t : Tag) : p.Kept (p.removeFetch t) := .blocks ..
theorem Part.replaceJob_kept (p : Part) (j : Job) : p.Kept (p.replaceJob j) := .blocks ..
theorem Part.pushControl_kept (p : Part) (r : ControlRecord) : p.Kept (p.pushControl r) := .outbound ..
theorem Part.reply_kept (p : Part) (r : CommandRecord) (st : Status) (n : Nat) (c : Reply) :
    p.Kept (p.reply r st n c) := .outbound ..
theorem Part.refuse_kept (p : Part) (r : CommandRecord) (st : Status) : p.Kept (p.refuse r st) := .outbound ..
theorem Part.startWire_kept (p : Part) (f : Frame) : p.Kept (p.startWire f) := .outbound ..

theorem Part.notice_kept (p : Part) (n : Notice) : p.Kept (p.notice n) := by
  unfold Part.notice; split
  · exact p.pushControl_kept _
  · exact .outbound ..

theorem Part.placeOrWait_kept (p : Part) (r : ControlRecord) : p.Kept (p.placeOrWait r) := by
  unfold Part.placeOrWait; split
  · exact p.pushControl_kept _
  · exact .outbound ..

/-! ### Lamp arbiter -/

theorem Part.grant_kept (p : Part) : p.Kept p.grant := by
  unfold Part.grant; split
  · exact (p.setLar_kept _).trans (Part.setLamp_kept _ _ _)
  · exact .refl p

theorem Part.endService_kept (p : Part) (k : Track) (t : Tag) : p.Kept (p.endService k t) :=
  (p.setLar_kept _).trans (Part.grant_kept _)

theorem Part.lampWindowEnd_kept (p : Part) (t : Tag) : p.Kept (p.lampWindowEnd t) := by
  unfold Part.lampWindowEnd
  split
  · exact .refl p
  · split
    · exact p.endService_kept _ _
    · exact p.setLar_kept _
    · exact (p.setLar_kept _).trans (Part.setLamp_kept _ _ _)
    all_goals exact ((p.setLar_kept _).trans (Part.setLamp_kept _ _ _)).trans (Part.grant_kept _)

theorem Part.lampJobEnd_kept (p : Part) (t : Tag) : p.Kept (p.lampJobEnd t) := by
  unfold Part.lampJobEnd
  split
  · exact .refl p
  · split
    · exact p.endService_kept _ _
    · exact p.setLar_kept _
    · exact p.setLar_kept _
    all_goals exact (p.setLar_kept _).trans (Part.grant_kept _)

theorem Part.decideRequest_kept (p : Part) (t : Tag) : p.Kept (p.decideRequest t) := by
  unfold Part.decideRequest
  split
  · exact .refl p
  · dsimp only
    split
    · exact (p.setLar_kept _).trans (Part.setLamp_kept _ _ _)
    · split
      · exact (p.setLar_kept _).trans (Part.setLamp_kept _ _ _)
      · exact ((p.setLar_kept _).trans (Part.setLamp_kept _ _ _)).trans (Part.grant_kept _)

theorem Part.requestTime_kept (p : Part) (t : Tag) : p.Kept (p.requestTime t) := by
  unfold Part.requestTime; split
  · exact p.decideRequest_kept t
  · exact .refl p

theorem Part.enterLamp_kept (p : Part) (j : Job) : p.Kept (p.enterLamp j) :=
  (p.setLar_kept _).trans (Part.requestTime_kept _ _)

theorem Part.giveTimes_kept (p : Part) (j : Job) : p.Kept (p.giveTimes j) := by
  unfold Part.giveTimes
  split
  · exact .refl p
  · split
    · exact .refl p
    · exact (p.setLar_kept _).trans (Part.requestTime_kept _ _)

theorem Part.recoveryEnd_kept (p : Part) : p.Kept p.recoveryEnd := by
  unfold Part.recoveryEnd; split
  · exact (p.setLar_kept _).trans (Part.grant_kept _)
  · exact .refl p

theorem Part.lampReset_kept (p : Part) : p.Kept p.lampReset := p.setLar_kept _

/-! ### Image retrieval -/

theorem Part.finishFetch_kept (p : Part) (e : FetchEntry) : p.Kept (p.finishFetch e) := by
  unfold Part.finishFetch
  split
  · exact (p.pushControl_kept _).trans (Part.removeFetch_kept _ _)
  · exact (p.modFetch_kept _ _).trans (Part.placeOrWait_kept _ _)

theorem Part.startDelivery_kept (p : Part) (e : FetchEntry) : p.Kept (p.startDelivery e) :=
  (p.modFetch_kept _ _).trans (Part.setFsc_kept _ _)

theorem Part.kickEngine_kept (p : Part) : p.Kept p.kickEngine := by
  unfold Part.kickEngine
  split
  · exact .refl p
  · split
    · exact .refl p
    · exact p.startDelivery_kept _

theorem Part.placeFrame_kept (p : Part) (f : ImageFrame) : p.Kept (p.placeFrame f) := by
  unfold Part.placeFrame
  have h : p.Kept (p.setMgr { p.mgr with images := p.mgr.images ++ [f] }) := .outbound p _ _ _ _ _
  dsimp only
  split
  · exact ((h.trans (Part.modFetch_kept _ _ _)).trans (Part.setFsc_kept _ _)).trans (Part.kickEngine_kept _)
  · exact (h.trans (Part.modFetch_kept _ _ _)).trans (Part.setFsc_kept _ _)

theorem Part.completeFrame_kept (p : Part) (f : ImageFrame) : p.Kept (p.completeFrame f) := by
  unfold Part.completeFrame; split
  · exact p.placeFrame_kept f
  · exact p.setFsc_kept _

theorem Part.engineRead_kept (p : Part) (g : ReadEngine) : p.Kept (p.engineRead g) := by
  unfold Part.engineRead
  split
  · exact p.completeFrame_kept _
  · split
    · exact .refl p
    · dsimp only
      split
      · exact (p.setFsc_kept _).trans (Part.completeFrame_kept _ _)
      · exact p.setFsc_kept _

theorem Part.completeRead_kept (p : Part) : p.Kept p.completeRead := by
  unfold Part.completeRead
  split
  · dsimp only
    split
    · exact p.setFsc_kept _
    · exact (p.setFsc_kept _).trans (Part.engineRead_kept _ _)
  · exact .refl p

theorem Part.readTurn_kept (p : Part) : p.Kept p.readTurn := by
  unfold Part.readTurn; split
  · exact p.completeRead_kept
  · exact .refl p

theorem Part.placeKept_kept (p : Part) : p.Kept p.placeKept := by
  unfold Part.placeKept
  split
  · split
    · split
      · exact p.placeFrame_kept _
      · exact .refl p
    · exact .refl p
  · exact .refl p

theorem Part.endDelivery_kept (p : Part) (t : Tag) : p.Kept (p.endDelivery t) := by
  unfold Part.endDelivery; split
  · exact .refl p
  · exact p.finishFetch_kept _

/-! ### Camera ports -/

theorem Part.modPortJob_kept (p : Part) (k : Track) (f : Job → Job) : p.Kept (p.modPortJob k f) := by
  unfold Part.modPortJob; split
  · exact p.modJob_kept _ _
  · exact .refl p

theorem Part.syncLost_kept (p : Part) (k : Track) : p.Kept (p.syncLost k) := by
  unfold Part.syncLost
  dsimp only
  split
  · split
    · exact (p.setPort_kept _ _).trans (Part.notice_kept _ _)
    · exact p.setPort_kept _ _
  · exact .refl p

theorem Part.writeLine_kept (p : Part) (k : Track) (l : Line) : p.Kept (p.writeLine k l) := by
  unfold Part.writeLine
  split
  · exact .refl p
  · dsimp only
    split
    · exact (p.setSlot_kept _ _).trans (Part.modJob_kept _ _ _)
    · exact p.modJob_kept _ _

theorem Part.flushFifo_kept (p : Part) (k : Track) : p.Kept (p.flushFifo k) := by
  have h : p.Kept ((p.ports.get k).fifo.foldl (fun q l => q.writeLine k l) p) :=
    Part.Kept.foldl (fun q l => q.writeLine_kept k l) _ p
  exact h.trans (Part.setPort_kept _ _ _)

theorem Part.finishDrain_kept (p : Part) (k : Track) (kind : DrainEnd) (n : Nat) : p.Kept (p.finishDrain k kind n) := by
  unfold Part.finishDrain
  split
  · exact .refl p
  · split
    · exact .refl p
    · dsimp only
      split
      · exact ((((p.setPort_kept _ _).trans (Part.setSlot_kept _ _ _)).trans (Part.removeJob_kept _ _)).trans
          (Part.notice_kept _ _)).trans (Part.kickEngine_kept _)
      · exact (((p.setPort_kept _ _).trans (Part.removeJob_kept _ _)).trans
          (Part.notice_kept _ _)).trans (Part.kickEngine_kept _)

theorem Part.checkDrain_kept (p : Part) (k : Track) : p.Kept (p.checkDrain k) := by
  unfold Part.checkDrain
  split
  · split
    · exact p.finishDrain_kept _ _ _
    · exact .refl p
  · exact .refl p

theorem Part.finishTurn_kept (p : Part) (k : Track) : p.Kept (p.finishTurn k) := by
  unfold Part.finishTurn
  dsimp only
  split
  · exact p.setFsc_kept _
  · exact (((p.setFsc_kept _).trans (Part.setPort_kept _ _ _)).trans (Part.writeLine_kept _ _ _)).trans
      (Part.checkDrain_kept _ _)

theorem Part.completeTurn_kept (p : Part) (k : Track) : p.Kept (p.completeTurn k) := by
  unfold Part.completeTurn
  split
  · split
    · exact p.finishTurn_kept k
    · exact .refl p
  · exact .refl p

theorem Part.flushDrain_kept (p : Part) (k : Track) (kind : DrainEnd) : p.Kept (p.flushDrain k kind) := by
  unfold Part.flushDrain
  dsimp only
  split
  · exact p.flushFifo_kept k
  · exact ((p.flushFifo_kept k).trans (Part.modPortJob_kept _ _ _)).trans (Part.finishDrain_kept _ _ _ _)

theorem Part.forceDrain_kept (p : Part) (k : Track) (kind : DrainEnd) : p.Kept (p.forceDrain k kind) := by
  unfold Part.forceDrain
  dsimp only
  split
  · exact (p.completeTurn_kept k).trans (Part.flushDrain_kept _ _ _)
  · exact p.completeTurn_kept k

theorem Part.drainDeadline_kept (p : Part) (t : Tag) : p.Kept (p.drainDeadline t) := by
  unfold Part.drainDeadline
  split
  · split
    · exact p.forceDrain_kept _ _
    · exact .refl p
  · exact .refl p

theorem Part.startPort_kept (p : Part) (k : Track) (t : Tag) (n c : Nat) : p.Kept (p.startPort k t n c) :=
  p.setPort_kept _ _

theorem Part.stopTriggers_kept (p : Part) (k : Track) : p.Kept (p.stopTriggers k) := p.setPort_kept _ _

theorem Part.trigger_kept (p : Part) (k : Track) : p.Kept (p.trigger k) := by
  unfold Part.trigger
  split
  · split
    · exact (p.setPort_kept _ _).trans (Part.modPortJob_kept _ _ _)
    · exact .refl p
  · exact .refl p

theorem Part.pulseEnd_kept (p : Part) (k : Track) : p.Kept (p.pulseEnd k) := by
  unfold Part.pulseEnd; split
  · exact p.setPort_kept _ _
  · exact .refl p

theorem Part.strayLine_kept (p : Part) (k : Track) : p.Kept (p.strayLine k) := p.setPort_kept _ _

theorem Part.offerLine_kept (p : Part) (k : Track) (l : Line) : p.Kept (p.offerLine k l) := by
  unfold Part.offerLine
  dsimp only
  split
  · exact p.setPort_kept _ _
  · exact (p.setPort_kept _ _).trans (Part.modPortJob_kept _ _ _)

theorem Part.takeLine_kept (p : Part) (k : Track) (pk : LinePacket) (g : Bool) : p.Kept (p.takeLine k pk g) := by
  unfold Part.takeLine
  split
  · exact p.offerLine_kept _ _
  · exact (p.setPort_kept _ _).trans (Part.modPortJob_kept _ _ _)

theorem Part.linePacket_kept (p : Part) (k : Track) (pk : LinePacket) : p.Kept (p.linePacket k pk) := by
  unfold Part.linePacket
  dsimp only
  split
  · split
    · exact p.strayLine_kept k
    · exact p.strayLine_kept k
    · split
      · exact p.strayLine_kept k
      · split
        · exact (p.takeLine_kept _ _ _).trans (Part.checkDrain_kept _ _)
        · split
          · exact p.strayLine_kept k
          · split
            · exact (p.takeLine_kept _ _ _).trans (Part.checkDrain_kept _ _)
            · exact ((p.modPortJob_kept _ _).trans (Part.takeLine_kept _ _ _ _)).trans (Part.checkDrain_kept _ _)
  · exact .refl p

theorem Part.writeTurn_kept (p : Part) (k : Track) : p.Kept (p.writeTurn k) := by
  unfold Part.writeTurn
  split
  · exact p.finishTurn_kept k
  · exact .refl p

/-! ### Capture scheduler -/

theorem Part.endJob_kept (p : Part) (t : Tag) (r : EndReason) (c : CancelCause) : p.Kept (p.endJob t r c) := by
  unfold Part.endJob
  split
  · exact .refl p
  · exact ((p.lampJobEnd_kept t).trans (Part.removeJob_kept _ _)).trans (Part.notice_kept _ _)

theorem Part.cancelJobs_kept (p : Part) (f : Job → Bool) (c : CancelCause) : p.Kept (p.cancelJobs f c) :=
  Part.Kept.foldl (fun q _ => q.endJob_kept _ _ _) _ p

theorem Part.claimSlot_kept (p : Part) (n : Nat) (t : Tag) : p.Kept (p.claimSlot n t) := p.setSlot_kept _ _

theorem Part.openJob_kept (p : Part) (t : Tag) : p.Kept (p.openJob t) := by
  unfold Part.openJob
  split
  · exact .refl p
  · split
    · exact p.endJob_kept _ _ _
    · split
      · dsimp only
        split
        · exact (((p.forceDrain_kept _ _).trans (Part.claimSlot_kept _ _ _)).trans
            (Part.startPort_kept _ _ _ _ _)).trans (Part.modJob_kept _ _ _)
        · exact ((p.claimSlot_kept _ _).trans (Part.startPort_kept _ _ _ _ _)).trans (Part.modJob_kept _ _ _)
      · exact p.endJob_kept _ _ _

theorem Part.openIfDue_kept (p : Part) (t : Tag) : p.Kept (p.openIfDue t) := by
  unfold Part.openIfDue; split
  · exact p.openJob_kept t
  · exact .refl p

theorem Part.endWindow_kept (p : Part) (t : Tag) (b : Time) : p.Kept (p.endWindow t b) := by
  unfold Part.endWindow
  split
  · exact .refl p
  · exact (((p.stopTriggers_kept _).trans (Part.lampWindowEnd_kept _ _)).trans (Part.modJob_kept _ _ _)).trans
      (Part.checkDrain_kept _ _)

theorem Part.windowEnd_kept (p : Part) (t : Tag) : p.Kept (p.windowEnd t) := by
  unfold Part.windowEnd
  split
  · split
    · exact p.endWindow_kept _ _
    · exact .refl p
  · exact .refl p

theorem Part.settleLate_kept (p : Part) (l : List Tag) : p.Kept (p.settleLate l) :=
  Part.Kept.foldl (fun q _ => q.endJob_kept _ _ _) _ p

theorem Part.settleOne_kept (k : Track) (a : Part × List Tag) (t : Tag) : a.1.Kept (Part.settleOne k a t).1 := by
  unfold Part.settleOne
  dsimp only
  split
  · exact .refl _
  · split
    · exact (Part.replaceJob_kept _ _).trans (Part.endJob_kept _ _ _ _)
    · exact Part.replaceJob_kept _ _

theorem Part.settleAll_kept (k : Track) :
    ∀ (l : List Tag) (a : Part × List Tag), a.1.Kept (l.foldl (Part.settleOne k) a).1
  | [], a => .refl a.1
  | t :: l, a => (Part.settleOne_kept k a t).trans (Part.settleAll_kept k l _)

theorem Part.settleOpen_kept (p : Part) (t : Tag) : p.Kept (p.settleOpen t) := by
  unfold Part.settleOpen
  split
  · exact .refl p
  · split
    · exact ((p.replaceJob_kept _).trans (Part.giveTimes_kept _ _)).trans (Part.openJob_kept _ _)
    · exact .refl p

theorem Part.passTimes_kept (p : Part) (t : Tag) : p.Kept (p.passTimes t) := by
  unfold Part.passTimes
  split
  · exact .refl p
  · split
    · exact p.giveTimes_kept _
    · exact .refl p

theorem Part.settleTrack_kept (p : Part) (k : Track) (l : List Tag) : p.Kept (p.settleTrack k l) := by
  unfold Part.settleTrack
  exact (((p.settleLate_kept l).trans (Part.settleAll_kept k _ (_, []))).trans
    (Part.Kept.foldl (fun q t => q.settleOpen_kept t) _ _)).trans
    (Part.Kept.foldl (fun q t => q.passTimes_kept t) _ _)

theorem Part.retime_kept (p : Part) (k : Track) (f : Job → Bool) : p.Kept (p.retime k f) := by
  unfold Part.retime
  dsimp only
  split
  · exact .refl p
  · exact ((p.setJobs_kept _).trans (Part.resort_kept _)).trans (Part.settleTrack_kept _ _ _)

theorem Part.retimePassage_kept (p : Part) (k : Track) (n : Count16) : p.Kept (p.retimePassage k n) := by
  unfold Part.retimePassage; split
  · exact p.retime_kept _ _
  · exact .refl p

theorem Part.dropSighting_kept (p : Part) (j : Job) (s : Sighting) (r : DropReason) : p.Kept (p.dropSighting j s r) :=
  p.notice_kept _

theorem Part.countJob_kept (p : Part) (k : Track) : p.Kept (p.countJob k) := p.setPassage_kept _ _

theorem Part.placeJob_kept (p : Part) (o j : Job) (s : Sighting) : p.Kept (p.placeJob o j s) := by
  unfold Part.placeJob
  split
  · exact p.dropSighting_kept _ _ _
  · dsimp only
    refine Part.Kept.trans ?_ (Part.openIfDue_kept _ _)
    refine Part.Kept.trans ?_ (Part.enterLamp_kept _ _)
    exact Part.Kept.trans (.blocks p p.front p.trackers _ p.lar p.ports p.fsc) (Part.countJob_kept _ _)

theorem Part.takeSighting_kept (p : Part) (k : Track) (n : Count16) (s : Sighting) : p.Kept (p.takeSighting k n s) := by
  unfold Part.takeSighting
  dsimp only
  split
  · exact p.dropSighting_kept _ _ _
  · split
    · exact p.placeJob_kept _ _ _
    · split
      · exact ((p.replaceJob_kept _).trans (Part.giveTimes_kept _ _)).trans (Part.openIfDue_kept _ _)
      · split
        · exact p.dropSighting_kept _ _ _
        · exact p.placeJob_kept _ _ _

theorem Part.abortWindow_kept (p : Part) (t : Tag) : p.Kept (p.abortWindow t) :=
  (p.modJob_kept _ _).trans (Part.endWindow_kept _ _ _)

theorem Part.schedulerToService_kept (p : Part) : p.Kept p.schedulerToService := by
  refine Part.Kept.foldl (fun q j => ?_) _ p
  split
  · exact q.endJob_kept _ _ _
  · exact q.abortWindow_kept _
  · exact .refl q

theorem Part.schedulerToStandby_kept (p : Part) : p.Kept p.schedulerToStandby := p.cancelJobs_kept _ _

/-! ### Axle pattern matcher -/

theorem Part.flagNoSpeed_kept (p : Part) (k : Track) : p.Kept (p.flagNoSpeed k) := by
  unfold Part.flagNoSpeed; split
  · exact .refl p
  · exact p.setPassage_kept _ _

theorem Part.handSighting_kept (k : Track) (c : Bool) (p : Part) (s : Sighting) :
    p.Kept (Part.handSighting k c p s) := by
  unfold Part.handSighting
  dsimp only
  split
  · exact (p.setPassage_kept _ _).trans (Part.takeSighting_kept _ _ _ _)
  · exact p.setPassage_kept _ _

theorem Part.declare_kept (p : Part) (k : Track) (c : Bool) (x : Candidate) : p.Kept (p.declare k c x) := by
  unfold Part.declare
  dsimp only
  split
  · exact ((p.setPassage_kept _ _).trans (Part.Kept.foldl (Part.handSighting_kept k c) _ _)).trans
      (Part.setMatcher_kept _ _ _)
  · exact p.setMatcher_kept _ _

theorem Part.startCoupling_kept (p : Part) (k : Track) : p.Kept (p.startCoupling k) := by
  unfold Part.startCoupling
  dsimp only
  split
  · exact (p.flagNoSpeed_kept k).trans (Part.setMatcher_kept _ _ _)
  · exact .refl p

theorem Part.arriveEmpty_kept (p : Part) (k : Track) (a : PendingAxle) : p.Kept (p.arriveEmpty k a) :=
  p.setMatcher_kept _ _

theorem Part.arriveDropping_kept (p : Part) (k : Track) (a : PendingAxle) : p.Kept (p.arriveDropping k a) :=
  p.setPassage_kept _ _

theorem Part.arrive_kept (p : Part) (k : Track) (a : PendingAxle) (g : Nat) : p.Kept (p.arrive k a g) := by
  unfold Part.arrive
  dsimp only
  split
  · exact p.arriveEmpty_kept _ _
  · split
    · split
      · exact (p.declare_kept _ _ _).trans (Part.arriveEmpty_kept _ _ _)
      · exact p.arriveDropping_kept _ _
    · exact p.setMatcher_kept _ _

theorem Part.innerTime_kept (p : Part) (k : Track) (i : PairId) (h : HeadId) (t : Time) :
    p.Kept (p.innerTime k i h t).1 := by
  unfold Part.innerTime; split
  · exact .refl p
  · exact p.flagNoSpeed_kept k

theorem Part.measureGap_kept (p : Part) (k : Track) (t : Time) : p.Kept (p.measureGap k t).1 := by
  unfold Part.measureGap
  split
  · exact .refl p
  · dsimp only
    split
    · exact .refl p
    · exact p.flagNoSpeed_kept k

theorem Part.handAxle_kept (p : Part) (k : Track) (e : AxleEvent) (n : Count16) : p.Kept (p.handAxle k e n) := by
  unfold Part.handAxle
  exact ((((p.setMatcher_kept _ _).trans (Part.innerTime_kept _ _ _ _ _)).trans (Part.measureGap_kept _ _ _)).trans
    (Part.arrive_kept _ _ _ _)).trans (Part.startCoupling_kept _ _)

theorem Part.moveCoupling_kept (p : Part) (k : Track) : p.Kept (p.moveCoupling k) := by
  unfold Part.moveCoupling
  dsimp only
  split
  · exact p.setMatcher_kept _ _
  · exact .refl p

theorem Part.expireCoupling_kept (p : Part) (k : Track) : p.Kept (p.expireCoupling k) := by
  unfold Part.expireCoupling; split
  · exact p.declare_kept _ _ _
  · exact p.setMatcher_kept _ _

theorem Part.finishMatching_kept (p : Part) (k : Track) : p.Kept (p.finishMatching k) := by
  unfold Part.finishMatching
  dsimp only
  split
  · exact p.declare_kept _ _ _
  · exact p.setPassage_kept _ _

/-! ### Passage tracker -/

theorem Part.closePassage_kept (p : Part) (k : Track) (r : CloseReason) : p.Kept (p.closePassage k r) := by
  unfold Part.closePassage
  split
  · exact .refl p
  · exact ((p.finishMatching_kept k).trans (Part.notice_kept _ _)).trans (Part.setPassage_kept _ _ _)

theorem Part.clearPassage_kept (p : Part) (k : Track) : p.Kept (p.clearPassage k) := p.setPassage_kept _ _

theorem Part.takeReport_kept (p : Part) (k : Track) (o : Bool) : p.Kept (p.takeReport k o) := by
  unfold Part.takeReport; split
  · exact p.closePassage_kept _ _
  · exact .refl p

theorem Part.takeDeferred_kept (k : Track) (p : Part) (d : Deferred) : p.Kept (Part.takeDeferred k p d) := by
  cases d
  · exact p.takeReport_kept _ _
  · exact p.closePassage_kept _ _
  · exact p.clearPassage_kept _

theorem Part.reachTracker_kept (p : Part) (k : Track) (d : Deferred) : p.Kept (p.reachTracker k d) := by
  unfold Part.reachTracker; split
  · exact p.setTracker_kept _ _
  · exact Part.takeDeferred_kept k p d

theorem Part.updatePace_kept (p : Part) (k : Track) (i : PairId) (t : Option Nat) : p.Kept (p.updatePace k i t) := by
  unfold Part.updatePace
  split
  · exact .refl p
  · dsimp only
    split
    · exact p.setPassage_kept _ _
    · exact ((p.setPassage_kept _ _).trans (Part.moveCoupling_kept _ _)).trans (Part.retimePassage_kept _ _ _)

theorem Part.entryAxle_kept (p : Part) (k : Track) (e : AxleEvent) : p.Kept (p.entryAxle k e) := by
  unfold Part.entryAxle
  dsimp only
  split
  · exact (p.setPassage_kept _ _).trans (Part.updatePace_kept _ _ _ _)
  · exact ((p.setPassage_kept _ _).trans (Part.updatePace_kept _ _ _ _)).trans (Part.handAxle_kept _ _ _ _)

theorem Part.exitAxle_kept (p : Part) (k : Track) (e : AxleEvent) : p.Kept (p.exitAxle k e) :=
  (p.setPassage_kept _ _).trans (Part.updatePace_kept _ _ _ _)

theorem Part.cancelPassage_kept (p : Part) (k : Track) (n : Count16) (c : CancelCause) :
    p.Kept (p.cancelPassage k n c) := p.cancelJobs_kept _ _

theorem Part.backout_kept (p : Part) (k : Track) : p.Kept (p.backout k) :=
  ((p.setPassage_kept _ _).trans (Part.cancelPassage_kept _ _ _ _)).trans (Part.setPassage_kept _ _ _)

theorem Part.conflict_kept (p : Part) (k : Track) : p.Kept (p.conflict k) :=
  ((p.setPassage_kept _ _).trans (Part.cancelPassage_kept _ _ _ _)).trans (Part.setPassage_kept _ _ _)

theorem Part.classify_kept (p : Part) (k : Track) (e : AxleEvent) : p.Kept (p.classify k e) := by
  unfold Part.classify
  split
  · split
    · exact p.backout_kept _
    · exact p.entryAxle_kept _ _
  · split
    · exact p.conflict_kept _
    · exact p.exitAxle_kept _ _

theorem Part.examineInside_kept (p : Part) (k : Track) : p.Kept (p.examineInside k) := p.setTracker_kept _ _

theorem Part.handleEvent_kept (p : Part) (k : Track) (e : AxleEvent) (m : Bool) : p.Kept (p.handleEvent k e m) :=
  ((p.setPassage_kept _ _).trans (Part.classify_kept _ _ _)).trans (Part.examineInside_kept _ _)

theorem Part.takeEvent_kept (p : Part) (k : Track) : p.Kept (p.takeEvent k) := by
  unfold Part.takeEvent
  split
  · dsimp only
    split
    · exact .refl p
    · split
      · split
        · exact (p.setFront_kept _ _).trans (Part.setTracker_kept _ _ _)
        · exact ((p.setFront_kept _ _).trans (Part.setPassage_kept _ _ _)).trans (Part.handleEvent_kept _ _ _ _)
      · exact (p.setFront_kept _ _).trans (Part.handleEvent_kept _ _ _ _)
  · exact .refl p

theorem Part.couplingAtEnd_kept (p : Part) (k : Track) : p.Kept (p.couplingAtEnd k) := by
  unfold Part.couplingAtEnd; split
  · exact p.expireCoupling_kept k
  · exact .refl p

theorem Part.endHandling_kept (p : Part) (k : Track) (c : Bool) : p.Kept (p.endHandling k c) := by
  unfold Part.endHandling
  split
  · exact .refl p
  · dsimp only
    refine Part.Kept.trans ?_ (Part.couplingAtEnd_kept _ _)
    refine Part.Kept.trans ?_ (Part.Kept.foldl (Part.takeDeferred_kept k) _ _)
    have h (q : Part) (b : Bool) : q.Kept (if b then q.closePassage k .normal else q) := by
      split
      · exact q.closePassage_kept _ _
      · exact .refl q
    refine Part.Kept.trans ?_ (h _ _)
    split
    · exact (p.setTracker_kept _ _).trans (Part.couplingAtEnd_kept _ _)
    · exact p.setTracker_kept _ _

theorem Part.silenceExpiry_kept (p : Part) (k : Track) : p.Kept (p.silenceExpiry k) := by
  unfold Part.silenceExpiry; split
  · exact p.closePassage_kept _ _
  · exact .refl p

theorem Part.couplingExpiry_kept (p : Part) (k : Track) : p.Kept (p.couplingExpiry k) := by
  unfold Part.couplingExpiry; split
  · exact p.expireCoupling_kept k
  · exact .refl p

theorem Part.settleExpiry_kept (p : Part) (k : Track) : p.Kept (p.settleExpiry k) := by
  unfold Part.settleExpiry; split
  · exact (p.setFront_kept _ _).trans (Part.reachTracker_kept _ _ _)
  · exact .refl p

/-! ### Sensor front end -/

theorem Part.headInputActive_kept (p : Part) (k : Track) (i : PairId) (h : HeadId) :
    p.Kept (p.headInputActive k i h) := by
  unfold Part.headInputActive
  dsimp only
  split
  · exact .refl p
  · split
    · exact p.setHead_kept _ _ _ _
    · exact p.setHead_kept _ _ _ _

theorem Part.headInputInactive_kept (p : Part) (k : Track) (i : PairId) (h : HeadId) :
    p.Kept (p.headInputInactive k i h) := by
  unfold Part.headInputInactive
  dsimp only
  split
  · split
    · exact p.setHead_kept _ _ _ _
    · exact p.setHead_kept _ _ _ _
  · exact .refl p

theorem Part.firstSample_kept (p : Part) (k : Track) (i : PairId) (h : HeadId) : p.Kept (p.firstSample k i h) := by
  unfold Part.firstSample
  dsimp only
  split
  · split
    · exact p.setHead_kept _ _ _ _
    · exact .refl p
  · exact .refl p

theorem Part.secondSample_kept (p : Part) (k : Track) (i : PairId) (h : HeadId) : p.Kept (p.secondSample k i h) := by
  unfold Part.secondSample
  dsimp only
  split
  · split
    · split
      · exact (p.setHead_kept _ _ _ _).trans (Part.setFront_kept _ _ _)
      · exact p.setHead_kept _ _ _ _
    · exact .refl p
  · exact .refl p

theorem Part.stuckLimit_kept (p : Part) (k : Track) (i : PairId) (h : HeadId) : p.Kept (p.stuckLimit k i h) := by
  unfold Part.stuckLimit
  split
  · exact ((p.setHead_kept _ _ _ _).trans (Part.setFront_kept _ _ _)).trans (Part.notice_kept _ _)
  · exact .refl p

theorem Part.ceilingExpiry_kept (p : Part) (k : Track) (i : PairId) : p.Kept (p.ceilingExpiry k i) := by
  unfold Part.ceilingExpiry; split
  · exact p.setFront_kept _ _
  · exact .refl p

/-! ### Recorder link, outbound -/

theorem Part.placeWaiting_kept (p : Part) : p.Kept p.placeWaiting := by
  unfold Part.placeWaiting
  split
  · exact .refl p
  · split
    · dsimp only
      split
      · exact Part.Kept.trans (.outbound p _ _ _ _ _) (Part.removeFetch_kept _ _)
      · exact .outbound p _ _ _ _ _
    · exact .refl p

theorem Part.takeForSending_kept (p : Part) : p.Kept p.takeForSending := by
  unfold Part.takeForSending
  split
  · split
    · exact (Part.Kept.trans (.outbound p _ _ _ _ _) (Part.startWire_kept _ _)).trans (Part.placeWaiting_kept _)
    · split
      · dsimp only
        refine Part.Kept.trans ?_ (Part.placeKept_kept _)
        split
        · exact (Part.Kept.trans (.outbound p _ _ _ _ _) (Part.startWire_kept _ _)).trans
            (Part.endDelivery_kept _ _)
        · exact Part.Kept.trans (.outbound p _ _ _ _ _) (Part.startWire_kept _ _)
      · exact .refl p
  · exact .refl p

theorem Part.sendingEnd_kept (p : Part) : p.Kept p.sendingEnd := by
  unfold Part.sendingEnd; split
  · exact .outbound p _ _ _ _ _
  · exact .refl p

end Sys2Proof.Machine
end

