-- ==== Sys2Proof/Laws/Lamp.lean ====
section
/-! SUPPORT. What the arbiter does when it is told of a window end or of a job's end (07 R121, R123 to R125), said once. -/

namespace Sys2Proof.Machine

/-! ### Lamp entries -/

/-- An entry removed is gone. -/
theorem Arbiter.entry_removeEntry (a : Arbiter) (t : Tag) : (a.removeEntry t).entry t = none := by
  simp [Arbiter.entry, Arbiter.removeEntry, List.find?_eq_none]

/-- A change of phase makes no entry. -/
theorem Arbiter.entry_setPhase_none {a : Arbiter} {t : Tag} (d : Tag) (ph : LampPhase) (h : a.entry t = none) :
    (a.setPhase d ph).entry t = none := by
  simp only [Arbiter.entry, Arbiter.setPhase, Arbiter.modEntry, List.find?_eq_none, List.mem_map] at h ⊢
  rintro x ⟨y, hy, rfl⟩
  split
  · exact h y hy
  · exact h y hy

theorem Arbiter.entry_promote_none {a : Arbiter} {t : Tag} (k : Track) (h : a.entry t = none) :
    (a.promote k).entry t = none := by
  unfold Arbiter.promote
  split
  · exact Arbiter.entry_setPhase_none (a := a) _ _ h
  · exact h

theorem Arbiter.entry_withdraw_none {a : Arbiter} {t : Tag} (k : Track) (d : Tag) (h : a.entry t = none) :
    (a.withdraw k d).entry t = none := by
  unfold Arbiter.withdraw
  split
  · exact Arbiter.entry_promote_none k h
  · exact h

/-- A grant makes no entry. -/
theorem Part.grant_entry_none {p : Part} {t : Tag} (h : p.lar.entry t = none) : p.grant.lar.entry t = none := by
  rcases p.grant_cases with g | ⟨e, -, -, -, g⟩
  · rw [g]; exact h
  · rw [g]
    exact Arbiter.entry_setPhase_none _ _ (Arbiter.entry_withdraw_none (a := p.lar) e.track e.tag h)

/-- R122: without an IDLE bank in ON_LINE nothing is granted. -/
theorem Part.grant_held {p : Part} (h : p.lar.bank ≠ .idle ∨ p.mode ≠ .onLine) : p.grant = p := by
  rcases p.grant_cases with g | ⟨e, h1, h2, -, -⟩
  · exact g
  · rcases h with h | h
    · exact absurd h1 h
    · exact absurd h2 h

/-- R122: without a request nothing is granted. -/
theorem Part.grant_no_request {p : Part} (h : p.lar.requests = []) : p.grant = p := by
  rcases p.grant_cases with g | ⟨e, -, -, h3, -⟩
  · exact g
  · simp [Arbiter.winner, h] at h3

/-- R122: the winner is granted an IDLE bank in ON_LINE. -/
theorem Part.grant_bank {p : Part} {w : LampEntry} (h1 : p.lar.bank = .idle) (h2 : p.mode = .onLine)
    (h3 : p.lar.winner p.records = some w) : p.grant.lar.bank = .inService w.tag w.track p.now := by
  unfold Part.grant
  rw [h1, h2, h3]
  rfl

/-- A bank that is not in service matters to no request. -/
theorem Arbiter.requests_bank (a : Arbiter) (b : Bank) : ({ a with bank := b } : Arbiter).requests = a.requests := rfl

theorem Arbiter.winner_bank (a : Arbiter) (b : Bank) (r : Quad TrackRecord) :
    ({ a with bank := b } : Arbiter).winner r = a.winner r := rfl

/-- R121: the withdrawal of a request, its entry then removed. -/
theorem Arbiter.withdraw_removeEntry (a : Arbiter) (k : Track) (t : Tag) :
    (a.pendingSet.get k = some t → a.deferral.get k = [] →
      (a.withdraw k t).removeEntry t = { a.removeEntry t with pendingSet := a.pendingSet.set k none }) ∧
    (a.pendingSet.get k = some t → ∀ (d : Tag) (l : List Tag), a.deferral.get k = d :: l →
      (a.withdraw k t).removeEntry t = { (a.removeEntry t).setPhase d .requested with
        pendingSet := a.pendingSet.set k (some d), deferral := a.deferral.set k l }) ∧
    (a.pendingSet.get k ≠ some t → (a.withdraw k t).removeEntry t =
      { a.removeEntry t with deferral := a.deferral.set k ((a.deferral.get k).filter (fun x => x != t)) }) := by
  refine ⟨fun h g => ?_, fun h d l g => ?_, fun h => ?_⟩
  · simp [Arbiter.withdraw, h, Arbiter.promote, g, Arbiter.removeEntry]
  · simp only [Arbiter.withdraw, h, if_true, Arbiter.promote, Quad.get_set_self, g, Arbiter.removeEntry,
      Arbiter.setPhase, Arbiter.modEntry, Quad.set_set, List.filter_map]
    congr 2
    apply List.filter_congr
    intro e _
    simp only [Function.comp]
    split <;> rfl
  · simp [Arbiter.withdraw, h, Arbiter.removeEntry]

/-! ### The end of service and withdrawal (R123, R125) -/

/-- R123, R124: the end of service leaves the arbiter as `LampFreed` says, and changes nothing but it and lamp
statuses. -/
theorem Part.endService_freed {p : Part} {e : LampEntry} (h : e.phase = .serving) :
    p.LampFreed e (p.endService e.track e.tag).lar := by
  have hb : p.restedBank e.track = if recoveryMs (p.record e.track).recoveryCode = 0 then .idle
      else .recovery e.track (p.now + BitVec.ofNat 48 (recoveryMs (p.record e.track).recoveryCode * 1000)) := rfl
  refine ⟨?_, ?_, ?_, ?_, ?_, ?_, ?_, ?_⟩
  · exact grant_entry_none (p := p.setLar { p.lar.removeEntry e.tag with bank := p.restedBank e.track })
      (Arbiter.entry_removeEntry p.lar e.tag)
  · rw [h]; rintro (h | h) <;> cases h
  · intro _ hc
    unfold Part.endService
    rw [hb, if_neg hc, grant_held (.inl (by simp [Part.setLar]))]
    rfl
  · intro _ hc hr
    unfold Part.endService
    rw [hb, if_pos hc]
    rcases hr with hr | hr
    · rw [grant_held (p := p.setLar { p.lar.removeEntry e.tag with bank := .idle }) (.inr hr)]; rfl
    · rw [grant_no_request (by exact hr)]; rfl
  · intro _ hc hm w hw
    unfold Part.endService
    rw [hb, if_pos hc]
    exact grant_bank rfl hm hw
  all_goals rw [h]; rintro (h | h) <;> cases h

/-- R125: the withdrawal of a request leaves the arbiter as `LampFreed` says. -/
theorem Part.withdraw_freed {p q : Part} {e : LampEntry} (h : e.phase = .requested ∨ e.phase = .deferred)
    (hl : q.lar = (p.lar.withdraw e.track e.tag).removeEntry e.tag) (hm : q.mode = p.mode) :
    p.LampFreed e q.grant.lar := by
  have hns : e.phase ≠ .serving := by rcases h with h | h <;> rw [h] <;> simp
  have hbank : q.lar.bank = p.lar.bank := by
    rw [hl]
    show (p.lar.withdraw e.track e.tag).bank = p.lar.bank
    unfold Arbiter.withdraw Arbiter.promote
    split
    · split <;> rfl
    · rfl
  have held : p.lar.bank ≠ .idle ∨ p.mode ≠ .onLine → q.grant = q := fun g => grant_held (by rw [hbank, hm]; exact g)
  obtain ⟨w1, w2, w3⟩ := p.lar.withdraw_removeEntry e.track e.tag
  refine ⟨grant_entry_none (by rw [hl]; exact Arbiter.entry_removeEntry _ _), ?_, fun g => absurd g hns,
    fun g => absurd g hns, fun g => absurd g hns, ?_, ?_, ?_⟩
  · rcases h with h | h <;> rw [h] <;> rintro (g | g) <;> cases g
  · intro _ g h1 h2; rw [held g, hl, w1 h1 h2]
  · intro _ g h1 d l h2; rw [held g, hl, w2 h1 d l h2]
  · intro _ g h1; rw [held g, hl, w3 h1]

/-- R121: an entry that neither waits for the bank nor holds it is removed, and the bank is left alone. -/
theorem Part.removed_freed {p : Part} {e : LampEntry} (h : e.phase = .awaiting ∨ e.phase = .cleared) :
    p.LampFreed e (p.lar.removeEntry e.tag) := by
  have hs : e.phase ≠ .serving := by rcases h with h | h <;> rw [h] <;> simp
  have hr : ¬ (e.phase = .requested ∨ e.phase = .deferred) := by rcases h with h | h <;> rw [h] <;> simp
  exact ⟨Arbiter.entry_removeEntry _ _, fun _ => rfl, fun g => absurd g hs, fun g => absurd g hs, fun g => absurd g hs,
    fun g => absurd g hr, fun g => absurd g hr, fun g => absurd g hr⟩

/-- An entry found by its tag carries it. -/
theorem Arbiter.entry_tag {a : Arbiter} {t : Tag} {e : LampEntry} (h : a.entry t = some e) : e.tag = t := by
  unfold Arbiter.entry at h
  simpa using List.find?_some h

/-- R123, R125: a window end at the arbiter. -/
theorem Part.lampWindowEnd_freed {p : Part} {t : Tag} {e : LampEntry} (h : p.lar.entry t = some e) :
    p.LampFreed e (p.lampWindowEnd t).lar := by
  have ht := Arbiter.entry_tag h
  subst ht
  unfold Part.lampWindowEnd
  rw [h]
  dsimp only
  cases hp : e.phase
  · exact removed_freed (p := p) (.inl hp)
  · exact withdraw_freed (p := p) (.inr hp) rfl rfl
  · exact withdraw_freed (p := p) (.inl hp) rfl rfl
  · exact endService_freed (p := p) hp
  · exact removed_freed (p := p) (.inr hp)

/-- R123, R125: the end of a job without an image at the arbiter. -/
theorem Part.lampJobEnd_freed {p : Part} {t : Tag} {e : LampEntry} (h : p.lar.entry t = some e) :
    p.LampFreed e (p.lampJobEnd t).lar := by
  have ht := Arbiter.entry_tag h
  subst ht
  unfold Part.lampJobEnd
  rw [h]
  dsimp only
  cases hp : e.phase
  · exact removed_freed (p := p) (.inl hp)
  · exact withdraw_freed (p := p) (.inr hp) rfl rfl
  · exact withdraw_freed (p := p) (.inl hp) rfl rfl
  · exact endService_freed (p := p) hp
  · exact removed_freed (p := p) (.inr hp)

end Sys2Proof.Machine
end

