-- ==== Sys2Proof/Laws/Tracks.lean ====
section
/-! SUPPORT. What no operation of the lamp arbiter, the camera ports, the retrieval and the capture scheduler changes:
the sensor front ends and the trackers, but for the jobs count of a passage that is given a job. -/

namespace Sys2Proof.Machine

/-- `q` has the front ends and the trackers of `p`. -/
structure Part.SameTracks (p q : Part) : Prop where
  front    : q.front = p.front
  trackers : q.trackers = p.trackers

theorem Part.SameTracks.refl (p : Part) : p.SameTracks p := ⟨rfl, rfl⟩

theorem Part.SameTracks.trans {p q r : Part} (h : p.SameTracks q) (g : q.SameTracks r) : p.SameTracks r :=
  ⟨g.front.trans h.front, g.trackers.trans h.trackers⟩

/-- A fold keeps what each of its steps keeps. -/
theorem Part.SameTracks.foldl {α : Type} {f : Part → α → Part} (hf : ∀ q a, Part.SameTracks q (f q a)) :
    ∀ (l : List α) (p : Part), p.SameTracks (l.foldl f p)
  | [], p => .refl p
  | a :: l, p => (hf p a).trans (Part.SameTracks.foldl hf l (f p a))

theorem Part.setPort_tracks (p : Part) (k : Track) (x : Port) : p.SameTracks (p.setPort k x) := ⟨rfl, rfl⟩

theorem Part.setJobs_tracks (p : Part) (x : List Job) : p.SameTracks (p.setJobs x) := ⟨rfl, rfl⟩

theorem Part.setLar_tracks (p : Part) (x : Arbiter) : p.SameTracks (p.setLar x) := ⟨rfl, rfl⟩

theorem Part.setFsc_tracks (p : Part) (x : Store) : p.SameTracks (p.setFsc x) := ⟨rfl, rfl⟩

theorem Part.setSlot_tracks (p : Part) (n : Nat) (x : Slot) : p.SameTracks (p.setSlot n x) := ⟨rfl, rfl⟩

theorem Part.modJob_tracks (p : Part) (t : Tag) (f : Job → Job) : p.SameTracks (p.modJob t f) := ⟨rfl, rfl⟩

theorem Part.removeJob_tracks (p : Part) (t : Tag) : p.SameTracks (p.removeJob t) := ⟨rfl, rfl⟩

theorem Part.resort_tracks (p : Part) : p.SameTracks p.resort := ⟨rfl, rfl⟩

theorem Part.setLamp_tracks (p : Part) (t : Tag) (st : LampStatus) : p.SameTracks (p.setLamp t st) := ⟨rfl, rfl⟩

theorem Part.modFetch_tracks (p : Part) (t : Tag) (f : FetchEntry → FetchEntry) :
    p.SameTracks (p.modFetch t f) := ⟨rfl, rfl⟩

theorem Part.replaceJob_tracks (p : Part) (j : Job) : p.SameTracks (p.replaceJob j) := ⟨rfl, rfl⟩

theorem Part.pushControl_tracks (p : Part) (r : ControlRecord) : p.SameTracks (p.pushControl r) := ⟨rfl, rfl⟩

theorem Part.notice_tracks (p : Part) (n : Notice) : p.SameTracks (p.notice n) := by
  unfold Part.notice; split
  · exact p.pushControl_tracks _
  · exact ⟨rfl, rfl⟩

theorem Part.grant_tracks (p : Part) : p.SameTracks p.grant := by
  unfold Part.grant; split
  · exact (p.setLar_tracks _).trans (Part.setLamp_tracks _ _ _)
  · exact .refl p

theorem Part.endService_tracks (p : Part) (k : Track) (t : Tag) : p.SameTracks (p.endService k t) :=
  (p.setLar_tracks _).trans (Part.grant_tracks _)

theorem Part.lampWindowEnd_tracks (p : Part) (t : Tag) : p.SameTracks (p.lampWindowEnd t) := by
  unfold Part.lampWindowEnd
  split
  · exact .refl p
  · split
    · exact p.endService_tracks _ _
    · exact p.setLar_tracks _
    · exact (p.setLar_tracks _).trans (Part.setLamp_tracks _ _ _)
    all_goals exact ((p.setLar_tracks _).trans (Part.setLamp_tracks _ _ _)).trans (Part.grant_tracks _)

theorem Part.lampJobEnd_tracks (p : Part) (t : Tag) : p.SameTracks (p.lampJobEnd t) := by
  unfold Part.lampJobEnd
  split
  · exact .refl p
  · split
    · exact p.endService_tracks _ _
    · exact p.setLar_tracks _
    · exact p.setLar_tracks _
    all_goals exact (p.setLar_tracks _).trans (Part.grant_tracks _)

theorem Part.decideRequest_tracks (p : Part) (t : Tag) : p.SameTracks (p.decideRequest t) := by
  unfold Part.decideRequest
  split
  · exact .refl p
  · dsimp only
    split
    · exact (p.setLar_tracks _).trans (Part.setLamp_tracks _ _ _)
    · split
      · exact (p.setLar_tracks _).trans (Part.setLamp_tracks _ _ _)
      · exact ((p.setLar_tracks _).trans (Part.setLamp_tracks _ _ _)).trans (Part.grant_tracks _)

theorem Part.requestTime_tracks (p : Part) (t : Tag) : p.SameTracks (p.requestTime t) := by
  unfold Part.requestTime; split
  · exact p.decideRequest_tracks t
  · exact .refl p

theorem Part.enterLamp_tracks (p : Part) (j : Job) : p.SameTracks (p.enterLamp j) :=
  (p.setLar_tracks _).trans (Part.requestTime_tracks _ _)

theorem Part.giveTimes_tracks (p : Part) (j : Job) : p.SameTracks (p.giveTimes j) := by
  unfold Part.giveTimes
  split
  · exact .refl p
  · split
    · exact .refl p
    · exact (p.setLar_tracks _).trans (Part.requestTime_tracks _ _)

theorem Part.startDelivery_tracks (p : Part) (e : FetchEntry) : p.SameTracks (p.startDelivery e) :=
  (p.modFetch_tracks _ _).trans (Part.setFsc_tracks _ _)

theorem Part.kickEngine_tracks (p : Part) : p.SameTracks p.kickEngine := by
  unfold Part.kickEngine
  split
  · exact .refl p
  · split
    · exact .refl p
    · exact p.startDelivery_tracks _

theorem Part.modPortJob_tracks (p : Part) (k : Track) (f : Job → Job) : p.SameTracks (p.modPortJob k f) := by
  unfold Part.modPortJob; split
  · exact p.modJob_tracks _ _
  · exact .refl p

theorem Part.writeLine_tracks (p : Part) (k : Track) (l : Line) : p.SameTracks (p.writeLine k l) := by
  unfold Part.writeLine
  split
  · exact .refl p
  · dsimp only
    split
    · exact (p.setSlot_tracks _ _).trans (Part.modJob_tracks _ _ _)
    · exact p.modJob_tracks _ _

theorem Part.flushFifo_tracks (p : Part) (k : Track) : p.SameTracks (p.flushFifo k) := by
  have h : p.SameTracks ((p.ports.get k).fifo.foldl (fun q l => q.writeLine k l) p) :=
    Part.SameTracks.foldl (fun q l => q.writeLine_tracks k l) _ p
  exact h.trans (Part.setPort_tracks _ _ _)

theorem Part.finishDrain_tracks (p : Part) (k : Track) (kind : DrainEnd) (n : Nat) :
    p.SameTracks (p.finishDrain k kind n) := by
  unfold Part.finishDrain
  split
  · exact .refl p
  · split
    · exact .refl p
    · dsimp only
      split
      · exact ((((p.setPort_tracks _ _).trans (Part.setSlot_tracks _ _ _)).trans (Part.removeJob_tracks _ _)).trans
          (Part.notice_tracks _ _)).trans (Part.kickEngine_tracks _)
      · exact (((p.setPort_tracks _ _).trans (Part.removeJob_tracks _ _)).trans
          (Part.notice_tracks _ _)).trans (Part.kickEngine_tracks _)

theorem Part.checkDrain_tracks (p : Part) (k : Track) : p.SameTracks (p.checkDrain k) := by
  unfold Part.checkDrain
  split
  · split
    · exact p.finishDrain_tracks _ _ _
    · exact .refl p
  · exact .refl p

theorem Part.finishTurn_tracks (p : Part) (k : Track) : p.SameTracks (p.finishTurn k) := by
  unfold Part.finishTurn
  dsimp only
  split
  · exact p.setFsc_tracks _
  · exact (((p.setFsc_tracks _).trans (Part.setPort_tracks _ _ _)).trans (Part.writeLine_tracks _ _ _)).trans
      (Part.checkDrain_tracks _ _)

theorem Part.completeTurn_tracks (p : Part) (k : Track) : p.SameTracks (p.completeTurn k) := by
  unfold Part.completeTurn
  split
  · split
    · exact p.finishTurn_tracks k
    · exact .refl p
  · exact .refl p

theorem Part.flushDrain_tracks (p : Part) (k : Track) (kind : DrainEnd) : p.SameTracks (p.flushDrain k kind) := by
  unfold Part.flushDrain
  dsimp only
  split
  · exact p.flushFifo_tracks k
  · exact ((p.flushFifo_tracks k).trans (Part.modPortJob_tracks _ _ _)).trans (Part.finishDrain_tracks _ _ _ _)

theorem Part.forceDrain_tracks (p : Part) (k : Track) (kind : DrainEnd) : p.SameTracks (p.forceDrain k kind) := by
  unfold Part.forceDrain
  dsimp only
  split
  · exact (p.completeTurn_tracks k).trans (Part.flushDrain_tracks _ _ _)
  · exact p.completeTurn_tracks k

theorem Part.startPort_tracks (p : Part) (k : Track) (t : Tag) (n c : Nat) : p.SameTracks (p.startPort k t n c) :=
  p.setPort_tracks _ _

theorem Part.endJob_tracks (p : Part) (t : Tag) (r : EndReason) (c : CancelCause) :
    p.SameTracks (p.endJob t r c) := by
  unfold Part.endJob
  split
  · exact .refl p
  · exact ((p.lampJobEnd_tracks t).trans (Part.removeJob_tracks _ _)).trans (Part.notice_tracks _ _)

theorem Part.cancelJobs_tracks (p : Part) (f : Job → Bool) (c : CancelCause) : p.SameTracks (p.cancelJobs f c) :=
  Part.SameTracks.foldl (fun q _ => q.endJob_tracks _ _ _) _ p

theorem Part.claimSlot_tracks (p : Part) (n : Nat) (t : Tag) : p.SameTracks (p.claimSlot n t) := p.setSlot_tracks _ _

theorem Part.openJob_tracks (p : Part) (t : Tag) : p.SameTracks (p.openJob t) := by
  unfold Part.openJob
  split
  · exact .refl p
  · split
    · exact p.endJob_tracks _ _ _
    · split
      · dsimp only
        split
        · exact (((p.forceDrain_tracks _ _).trans (Part.claimSlot_tracks _ _ _)).trans
            (Part.startPort_tracks _ _ _ _ _)).trans (Part.modJob_tracks _ _ _)
        · exact ((p.claimSlot_tracks _ _).trans (Part.startPort_tracks _ _ _ _ _)).trans (Part.modJob_tracks _ _ _)
      · exact p.endJob_tracks _ _ _

theorem Part.openIfDue_tracks (p : Part) (t : Tag) : p.SameTracks (p.openIfDue t) := by
  unfold Part.openIfDue; split
  · exact p.openJob_tracks t
  · exact .refl p

theorem Part.settleLate_tracks (p : Part) (l : List Tag) : p.SameTracks (p.settleLate l) :=
  Part.SameTracks.foldl (fun q _ => q.endJob_tracks _ _ _) _ p

theorem Part.settleOne_tracks (k : Track) (a : Part × List Tag) (t : Tag) : a.1.SameTracks (Part.settleOne k a t).1 := by
  unfold Part.settleOne
  dsimp only
  split
  · exact .refl _
  · split
    · exact (Part.replaceJob_tracks _ _).trans (Part.endJob_tracks _ _ _ _)
    · exact Part.replaceJob_tracks _ _

theorem Part.settleAll_tracks (k : Track) :
    ∀ (l : List Tag) (a : Part × List Tag), a.1.SameTracks (l.foldl (Part.settleOne k) a).1
  | [], a => .refl a.1
  | t :: l, a => (Part.settleOne_tracks k a t).trans (Part.settleAll_tracks k l _)

theorem Part.settleOpen_tracks (p : Part) (t : Tag) : p.SameTracks (p.settleOpen t) := by
  unfold Part.settleOpen
  split
  · exact .refl p
  · split
    · exact ((p.replaceJob_tracks _).trans (Part.giveTimes_tracks _ _)).trans (Part.openJob_tracks _ _)
    · exact .refl p

theorem Part.passTimes_tracks (p : Part) (t : Tag) : p.SameTracks (p.passTimes t) := by
  unfold Part.passTimes
  split
  · exact .refl p
  · split
    · exact p.giveTimes_tracks _
    · exact .refl p

theorem Part.settleTrack_tracks (p : Part) (k : Track) (l : List Tag) : p.SameTracks (p.settleTrack k l) := by
  unfold Part.settleTrack
  exact (((p.settleLate_tracks l).trans (Part.settleAll_tracks k _ (_, []))).trans
    (Part.SameTracks.foldl (fun q t => q.settleOpen_tracks t) _ _)).trans
    (Part.SameTracks.foldl (fun q t => q.passTimes_tracks t) _ _)

theorem Part.retime_tracks (p : Part) (k : Track) (f : Job → Bool) : p.SameTracks (p.retime k f) := by
  unfold Part.retime
  dsimp only
  split
  · exact .refl p
  · exact ((p.setJobs_tracks _).trans (Part.resort_tracks _)).trans (Part.settleTrack_tracks _ _ _)

theorem Part.retimePassage_tracks (p : Part) (k : Track) (n : Count16) : p.SameTracks (p.retimePassage k n) := by
  unfold Part.retimePassage; split
  · exact p.retime_tracks _ _
  · exact .refl p

theorem Part.dropSighting_tracks (p : Part) (j : Job) (s : Sighting) (r : DropReason) :
    p.SameTracks (p.dropSighting j s r) :=
  p.notice_tracks _

theorem Part.cancelPassage_tracks (p : Part) (k : Track) (n : Count16) (c : CancelCause) :
    p.SameTracks (p.cancelPassage k n c) := p.cancelJobs_tracks _ _

/-! ### Separation -/

/-- R98: the moves of a separation leave the track of the job. -/
theorem separate_track {n : Nat} {others : List Job} {w j : Job} (h : separate n others w = .kept j) :
    j.track = w.track := by
  induction n generalizing w with
  | zero => cases h; rfl
  | succ n ih =>
    unfold separate at h
    split at h
    · cases h; rfl
    · split at h
      · cases h
      · rename_i j' hc
        rw [ih h]
        unfold Job.clip at hc
        dsimp only at hc
        split at hc <;> cases hc
        rfl

/-! ### Sightings -/

/-- R51: the scheduler, given a sighting, changes of the front ends and the trackers the jobs count of the track alone. -/
theorem Part.takeSighting_tracks (p : Part) (k : Track) (num : Count16) (s : Sighting) :
    (p.takeSighting k num s).front = p.front ∧ ∃ n : Count16, (p.takeSighting k num s).trackers =
      p.trackers.set k { p.trackers.get k with passage := { p.passage k with jobCount := n } } := by
  have same : ∀ q : Part, p.SameTracks q → q.front = p.front ∧ ∃ n : Count16, q.trackers =
      p.trackers.set k { p.trackers.get k with passage := { p.passage k with jobCount := n } } := fun q h =>
    ⟨h.front, (p.passage k).jobCount, by rw [h.trackers]; exact (Quad.set_get _ _).symm⟩
  have placed : ∀ own j : Job, j.track = k → (p.placeJob own j s).front = p.front ∧ ∃ n : Count16,
      (p.placeJob own j s).trackers =
        p.trackers.set k { p.trackers.get k with passage := { p.passage k with jobCount := n } } := by
    intro own j hj
    unfold Part.placeJob
    split
    · exact same _ (p.dropSighting_tracks _ _ _)
    · dsimp only
      have h := fun (q : Part) (x : Job) (t : Tag) => (q.enterLamp_tracks x).trans (Part.openIfDue_tracks _ t)
      subst hj
      exact ⟨(h _ _ _).front, (p.passage j.track).jobCount + 1, (h _ _ _).trackers⟩
  unfold Part.takeSighting
  dsimp only
  have hk : ((p.computeJob (Job.ofSighting k num s)).lateIfPassed p.now).track = k := by
    unfold Job.lateIfPassed; split <;> rfl
  split
  · exact same _ (p.dropSighting_tracks _ _ _)
  · split
    · exact placed _ _ hk
    · split
      · exact same _ (((p.replaceJob_tracks _).trans (Part.giveTimes_tracks _ _)).trans (Part.openIfDue_tracks _ _))
      · split
        · exact same _ (p.dropSighting_tracks _ _ _)
        · rename_i hs
          refine placed _ _ ?_
          rw [← hk]
          exact separate_track hs

end Sys2Proof.Machine
end

