-- ==== Sys2Proof/Laws/Passages.lean ====
section
/-! SUPPORT. What a declaration, a close of a passage and the end of a handling do (03 R35, R42, R43, R49, R53, R55, 04
R69 to R77), said once for each shared operation. -/

namespace Sys2Proof.Machine

/-- The reports of sightings leave the handling of the track. -/
theorem Part.handSightings_handling (k : Track) (closing : Bool) : ∀ (l : List Sighting) (q : Part),
    ((l.foldl (Part.handSighting k closing) q).trackers.get k).handling = (q.trackers.get k).handling
  | [], _ => rfl
  | x :: l, q => by
    rw [List.foldl_cons, Part.handSightings_handling k closing l]
    unfold Part.handSighting
    dsimp only
    split
    · obtain ⟨-, n, h⟩ := Part.takeSighting_tracks
        (q.setPassage k { q.passage k with sightingCount := (q.passage k).sightingCount + 1 }) k _ x
      rw [h]
      simp
    · simp

/-- R71: a declaration leaves the handling of the track. -/
theorem Part.declare_handling (p : Part) (k : Track) (b : Bool) (c : Candidate) :
    ((p.declare k b c).trackers.get k).handling = (p.trackers.get k).handling := by
  unfold Part.declare
  dsimp only
  split
  · simp only [Part.setMatcher, Part.setPassage, Part.setTracker, Quad.get_set_self]
    rw [Part.handSightings_handling]
    simp
  · simp [Part.setMatcher, Part.setPassage]

/-- R69: a coupling expiry leaves the handling of the track. -/
theorem Part.couplingAtEnd_handling (p : Part) (k : Track) :
    ((p.couplingAtEnd k).trackers.get k).handling = (p.trackers.get k).handling := by
  unfold Part.couplingAtEnd Part.expireCoupling
  split
  · split
    · exact Part.declare_handling _ _ _ _
    · simp [Part.setMatcher, Part.setPassage]
  · rfl

/-- R75: at a close the sightings are counted and go nowhere else. -/
theorem Part.handSightings_closing (k : Track) : ∀ (l : List Sighting) (q : Part),
    l.foldl (Part.handSighting k true) q = q.setPassage k { q.passage k with
      sightingCount := (q.passage k).sightingCount + BitVec.ofNat 16 l.length }
  | [], q => by
    simp only [List.foldl_nil, List.length_nil, BitVec.add_zero, Part.setPassage, Part.setTracker, Part.passage]
    show _ = ({ q with trackers := q.trackers.set k (q.trackers.get k) } : Part)
    rw [Quad.set_get]
  | x :: l, q => by
    rw [List.foldl_cons, Part.handSightings_closing k l]
    simp [Part.handSighting, Part.setPassage, Part.setTracker, Part.passage]
    congr 3
    rw [BitVec.ofNat_add]
    ac_rfl

/-- R73: how many sightings one pantograph makes. -/
theorem sightingOffsets_length (o : Orientation) (span f : Nat) :
    (sightingOffsets o span f).length = if o = .unknown ∧ f ≠ span - f then 2 else 1 := by
  cases o
  · rfl
  · rfl
  · by_cases h : f = span - f
    · rw [if_neg (fun g => g.2 h)]
      simp only [sightingOffsets]
      rw [if_pos h]
      rfl
    · rw [if_pos ⟨rfl, h⟩]
      simp only [sightingOffsets]
      rw [if_neg h]
      rfl

/-- R73: how many sightings a declaration makes. -/
theorem sightingsOf_length (t : VehicleType) (i : Nat) (o : Orientation) (n : Count16) (r : Time) (a : Nat) :
    (sightingsOf t i o n r a).length =
      (t.pantographs.map (fun x => if o = .unknown ∧ x ≠ t.span - x then 2 else 1)).sum := by
  have along : ∀ (l m : List Nat), m.length = l.length →
      ((m.zip l).map (fun x => (sightingOffsets o t.span x.2).length)).sum =
        (l.map (fun x => if o = .unknown ∧ x ≠ t.span - x then 2 else 1)).sum := by
    intro l
    induction l with
    | nil => intro m _; simp
    | cons x l ih =>
      intro m hm
      cases m with
      | nil => simp at hm
      | cons y m =>
        simp only [List.zip_cons_cons, List.map_cons, List.sum_cons, sightingOffsets_length]
        rw [← ih m (by simpa using hm)]
        simp only [sightingOffsets_length]
  unfold sightingsOf indexed
  rw [List.length_flatMap]
  simp only [List.length_map]
  exact along _ _ (by simp)

/-- R72: the orientation of a declared vehicle. -/
theorem orientationOf_cases (set : List Candidate) (c : Candidate) :
    let o := orientationOf set c
    (o = .unknown ↔ (∃ x ∈ set, x.index = c.index ∧ x.complete = true ∧ x.facing = .forward) ∧
      (∃ x ∈ set, x.index = c.index ∧ x.complete = true ∧ x.facing = .reversed)) ∧
    (o = .forward → c.facing = .forward) ∧ (o = .reversed → c.facing = .reversed) := by
  have some_faces : ∀ d : Facing, set.any (fun x => x.index == c.index && x.complete && decide (x.facing = d)) = true ↔
      ∃ x ∈ set, x.index = c.index ∧ x.complete = true ∧ x.facing = d := by
    intro d
    simp [List.any_eq_true, and_assoc]
  intro o
  have ho : o = orientationOf set c := rfl
  unfold orientationOf at ho
  dsimp only at ho
  rw [← some_faces, ← some_faces, ← Bool.and_eq_true]
  split at ho
  · rename_i h
    simp [h, ho]
  · rename_i h
    cases hf : c.facing <;> simp only [hf] at ho <;> simp [ho, h]

/-- R49, R77: what the matcher leaves of a passage that closes. -/
theorem Part.finishMatching_spec (p : Part) (k : Track) :
    ∃ final : Passage, p.FinishedAs k final ∧ p.finishMatching k = p.setPassage k final := by
  unfold Part.finishMatching
  dsimp only
  cases hc : (p.passage k).matcher.firstComplete with
  | none =>
    refine ⟨_, ⟨fun _ => rfl, ?_, ?_⟩, rfl⟩ <;> simp [hc]
  | some c =>
    dsimp only
    unfold Part.declare
    dsimp only
    split
    · rename_i a l v hp hv
      rw [Part.handSightings_closing]
      refine ⟨?f, ⟨?_, ?_, ?_⟩, ?_⟩
      rotate_right
      · simp only [Part.setMatcher, Part.setPassage, Part.setTracker, Part.passage, Quad.get_set_self, Quad.set_set]
        rfl
      · simp [hc]
      · intro c' v' a' l' h1 h2 h3
        rw [hc] at h1; cases h1
        rw [hv] at h2; cases h2
        rw [hp] at h3; cases h3
        obtain ⟨o1, o2, o3⟩ := orientationOf_cases (p.passage k).matcher.candidates c
        refine ⟨orientationOf (p.passage k).matcher.candidates c, o1, o2, o3, ?_⟩
        simp only [sightingsOf_length]
        generalize hr : p.passage k = r at *
        have hr' : (p.trackers.get k).passage = r := hr
        rw [hr'] at *
        unfold Passage.enterVehicle
        by_cases hl : r.matcher.vehicles.length < 64
        · have h64 : ¬ 64 ≤ r.matcher.vehicles.length := by omega
          simp [Matcher.clear, hp, hl, h64]
        · have h64 : 64 ≤ r.matcher.vehicles.length := by omega
          simp [Matcher.clear, hl, h64]
      · intro c' h1 h2
        rw [hc] at h1; cases h1
        rcases h2 with h2 | h2
        · rw [hv] at h2; cases h2
        · rw [hp] at h2; cases h2
    · rename_i hx
      refine ⟨_, ⟨by simp [hc], ?_, ?_⟩, rfl⟩
      · intro c' v' a' l' h1 h2 h3
        rw [hc] at h1; cases h1
        exact (hx _ _ _ h3 h2).elim
      · intro c' h1 h2; rfl

/-- R49, R50: a close, said once. -/
theorem Part.closePassage_spec (p : Part) (k : Track) (r : CloseReason) : p.ClosedAs k r (p.closePassage k r) := by
  unfold Part.ClosedAs Part.closePassage
  split
  · rfl
  · rename_i h
    obtain ⟨f, h1, h2⟩ := Part.finishMatching_spec p k
    refine ⟨f, h1, ?_⟩
    simp only [h2]
    have hn : f.number = (p.passage k).number := by
      cases hc : (p.passage k).matcher.firstComplete with
      | none => rw [h1.unmatched hc]
      | some c =>
        cases hv : p.vehicleType c.index with
        | none => rw [h1.cleared c hc (.inl hv)]
        | some v =>
          cases hp : (p.passage k).matcher.pending with
          | nil => rw [h1.cleared c hc (.inr hp)]
          | cons a l => obtain ⟨o, -, -, -, h⟩ := h1.declared c v a l hc hv hp; rw [h]
    have e : (p.setPassage k f).passage k = f := by simp [Part.setPassage, Part.passage]
    rw [e, hn]
    unfold Part.notice Part.pushControl Part.noticeRecord
    have e2 : (p.setPassage k f).freePlace = p.freePlace := rfl
    rw [e2]
    split <;> simp [Part.setPassage, Part.setTracker, Part.setMgr, Part.now]

/-- R35, R43, R53, R55: what waited for the end of a handling, said once. -/
theorem Part.takeAllDeferred_spec (k : Track) : ∀ (l : List Deferred) (p : Part),
    Part.AllDeferredTaken k (l.foldl (Part.takeDeferred k) p) l p
  | [], _ => rfl
  | d :: l, p => by
    refine ⟨Part.takeDeferred k p d, ?_, Part.takeAllDeferred_spec k l _⟩
    cases d with
    | report occupied =>
      simp only [Part.DeferredTaken, Part.takeDeferred, Part.takeReport]
      split
      · exact Part.closePassage_spec _ _ _
      · rfl
    | toService => exact Part.closePassage_spec _ _ _
    | reset => rfl

end Sys2Proof.Machine
end

