-- ==== Sys2Proof/Laws/PerInstr.lean ====
section
/-! SUPPORT. The per-instruction family: no word of the opcode table spells the command, since the table gives no row any
bits; one lemma per constructor. -/

namespace Sys2Proof.Laws.NoWord

/-- No word of any width spells the command. -/
def Statement (i : Instr) : Prop := ∀ nbits w : Nat, decodeTableWord nbits w ≠ some i

/-- A command that a word spells would be read from it. -/
theorem of_none {i : Instr} : Statement i := fun _ _ h => nomatch h

theorem powerOnReset : Statement .powerOnReset := of_none
theorem frameAccept (frame : List Byte) : Statement (.frameAccept frame) := of_none
theorem unknownCommand : Statement .unknownCommand := of_none
theorem ident : Statement .ident := of_none
theorem status : Statement .status := of_none
theorem timeRead : Statement .timeRead := of_none
theorem modeSet (order : List ModeBlock) : Statement (.modeSet order) := of_none
theorem resetPart : Statement .resetPart := of_none
theorem trackWrite : Statement .trackWrite := of_none
theorem trackRead : Statement .trackRead := of_none
theorem trimSet : Statement .trimSet := of_none
theorem trimStep : Statement .trimStep := of_none
theorem lampSet : Statement .lampSet := of_none
theorem typeWrite : Statement .typeWrite := of_none
theorem typeClear : Statement .typeClear := of_none
theorem typeRead : Statement .typeRead := of_none
theorem headClear : Statement .headClear := of_none
theorem scheduleRead : Statement .scheduleRead := of_none
theorem passageRead : Statement .passageRead := of_none
theorem slotRead : Statement .slotRead := of_none
theorem fetch : Statement .fetch := of_none
theorem fetchCancel : Statement .fetchCancel := of_none
theorem slotRelease : Statement .slotRelease := of_none
theorem calStore : Statement .calStore := of_none
theorem calLoad : Statement .calLoad := of_none
theorem calAutoload : Statement .calAutoload := of_none
theorem pageWriteEnd (verified : Bool) : Statement (.pageWriteEnd verified) := of_none
theorem takeForSending : Statement .takeForSending := of_none
theorem ethernetLinkLost : Statement .ethernetLinkLost := of_none
theorem ethernetLinkFound : Statement .ethernetLinkFound := of_none
theorem headInputActive (k : Track) (pair : PairId) (head : HeadId) : Statement (.headInputActive k pair head) := of_none
theorem headInputInactive (k : Track) (pair : PairId) (head : HeadId) : Statement (.headInputInactive k pair head) := of_none
theorem candidateFirstSample (k : Track) (pair : PairId) (head : HeadId) : Statement (.candidateFirstSample k pair head) := of_none
theorem candidateSecondSample (k : Track) (pair : PairId) (head : HeadId) : Statement (.candidateSecondSample k pair head) := of_none
theorem headStuckLimit (k : Track) (pair : PairId) (head : HeadId) : Statement (.headStuckLimit k pair head) := of_none
theorem pairCeilingExpiry (k : Track) (pair : PairId) : Statement (.pairCeilingExpiry k pair) := of_none
theorem occupancyInputChange (k : Track) : Statement (.occupancyInputChange k) := of_none
theorem occupancySettleExpiry (k : Track) : Statement (.occupancySettleExpiry k) := of_none
theorem eventTake (k : Track) : Statement (.eventTake k) := of_none
theorem eventHandlingEnd (k : Track) (couplingFirst : Bool) : Statement (.eventHandlingEnd k couplingFirst) := of_none
theorem silenceTimerExpiry (k : Track) : Statement (.silenceTimerExpiry k) := of_none
theorem couplingTimerExpiry (k : Track) : Statement (.couplingTimerExpiry k) := of_none
theorem windowOpen (tag : Tag) : Statement (.windowOpen tag) := of_none
theorem trigger (k : Track) : Statement (.trigger k) := of_none
theorem windowEnd (tag : Tag) : Statement (.windowEnd tag) := of_none
theorem drainDeadline (tag : Tag) : Statement (.drainDeadline tag) := of_none
theorem lampRequestTime (tag : Tag) : Statement (.lampRequestTime tag) := of_none
theorem recoveryEnd : Statement .recoveryEnd := of_none
theorem cameraSyncLost (k : Track) : Statement (.cameraSyncLost k) := of_none
theorem cameraSyncFound (k : Track) : Statement (.cameraSyncFound k) := of_none
theorem linePacket (k : Track) (packet : LinePacket) : Statement (.linePacket k packet) := of_none
theorem storeTurnWrite (k : Track) : Statement (.storeTurnWrite k) := of_none
theorem storeTurnRead : Statement .storeTurnRead := of_none
theorem frameSendingEnd : Statement .frameSendingEnd := of_none
theorem triggerPulseEnd (k : Track) : Statement (.triggerPulseEnd k) := of_none

end Sys2Proof.Laws.NoWord
end

