-- ==== Sys2Proof/Tests/Slice0.lean ====
section
/-! SUPPORT. The model's own tests: ill-formed operands that WellFormed refuses, the worked examples of the spec, and for
every statement with hypotheses a concrete state and operands that meet them together. -/

namespace Sys2Proof.Tests

open Sys2Proof.Machine

set_option Elab.async false

/-! ### WellFormed refuses an ill-formed term at each check -/

theorem test_tag_zero_is_ill_formed : Instr.wellFormed (.windowOpen 0) = false := by decide
theorem test_tag_zero_names_no_end : Instr.wellFormed (.windowEnd 0) = false := by decide
theorem test_tag_zero_names_no_drain : Instr.wellFormed (.drainDeadline 0) = false := by decide
theorem test_tag_zero_names_no_lamp : Instr.wellFormed (.lampRequestTime 0) = false := by decide
theorem test_short_frame_is_ill_formed : Instr.wellFormed (.frameAccept (List.replicate 13 0)) = false := by decide
theorem test_block_named_twice_is_ill_formed :
    Instr.wellFormed (.modeSet [.arbiter, .sensors, .arbiter]) = false := by decide
theorem test_no_word_spells_a_command : decodeTableWord 16 0x4303 = none := by decide

/-! ### Small states -/

/-- A track record in its ranges, with the settings of the worked cases of 05 §5.10. -/
def record : TrackRecord :=
  { enabled := true, spacing1 := 1500, spacing2 := 1500, approach1 := 42000, approach2 := 42000,
    outer1 := .high, inner1 := .high, outer2 := .low, inner2 := .high, qualifyUs := 40, stuckMs := 100,
    occUse := true, occPolarity := .high, silenceS := 10, pitchUm := 500, windowHalfMm := 800,
    defaultPace := 3072, slots := 20, trim := 3, lampPriority := 3, lampMask := false, recoveryCode := 2,
    daylightUse := false }

/-- The part after a power-on reset with records for tracks 1 and 2, at gantry time 1,000,000. -/
def part : Part :=
  { Part.reset with
    tb := { time := 1000000, sub := 0 }
    records := { one := record, two := { record with slots := 4 }, three := .unset, four := .unset }
    mgr := .reset 0x020000000001 true }

/-- The same part in ON_LINE. -/
def online : Part := part.setMgr { part.mgr with mode := .onLine, recorder := some 0x020000000002 }

/-- A command record of the recorder. -/
def cmd (code : Byte) (args : List Byte) : CommandRecord :=
  { source := 0x020000000002, code := code, token := 7, args := args, framed := true }

/-- A part with one command record in its intake. -/
def asked (p : Part) (code : Byte) (args : List Byte) : Part :=
  p.setMgr { p.mgr with intake := [cmd code args] }

/-- A machine with a part and no command that waits. -/
def run (p : Part) : State := { part := p, pending := [] }

/-- The part after a command. -/
def after (i : Instr) (p : Part) : Part :=
  match exec i (run p) with
  | .next t => t.part
  | _ => p

theorem asked_takes {p : Part} {code : Byte} {args : List Byte} {c : Command}
    (h : (p.freePlace && decide ((cmd code args).command = some c)) = true) :
    (asked p code args).Takes c (cmd code args) [] := by
  simp only [Bool.and_eq_true, decide_eq_true_eq] at h
  exact ⟨rfl, h.1, h.2⟩

theorem asked_runs {p : Part} {code : Byte} {args : List Byte} {c : Command}
    (h : (p.freePlace && decide ((cmd code args).command = some c) && c.takenIn p.mode &&
      !(p.cal.write.isSome && (cmd code args).keptByWrite c)) = true) :
    (asked p code args).Runs c (cmd code args) [] := by
  simp only [Bool.and_eq_true, decide_eq_true_eq, Bool.not_eq_true'] at h
  exact ⟨⟨rfl, h.1.1.1, h.1.1.2⟩, h.1.2, h.2⟩

/-- Every slot of a store that holds 64 FREE slots is FREE. -/
theorem slots_free {p : Part} (h : p.fsc.slots = Vector.replicate 64 .empty) (n : Nat) (x : Slot)
    (g : p.slot n = some x) : x.state = .free := by
  unfold Part.slot at g
  rw [h, Vector.getElem?_replicate] at g
  split at g
  · cases g; rfl
  · cases g

/-- A job of track 1. -/
def job : Job :=
  { Job.ofSighting .t1 5 { vehicle := 1, index := 0, pantograph := 0, mark := .forward, reference := 400000,
                           distance := 48200 } with
    tag := 50, pace := 3072, centre := 1009600, start := 1000000, stop := 1019200, lampRequest := 999800,
    linePeriod := 600, lineCount := 3200 }

/-- The part in ON_LINE with one job. -/
def withJob (j : Job) : Part := { online with csc := { jobs := [j], tagCounter := 50, nextEntry := 1 } }

/-- A slot that fills for the job. -/
def filling (lines : List Line) : Slot := { state := .filling, tag := 50, lines := lines, header := none }

/-- The part with the job OPEN on slot 0, its port as given. -/
def capturing (j : Job) (c : Port) (lines : List Line) : Part :=
  ((withJob { j with state := .opened, slot := some 0 }).setPort .t1
    { c with up := true, job := some { tag := 50, slot := 0 } }).setSlot 0 (filling lines)

/-- A line of 2,048 pixels of 1, and its packet with the check value of 11 §11.7. -/
def line (n : Word16) : Line := { sequence := n, badCheck := false, gap := false, pixels := List.replicate 2048 1 }

def packet (n : Word16) : LinePacket :=
  { sequence := n, pixelCount := 2048, pixels := List.replicate 2048 1,
    check := lineCheck n 2048 (List.replicate 2048 1) }

/-- An axle event of pair 1 of 18,000 µs. -/
def event (d : AxleDirection) : AxleEvent :=
  { pair := .pair1, time := 990000, position := .inner, direction := d, transit := some 18000, singleHead := false }

/-- The part in ON_LINE with events at track 1. -/
def withEvents (l : List AxleEvent) (loss : Bool) : Part :=
  online.setFront .t1 { online.front.get .t1 with queue := l, loss := loss }

/-- An open passage of track 1 that entered at pair 1. -/
def passage : Passage :=
  { Passage.vacant 5 with
    state := .running, entryPair := some .pair1, openTime := 900000, entries := 1, inside := 1,
    pace := some 3072, silence := some 1000000 }

def opened (p : Part) (r : Passage) : Part := p.setPassage .t1 r

/-- 04 §4.9: the types SHORT and LONG. -/
def short : VehicleType :=
  { name := List.replicate 8 0x20, gaps := [2500], span := 2500, tolerance := 50, couplingGap := 3000,
    pantographs := [1250] }

def long : VehicleType :=
  { name := List.replicate 8 0x20, gaps := [2500, 9000, 2500], span := 14000, tolerance := 50, couplingGap := 3000,
    pantographs := [11000] }

def typed (p : Part) : Part :=
  { p with types := (p.types.setIfInBounds 0 (some short)).setIfInBounds 1 (some long) }

/-! ### Worked examples of the spec -/

/-- 05 §5.2 and §5.10: 18,000 µs over 1,500 mm; case C at the ceiling. -/
theorem test_axle_pace : axlePace 18000 1500 = { pace := 3072, fast := false, slow := false } ∧
    axlePace 1080000 1500 = { pace := 184320, fast := false, slow := true } ∧
    axlePace 0 1500 = { pace := 2304, fast := true, slow := false } ∧
    (axlePace 14690 1200).pace = 3134 := by decide

/-- 03 §3.10 and R47: the filter steps, and a difference of −22 that moves P by −5. -/
theorem test_filter : filterPace (some 3072) 3123 = 3084 ∧ filterPace (some 3156) 3134 = 3151 ∧
    filterPace (some 3000) 3003 = 3000 ∧ filterPace (some 3000) 2995 = 2999 := by decide

/-- The sighting of cases A to D of 05 §5.10. -/
def caseSighting : Sighting :=
  { vehicle := 1, index := 0, pantograph := 0, mark := .forward, reference := 5000000, distance := 48200 }

/-- 05 §5.10, case A. -/
theorem test_case_A : computeTiming record 3072 [caseSighting] =
    { centre := 5578406, start := 5568806, stop := 5588006, lampRequest := 5568606,
      period := { count := 600, stretched := false, compressed := false }, lineCount := 3200,
      narrowed := false } := by decide

/-- 05 §5.10, case C. -/
theorem test_case_C : computeTiming { record with pitchUm := 2000, trim := 0 } 184320 [caseSighting] =
    { centre := 39704000, start := 39128000, stop := 40280000, lampRequest := 39127800,
      period := { count := 65536, stretched := true, compressed := false }, lineCount := 1758,
      narrowed := false } := by decide

/-- 05 §5.10, case D. -/
theorem test_case_D : computeTiming { record with pitchUm := 100, windowHalfMm := 3000, trim := 0 } 3072 [caseSighting] =
    { centre := 5578400, start := 5568160, stop := 5588640, lampRequest := 5567960,
      period := { count := 500, stretched := false, compressed := true }, lineCount := 4096,
      narrowed := true } := by decide

/-- 05 §5.10, case E after the re-timing. -/
theorem test_case_E : computeTiming { record with trim := 0 } 3084
      [{ caseSighting with reference := 50288000, distance := 64200 }] =
    { centre := 51061409, start := 51051771, stop := 51071047, lampRequest := 51051571,
      period := { count := 602, stretched := false, compressed := false }, lineCount := 3202,
      narrowed := false } := by decide

/-- 06 §6.12: Y is clipped behind X; its line count and lamp request time are formed again. -/
theorem test_clip :
    separate 2 [{ job with start := 39990400, stop := 40009600 }] { job with start := 40002400, stop := 40021600 } =
    .kept { job with start := 40009601, stop := 40021600, lineCount := 2000, lampRequest := 40009401,
                     flags := { job.flags with clipped := true } } := by decide

/-- 06 §6.12: Z, separated from both, is empty at 40,021,601; the line count is that of its first clip,
ceil(5,999 × 100 / 600) = 1,000 (R89). -/
theorem test_drop :
    separate 3 [{ job with start := 39990400, stop := 40009600 }, { job with start := 40009601, stop := 40021600 }]
      { job with start := 39996400, stop := 40015600 } =
    .empty { job with start := 40021601, stop := 40015600, lineCount := 1000, lampRequest := 40021401,
                      flags := { job.flags with clipped := true } } := by decide

/-- 04 §4.9, axle 2: all four candidates survive a gap of 2,500 mm, and C is 9,050 mm. -/
theorem test_candidates : let l : List PendingAxle :=
      [{ ordinal := 1, position := .inner, time := 70000000, gap := none },
       { ordinal := 2, position := .inner, time := 70030000, gap := some 2500 }]
    (typed part).candidateSet l =
      [{ index := 0, facing := .forward, complete := true }, { index := 0, facing := .reversed, complete := true },
       { index := 1, facing := .forward, complete := false }, { index := 1, facing := .reversed, complete := false }] ∧
    (typed part).couplingDistance ((typed part).candidateSet l) 2 = 9050 := by decide

/-- 04 §4.9: SHORT gives one sighting, LONG two, with the distances of the example. -/
theorem test_sightings :
    (sightingsOf short 0 .unknown 1 70000000 50000).map (fun x => (x.mark, x.distance)) = [(.unknownA, 51250)] ∧
    (sightingsOf long 1 .unknown 2 70099600 50000).map (fun x => (x.mark, x.distance)) =
      [(.unknownA, 61000), (.unknownB, 53000)] := by decide

/-- 04 §4.5: a timer of C = 3,000 mm at 3,123 and at 3,142. -/
theorem test_coupling_length : travelTime 3000 3123 = 36598 ∧ travelTime 3000 3142 = 36820 := by decide

/-- 02: the sum of step 5 is 68, and the region of track 4 after step 6 is slots 60 to 63. -/
theorem test_regions : let q : Quad TrackRecord :=
      { one := record, two := record, three := record, four := { record with slots := 4 } }
    slotSum (q.set .t4 { record with slots := 8 }) = 68 ∧ regionOf q .t4 = some { first := 60, last := 63 } ∧
    regionOf q .t1 = some { first := 0, last := 19 } ∧ firstBadField (encTrackRecord { record with qualifyUs := 10 }) =
      some 10 := by decide

/-- 01: a bogie at 300 km/h: the inner pulse forms an INWARD event of 18,000 µs. -/
theorem test_bogie : (((FrontEnd.reset.pulse .onLine record .pair1 .outer 1000000).pulse .onLine record .pair1 .inner
      1018000).queue) =
    [{ pair := .pair1, time := 1018000, position := .inner, direction := .inward, transit := some 18000,
       singleHead := false }] := by decide

/-- 01: the second wheel of a short wheelbase pushes the first out as a single-head event. -/
theorem test_short_wheelbase :
    (((FrontEnd.reset.pulse .onLine record .pair2 .outer 0).pulse .onLine record .pair2 .outer 24000).pulse .onLine
      record .pair2 .inner 36000).queue.map (fun e => (e.direction, e.time, e.transit)) =
    [(.unknown, 0, none), (.inward, 36000, some 12000)] := by decide

/-- 08, the overrun burst: line 1,108 at a full FIFO, then 1,109 behind it. -/
theorem test_overrun_burst :
    let p := after (.linePacket .t1 (packet 1108)) (capturing { job with triggered := 112, received := 100 }
      { Port.reset with activity := .triggering, expected := some 1108, fifo := List.replicate 8 (line 1100) } [])
    let c := p.ports.get .t1
    c.overrun = true ∧ c.expected = some 1108 ∧ c.discarded = 1 ∧ p.csc.jobs.map (fun j => (j.lost, j.flags.overrun)) =
      [(0, true)] := by decide +kernel

/-- 08 §8.4: the check value of a packet of zeros but for its sequence number and its count. -/
theorem test_line_check : lineCheck 5 2 [3, 4] = 5 + 2 + 3 + 2 * 4 := by decide

/-- 07: the recovery times of the codes 4 and 7. -/
theorem test_recovery_times : recoveryMs 4 = 5 ∧ recoveryMs 7 = 15 := by decide

/-! ### Witnesses: the machine, its invariants, its arithmetic -/

/-- A part with a running generator and a frame on the wire, at the last clock count of a microsecond. -/
def ticking : Part :=
  { (part.setPort .t1 { Port.reset with generator := some { load := 599, count := 7 } }).setMgr
      { part.mgr with wire := some { frame := .control ((cmd 1 []).answer .ok 0 .empty), left := 5 } } with
    tb := { time := 1000000, sub := 99 } }

theorem witness_IdleStepCountsTheLineClock :
    (run ticking).pending = [] ∧ ticking.dueSteps = [] ∧
    (ticking.ports.get .t1).generator = some { load := 599, count := 7 } ∧ ticking.mgr.wire.isSome = true ∧
    part.dueSteps = [] ∧ part.tb.sub ≠ 99 := by decide

theorem witness_TablesChangeOnlyByTheirCommands :
    exec .trackWrite (run (asked part 0x10 (1#8 :: encTrackRecord { record with slots := 8 }))) =
      .next (run (after .trackWrite (asked part 0x10 (1#8 :: encTrackRecord { record with slots := 8 })))) := rfl

theorem test_track_write_changes_the_record :
    ((after .trackWrite (asked part 0x10 (1#8 :: encTrackRecord { record with slots := 8 }))).record .t1).slots = 8 := by
  decide

theorem witness_ModeAndAddressesKept :
    exec (.modeSet []) (run (asked part 0x04 [1#8])) = .next (run (after (.modeSet []) (asked part 0x04 [1#8]))) := rfl

theorem test_mode_set_on_line : (after (.modeSet []) (asked part 0x04 [1#8])).mode = .onLine := by decide

theorem witness_RecordsInRangeKept :
    part.RecordsInRange ∧ step { part := part, pending := [.ident] } = .next (run (after .ident part)) :=
  ⟨by unfold Part.RecordsInRange; decide, rfl⟩

theorem part_within_places : part.WithinPlaces :=
  ⟨by decide, by decide, by decide, by decide, by decide, by intro k; cases k <;> decide, by intro k; cases k <;> decide⟩

theorem witness_PlacesKept :
    part.WithinPlaces ∧ step { part := part, pending := [.ident] } = .next (run (after .ident part)) :=
  ⟨part_within_places, rfl⟩

theorem witness_QuietInServiceKept :
    part.QuietInService ∧ part.mode = .service ∧
    step { part := part, pending := [.ident] } = .next (run (after .ident part)) :=
  ⟨by intro _ k; cases k <;> exact ⟨rfl, rfl⟩, by decide, rfl⟩

/-- A lamp entry of the job. -/
def lampEntry : LampEntry :=
  { tag := 50, track := .t1, start := 1000200, stop := 1019400, request := 1000000, phase := .awaiting }

def lamped (p : Part) (e : LampEntry) : Part := p.setLar { p.lar with entries := [e] }

theorem witness_GrantsOnlyOnLine :
    step { part := lamped (withJob job) lampEntry, pending := [.lampRequestTime 50] } =
      .next (run (after (.lampRequestTime 50) (lamped (withJob job) lampEntry))) ∧
    (after (.lampRequestTime 50) (lamped (withJob job) lampEntry)).lar.bank.serving = true ∧
    (after (.lampRequestTime 50) (lamped (withJob job) lampEntry)).lar.bank ≠ (lamped (withJob job) lampEntry).lar.bank :=
  ⟨rfl, by decide, by decide⟩

/-- A passage of two pending axles that make SHORT complete, its coupling timer at its deadline. -/
def coupled : Passage :=
  { passage with
    silence := some 9000000
    matcher := { Matcher.empty with
      pending := [{ ordinal := 1, position := .inner, time := 900000, gap := none },
                  { ordinal := 2, position := .inner, time := 930000, gap := some 2500 }]
      candidates := [{ index := 0, facing := .forward, complete := true },
                     { index := 0, facing := .reversed, complete := true }]
      coupling := some { distance := 3000, deadline := 1000000 } } }

def coupling : Part := opened (typed online) coupled

theorem witness_JobsMadeOnlyOnLine :
    step { part := coupling, pending := [.couplingTimerExpiry .t1] } =
      .next (run (after (.couplingTimerExpiry .t1) coupling)) ∧
    (after (.couplingTimerExpiry .t1) coupling).csc.jobs.length = 1 ∧ coupling.csc.jobs = [] :=
  ⟨rfl, by decide, by decide⟩

theorem witness_AxleAndFilteredPace : let a := roundDiv (18000 * 256) 1500
    0 < 1500 ∧ 2304 < a ∧ a < 184320 ∧ (axlePace 0 1500).fast = true ∧ (axlePace 1080000 1500).slow = true ∧
    1080000 ≤ 1500 * 720 ∧ 3072 ≤ 3123 ∧ filterPace (some 3000) 3003 = 3000 := by decide

theorem witness_SingleSightingWindow :
    record.windowHalfMm ≤ 3000 ∧ 3072 ≤ 184320 ∧ (computeTiming record 3072 [caseSighting]).narrowed = false := by
  decide

theorem witness_LineCountAtMost4096 :
    (computeTiming { record with pitchUm := 100, windowHalfMm := 3000 } 3072 [caseSighting]).narrowed = true := by
  decide

theorem witness_LinePeriodAndLoad :
    500 ≤ roundDiv (500 * 2560) 2560 ∧ roundDiv (500 * 2560) 2560 ≤ 65536 ∧ (periodFor 100 3072).compressed = true ∧
    (periodFor 2000 184320).stretched = true := by decide

theorem witness_TrackRecordRoundTrip :
    record.inRange = true ∧ TrackRecord.unset.inRange = true ∧ { record with trim := -64, slots := 64 }.inRange = true := by
  decide

/-! ### Witnesses: resets and modes -/

/-- A part whose calibration page is valid. -/
def paged (p : Part) (flag : Bool) : Part :=
  { p with cal := { p.cal with page := { records := p.records, flag := flag, agrees := true } } }

theorem witness_PowerOnResetAutoLoads :
    part.cal.page.valid = false ∧ (paged part false).cal.page.valid = true ∧ (paged part false).cal.page.flag = false ∧
    (paged part true).cal.page.valid = true ∧ (paged part true).cal.page.flag = true ∧
    (∃ n < 64, (part.slot n).isSome = true) := by
  refine ⟨by decide, by decide, by decide, by decide, by decide, 63, ?_⟩
  decide

theorem witness_ResetPartState :
    (asked part 0x05 []).Runs .resetPart (cmd 0x05 []) [] ∧ ((asked part 0x05 []).trackers.get .t1).handling = none ∧
    (asked part 0x05 []).slot 63 = some .empty :=
  ⟨asked_runs (by decide), by decide, by decide⟩

/-- The part with no track enabled. -/
def blank : Part := { part with records := .all .unset }

theorem witness_ModeSetAnswers :
    (asked part 0x04 [0#8]).Runs .modeSet (cmd 0x04 [0#8]) [] ∧ (asked part 0x04 [3#8]).Runs .modeSet (cmd 0x04 [3#8]) [] ∧
    (asked blank 0x04 [1#8]).Runs .modeSet (cmd 0x04 [1#8]) [] ∧ (asked part 0x04 [2#8]).Runs .modeSet (cmd 0x04 [2#8]) [] ∧
    (Mode.ofCode ((cmd 0x04 [0#8]).byteAt 0) = some part.mode ∧ Mode.ofCode ((cmd 0x04 [3#8]).byteAt 0) = none ∧
      Mode.ofCode ((cmd 0x04 [1#8]).byteAt 0) = some .onLine ∧ Mode.ofCode ((cmd 0x04 [2#8]).byteAt 0) = some .standby ∧
      Mode.onLine ≠ blank.mode ∧ part.mode = .service ∧ (part.record .t1).enabled = true) ∧
    ∀ k : Track, (blank.record k).enabled = false :=
  ⟨asked_runs (by decide), asked_runs (by decide), asked_runs (by decide),
   asked_runs (by decide), by decide, by intro k; cases k <;> decide⟩

theorem witness_ModeSetToServiceEndsOperation :
    (asked online 0x04 [0#8]).Runs .modeSet (cmd 0x04 [0#8]) [] ∧ (asked online 0x04 [0#8]).mode = .onLine ∧
    Mode.ofCode ((cmd 0x04 [0#8]).byteAt 0) = some .service ∧ (online.trackers.get .t1).handling = none :=
  ⟨asked_runs (by decide), by decide, by decide, by decide⟩

/-- A part with a page write in progress. -/
def writing : Part :=
  { part with
    cal := { part.cal with
      write := some { records := part.records, flag := true, started := 990000, source := 2, code := 0x50, token := 6 } } }

theorem witness_ResponderChecks :
    ((asked part 0x7F []).mgr.intake = [cmd 0x7F []] ∧ (cmd 0x7F []).command = none ∧ part.freePlace = true) ∧
    (asked online 0x10 (1#8 :: encTrackRecord record)).Takes .trackWrite (cmd 0x10 (1#8 :: encTrackRecord record)) [] ∧
    (asked online 0x20 (List.replicate 33 0)).Takes .typeWrite (cmd 0x20 (List.replicate 33 0)) [] ∧
    (asked online 0x21 [0]).Takes .typeClear (cmd 0x21 [0]) [] ∧ (asked online 0x50 [0]).Takes .calStore (cmd 0x50 [0]) [] ∧
    (asked online 0x51 []).Takes .calLoad (cmd 0x51 []) [] ∧
    (asked online 0x52 [0]).Takes .calAutoload (cmd 0x52 [0]) [] ∧
    (asked online 0x14 [1, 0, 0, 0, 0]).Takes .lampSet (cmd 0x14 [1, 0, 0, 0, 0]) [] ∧
    (asked writing 0x50 [0]).Takes .calStore (cmd 0x50 [0]) [] ∧ (asked writing 0x51 []).Takes .calLoad (cmd 0x51 []) [] ∧
    (asked writing 0x52 [0]).Takes .calAutoload (cmd 0x52 [0]) [] ∧
    (asked writing 0x05 []).Takes .resetPart (cmd 0x05 []) [] ∧ (asked writing 0x04 [1]).Takes .modeSet (cmd 0x04 [1]) [] ∧
    (writing.cal.write.isSome = true ∧ writing.mode = .service ∧ online.mode = .onLine ∧
      Mode.ofCode ((cmd 0x04 [1]).byteAt 0) = some .onLine) :=
  ⟨by decide, asked_takes (by decide), asked_takes (by decide), asked_takes (by decide),
   asked_takes (by decide), asked_takes (by decide), asked_takes (by decide),
   asked_takes (by decide), asked_takes (by decide), asked_takes (by decide),
   asked_takes (by decide), asked_takes (by decide), asked_takes (by decide), by decide⟩

/-! ### Witnesses: the commands of the catalogue -/

theorem witness_ReadingCommandsReply :
    (asked online 0x01 []).Takes .ident (cmd 0x01 []) [] ∧ (asked online 0x02 []).Takes .status (cmd 0x02 []) [] ∧
    (asked online 0x03 []).Takes .timeRead (cmd 0x03 []) [] ∧
    (asked online 0x31 []).Takes .scheduleRead (cmd 0x31 []) [] ∧
    (asked online 0x33 []).Takes .slotRead (cmd 0x33 []) [] ∧
    (asked online 0x11 [4]).Takes .trackRead (cmd 0x11 [4]) [] ∧ (asked online 0x11 [5]).Takes .trackRead (cmd 0x11 [5]) [] ∧
    (asked online 0x32 [1]).Takes .passageRead (cmd 0x32 [1]) [] ∧
    (asked online 0x32 [0]).Takes .passageRead (cmd 0x32 [0]) [] ∧
    (cmd 0x11 [4]).byteAt 0 = Track.t4.number ∧ 4 < (cmd 0x11 [5]).byteAt 0 ∧ (cmd 0x32 [1]).byteAt 0 = Track.t1.number ∧
    (cmd 0x32 [0]).byteAt 0 = 0 :=
  ⟨asked_takes (by decide), asked_takes (by decide), asked_takes (by decide),
   asked_takes (by decide), asked_takes (by decide), asked_takes (by decide),
   asked_takes (by decide), asked_takes (by decide), asked_takes (by decide), by decide,
   by decide, by decide, by decide⟩

theorem witness_TypeReadReplies :
    (asked part 0x22 [63]).Takes .typeRead (cmd 0x22 [63]) [] ∧ (cmd 0x22 [63]).byteAt 0 ≤ 63 ∧
    (asked part 0x22 [64]).Takes .typeRead (cmd 0x22 [64]) [] ∧ 63 < (cmd 0x22 [64]).byteAt 0 :=
  ⟨asked_takes (by decide), by decide, asked_takes (by decide), by decide⟩

/-- A TRACK_WRITE of a record to a track number. -/
def trackWrite (n : Byte) (r : TrackRecord) : List Byte := n :: encTrackRecord r

/-- A part with the slot of the job filling. -/
def used (p : Part) : Part := p.setSlot 0 (filling [])

theorem witness_TrackWriteChecksInOrder :
    (asked part 0x10 (trackWrite 0 record)).Runs .trackWrite (cmd 0x10 (trackWrite 0 record)) [] ∧
    (asked part 0x10 (trackWrite 1 { record with qualifyUs := 10 })).Runs .trackWrite
      (cmd 0x10 (trackWrite 1 { record with qualifyUs := 10 })) [] ∧
    (asked part 0x10 (trackWrite 4 { record with slots := 41 })).Runs .trackWrite
      (cmd 0x10 (trackWrite 4 { record with slots := 41 })) [] ∧
    (asked (used part) 0x10 (trackWrite 4 { record with slots := 40 })).Runs .trackWrite
      (cmd 0x10 (trackWrite 4 { record with slots := 40 })) [] ∧
    ((cmd 0x10 (trackWrite 0 record)).byteAt 0 = 0 ∧
      firstBadField (encTrackRecord { record with qualifyUs := 10 }) = some 10 ∧
      firstBadField (encTrackRecord { record with slots := 41 }) = none ∧
      64 < slotSum (part.records.set .t4 { record with slots := 41 }) ∧
      firstBadField (encTrackRecord { record with slots := 40 }) = none ∧
      slotSum (part.records.set .t4 { record with slots := 40 }) ≤ 64 ∧ (part.record .t4).slots ≠ 40) ∧
    ∃ (n : Nat) (x : Slot), (used part).slot n = some x ∧ x.state ≠ .free :=
  ⟨asked_runs (by decide), asked_runs (by decide), asked_runs (by decide),
   asked_runs (by decide), by decide, 0, filling [], by decide, by decide⟩

theorem witness_TrackWriteReplacesRecord :
    (asked part 0x10 (trackWrite 4 { record with slots := 40 })).Runs .trackWrite
      (cmd 0x10 (trackWrite 4 { record with slots := 40 })) [] ∧
    ((cmd 0x10 (trackWrite 4 { record with slots := 40 })).byteAt 0 = Track.t4.number ∧
      firstBadField (encTrackRecord { record with slots := 40 }) = none ∧
      slotSum (part.records.set .t4 (trackRecordOf (encTrackRecord { record with slots := 40 }))) ≤ 64) ∧
    (∀ (n : Nat) (x : Slot), part.slot n = some x → x.state = .free) ∧ Track.t1 ≠ Track.t4 :=
  ⟨asked_runs (by decide), by decide, slots_free (by decide), by decide⟩

theorem witness_TrimCommandsSetTrim :
    (asked part 0x12 [1, 63]).Takes .trimSet (cmd 0x12 [1, 63]) [] ∧
    (asked part 0x12 [1, 64]).Takes .trimSet (cmd 0x12 [1, 64]) [] ∧
    (asked part 0x13 [1, 1]).Takes .trimStep (cmd 0x13 [1, 1]) [] ∧
    (asked part 0x13 [1, 255]).Takes .trimStep (cmd 0x13 [1, 255]) [] ∧
    (asked part 0x13 [1, 2]).Takes .trimStep (cmd 0x13 [1, 2]) [] ∧
    (cmd 0x12 [1, 63]).byteAt 0 = Track.t1.number ∧ signedByte ((cmd 0x12 [1, 63]).byteAt 1) = 63 ∧
    63 < signedByte ((cmd 0x12 [1, 64]).byteAt 1) ∧ signedByte ((cmd 0x13 [1, 1]).byteAt 1) = 1 ∧
    signedByte ((cmd 0x13 [1, 255]).byteAt 1) = -1 ∧ signedByte ((cmd 0x13 [1, 2]).byteAt 1) = 2 ∧ part.mode ≠ .onLine :=
  ⟨asked_takes (by decide), asked_takes (by decide), asked_takes (by decide),
   asked_takes (by decide), asked_takes (by decide), by decide, by decide, by decide, by decide,
   by decide, by decide, by decide⟩

theorem witness_LampSetReplacesLampFields :
    (asked part 0x14 [5, 0, 0, 0, 0]).Runs .lampSet (cmd 0x14 [5, 0, 0, 0, 0]) [] ∧
    (asked part 0x14 [1, 8, 0, 0, 0]).Runs .lampSet (cmd 0x14 [1, 8, 0, 0, 0]) [] ∧
    (asked part 0x14 [1, 7, 2, 0, 0]).Runs .lampSet (cmd 0x14 [1, 7, 2, 0, 0]) [] ∧
    (asked part 0x14 [1, 7, 1, 8, 0]).Runs .lampSet (cmd 0x14 [1, 7, 1, 8, 0]) [] ∧
    (asked part 0x14 [1, 7, 1, 7, 2]).Runs .lampSet (cmd 0x14 [1, 7, 1, 7, 2]) [] ∧
    (asked part 0x14 [1, 7, 1, 7, 1]).Runs .lampSet (cmd 0x14 [1, 7, 1, 7, 1]) [] ∧
    (cmd 0x14 [1, 7, 1, 7, 1]).byteAt 0 = Track.t1.number ∧ (cmd 0x14 [1, 7, 1, 7, 1]).byteAt 4 = 1 :=
  ⟨asked_runs (by decide), asked_runs (by decide), asked_runs (by decide),
   asked_runs (by decide), asked_runs (by decide), asked_runs (by decide), by decide, by decide⟩

/-- The arguments of TYPE_WRITE of step 2 of the example of 02, and of step 1. -/
def typeArgs (tolerance : Nat) : List Byte :=
  [5#8] ++ List.replicate 8 0x41#8 ++ [4#8] ++ [2500, 15000, 2500, 0, 0, 0, 0].flatMap (be 2) ++ be 2 tolerance ++
    be 2 3000 ++ [1#8] ++ be 2 3200 ++ be 2 0

/-- 02: step 1 fails check 6, and step 2 leaves a span of 20,000 mm. -/
theorem test_type_write :
    (typeArgsOf (typeArgs 1300)).firstBad = some 6 ∧
    ((after .typeWrite (asked part 0x20 (typeArgs 150))).vehicleType 5).map VehicleType.span = some 20000 := by
  decide

theorem witness_TypeTableCommands :
    (asked part 0x20 (typeArgs 1300)).Runs .typeWrite (cmd 0x20 (typeArgs 1300)) [] ∧
    (asked part 0x20 (typeArgs 150)).Runs .typeWrite (cmd 0x20 (typeArgs 150)) [] ∧
    (asked part 0x21 [63]).Runs .typeClear (cmd 0x21 [63]) [] ∧ (asked part 0x21 [255]).Runs .typeClear (cmd 0x21 [255]) [] ∧
    (asked part 0x21 [64]).Runs .typeClear (cmd 0x21 [64]) [] ∧
    ((typeArgsOf (typeArgs 1300)).checkOk 6 = false ∧ ∀ m < 6, (typeArgsOf (typeArgs 1300)).checkOk m = true) ∧
    ∀ n < 12, (typeArgsOf (typeArgs 150)).checkOk n = true :=
  ⟨asked_runs (by decide), asked_runs (by decide), asked_runs (by decide),
   asked_runs (by decide), asked_runs (by decide), by decide, by decide⟩

theorem witness_PageWriteStartsAndEnds :
    (asked part 0x50 [1]).Runs .calStore (cmd 0x50 [1]) [] ∧ (asked part 0x50 [2]).Runs .calStore (cmd 0x50 [2]) [] ∧
    (asked (paged part false) 0x52 [1]).Runs .calAutoload (cmd 0x52 [1]) [] ∧
    (asked part 0x52 [0]).Runs .calAutoload (cmd 0x52 [0]) [] ∧ (asked part 0x52 [2]).Runs .calAutoload (cmd 0x52 [2]) [] ∧
    ((paged part false).cal.page.valid = true ∧ part.cal.page.valid = false ∧ writing.cal.write.isSome = true) :=
  ⟨asked_runs (by decide), asked_runs (by decide), asked_runs (by decide),
   asked_runs (by decide), asked_runs (by decide), by decide⟩

theorem witness_CalLoadReplacesRecords :
    (asked part 0x51 []).Runs .calLoad (cmd 0x51 []) [] ∧ part.cal.page.valid = false ∧
    (asked (paged part true) 0x51 []).Runs .calLoad (cmd 0x51 []) [] ∧ (paged part true).cal.page.valid = true ∧
    (∀ (n : Nat) (x : Slot), (paged part true).slot n = some x → x.state = .free) ∧
    (asked { paged (used part) true with records := blank.records } 0x51 []).Runs .calLoad (cmd 0x51 []) [] ∧
    ((paged part true).cal.page.records.get .t1).slots ≠ (blank.record .t1).slots ∧
    ∃ (n : Nat) (x : Slot), (used part).slot n = some x ∧ x.state ≠ .free :=
  ⟨asked_runs (by decide), by decide, asked_runs (by decide), by decide,
   slots_free (by decide), asked_runs (by decide), by decide, 0, filling [], by decide, by decide⟩

/-- A part with the inner head of pair 2 of track 1 in a state and at a level. -/
def headAt (p : Part) (st : HeadState) (high : Bool) : Part :=
  p.setHead .t1 .pair2 .inner { Head.reset high with state := st, qualifyUs := 40, stuckMs := 100 }

theorem witness_HeadClearLeavesFault :
    (asked (headAt part .fault false) 0x30 [1, 2, 1]).Takes .headClear (cmd 0x30 [1, 2, 1]) [] ∧
    (asked (headAt part .fault true) 0x30 [1, 2, 1]).Takes .headClear (cmd 0x30 [1, 2, 1]) [] ∧
    (asked part 0x30 [1, 2, 1]).Takes .headClear (cmd 0x30 [1, 2, 1]) [] ∧
    (asked part 0x30 [1, 2, 2]).Takes .headClear (cmd 0x30 [1, 2, 2]) [] ∧
    ((cmd 0x30 [1, 2, 1]).byteAt 0 = Track.t1.number ∧ PairId.ofNumber ((cmd 0x30 [1, 2, 1]).byteAt 1) = some .pair2 ∧
      HeadId.ofCode ((cmd 0x30 [1, 2, 1]).byteAt 2) = some .inner ∧ 1 < (cmd 0x30 [1, 2, 2]).byteAt 2 ∧
      ((headAt part .fault true).head .t1 .pair2 .inner).state = .fault ∧
      ((part.record .t1).headPolarity .pair2 .inner).names true = true ∧
      (part.head .t1 .pair2 .inner).state ≠ .fault) :=
  ⟨asked_takes (by decide), asked_takes (by decide), asked_takes (by decide),
   asked_takes (by decide), by decide⟩

/-! ### Witnesses: the link and retrieval -/

/-- A frame with a 20-byte header and no body. -/
def frame (dest type code : Nat) : List Byte :=
  be 6 dest ++ be 6 0x020000000002 ++ be 2 type ++ [1#8, BitVec.ofNat 8 code] ++ be 2 7 ++ be 2 0

theorem witness_FrameAcceptFillsIntake :
    part.mgr.link = true ∧ 14 ≤ (frame 0x020000000001 0xB7D2 2).length ∧
    headerField (frame 0x020000000001 0xB7D2 2) 12 2 = 0xB7D2 ∧
    headerField (frame 0x020000000001 0xB7D2 2) 0 6 = part.mgr.linkAddr.toNat ∧ part.mgr.intake.length < 4 ∧
    headerField (frame (2 ^ 48 - 1) 0xB7D2 1) 0 6 = 2 ^ 48 - 1 ∧ frameByte (frame (2 ^ 48 - 1) 0xB7D2 1) 15 = 0x01 ∧
    frameByte (frame (2 ^ 48 - 1) 0xB7D2 2) 15 ≠ 0x01 ∧
    headerField (frame 0x020000000009 0xB7D2 1) 0 6 ≠ part.mgr.linkAddr.toNat ∧
    headerField (frame 0x020000000001 0x0800 1) 12 2 ≠ 0xB7D2 ∧
    4 ≤ (part.setMgr { part.mgr with intake := List.replicate 4 (cmd 1 []) }).mgr.intake.length := by decide

/-- 10 R168: a frame addressed to the part leaves one record in the intake, with its token. -/
theorem test_frame_accept :
    (after (.frameAccept (frame 0x020000000001 0xB7D2 2)) part).mgr.intake.map (fun r => (r.command, r.token)) =
      [(some .status, 7)] := by decide

/-- A record of the control queue. -/
def answer : ControlRecord := (cmd 1 []).answer .ok 0 .empty

/-- An image data frame. -/
def image (last : Bool) : ImageFrame :=
  { dest := 0x020000000002, token := 7, tag := 50, number := 1, last := last, content := .lines [] }

/-- A part with the queues of the responder as given. -/
def queues (p : Part) (control waiting : List ControlRecord) (images : List ImageFrame) : Part :=
  p.setMgr { p.mgr with control := control, waiting := waiting, images := images }

theorem witness_SendingTakesControlFirst :
    (queues part [answer] [] [image true]).mgr.link = true ∧ (queues part [answer] [] [image true]).mgr.wire = none ∧
    (queues part [] [] [image false]).mgr.images = [image false] ∧ (image false).last = false ∧ part.fsc.engine = none ∧
    ticking.mgr.wire.isSome = true ∧
    (queues part (List.replicate 16 answer) [answer] []).mgr.control = answer :: List.replicate 15 answer ∧
    (List.replicate 15 answer).length < 16 := by decide

/-- A slot that holds an image of six lines with tag 50. -/
def held : Slot := { state := .held, tag := 50, lines := (List.range 6).map (fun i => line (BitVec.ofNat 16 i)), header := none }

def holding (p : Part) : Part := p.setSlot 63 held

/-- A FETCH entry of tag 50. -/
def entry (ph : FetchPhase) (requested : Option Nat) : FetchEntry :=
  { token := 7, source := 0x020000000002, tag := 50, slot := 63, first := 0, count := 0, phase := ph,
    requested := requested, delivered := 0, frames := 0, lastLine := none, cancelled := false, done := none }

def fetching (p : Part) (l : List FetchEntry) (g : Option ReadEngine) : Part :=
  p.setFsc { p.fsc with fetches := l, engine := g }

def engine (number next : Nat) : ReadEngine :=
  { tag := 50, slot := 63, number := number, lines := [], next := next, stop := 6, kept := none }

/-- Entries of other tags. -/
def others (n : Nat) : List FetchEntry :=
  (List.range n).map (fun i => { entry .waiting none with tag := BitVec.ofNat 8 (i + 1) })

theorem witness_FetchChecksAndAccepts :
    (asked (holding part) 0x40 [50, 0x0F, 0xFF, 0x10, 0x00]).Takes .fetch (cmd 0x40 [50, 0x0F, 0xFF, 0x10, 0x00]) [] ∧
    (asked (holding part) 0x40 [50, 0x10, 0x00, 0x00, 0x00]).Takes .fetch (cmd 0x40 [50, 0x10, 0x00, 0x00, 0x00]) [] ∧
    (asked part 0x40 [50, 0, 0, 0, 0]).Takes .fetch (cmd 0x40 [50, 0, 0, 0, 0]) [] ∧
    fieldAt [50, 0x0F, 0xFF, 0x10, 0x00] 1 2 = 4095 ∧ fieldAt [50, 0x0F, 0xFF, 0x10, 0x00] 3 2 = 4096 ∧
    fieldAt [50, 0x10, 0x00, 0x00, 0x00] 1 2 = 4096 ∧
    (part.slotWithTag 50 = none ∧ (holding part).slotWithTag 50 = some 63 ∧ (holding part).slot 63 = some held) ∧
    (fetching (holding part) [entry .waiting none] none).fsc.fetches = [entry .waiting none] ∧
    (8 ≤ (others 8).length ∧ (others 7).length < 8 ∧ (others 8).all (fun e => e.tag != 50) = true) ∧
    (fetching (holding part) (others 7) (some (engine 0 0))).fsc.engine.isSome = true ∧ held.state = .held :=
  ⟨asked_takes (by decide), asked_takes (by decide), asked_takes (by decide), by decide, by decide,
   by decide +kernel, by decide +kernel, rfl, by decide +kernel, rfl, rfl⟩

theorem witness_FetchCancelByPhase :
    (asked (fetching (holding part) [entry .waiting none] none) 0x41 [50]).Takes .fetchCancel (cmd 0x41 [50]) [] ∧
    (asked (fetching (holding part) [entry .delivering (some 6)] (some (engine 1 2))) 0x41 [50]).Takes .fetchCancel
      (cmd 0x41 [50]) [] ∧
    (asked (fetching (holding part) [entry .sending (some 6)] none) 0x41 [50]).Takes .fetchCancel (cmd 0x41 [50]) [] ∧
    (asked (fetching (holding part) [entry .finishing (some 6)] none) 0x41 [50]).Takes .fetchCancel (cmd 0x41 [50]) [] ∧
    (asked part 0x41 [50]).Takes .fetchCancel (cmd 0x41 [50]) [] ∧
    ((fetching (holding part) [entry .waiting none] none).fetchOf 50 = some (entry .waiting none) ∧
      part.mgr.control.length + part.mgr.waiting.length + 1 < 16 ∧ part.fsc.turn = none ∧ part.fsc.fetches = []) :=
  ⟨asked_takes (by decide), asked_takes (by decide), asked_takes (by decide),
   asked_takes (by decide), asked_takes (by decide), by decide⟩

theorem witness_SlotReleaseFreesHeldSlot :
    (asked (holding part) 0x42 [50]).Takes .slotRelease (cmd 0x42 [50]) [] ∧ (holding part).slotWithTag 50 = some 63 ∧
    (holding part).slot 63 = some held ∧ part.fsc.fetches = [] ∧ part.slotWithTag 50 = none ∧
    (used part).slotWithTag 50 = some 0 ∧ (filling []).state = .filling ∧
    (asked part 0x42 [50]).Takes .slotRelease (cmd 0x42 [50]) [] ∧
    (asked (used part) 0x42 [50]).Takes .slotRelease (cmd 0x42 [50]) [] :=
  ⟨asked_takes (by decide +kernel), by decide +kernel, by decide +kernel, rfl, by decide +kernel, by decide +kernel, rfl,
   asked_takes (by decide), asked_takes (by decide)⟩

/-- A part whose read engine has come to the end of a store turn. -/
def reading (g : ReadEngine) : Part :=
  let p := fetching (holding part) [entry .delivering (some 6)] (some g)
  p.setFsc { p.fsc with turn := some { member := .readEngine, left := 0 } }

theorem witness_StoreTurnReadFillsFrames :
    (reading (engine 0 0)).fsc.turn = some { member := .readEngine, left := 0 } ∧
    (reading (engine 0 0)).fetchOf 50 = some (entry .delivering (some 6)) ∧ (reading (engine 0 0)).slot 63 = some held ∧
    (engine 0 0).next < (engine 0 0).stop ∧ (reading (engine 0 0)).mgr.images.length < 2 ∧ (engine 1 0).number ≠ 0 ∧
    held.lines[0]? = some (line 0) ∧ (engine 1 0).lines.length < 3 ∧ (engine 1 0).next + 1 < (engine 1 0).stop := by
  decide +kernel

/-- 09 R159: the header goes into frame 0, and the fourth line completes a frame. -/
theorem test_read_turns :
    (after .storeTurnRead (reading (engine 0 0))).mgr.images.map (fun f => (f.number, f.last)) = [(0, false)] ∧
    (after .storeTurnRead (reading { engine 1 3 with lines := [(0, line 0), (1, line 1), (2, line 2)] })).mgr.images.map
      (fun f => (f.number, f.last, f.content.lineCount)) = [(1, false, 4)] := by decide

/-- A part whose last image data frame waits to be sent. -/
def sending : Part := queues (fetching (holding part) [entry .sending (some 6)] none) [] [] [image true]

theorem witness_LastFrameTakenEndsFetch :
    sending.mgr.link = true ∧ sending.mgr.wire = none ∧ sending.mgr.control = [] ∧ sending.mgr.waiting = [] ∧
    sending.mgr.images = [image true] ∧ (image true).last = true ∧
    sending.fetchOf (image true).tag = some (entry .sending (some 6)) ∧ sending.fsc.engine = none := by decide

/-! ### Witnesses: the sensor front end -/

theorem witness_HeadInputsMoveHeads :
    ((part.record .t1).headPolarity .pair2 .inner).names (part.head .t1 .pair2 .inner).high = false ∧
    (part.record .t1).enabled = true ∧ (part.head .t1 .pair2 .inner).state = .idle ∧ (part.record .t4).enabled = false ∧
    (headAt part (.held 990000) true).head .t1 .pair2 .inner =
      { Head.reset true with state := .held 990000, qualifyUs := 40, stuckMs := 100 } ∧
    ((part.record .t1).headPolarity .pair2 .inner).names true = true ∧
    ((headAt part .fault true).head .t1 .pair2 .inner).state = .fault := by decide

theorem witness_CandidateSamples :
    let x (p : Part) : Head := p.head .t1 .pair2 .inner
    (x (headAt part (.candidate 999980 false) true)).state = .candidate 999980 false ∧
    part.now = 999980 + BitVec.ofNat 48 ((x (headAt part (.candidate 999980 false) true)).qualifyUs / 2) ∧
    (x (headAt part (.candidate 999960 true) true)).state = .candidate 999960 true ∧
    part.now = 999960 + BitVec.ofNat 48 (x (headAt part (.candidate 999960 true) true)).qualifyUs ∧
    Polarity.high.names true = true ∧ Polarity.high.names false = false := by decide

/-- A front end with a waiting pulse at pair 1 and its inner head as given. -/
def pairing (w : Option WaitingPulse) (inner : HeadState) : FrontEnd :=
  { FrontEnd.reset with pair1 := { FrontEnd.reset.pair1 with
      waiting := w, inner := { Head.reset false with state := inner } } }

theorem witness_PairingTable :
    (((pairing none .fault).pair .pair1).head HeadId.outer.other).state = .fault ∧
    (((pairing none .idle).pair .pair1).head HeadId.outer.other).state ≠ .fault ∧
    ((pairing (some { head := .outer, stamp := 1000 }) .idle).pair .pair1).waiting = some { head := .outer, stamp := 1000 } ∧
    HeadId.outer = HeadId.inner.other ∧ ((1081000 : Time) - 1000).toNat ≤ record.spacing .pair1 * 720 ∧
    record.spacing .pair1 * 720 < ((1081001 : Time) - 1000).toNat := by decide

theorem witness_EventQueueAndLossLatch :
    FrontEnd.reset.queue.length < 16 ∧ 16 ≤ (List.replicate 16 (event .inward)).length ∧ Mode.onLine ≠ .service ∧
    ((withEvents [event .inward] true).front.get .t1).queue = [event .inward] ∧
    ((withEvents [event .inward, event .outward] true).front.get .t1).queue = event .inward :: event .outward :: [] := by
  decide

theorem witness_StuckLimitAndCeiling :
    ((headAt part (.held 900000) true).head .t1 .pair2 .inner).state = .held 900000 ∧
    part.now = 900000 + BitVec.ofNat 48 (((headAt part (.held 900000) true).head .t1 .pair2 .inner).stuckMs * 1000) ∧
    (headAt part (.held 900000) true).freePlace = true ∧
    let p := (part.setFront .t1 (pairing (some { head := .outer, stamp := (1000000 - 1080040 : Time) }) .idle))
    (((p.front.get .t1).pair .pair1).waiting = some { head := .outer, stamp := (1000000 - 1080040 : Time) } ∧
      p.now = (1000000 - 1080040 : Time) +
        BitVec.ofNat 48 ((p.record .t1).spacing .pair1 * 720 + (p.record .t1).qualifyUs)) := by decide

/-- A part with the occupancy input of track 1 as given. -/
def occupied (p : Part) (o : Occupancy) : Part := p.setFront .t1 { p.front.get .t1 with occupancy := o }

theorem witness_OccupancySettles :
    (part.record .t1).enabled = true ∧ (part.record .t1).occUse = true ∧ (part.record .t4).enabled = false ∧
    (part.record .t1).occPolarity.names (!(part.front.get .t1).occupancy.high) ≠ (part.front.get .t1).occupancy.occupied ∧
    (let o : Occupancy := { high := true, occupied := false, timer := some 1000000 }
     (part.record .t1).occPolarity.names (!o.high) = o.occupied ∧
     ((occupied part o).front.get .t1).occupancy.timer = some (occupied part o).now ∧
     ((occupied part o).trackers.get .t1).handling = none ∧ ((occupied part o).passage .t1).state ≠ .clearing) := by
  decide

/-! ### Witnesses: the passage tracker and the matcher -/

theorem witness_EventTakeOpensPassage :
    ((withEvents [event .outward] true).front.get .t1).queue = [event .outward] ∧
    ((withEvents [event .inward, event .inward] true).front.get .t1).queue = event .inward :: [event .inward] ∧
    ((withEvents [event .inward] true).trackers.get .t1).handling = none ∧
    ((withEvents [event .inward] true).passage .t1).state = .vacant ∧ (event .inward).direction ≠ .outward := by
  decide

/-- 03 §3.10, the first row: the event opens a passage with a pace of 3,072. -/
theorem test_opening :
    let r := (after (.eventTake .t1) (withEvents [event .inward] false)).passage .t1
    r.number = 1 ∧ r.entries = 1 ∧ r.inside = 1 ∧ r.pace = some 3072 ∧ r.state = .running := by decide

theorem witness_EventTakeClassesAxle :
    ((opened (withEvents [event .inward] true) passage).front.get .t1).queue = [event .inward] ∧
    ((opened (withEvents [event .outward] false) passage).front.get .t1).queue = [event .outward] ∧
    ((opened (withEvents [event .inward] true) passage).trackers.get .t1).handling = none ∧
    ((opened (withEvents [event .inward] true) passage).passage .t1).state ≠ .vacant ∧
    passage.entryPair = some (event .inward).pair ∧
    { passage with entryPair := some .pair2 }.entryPair ≠ some (event .inward).pair := by decide

/-- 03 §3.11: a backout that leaves no axle inside is due to close, on a track whose settled state is CLEAR. -/
theorem test_backout :
    let p := after (.eventTake .t1) (opened (withEvents [event .outward] false) passage)
    (p.passage .t1).backouts = 1 ∧ (p.passage .t1).inside = 0 ∧ (p.passage .t1).flags.reversal = true ∧
    (p.trackers.get .t1).handling.map Handling.closeDue = some true := by decide

/-- The open passage at the end of a handling. -/
def handled (due : Bool) : Part :=
  (opened online passage).setTracker .t1
    { (opened online passage).trackers.get .t1 with
      handling := some { takenAt := 999999, closeDue := due, deferred := [] } }

theorem witness_PassageCloses :
    ((handled true).trackers.get .t1).handling = some { takenAt := 999999, closeDue := true, deferred := [] } ∧
    (handled true).couplingPast .t1 = false ∧ ((handled true).passage .t1).state ≠ .vacant ∧
    (handled true).freePlace = true ∧ ((handled true).passage .t1).matcher.firstComplete = none ∧
    ((handled false).trackers.get .t1).handling = some { takenAt := 999999, closeDue := false, deferred := [] } ∧
    ((opened online passage).trackers.get .t1).handling = none ∧
    ((opened online passage).passage .t1).silence = some (opened online passage).now ∧
    coupled.matcher.firstComplete = some { index := 0, facing := .forward, complete := true } ∧
    coupling.vehicleType 0 = some short ∧ 0 < coupled.matcher.pending.length ∧
    (queues online (List.replicate 16 answer) [] []).freePlace = false := by decide

theorem witness_CouplingExpiryDeclares :
    (coupling.trackers.get .t1).handling = none ∧
    coupled.matcher.coupling = some { distance := 3000, deadline := coupling.now } ∧
    coupled.matcher.pending.length = 2 ∧
    (coupling.passage .t1).matcher.firstComplete = some { index := 0, facing := .forward, complete := true } ∧
    coupling.vehicleType 0 = some short ∧ coupled.matcher.vehicles.length < 64 := by decide

/-! ### Witnesses: the scheduler, the lamp bank, the ports -/

theorem witness_TagAllocationFindsUnusedTag :
    (withJob job).csc.jobs.length ≤ 32 ∧ (withJob { job with tag := 1 }).allocateTag 255 255 = 2 := by decide

theorem witness_FreeSlotIsLowestOfRegion :
    inRegion part.records .t2 23 = true ∧ part.freeSlot .t2 = some 20 ∧ part.freeSlot .t4 = none ∧
    (used part).freeSlot .t1 = some 1 := by decide

/-- A part whose port of track 1 is UP. -/
def up (p : Part) : Part := p.setPort .t1 { p.ports.get .t1 with up := true }

theorem witness_WindowOpensJob :
    (up (withJob job)).job 50 = some job ∧ job.state = .waiting ∧ reached (up (withJob job)).now job.start = true ∧
    (up (withJob job)).freeSlot .t1 = some 0 ∧ ((up (withJob job)).ports.get .t1).up = true ∧
    ((up (withJob job)).ports.get .t1).activity = .idle ∧ ((withJob job).ports.get .t1).up = false ∧
    (withJob job).lar.entry 50 = none ∧ (withJob job).freePlace = true ∧
    (withJob { job with track := .t4 }).freeSlot .t4 = none := by decide

/-- The job at its end with 3,200 lines triggered. -/
def ending (received : Nat) : Part :=
  capturing { job with start := 980800, stop := 1000000, triggered := 3200, received := received }
    { Port.reset with activity := .triggering } []

/-- The job at its drain deadline. -/
def draining (c : Port) : Part :=
  (capturing { job with stop := 999000, triggered := 3200, received := 3194 } { c with activity := .draining }
    [line 6999]).modJob 50 (fun j => { j with state := .draining, drainDeadline := some 1000000 })

theorem witness_WindowEndAndDrainEnd :
    ((ending 3194).job 50).map (fun j => (j.state, reached (ending 3194).now j.stop, j.received + j.lost == j.triggered)) =
      some (.opened, true, false) ∧
    ((ending 3200).job 50).map (fun j => (j.state, reached (ending 3200).now j.stop, j.received + j.lost == j.triggered)) =
      some (.opened, true, true) ∧
    ((ending 3200).ports.get .t1).job = some { tag := 50, slot := 0 } ∧ (ending 3200).slot 0 = some (filling []) ∧
    (ending 3200).lar.entry 50 = none ∧
    ((draining { Port.reset with fifo := [line 7000] }).job 50).map
      (fun j => (j.state, j.drainDeadline, decide (j.received + 1 + j.lost ≤ j.triggered))) =
      some (.draining, some (ending 3200).now, true) := by decide

/-- 08: six lines of a cut or late drain are lost, and the fence is 10,194 to 10,199. -/
theorem test_drain_deadline :
    let p := after (.drainDeadline 50) (draining { Port.reset with expected := some 10194 })
    (p.ports.get .t1).fence = some { first := 10194, length := 6 } ∧ p.csc.jobs = [] ∧
    ((p.slot 0).bind Slot.header).map (fun h => (h.received, h.lost, h.drainEnd)) = some (3194, 6, .deadline) := by
  decide

theorem witness_LampRequestDecided :
    (lamped (withJob job) lampEntry).lar.entry 50 = some lampEntry ∧ lampEntry.phase = .awaiting ∧
    reached (lamped (withJob job) lampEntry).now lampEntry.request = true ∧ record.lampMask = false ∧ record.daylightUse = false ∧
    (lamped (withJob job) lampEntry).lar.bank = .idle ∧ (lamped (withJob job) lampEntry).mode = .onLine ∧
    (lamped (withJob job) lampEntry).lar.pendingSet = .all none ∧ (lamped (withJob job) lampEntry).lar.deferral = .all [] ∧
    Bank.recovery .t2 2000000 ≠ .idle ∧
    ((online.records.set .t1 { record with lampMask := true }).get .t1).lampMask = true ∧
    ((online.records.set .t1 { record with daylightUse := true }).get .t1).daylightUse = true := by decide

/-- A bank whose recovery ends now, with a request of the job. -/
def recovering : Part :=
  let p := withJob job
  p.setLar { p.lar with
    entries := [{ lampEntry with phase := .requested }], pendingSet := (Quad.all none).set .t1 (some 50)
    bank := .recovery .t2 1000000 }

theorem witness_RecoveryEndGrantsWinner :
    recovering.lar.bank = .recovery .t2 recovering.now ∧ recovering.mode = .onLine ∧
    recovering.lar.winner recovering.records = some { lampEntry with phase := .requested } ∧ part.lar.requests = [] := by
  decide

theorem test_grant_is_lit :
    (after .recoveryEnd recovering).lar.bank = .inService 50 .t1 1000000 ∧
    (after .recoveryEnd recovering).csc.jobs.map Job.lamp = [.lit] := by decide

/-- A port that triggers, its next trigger due. -/
def triggering : Part :=
  capturing { job with triggered := 2, start := 999988 }
    { Port.reset with activity := .triggering, generator := some { load := 599, count := 0 }, pulse := some 0 } []

theorem witness_PortSyncAndTriggers :
    (triggering.ports.get .t1).up = true ∧ (triggering.record .t1).enabled = true ∧ triggering.freePlace = true ∧
    (part.ports.get .t1).up = false ∧ ((up blank).ports.get .t1).up = true ∧ (blank.record .t1).enabled = false ∧
    (triggering.ports.get .t1).pulse = some 0 ∧ (part.ports.get .t1).pulse ≠ some 0 ∧
    (triggering.ports.get .t1).generator = some { load := 599, count := 0 } ∧
    (triggering.ports.get .t1).job = some { tag := 50, slot := 0 } ∧
    (triggering.job 50).map (fun j => ((triggering.now - j.start).toNat * 100 + triggering.tb.sub, j.triggered,
      decide (1 ≤ (j.stop - triggering.now).toNat), decide ((j.stop - triggering.now).toNat ≤ 2 ^ 47))) =
      some (2 * (599 + 1), 2, true, true) := by decide

/-- A port that triggers for the job, 12 lines outstanding. -/
def receiving (c : Port) : Part := capturing { job with triggered := 112, received := 100 } { c with activity := .triggering } []

theorem witness_LinePacketTested :
    ((receiving Port.reset).ports.get .t1).up = true ∧ ((receiving Port.reset).ports.get .t1).activity = .triggering ∧
    (part.ports.get .t1).up = false ∧ ((up part).ports.get .t1).activity = .idle ∧
    ((receiving Port.reset).ports.get .t1).job = some { tag := 50, slot := 0 } ∧
    ((receiving Port.reset).job 50).map (fun j => (j.triggered, j.received, j.lost)) = some (112, 100, 0) ∧
    ((receiving Port.reset).ports.get .t1).fence = none ∧ ((receiving Port.reset).ports.get .t1).expected = none ∧
    ((1111#16 - 1100#16).toNat = 11 ∧ 11 < 12 ∧ 11 < 32768) ∧ 12 ≤ (1112#16 - 1100#16).toNat ∧
    32768 ≤ (1099#16 - 1100#16).toNat ∧
    ((packet 1100).pixelCount = 2048#16 ∧ (packet 1100).pixels.length = 2048) ∧
    ¬ ({ packet 1100 with pixels := List.replicate 2047 1 } : LinePacket).pixels.length = 2048 ∧
    8 ≤ (List.replicate 8 (line 1100)).length ∧
    (capturing job { Port.reset with activity := .triggering } []).job 50 =
      some { job with state := .opened, slot := some 0 } := by decide +kernel

/-- A store turn of the port of track 1 at its end. -/
def writingTurn (l : List Line) : Part :=
  let p := receiving { Port.reset with fifo := l, overrun := true }
  p.setFsc { p.fsc with turn := some { member := .port .t1, left := 0 } }

theorem witness_StoreTurnWriteTakesLine :
    (writingTurn [line 1100]).fsc.turn = some { member := .port .t1, left := 0 } ∧
    ((writingTurn [line 1100]).ports.get .t1).fifo = [line 1100] ∧
    ((writingTurn [line 1100]).ports.get .t1).activity = .triggering ∧
    ((writingTurn [line 1100]).ports.get .t1).job = some { tag := 50, slot := 0 } ∧
    (writingTurn [line 1100]).slot 0 = some (filling []) := by decide +kernel

/-- 08 R139: the turn that empties the FIFO clears the latch. -/
theorem test_store_turn_clears_latch :
    let p := after (.storeTurnWrite .t1) (writingTurn [line 1100])
    (p.ports.get .t1).overrun = false ∧ p.csc.jobs.map Job.received = [101] := by decide

/-! ### Witnesses clause by clause: the same statements where one state cannot meet every clause -/

theorem witness_LampSetReplacesLampFields_ranges :
    4 < (cmd 0x14 [5, 0, 0, 0, 0]).byteAt 0 ∧ 7 < (cmd 0x14 [1, 8, 0, 0, 0]).byteAt 1 ∧
    ((cmd 0x14 [1, 7, 2, 0, 0]).byteAt 1 ≤ 7 ∧ 1 < (cmd 0x14 [1, 7, 2, 0, 0]).byteAt 2) ∧
    ((cmd 0x14 [1, 7, 1, 8, 0]).byteAt 2 ≤ 1 ∧ 7 < (cmd 0x14 [1, 7, 1, 8, 0]).byteAt 3) ∧
    ((cmd 0x14 [1, 7, 1, 7, 2]).byteAt 3 ≤ 7 ∧ 1 < (cmd 0x14 [1, 7, 1, 7, 2]).byteAt 4) := by decide

/-- The part with an image of tag 50, an entry of it or other entries, and FETCH of it in the intake. -/
def refetch (l : List FetchEntry) (g : Option ReadEngine) : Part :=
  asked (fetching (holding part) l g) 0x40 [50, 0, 0, 0, 0]

theorem witness_FetchChecksAndAccepts_entries :
    (refetch [entry .waiting none] none).Takes .fetch (cmd 0x40 [50, 0, 0, 0, 0]) [] ∧
    (refetch (others 8) none).Takes .fetch (cmd 0x40 [50, 0, 0, 0, 0]) [] ∧
    (refetch (others 7) (some (engine 0 0))).Takes .fetch (cmd 0x40 [50, 0, 0, 0, 0]) [] ∧
    (refetch [] none).Takes .fetch (cmd 0x40 [50, 0, 0, 0, 0]) [] ∧
    (refetch [] none).slotWithTag 50 = some 63 ∧ (refetch [] none).slot 63 = some held ∧
    (refetch (others 7) (some (engine 0 0))).slotWithTag 50 = some 63 :=
  ⟨asked_takes (by decide), asked_takes (by decide), asked_takes (by decide), asked_takes (by decide),
   by decide +kernel, by decide +kernel, by decide +kernel⟩

theorem witness_FetchCancelByPhase_entries :
    (fetching (holding part) [entry .delivering (some 6)] (some (engine 1 2))).fetchOf 50 =
      some (entry .delivering (some 6)) ∧
    (fetching (holding part) [entry .sending (some 6)] none).fetchOf 50 = some (entry .sending (some 6)) ∧
    (fetching (holding part) [entry .finishing (some 6)] none).fetchOf 50 = some (entry .finishing (some 6)) := by decide

theorem witness_SlotReleaseFreesHeldSlot_inUse :
    (asked (fetching (holding part) [entry .waiting none] none) 0x42 [50]).Takes .slotRelease (cmd 0x42 [50]) [] ∧
    (fetching (holding part) [entry .waiting none] none).slotWithTag 50 = some 63 ∧ (entry .waiting none).slot = 63 :=
  ⟨asked_takes (by decide), by decide +kernel, rfl⟩

theorem witness_CalLoadReplacesRecords_differ :
    ({ paged (used part) true with records := blank.records } : Part).cal.page.valid = true ∧
    ({ paged (used part) true with records := blank.records } : Part).slot 0 = some (filling []) := by decide

/-- The passage of track 1 entered at pair 2, so that pair 1 is its exit pair. -/
def farPassage : Passage := { passage with entryPair := some .pair2 }

theorem witness_EventTakeClassesAxle_exit_and_conflict :
    ((opened (withEvents [event .outward] false) farPassage).front.get .t1).queue = [event .outward] ∧
    ((opened (withEvents [event .inward] true) farPassage).front.get .t1).queue = [event .inward] ∧
    ((opened (withEvents [event .inward] true) farPassage).trackers.get .t1).handling = none ∧
    ((opened (withEvents [event .inward] true) farPassage).passage .t1).state ≠ .vacant ∧
    farPassage.entryPair ≠ some (event .inward).pair := by decide

/-- 03 §3.3: an outward event at the exit pair is an exit axle, an inward one a conflict that suspends matching. -/
theorem test_exit_and_conflict :
    let p := after (.eventTake .t1) (opened (withEvents [event .outward] false) farPassage)
    let q := after (.eventTake .t1) (opened (withEvents [event .inward] false) farPassage)
    ((p.passage .t1).exits = 1 ∧ (p.passage .t1).inside = 0) ∧
    ((q.passage .t1).inside = 2 ∧ (q.passage .t1).flags.conflict = true ∧ (q.passage .t1).flags.matchSuspended = true) := by
  decide

/-- The coupled passage whose silence deadline is now, and the open one with a full control queue. -/
theorem witness_PassageCloses_complete_and_full :
    let p := opened (typed online) { coupled with silence := some 1000000 }
    let q := queues (opened online passage) (List.replicate 16 answer) [] []
    ((p.passage .t1).silence = some p.now ∧ (p.trackers.get .t1).handling = none ∧ (p.passage .t1).state ≠ .vacant ∧
      p.freePlace = true ∧ (p.passage .t1).matcher.firstComplete = some { index := 0, facing := .forward, complete := true } ∧
      p.vehicleType 0 = some short ∧ 0 < (p.passage .t1).matcher.pending.length) ∧
    (q.freePlace = false ∧ (q.passage .t1).silence = some q.now ∧ (q.trackers.get .t1).handling = none) := by decide

/-- The coupled passage with one complete orientation alone, and with a full vehicle list. -/
def oneWay (d : Facing) (l : List VehicleEntry) : Part :=
  opened (typed online) { coupled with
    matcher := { coupled.matcher with
      candidates := [{ index := 0, facing := d, complete := true }], vehicles := l } }

theorem witness_CouplingExpiryDeclares_orientations :
    ((oneWay .forward []).passage .t1).matcher.firstComplete = some { index := 0, facing := .forward, complete := true } ∧
    ((oneWay .reversed []).passage .t1).matcher.firstComplete =
      some { index := 0, facing := .reversed, complete := true } ∧
    64 ≤ ((oneWay .forward (List.replicate 64 { index := 0, orientation := .forward, firstAxle := 1, axles := 2 })).passage
      .t1).matcher.vehicles.length ∧
    ((oneWay .forward []).passage .t1).matcher.coupling = some { distance := 3000, deadline := (oneWay .forward []).now } ∧
    ((oneWay .forward []).trackers.get .t1).handling = none := by decide

/-- R72: one complete orientation alone is the orientation of the vehicle. -/
theorem test_orientation :
    ((after (.couplingTimerExpiry .t1) (oneWay .reversed [])).passage .t1).matcher.vehicles.map VehicleEntry.orientation =
      [.reversed] := by decide +kernel

theorem witness_WindowOpensJob_no_slot :
    let j := { job with track := .t4 }
    (withJob j).job 50 = some j ∧ reached (withJob j).now j.start = true ∧ (withJob j).freeSlot .t4 = none ∧
    (withJob j).freePlace = true ∧ (withJob j).lar.entry 50 = none := by decide

/-- 06: a job without a slot, and one whose port is DOWN, leave the schedule. -/
theorem test_open_fails :
    (after (.windowOpen 50) (withJob { job with track := .t4 })).csc.jobs = [] ∧
    (after (.windowOpen 50) (withJob job)).csc.jobs = [] := by decide

/-- A request time at a bank that recovers, with the pending request of the track as given. -/
def busyBank (t : Option Tag) : Part :=
  let p := lamped (withJob job) lampEntry
  p.setLar { p.lar with bank := .recovery .t2 2000000, pendingSet := p.lar.pendingSet.set .t1 t }

/-- A request time on a track that is masked, or that uses daylight in daylight. -/
def unlit (r : TrackRecord) : Part :=
  let p := lamped (withJob job) lampEntry
  { p.setLar { p.lar with daylight := true } with records := p.records.set .t1 r }

theorem witness_LampRequestDecided_clauses :
    ((busyBank none).lar.bank ≠ .idle ∧ (busyBank none).lar.pendingSet.get .t1 = none ∧
      (busyBank none).lar.entry 50 = some lampEntry ∧ (busyBank (some 9)).lar.pendingSet.get .t1 = some 9) ∧
    (((unlit { record with lampMask := true }).record .t1).lampMask = true ∧
      (unlit { record with lampMask := true }).lar.entry 50 = some lampEntry ∧
      ((unlit { record with daylightUse := true }).record .t1).lampMask = false ∧
      ((unlit { record with daylightUse := true }).record .t1).daylightUse = true ∧
      (unlit { record with daylightUse := true }).lar.daylight = true) := by decide

/-- R120: the statuses that the four cases write. -/
theorem test_lamp_decisions :
    (after (.lampRequestTime 50) (unlit { record with lampMask := true })).csc.jobs.map Job.lamp = [.masked] ∧
    (after (.lampRequestTime 50) (unlit { record with daylightUse := true })).csc.jobs.map Job.lamp = [.daylight] ∧
    ((after (.lampRequestTime 50) (busyBank none)).lar.pendingSet.get .t1 = some 50) ∧
    ((after (.lampRequestTime 50) (busyBank (some 9))).lar.deferral.get .t1 = [50]) := by decide

theorem witness_RecoveryEndGrantsWinner_held :
    let p := recovering.setMgr { recovering.mgr with mode := .standby }
    let q := recovering.setLar { recovering.lar with pendingSet := .all none }
    (p.lar.bank = .recovery .t2 p.now ∧ p.mode ≠ .onLine) ∧ (q.lar.bank = .recovery .t2 q.now ∧ q.lar.requests = []) := by
  decide

theorem witness_LinePacketTested_states :
    ((receiving { Port.reset with expected := some 1100 }).ports.get .t1).expected = some 1100 ∧
    ((receiving { Port.reset with expected := some 1100 }).ports.get .t1).fifo = [] ∧
    ((receiving { Port.reset with expected := some 1104, fifo := List.replicate 8 (line 1100) }).ports.get .t1).fifo.length =
      8 ∧
    ((receiving { Port.reset with overrun := true }).ports.get .t1).overrun = true := by decide

/-- 08 R134 to R136: a line beyond the room and one behind are stray, a skipped line is lost, a short line is lost. -/
theorem test_line_packets :
    let p := receiving { Port.reset with expected := some 1100 }
    let lostAfter (pk : LinePacket) : List Nat := (after (.linePacket .t1 pk) p).csc.jobs.map Job.lost
    ((after (.linePacket .t1 (packet 1112)) p).ports.get .t1).stray = 1 ∧
    ((after (.linePacket .t1 (packet 1099)) p).ports.get .t1).stray = 1 ∧ lostAfter (packet 1101) = [1] ∧
    lostAfter { packet 1100 with pixelCount := 2047 } = [1] := by decide +kernel

/-! ### Witnesses of the invariants, the clock and the resets, clause by clause -/

/-- A part with a store turn as given and the lines of port 1 as given. -/
def storing (t : Option StoreTurn) (l : List Line) : Part :=
  let p := part.setPort .t1 { Port.reset with fifo := l }
  p.setFsc { p.fsc with turn := t }

theorem witness_IdleStepCountsTheLineClock_store :
    ((storing (some { member := .port .t1, left := 5 }) [line 1]).dueSteps = [] ∧
      (storing (some { member := .port .t1, left := 5 }) [line 1]).fsc.turn = some { member := .port .t1, left := 5 }) ∧
    ((storing none [line 1]).dueSteps = [] ∧ (storing none [line 1]).fsc.turn = none ∧
      ((storing none [line 1]).ports.get .t1).fifo = [line 1] ∧ (1 + 4 - 5) % 5 = 0) ∧
    (part.dueSteps = [] ∧ part.fsc.turn = none ∧ part.fsc.engine = none ∧
      ∀ k : Track, (part.ports.get k).fifo = []) :=
  ⟨by decide +kernel, by decide +kernel, by decide, by decide, by decide, by intro k; cases k <;> rfl⟩

theorem witness_PlacesKept_tags :
    (withJob job).TagsDistinct ∧ step { part := withJob job, pending := [.ident] } = .next (run (after .ident (withJob job))) :=
  ⟨by unfold Part.TagsDistinct; decide, rfl⟩

/-- A part whose page write has made the page invalid. -/
def rewriting : Part :=
  { writing with cal := { writing.cal with page := { part.cal.page with agrees := false }, state := .invalid } }

theorem witness_QuietInServiceKept_clock_and_page :
    rewriting.ClockInRange ∧ rewriting.PageGuarded ∧ rewriting.cal.write.isSome = true ∧
    step { part := rewriting, pending := [.ident] } = .next (run (after .ident rewriting)) :=
  ⟨by unfold Part.ClockInRange; decide, by intro w _; exact ⟨rfl, rfl⟩, by decide, rfl⟩

theorem witness_LinePeriodAndLoad_clamps :
    roundDiv (100 * 3072) 2560 < 500 ∧ 65536 < roundDiv (2000 * 184320) 2560 ∧
    ((part.startPort .t1 50 0 600).ports.get .t1).generator = some { load := 599, count := 0 } := by decide

theorem witness_PowerOnResetState :
    part.cal.page.valid = false ∧ (paged part false).cal.page.flag = false ∧ 63 < 64 := by decide

/-- The bank in service for a job of track 1 with a recovery code. -/
def serving (code : Nat) : Part :=
  { part.setLar { part.lar with bank := .inService 50 .t1 990000 } with
    records := part.records.set .t1 { record with recoveryCode := code } }

/-- The open passage of track 1 at the end of a handling. -/
def handledWith (due : Bool) (l : List Deferred) (p : Part) : Part :=
  p.setTracker .t1 { p.trackers.get .t1 with handling := some { takenAt := 999999, closeDue := due, deferred := l } }

theorem witness_ResetPartState_clauses :
    (asked (serving 0) 0x05 []).Runs .resetPart (cmd 0x05 []) [] ∧
    (asked (serving 2) 0x05 []).Runs .resetPart (cmd 0x05 []) [] ∧
    (asked (handledWith false [] part) 0x05 []).Runs .resetPart (cmd 0x05 []) [] ∧
    ((serving 0).lar.bank = .inService 50 .t1 990000 ∧ recoveryMs ((serving 0).record .t1).recoveryCode = 0 ∧
      recoveryMs ((serving 2).record .t1).recoveryCode = 2 ∧ part.lar.bank.serving = false ∧
      ((handledWith false [] part).trackers.get .t1).handling =
        some { takenAt := 999999, closeDue := false, deferred := [] } ∧
      (part.record .t1).enabled = true ∧ (part.record .t4).enabled = false) :=
  ⟨asked_runs (by decide), asked_runs (by decide), asked_runs (by decide), by decide⟩

/-- R128: a bank in service rests, or is IDLE at once, after RESET_PART. -/
theorem test_reset_bank :
    (after .resetPart (asked (serving 2) 0x05 [])).lar.bank = .recovery .t1 1002000 ∧
    (after .resetPart (asked (serving 0) 0x05 [])).lar.bank = .idle := by decide

theorem witness_ModeSetAnswers_changes :
    (asked (part.setMgr { part.mgr with mode := .standby }) 0x04 [1#8]).Runs .modeSet (cmd 0x04 [1#8]) [] ∧
    (asked (withJob job) 0x04 [2#8]).Runs .modeSet (cmd 0x04 [2#8]) [] ∧
    ((withJob job).mode = .onLine ∧ ((withJob job).record .t1).enabled = true) ∧
    (asked (withJob job) 0x04 [2#8]).TagsDistinct :=
  ⟨asked_runs (by decide), asked_runs (by decide), by decide, by unfold Part.TagsDistinct; decide⟩

/-- R113: the WAITING job ends at the change to STANDBY. -/
theorem test_standby :
    let p := after (.modeSet []) (asked (withJob job) 0x04 [2#8])
    p.mode = .standby ∧ p.csc.jobs = [] ∧ p.mgr.control.length = 2 := by decide

theorem witness_ReadingCommandsReply_slots :
    part.slot 63 = some .empty ∧ (used part).slot 0 = some (filling []) ∧ inRegion (used part).records .t1 0 = true ∧
    (fetching (holding part) [entry .waiting none] none).slot 63 = some held := by decide +kernel

theorem witness_TrackWriteReplacesRecord_heads :
    (asked (headAt part .fault true) 0x10 (trackWrite 1 record)).Runs .trackWrite (cmd 0x10 (trackWrite 1 record)) [] ∧
    (asked part 0x10 (trackWrite 4 .unset)).Runs .trackWrite (cmd 0x10 (trackWrite 4 .unset)) [] ∧
    ((cmd 0x10 (trackWrite 1 record)).byteAt 0 = Track.t1.number ∧ firstBadField (encTrackRecord record) = none ∧
      slotSum (part.records.set .t1 (trackRecordOf (encTrackRecord record))) ≤ 64 ∧
      (trackRecordOf (encTrackRecord record)).slots = (part.record .t1).slots ∧
      ((headAt part .fault true).head .t1 .pair2 .inner).state = .fault ∧
      (part.head .t1 .pair1 .inner).state ≠ .fault ∧
      (trackRecordOf (encTrackRecord record)).enabled = true ∧ (trackRecordOf (encTrackRecord record)).occUse = true) ∧
    (firstBadField (encTrackRecord .unset) = none ∧ (trackRecordOf (encTrackRecord .unset)).enabled = false ∧
      (trackRecordOf (encTrackRecord .unset)).slots = (part.record .t4).slots ∧
      (part.front.get .t4).occupancy.occupied = false ∧ (part.trackers.get .t4).handling = none ∧
      (part.passage .t4).state ≠ .clearing) :=
  ⟨asked_runs (by decide), asked_runs (by decide), by decide, by decide⟩

/-- R1, R5: a head in FAULT stays, one whose input is active is HELD, of a track that is written. -/
theorem test_track_write_heads :
    let p := after .trackWrite (asked (headAt part .fault true) 0x10 (trackWrite 1 record))
    (p.head .t1 .pair2 .inner).state = .fault ∧ (p.head .t1 .pair2 .outer).state = .held 1000000 ∧
    (p.head .t1 .pair1 .inner).state = .idle := by decide

/-! ### Witnesses of the re-timing and of the taking of sightings -/

/-- The job with a reference time, which the computation of 05 centres 578,406 µs after it. -/
def jobAt (reference : Time) : Job := { job with sightings := [{ caseSighting with reference := reference }] }

/-- Another job of track 1, from a start to an end. -/
def other (st : JobState) (a b : Time) : Job := { job with tag := 51, state := st, start := a, stop := b, entryOrder := 7 }

/-- The part in ON_LINE with the jobs of a schedule. -/
def withJobs (l : List Job) : Part := { online with csc := { jobs := l, tagCounter := 51, nextEntry := 9 } }

theorem witness_TrimCommandsSetTrim_on_line :
    (asked (withJob job) 0x12 [1, 4]).Takes .trimSet (cmd 0x12 [1, 4]) [] ∧ (withJob job).mode = .onLine ∧
    signedByte ((cmd 0x12 [1, 4]).byteAt 1) ≠ ((withJob job).record .t1).trim ∧
    signedByte ((cmd 0x12 [1, 3]).byteAt 1) = ((withJob job).record .t1).trim ∧
    signedByte ((cmd 0x12 [1, 191]).byteAt 1) < -64 :=
  ⟨asked_takes (by decide), by decide, by decide, by decide, by decide⟩

/-- A TOO_LATE end, a window that stands, and a late open on an idle port that is UP. -/
theorem witness_TrimCommandsSetTrim_alone :
    (∀ t : Time, (withJobs [jobAt t]).job 50 = some (jobAt t)) ∧
    (withJobs [jobAt 400000]).TagsDistinct ∧ (jobAt 400000).track = .t1 ∧ (jobAt 400000).state = .waiting ∧
    reached 1000000 ((withJobs [jobAt 400000]).computeJob (jobAt 400000)).stop = true ∧
    reached 1000000 ((withJobs [jobAt 500000]).computeJob (jobAt 500000)).stop = false ∧
    liesBefore ((withJobs [jobAt 500000]).computeJob (jobAt 500000)).start 1000000 = false ∧
    (let p := up (withJobs [jobAt 425000])
     let m := p.computeJob (jobAt 425000)
     reached p.now m.stop = false ∧ liesBefore m.start p.now = true ∧ p.freeSlot .t1 = some 0 ∧
     (p.ports.get .t1).up = true ∧ (p.ports.get .t1).activity = .idle) ∧
    (lamped (withJobs [jobAt 500000]) lampEntry).lar.entry 50 = some lampEntry ∧ lampEntry.phase = .awaiting ∧
    reached 1000000 ((withJobs [jobAt 500000]).computeJob (jobAt 500000)).lampRequest = false ∧
    (withJobs [jobAt 500000]).freePlace = true :=
  ⟨fun _ => rfl, by unfold Part.TagsDistinct; decide, by decide⟩

/-- The window of 1,068,806 to 1,088,006 overlaps an OPEN job that ends inside it, or after it. -/
theorem witness_TrimCommandsSetTrim_overlap :
    let p (b : Time) := withJobs [other .opened 1060000 b, jobAt 500000]
    let m (b : Time) := (p b).computeJob (jobAt 500000)
    ((p 1070000).job 50 = some (jobAt 500000) ∧ (m 1070000).overlaps (other .opened 1060000 1070000) = true ∧
      atOrBefore (m 1070000).stop 1070001 = false ∧ liesBefore 1070001 (p 1070000).now = false) ∧
    ((m 1100000).overlaps (other .opened 1060000 1100000) = true ∧ atOrBefore (m 1100000).stop 1100001 = true) ∧
    (p 1070000).TagsDistinct ∧ (p 1100000).TagsDistinct ∧
    ∀ x ∈ (p 1070000).csc.jobs, x.track = .t1 → x.tag ≠ 50 → x.state ≠ .waiting :=
  ⟨by decide, by decide, by unfold Part.TagsDistinct; decide, by unfold Part.TagsDistinct; decide, by decide⟩

/-- R102: a job is clipped, or ends OVERLAP with its moved start and CLIPPED (R89, R91). -/
theorem test_retiming :
    let p (b : Time) := (withJobs [other .opened 1060000 b, jobAt 500000]).retime .t1 (fun _ => true)
    (p 1070000).csc.jobs.map (fun j => (j.tag, j.start, j.lineCount, j.flags.clipped)) =
      [(51, 1060000, 3200, false), (50, 1070001, 3001, true)] ∧
    (p 1100000).csc.jobs.map Job.tag = [51] ∧
    (p 1100000).mgr.control.map ControlRecord.body = [.notice (.jobEnded
      { (withJobs []).computeJob (jobAt 500000) with
        start := 1100001, lampRequest := 1099801,
        flags := { ((withJobs []).computeJob (jobAt 500000)).flags with clipped := true } } 1000000 .overlap .none)] := by
  decide

/-- A sighting with a reference time, at a distance. -/
def sightingAt (reference : Time) (distance : Nat) : Sighting :=
  { caseSighting with reference := reference, distance := distance }

/-- The WAITING job 50 of passage 5 for a sighting that is taken at 500,000. -/
def taken : Job := (withJobs []).computeJob (jobAt 500000)

/-- The part in ON_LINE with the passage of the sightings open and the jobs of a schedule. -/
def tracked (l : List Job) : Part := opened (withJobs l) passage

theorem witness_TagAllocationFindsUnusedTag_places :
    let own (t : Time) := (tracked []).computeJob (Job.ofSighting .t1 5 (sightingAt t 48200))
    let full := tracked (List.replicate 32 { job with track := .t2 })
    reached 1000000 (own 400000).stop = true ∧ reached 1000000 (own 500000).stop = false ∧
    reached 1000000 (own 500000).start = false ∧ reached 1000000 (own 500000).lampRequest = false ∧
    (tracked []).csc.jobs.length < 32 ∧ (tracked []).lar.entries = [] ∧ 32 ≤ full.csc.jobs.length ∧
    (full.csc.jobs.filter (fun x => x.track == .t1)).length = 0 ∧
    reached 1000000 (full.computeJob (Job.ofSighting .t1 5 (sightingAt 500000 48200))).stop = false := by decide

theorem witness_TagAllocationFindsUnusedTag_merges :
    let p := tracked [taken]
    let w := p.computeJob (Job.ofSighting .t1 5 (sightingAt 500000 48300))
    let m := p.computeJob { taken with sightings := taken.sightings ++ [sightingAt 500000 48300] }
    reached p.now w.stop = false ∧ w.overlaps taken = true ∧ taken.state = .waiting ∧ taken.passage = 5 ∧
    taken.sightings.length < 4 ∧ m.flags.narrowed = false ∧ reached p.now m.start = false ∧ { taken with passage := 6 }.passage ≠ 5 := by decide

/-- R98: the first windows of the two cases, whose instants lie within 2^46 µs of 0. -/
theorem witness_TagAllocationFindsUnusedTag_separates :
    (∀ o ∈ [taken, other .waiting 1060000 1070000, other .waiting 1060000 1090000, other .waiting 1090000 1100000],
      (o.start - 0#48).toNat < 2 ^ 46 ∧ (o.stop - 0#48).toNat < 2 ^ 46) ∧
    (∃ x : Job, separate 2 [other .waiting 1060000 1070000] taken = .kept x ∧ x.start = 1070001) ∧
    (∃ x : Job, separate 2 [other .waiting 1060000 1090000] taken = .empty x ∧ x.start = 1090001) ∧
    taken.overlaps (other .waiting 1090000 1100000) = false ∧
    (withJobs [taken]).csc.jobs.Pairwise (fun a b => b.before 1000000 a = false) :=
  ⟨by decide, ⟨_, rfl, by decide⟩, ⟨_, rfl, by decide⟩, by decide, by decide⟩

/-- R97: the sighting joins the job; R98: behind a job of another passage it is clipped, or dropped when left empty. -/
theorem test_take_sighting :
    (((tracked [taken]).takeSighting .t1 5 (sightingAt 500000 48300)).csc.jobs.map
      (fun j => (j.tag, j.sightings.length, j.start, j.stop)) = [(50, 2, 1068806, 1089206)]) ∧
    (((tracked [{ taken with passage := 6 }]).takeSighting .t1 5 (sightingAt 500000 48300)).csc.jobs.map
      (fun j => (j.tag, j.sightings.length, j.start, j.stop)) = [(50, 1, 1068806, 1088006), (52, 1, 1088007, 1089206)]) ∧
    (((tracked [{ taken with passage := 6 }]).takeSighting .t1 5 (sightingAt 500000 48200)).csc.jobs.map Job.tag = [50]) ∧
    (((tracked []).takeSighting .t1 5 (sightingAt 500000 48200)).lar.entries.map (fun e => (e.tag, e.request)) =
      [(52, 1068606)]) := by decide

/-! ### Witnesses of the link, of retrieval and of the store, clause by clause -/

theorem witness_SendingTakesControlFirst_waiting :
    let p := queues part (List.replicate 16 answer) [answer] []
    p.mgr.link = true ∧ p.mgr.wire = none ∧ p.mgr.waiting = [answer] := by decide

theorem witness_FetchChecksAndAccepts_filling :
    (asked (used part) 0x40 [50, 0, 0, 0, 0]).Takes .fetch (cmd 0x40 [50, 0, 0, 0, 0]) [] ∧
    (used part).slot 0 = some (filling []) ∧ (used part).fsc.fetches = [] ∧ (used part).fsc.engine = none ∧
    (used part).slotWithTag 50 = some 0 :=
  ⟨asked_takes (by decide), by decide, by decide, by decide, by decide +kernel⟩

/-- 09 R157: the entry of a FILLING slot waits, and that of a HELD one starts its delivery. -/
theorem test_fetch_starts :
    (after .fetch (asked (used part) 0x40 [50, 0, 0, 0, 0])).fsc.fetches.map FetchEntry.phase = [.waiting] ∧
    (after .fetch (refetch [] none)).fsc.fetches.map FetchEntry.phase = [.delivering] := by decide +kernel

/-- A frame of two lines under assembly before the last of the range, and one of three before the fourth. -/
def partial2 : ReadEngine := { engine 2 5 with lines := [(3, line 3), (4, line 4)] }

def partial3 : ReadEngine := { engine 1 3 with lines := [(0, line 0), (1, line 1), (2, line 2)] }

/-- The header of an image whose range is empty. -/
def headerOnly : ReadEngine := { engine 0 6 with stop := 6 }

theorem witness_StoreTurnReadFillsFrames_clauses :
    (headerOnly.number = 0 ∧ headerOnly.stop ≤ headerOnly.next ∧
      (reading headerOnly).fetchOf 50 = some (entry .delivering (some 6))) ∧
    (partial3.number ≠ 0 ∧ held.lines[partial3.next]? = some (line 3) ∧ partial3.lines.length + 1 = 4 ∧
      partial3.next + 1 < partial3.stop) ∧
    (partial2.number ≠ 0 ∧ held.lines[partial2.next]? = some (line 5) ∧ partial2.stop ≤ partial2.next + 1) ∧
    (2 ≤ (queues (reading headerOnly) [] [] [image false, image false]).mgr.images.length ∧
      (queues (reading partial3) [] [] [image false, image false]).fsc.turn =
        some { member := .readEngine, left := 0 }) ∧
    (reading partial2).fsc.fetches.map FetchEntry.phase = [.delivering] ∧
    (entry .delivering (some 6)).cancelled = false := by decide +kernel

/-- 09 R158, R159: the frame of an empty range, and the last frame of a range, are marked last. -/
theorem test_last_frames :
    (after .storeTurnRead (reading headerOnly)).mgr.images.map (fun f => (f.number, f.last)) = [(0, true)] ∧
    (after .storeTurnRead (reading partial2)).mgr.images.map (fun f => (f.number, f.last, f.content.lineCount)) =
      [(2, true, 3)] ∧
    (after .storeTurnRead (reading partial2)).fsc.fetches.map (fun e => (e.phase, e.delivered)) = [(.sending, 3)] := by
  decide +kernel

/-! ### Witnesses of the tracker, the matcher, the lamp bank and the ports, clause by clause -/

/-- A passage that is CLEARING, with the settling of the occupancy input due. -/
def clearing (r : Passage) : Part :=
  occupied (opened (typed online) { r with state := .clearing }) { high := false, occupied := true, timer := some 1000000 }

theorem witness_PassageCloses_clearing :
    ((clearing passage).trackers.get .t1).handling = none ∧ ((clearing passage).passage .t1).state = .clearing ∧
    ((clearing passage).front.get .t1).occupancy.timer = some (clearing passage).now ∧
    ((clearing passage).record .t1).occPolarity.names ((clearing passage).front.get .t1).occupancy.high = false ∧
    ((clearing coupled).passage .t1).matcher.firstComplete = some { index := 0, facing := .forward, complete := true } ∧
    (clearing coupled).vehicleType 0 = some short ∧ ((clearing coupled).passage .t1).matcher.pending.length = 2 := by decide

/-- R43: the passage closes as the input settles to CLEAR. -/
theorem test_clearing_closes :
    let p := after (.occupancySettleExpiry .t1) (clearing coupled)
    (p.passage .t1).state = .vacant ∧ (p.front.get .t1).occupancy.occupied = false ∧ p.csc.jobs = [] ∧
    p.mgr.control.length = 1 := by decide

/-- A passage with one axle pending, with its candidates. -/
def oneAxle : Passage :=
  { passage with matcher := { Matcher.empty with
      pending := [{ ordinal := 1, position := .inner, time := 960000, gap := none }]
      candidates := (typed part).candidateSet [{ ordinal := 1, position := .inner, time := 960000, gap := none }] } }

/-- The axle that arrives. -/
def axle : PendingAxle := { ordinal := 3, position := .inner, time := 990000, gap := none }

/-- R63 to R66: an empty list, survivors, a coupling gap reached, and a gap that fits nothing. -/
theorem witness_CouplingExpiryDeclares_arrival :
    ((opened (typed online) passage).passage .t1).matcher.pending = [] ∧
    ((opened (typed online) oneAxle).survivors oneAxle.matcher.candidates 1 2500).length = 4 ∧
    coupled.matcher.candidates.find? (fun c => c.complete && decide (coupling.couplingGapOf c ≤ 3000)) =
      some { index := 0, facing := .forward, complete := true } ∧
    coupling.survivors coupled.matcher.candidates 2 3000 = [] ∧
    coupled.matcher.candidates.find? (fun c => c.complete && decide (coupling.couplingGapOf c ≤ 2500)) = none ∧
    coupling.survivors coupled.matcher.candidates 2 2500 = [] := by decide

/-- The four outcomes of the arrival rule. -/
theorem test_arrival :
    let arrives (r : Passage) (g : Nat) : Passage := ((opened (typed online) r).arrive .t1 axle g).passage .t1
    (arrives oneAxle 2500).matcher.candidates.map Candidate.complete = [true, true, false, false] ∧
    ((arrives coupled 3000).vehicleCount = 1 ∧ (arrives coupled 3000).matcher.pending = [axle]) ∧
    ((arrives coupled 2500).matcher.unmatched = 1 ∧ (arrives coupled 2500).flags.unmatched = true ∧
      (arrives coupled 2500).matcher.pending.map PendingAxle.gap = [some 2500, some 2500]) := by decide

theorem witness_CouplingExpiryDeclares_handing :
    (∀ c ∈ [({ index := 1, facing := .forward, complete := false } : Candidate)], c.complete = false) ∧
    (coupled.matcher.pending.getLast? = some { ordinal := 2, position := .inner, time := 930000, gap := some 2500 } ∧
      ∃ c ∈ coupled.matcher.candidates, c.complete = true) ∧
    ((event .inward).position = .inner ∧ coupled.pace = some 3072 ∧ 0 < ((event .inward).time - 930000).toInt ∧
      ((event .inward).time - 990000).toInt ≤ 0) :=
  ⟨by decide, ⟨by decide, ⟨_, List.mem_cons_self, rfl⟩⟩, by decide⟩

/-- R58, R61, R66: 60,000 µs at a pace of 3,072 are 5,000 mm, which reach the coupling gap. -/
theorem test_hand_axle :
    let r := (coupling.handAxle .t1 (event .inward) 3).passage .t1
    r.vehicleCount = 1 ∧ r.matcher.pending.map PendingAxle.ordinal = [3] ∧ r.matcher.coupling = none := by decide

/-- A drain of job 51 on slot 1 at the port at which job 50 opens now. -/
def cutting (fifo : List Line) (expected : Option Word16) : Part :=
  let d : Job := { other .draining 980000 999500 with
    slot := some 1, triggered := 112, received := 100, drainDeadline := some 1000500 }
  (((withJobs [d, job]).setPort .t1
    { Port.reset with up := true, activity := .draining, job := some { tag := 51, slot := 1 }, fifo := fifo,
                      expected := expected }).setSlot 1 { filling [] with tag := 51 })

theorem witness_WindowOpensJob_cut :
    let p := cutting [] (some 1100)
    p.job 50 = some job ∧ p.freeSlot .t1 = some 0 ∧ (p.ports.get .t1).activity = .draining ∧
    (p.ports.get .t1).job = some { tag := 51, slot := 1 } ∧ (p.job 51).map (fun d => (d.tag, d.triggered, d.received)) =
      some (51, 112, 100) ∧ p.slot 1 = some { filling [] with tag := 51 } ∧ (filling []).state ≠ .free ∧
    (lamped (withJob { job with track := .t4 }) { lampEntry with track := .t4 }).lar.entry 50 =
      some { lampEntry with track := .t4 } := by decide

/-- R109, R143, R144: eleven of twelve lines outstanding are lost and fenced, one was in the FIFO. -/
theorem test_cut :
    let p := after (.windowOpen 50) (cutting [line 1099] (some 1100))
    p.csc.jobs.map (fun j => (j.tag, j.state)) = [(50, .opened)] ∧
    (p.ports.get .t1).fence = some { first := 1100, length := 11 } ∧ (p.ports.get .t1).activity = .triggering ∧
    ((p.slot 1).bind Slot.header).map (fun h => (h.received, h.lost, h.entries, h.drainEnd)) = some (101, 11, 1, .cut) := by
  decide +kernel

theorem witness_RecoveryEndGrantsWinner_ties :
    (∀ (j : Track) (t : Tag) (x : LampEntry), recovering.lar.pendingSet.get j = some t →
      recovering.lar.entry t = some x → x.track = j) ∧
    ∃ base : Time, ∀ x ∈ recovering.lar.requests, (x.start - base).toNat < 2 ^ 47 := by
  refine ⟨?_, 1000000, by decide⟩
  intro j t x h g
  cases j <;> simp [recovering, Quad.set, Quad.get, Quad.all, Part.setLar] at h
  subst h
  have : recovering.lar.entry 50#8 = some { lampEntry with phase := .requested } := by decide
  rw [this] at g
  cases g
  rfl

/-- A port that drains for the job, its last line outstanding. -/
def lastLine (l : List Line) : Part :=
  (capturing { job with stop := 999000, triggered := 112, received := 111 }
    { Port.reset with activity := .draining, fifo := l } []).modJob 50
    (fun j => { j with state := .draining, drainDeadline := some 1000500 })

theorem witness_LinePacketTested_fence_and_last :
    (((receiving { Port.reset with fence := some { first := 1100, length := 4 } }).ports.get .t1).fence =
        some { first := 1100, length := 4 } ∧ (1103#16 - 1100#16).toNat < 4 ∧ ¬ (1104#16 - 1100#16).toNat < 4) ∧
    (((lastLine []).ports.get .t1).activity = .draining ∧ ((lastLine []).ports.get .t1).up = true ∧
      ((lastLine []).job 50).map (fun j => (j.received + j.lost + 0 + 1, j.triggered)) = some (112, 112) ∧
      (lastLine []).slot 0 = some (filling [])) := by decide

/-- R144: a line inside the fence is stray, one behind it is received; R142: the last line, lost, ends the drain. -/
theorem test_fence_and_last :
    let p := receiving { Port.reset with fence := some { first := 1100, length := 4 } }
    ((after (.linePacket .t1 (packet 1103)) p).ports.get .t1).stray = 1 ∧
    ((after (.linePacket .t1 (packet 1104)) p).ports.get .t1).fifo.length = 1 ∧
    (after (.linePacket .t1 { packet 1104 with pixelCount := 2047 }) (lastLine [])).csc.jobs = [] := by decide +kernel

theorem witness_StoreTurnWriteTakesLine_last :
    let p := (lastLine [line 1100]).setFsc
      { (lastLine [line 1100]).fsc with turn := some { member := .port .t1, left := 0 } }
    p.fsc.turn = some { member := .port .t1, left := 0 } ∧ (p.ports.get .t1).fifo = [line 1100] ∧
    (p.ports.get .t1).activity = .draining ∧ (p.ports.get .t1).job = some { tag := 50, slot := 0 } ∧
    (p.job 50).map (fun j => (j.received + 1 + j.lost, j.triggered)) = some (112, 112) ∧
    p.slot 0 = some (filling []) := by decide +kernel

/-- R142: the line that accounts for the last ends the drain, complete. -/
theorem test_last_line_written :
    let p := after (.storeTurnWrite .t1) ((lastLine [line 1100]).setFsc
      { (lastLine [line 1100]).fsc with turn := some { member := .port .t1, left := 0 } })
    p.csc.jobs = [] ∧ (p.ports.get .t1).activity = .idle ∧
    ((p.slot 0).bind Slot.header).map (fun h => (h.received, h.lost, h.drainEnd)) = some (112, 0, .complete) := by
  decide +kernel

/-! ### Witnesses of the mode change, of the link and of the close of passages, clause by clause -/

/-- A job that waits, one that is OPEN and one that drains, each with its lines outstanding, and an open passage. -/
def mixed : Part :=
  opened (withJobs [job, { job with tag := 52, track := .t2, state := .opened, slot := some 20, triggered := 5 },
    { job with tag := 53, state := .draining, slot := some 1, triggered := 5 }]) passage

theorem witness_ModeSetToServiceEndsOperation_clauses :
    (asked mixed 0x04 [0#8]).Runs .modeSet (cmd 0x04 [0#8]) [] ∧
    (asked (handledWith false [] mixed) 0x04 [0#8]).Runs .modeSet (cmd 0x04 [0#8]) [] ∧ mixed.TagsDistinct ∧
    (mixed.csc.jobs.map (fun i => (i.state, decide (i.received + i.lost = i.triggered))) =
        [(.waiting, true), (.opened, false), (.draining, false)] ∧
      mixed.mgr.control.length + mixed.mgr.waiting.length + mixed.csc.jobs.length + 5 ≤ 16 ∧
      (mixed.ports.get .t1).job = none ∧ (mixed.trackers.get .t1).handling = none ∧
      (mixed.passage .t1).state ≠ .vacant ∧ mixed.mode = .onLine ∧
      ((handledWith false [] mixed).trackers.get .t1).handling =
        some { takenAt := 999999, closeDue := false, deferred := [] }) :=
  ⟨asked_runs (by decide), asked_runs (by decide), by unfold Part.TagsDistinct; decide, by decide⟩

/-- R53, R112: what the change leaves of the jobs and the passage, and the records that it makes behind the reply. -/
theorem test_to_service :
    let p := after (.modeSet []) (asked mixed 0x04 [0#8])
    p.csc.jobs.map (fun j => (j.tag, j.state, j.flags.modeAbort, j.drainDeadline)) =
      [(52, .draining, true, some 1001000), (53, .draining, false, none)] ∧
    (p.mgr.control.drop 1).map ControlRecord.body = [.notice (.jobEnded job 1000000 .cancelled .mode),
      .notice (.passageClosed .t1 passage 1000000 .aborted)] := by decide

theorem witness_TrimCommandsSetTrim_tracks :
    (asked part 0x12 [0, 1]).Takes .trimSet (cmd 0x12 [0, 1]) [] ∧ (asked part 0x13 [5, 1]).Takes .trimStep (cmd 0x13 [5, 1]) [] ∧
    (cmd 0x12 [0, 1]).byteAt 0 = 0 ∧ 4 < (cmd 0x13 [5, 1]).byteAt 0 :=
  ⟨asked_takes (by decide), asked_takes (by decide), by decide, by decide⟩

/-- The bytes of a command frame with a body length and the bytes behind it. -/
def commandFrame (cls code : Byte) (n : Nat) (body : List Byte) : List Byte :=
  be 6 0x020000000001 ++ be 6 0x020000000002 ++ be 2 0xB7D2 ++ [cls, code] ++ be 2 7 ++ be 2 n ++ body

/-- R185: padding is no argument; another class, a body length past the bytes received and a wrong length fail check 1. -/
theorem test_command_record :
    commandRecord (commandFrame 1 0x04 1 [2, 0, 0]) = cmd 0x04 [2] ∧
    (commandRecord (commandFrame 1 0x04 1 [2, 0, 0])).command = some .modeSet ∧
    (commandRecord (commandFrame 2 0x04 1 [2, 0, 0])).command = none ∧
    (commandRecord (commandFrame 1 0x04 4 [2, 0, 0])).command = none ∧
    (commandRecord (commandFrame 1 0x04 2 [2, 0, 0])).command = none ∧ 4 < 65536 := by decide

/-- An image data frame that goes, with the frame that the engine keeps behind a queue with one frame more. -/
def keeping (last : Bool) : Part :=
  queues (fetching (holding part) [entry .delivering (some 6)]
    (some { engine 2 4 with kept := some (image last) })) [] [] [image false, image false]

theorem witness_SendingTakesControlFirst_kept :
    (keeping false).mgr.link = true ∧ (keeping false).mgr.wire = none ∧ (keeping false).mgr.control = [] ∧
    (keeping false).mgr.images = image false :: [image false] ∧ (image false).last = false ∧ [image false].length < 2 ∧
    (keeping false).fsc.engine = some { engine 2 4 with kept := some (image false) } ∧
    (keeping true).fsc.engine = some { engine 2 4 with kept := some (image true) } ∧ (image true).last = true ∧
    (keeping true).fsc.fetches = [entry .delivering (some 6)] ∧ (entry .delivering (some 6)).tag = (image true).tag := by
  decide

/-- R159: the kept frame takes the place that frees, and the engine goes on or is idle. -/
theorem test_kept_frame :
    let p (last : Bool) := after .takeForSending (keeping last)
    (p false).mgr.images.length = 2 ∧ (p false).fsc.engine.map ReadEngine.number = some 3 ∧
    (p true).mgr.images.map ImageFrame.last = [false, true] ∧ (p true).fsc.engine = none ∧
    (p true).fsc.fetches.map (fun e => (e.phase, e.frames)) = [(.sending, 1)] := by decide

theorem witness_PassageCloses_deferred :
    let h (due : Bool) (l : List Deferred) : Handling := { takenAt := 999999, closeDue := due, deferred := l }
    let p (due : Bool) (l : List Deferred) := handledWith due l (opened online passage)
    ((p true [.toService]).trackers.get .t1).handling = some (h true [.toService]) ∧
    ((p false [.toService]).trackers.get .t1).handling = some (h false [.toService]) ∧
    ((p false [.reset]).trackers.get .t1).handling = some (h false [.reset]) ∧
    (p false [.reset]).couplingPast .t1 = false ∧ ((p false [.toService]).passage .t1).state ≠ .vacant := by decide

/-- R53, R55: the change to SERVICE closes the passage ABORTED, behind a close that is due nothing more; a reset clears
it without a notice. -/
theorem test_deferred :
    let p (due : Bool) (l : List Deferred) := after (.eventHandlingEnd .t1 false) (handledWith due l (opened online passage))
    (p false [.toService]).mgr.control.map ControlRecord.body =
      [.notice (.passageClosed .t1 passage 1000000 .aborted)] ∧
    (p true [.toService]).mgr.control.map ControlRecord.body = [.notice (.passageClosed .t1 passage 1000000 .normal)] ∧
    (p false [.reset]).mgr.control = [] ∧ (p false [.reset]).passage .t1 = Passage.vacant 5 := by decide

/-- An axle of pair 1 that its outer head timed. -/
def outerEvent : AxleEvent :=
  { event .unknown with position := .outer, transit := none, singleHead := true }

/-- R59 to R61: 1,500 mm at the default pace of 3,072 are 18,000 µs, so the axle of 990,000 is measured at 1,008,000. -/
theorem test_hand_outer :
    let handed (r : Passage) := ((opened (typed online) r).handAxle .t1 outerEvent 3).passage .t1
    (handed { passage with pace := none }).matcher.pending.map (fun a => (a.time, a.gap)) = [(1008000, none)] ∧
    (handed { passage with pace := none }).flags.noSpeed = true ∧ (handed passage).flags.noSpeed = false ∧
    (handed { oneAxle with pace := none }).matcher.pending.map (fun a => (a.time, a.gap)) = [(1008000, some 4000)] ∧
    (handed { oneAxle with pace := none }).flags.noSpeed = true := by decide

theorem witness_CouplingExpiryDeclares_outer :
    outerEvent.position = .outer ∧ { passage with pace := none }.pace = none ∧ passage.matcher.pending = [] ∧
    oneAxle.matcher.pending.getLast? = some { ordinal := 1, position := .inner, time := 960000, gap := none } ∧
    0 < ((1008000 : Time) - 960000).toInt ∧ ((1008000 : Time) - 1008000).toInt ≤ 0 := by decide

/-! ### Witnesses of jobs placed late, of the lamp bank at a window end and of a begun turn at a drain end -/

theorem witness_TagAllocationFindsUnusedTag_late :
    let p := tracked []
    let own (t : Time) := p.computeJob (Job.ofSighting .t1 5 (sightingAt t 48200))
    let q := tracked [(withJobs []).computeJob (jobAt 432000)]
    let o := (withJobs []).computeJob (jobAt 432000)
    let m := q.computeJob { o with sightings := o.sightings ++ [sightingAt 430000 48200] }
    (reached p.now (own 420000).start = true ∧ reached p.now (own 420000).stop = false ∧ (own 420000).start ≠ p.now) ∧
    (reached p.now (own 431300).lampRequest = true ∧ reached p.now (own 431300).start = false) ∧
    (o.state = .waiting ∧ o.passage = 5 ∧ reached q.now o.start = false ∧ m.flags.narrowed = false ∧
      reached q.now m.start = true ∧ (own 430000).overlaps o = true) := by decide

/-- R96, R99, R120: a window that has begun opens LATE and a lamp request that has passed is decided, in the same
step; R97: a job whose start a merge has moved into the past opens too. -/
theorem test_placed_late :
    let jobs (l : List Job) (r : Time) := ((up (tracked l)).takeSighting .t1 5 (sightingAt r 48200)).csc.jobs
    (jobs [] 420000).map (fun j => (j.tag, j.state, j.start, j.flags.late)) = [(52, .opened, 1000000, true)] ∧
    (jobs [] 431300).map (fun j => (j.tag, j.state, j.start, j.lamp)) = [(52, .waiting, 1000106, .lit)] ∧
    (jobs [(withJobs []).computeJob (jobAt 432000)] 430000).map (fun j => (j.tag, j.state, j.start, j.flags.late)) =
      [(50, .opened, 1000000, true)] := by decide

/-- Another entry of track 1. -/
def secondEntry : LampEntry := { lampEntry with tag := 60, phase := .deferred }

/-- A part with the lamp entry of the job in a phase, another entry, a bank, and what track 1 requests and defers. -/
def bankAt (p : Part) (ph : LampPhase) (b : Bank) (request : Option Tag) (deferred : List Tag) (code : Nat) : Part :=
  { p.setLar { p.lar with
      entries := [{ lampEntry with phase := ph }, secondEntry], bank := b
      pendingSet := (Quad.all none).set .t1 request, deferral := (Quad.all []).set .t1 deferred } with
    records := p.records.set .t1 { record with recoveryCode := code } }

/-- The job at its end, in service or with a request. -/
def endingAt (ph : LampPhase) (b : Bank) (request : Option Tag) (deferred : List Tag) (code : Nat) : Part :=
  bankAt (ending 3194) ph b request deferred code

theorem witness_WindowEndAndDrainEnd_lamp :
    let p := endingAt .serving (.inService 50 .t1 990000) (some 60) [] 0
    (p.lar.entry 50 = some { lampEntry with phase := .serving } ∧ recoveryMs (p.record .t1).recoveryCode = 0 ∧
      p.mode = .onLine ∧ (p.lar.removeEntry 50).winner p.records = some secondEntry) ∧
    recoveryMs ((endingAt .serving (.inService 50 .t1 990000) none [] 2).record .t1).recoveryCode ≠ 0 ∧
    ((endingAt .serving (.inService 50 .t1 990000) none [] 0).lar.removeEntry 50).requests = [] ∧
    (let q := endingAt .requested (.recovery .t2 2000000) (some 50) [60] 0
     q.lar.bank ≠ .idle ∧ q.lar.pendingSet.get .t1 = some 50 ∧ q.lar.deferral.get .t1 = [60] ∧
     (endingAt .requested (.recovery .t2 2000000) (some 50) [] 0).lar.deferral.get .t1 = [] ∧
     (endingAt .deferred (.recovery .t2 2000000) (some 60) [50] 0).lar.pendingSet.get .t1 ≠ some 50) ∧
    (endingAt .awaiting .idle none [] 0).lar.entry 50 = some lampEntry ∧
    (endingAt .cleared .idle none [] 0).lar.entry 50 = some { lampEntry with phase := .cleared } := by decide

/-- R123, R124: the bank rests for 2 ms behind the window, or with a time of 0 is granted at once to a request. -/
theorem test_service_ends :
    let bank (p : Part) := (after (.windowEnd 50) p).lar.bank
    bank (endingAt .serving (.inService 50 .t1 990000) none [] 2) = .recovery .t1 1002000 ∧
    bank (endingAt .serving (.inService 50 .t1 990000) none [] 0) = .idle ∧
    bank (endingAt .serving (.inService 50 .t1 990000) (some 60) [] 0) = .inService 60 .t1 1000000 := by decide

/-- R121, R125: at the window end a request is withdrawn and the job UNLIT, and the first deferred one is promoted. -/
theorem test_withdrawal :
    let p := after (.windowEnd 50) (endingAt .requested (.recovery .t2 2000000) (some 50) [60] 0)
    let q := after (.windowEnd 50) (endingAt .deferred (.recovery .t2 2000000) (some 60) [50] 0)
    (p.csc.jobs.map Job.lamp = [.unlit] ∧ p.lar.pendingSet.get .t1 = some 60 ∧ p.lar.deferral.get .t1 = [] ∧
      p.lar.entries = [{ secondEntry with phase := .requested }]) ∧
    (q.csc.jobs.map Job.lamp = [.unlit] ∧ q.lar.pendingSet.get .t1 = some 60 ∧ q.lar.deferral.get .t1 = []) := by decide

/-- A part whose store turn of port 1 has begun and has counts left. -/
def begun (p : Part) : Part := p.setFsc { p.fsc with turn := some { member := .port .t1, left := 5 } }

/-- The last line outstanding at the drain deadline. -/
def atDeadline : Part :=
  (lastLine [line 1100]).modJob 50 (fun j => { j with drainDeadline := some 1000000 })

theorem witness_WindowEndAndDrainEnd_turn :
    (begun atDeadline).fsc.turn = some { member := .port .t1, left := 5 } ∧ atDeadline.fsc.turn = none ∧
    ((begun atDeadline).ports.get .t1).activity = .draining ∧ ((begun atDeadline).ports.get .t1).fifo = [line 1100] ∧
    ((begun atDeadline).job 50).map (fun j => (j.state, j.drainDeadline, j.triggered - (j.received + 1 + j.lost),
      decide (j.received + 1 + j.lost ≤ j.triggered))) = some (.draining, some 1000000, 0, true) := by decide +kernel

theorem witness_WindowOpensJob_turn_and_lamp :
    (let p := (begun (cutting [line 1099] (some 1100))).modJob 51 (fun j => { j with triggered := 101 })
     p.fsc.turn = some { member := .port .t1, left := 5 } ∧ (p.ports.get .t1).fifo.length = 1 ∧
     (p.job 51).map (fun d => d.triggered - (d.received + 1 + d.lost)) = some 0) ∧
    (let p := bankAt (withJob job) .requested (.recovery .t2 2000000) (some 50) [60] 0
     p.lar.entry 50 = some { lampEntry with phase := .requested } ∧ p.freeSlot .t1 = some 0 ∧
     (p.ports.get .t1).up = false ∧ p.freePlace = true) := by decide +kernel

/-- R141, R142: the turn begun for the port writes the last line, and the drain ends complete at its deadline or cut;
without such a turn it ends as the deadline and the cut say. -/
theorem test_begun_turn_ends_drain :
    let kind (p : Part) (n : Nat) := ((p.slot n).bind Slot.header).map (fun h => (h.received, h.lost, h.drainEnd))
    let cut := (cutting [line 1099] (some 1100)).modJob 51 (fun j => { j with triggered := 101 })
    kind (after (.drainDeadline 50) (begun atDeadline)) 0 = some (112, 0, .complete) ∧
    kind (after (.drainDeadline 50) atDeadline) 0 = some (112, 0, .deadline) ∧
    kind (after (.windowOpen 50) (begun cut)) 1 = some (101, 0, .complete) ∧
    kind (after (.windowOpen 50) cut) 1 = some (101, 0, .cut) := by decide +kernel

/-! ### Witnesses of what starts when a drain or a delivery ends -/

/-- A fetch entry of tag 50 that waits for the slot of the job. -/
def slotEntry : FetchEntry := { entry .waiting none with slot := 0 }

/-- The job at its end with every line counted, another job, and the entry that waits for the slot. -/
def endingWith (g : Option ReadEngine) : Part :=
  let p := fetching (ending 3200) [slotEntry] g
  { p with csc := { p.csc with jobs := p.csc.jobs ++ [{ other .waiting 1100000 1110000 with track := .t2 }] } }

theorem witness_WindowEndAndDrainEnd_fetch :
    ((endingWith none).fsc.engine = none ∧ (endingWith none).fsc.fetches = [] ++ slotEntry :: [] ∧
      slotEntry.phase = .waiting ∧ (endingWith none).lar.entry 50 = none) ∧
    (endingWith (some (engine 1 2))).fsc.engine ≠ none ∧
    ((after (.windowEnd 50) (endingWith none)).slot slotEntry.slot).map Slot.state = some .held := by decide

/-- R152, R156: the delivery of the slot now HELD starts on an idle engine alone, and the other job stays. -/
theorem test_drain_starts_delivery :
    let p (g : Option ReadEngine) := after (.windowEnd 50) (endingWith g)
    ((p none).csc.jobs.map Job.tag = [51] ∧ (p none).fsc.fetches.map FetchEntry.phase = [.delivering] ∧
      (p none).fsc.engine = some { engine 0 0 with slot := 0, stop := 0 }) ∧
    ((p (some (engine 1 2))).fsc.fetches.map FetchEntry.phase = [.waiting] ∧
      (p (some (engine 1 2))).fsc.engine = some (engine 1 2)) := by decide

theorem witness_WindowOpensJob_fetch :
    let e : FetchEntry := { slotEntry with tag := 51, slot := 1 }
    let p := fetching (cutting [line 1099] (some 1100)) [e] none
    p.fsc.engine = none ∧ e.phase = .waiting ∧ p.fsc.fetches = [] ++ e :: [] ∧
    ((after (.windowOpen 50) p).slot e.slot).map Slot.state = some .held := by decide +kernel

theorem witness_LinePacketTested_fetch :
    let p := fetching (lastLine []) [slotEntry] none
    p.fsc.engine = none ∧ (p.ports.get .t1).activity = .draining ∧
    ((after (.linePacket .t1 { packet 1104 with pixelCount := 2047 }) p).slot 0).map Slot.state = some .held := by
  decide +kernel

theorem witness_StoreTurnWriteTakesLine_fetch :
    let q := fetching (lastLine [line 1100]) [slotEntry] none
    let p := q.setFsc { q.fsc with turn := some { member := .port .t1, left := 0 } }
    p.fsc.engine = none ∧ p.fsc.turn = some { member := .port .t1, left := 0 } ∧
    ((after (.storeTurnWrite .t1) p).slot 0).map Slot.state = some .held := by decide +kernel

/-- R156, R157: a cut, a lost last line and a written last line start the delivery of the slot too. -/
theorem test_other_drain_ends_start_delivery :
    let stops (p : Part) : Option (Nat × Nat) := p.fsc.engine.map (fun g => (g.slot, g.stop))
    let q := fetching (lastLine [line 1100]) [slotEntry] none
    stops (after (.windowOpen 50)
      (fetching (cutting [line 1099] (some 1100)) [{ slotEntry with tag := 51, slot := 1 }] none)) = some (1, 1) ∧
    stops (after (.linePacket .t1 { packet 1104 with pixelCount := 2047 })
      (fetching (lastLine []) [slotEntry] none)) = some (0, 0) ∧
    stops (after (.storeTurnWrite .t1)
      (q.setFsc { q.fsc with turn := some { member := .port .t1, left := 0 } })) = some (0, 1) := by decide +kernel

/-- An entry of another image that waits for the read engine. -/
def queued : FetchEntry := { entry .waiting none with tag := 60, slot := 62 }

/-- A part with the images of both entries. -/
def twoHeld : Part := (holding part).setSlot 62 { held with tag := 60 }

/-- A cancelled delivery at the end of a store turn, with the other entry behind it. -/
def cancelledRead (g : ReadEngine) : Part :=
  let p := fetching twoHeld [{ entry .delivering (some 6) with cancelled := true }, queued] (some g)
  p.setFsc { p.fsc with turn := some { member := .readEngine, left := 0 } }

theorem witness_StoreTurnReadFillsFrames_cancelled :
    (cancelledRead (engine 0 0)).fetchOf 50 = some { entry .delivering (some 6) with cancelled := true } ∧
    ¬ (engine 0 0).stop ≤ (engine 0 0).next ∧ (cancelledRead partial3).mgr.images.length < 2 ∧
    ¬ partial3.stop ≤ partial3.next + 1 ∧ queued.phase = .waiting ∧
    (twoHeld.slot queued.slot).map Slot.state = some .held := by decide +kernel

/-- R162, R156: a cancelled delivery ends with its header, or with the frame under assembly, and the next one starts. -/
theorem test_cancelled_delivery :
    let p (g : ReadEngine) := after .storeTurnRead (cancelledRead g)
    ((p (engine 0 0)).mgr.images.map (fun f => (f.number, f.last)) = [(0, true)] ∧
      (p (engine 0 0)).fsc.fetches.map FetchEntry.phase = [.sending, .delivering] ∧
      (p (engine 0 0)).fsc.engine.map ReadEngine.tag = some 60) ∧
    (p partial3).mgr.images.map (fun f => (f.number, f.last, f.content.lineCount)) = [(1, true, 4)] := by decide +kernel

/-- A delivery whose read of the store has begun, with FETCH_CANCEL of it in the intake. -/
def cancelling (g : ReadEngine) : Part :=
  let p := fetching (holding part) [entry .delivering (some 6)] (some g)
  asked (p.setFsc { p.fsc with turn := some { member := .readEngine, left := 7 } }) 0x41 [50]

theorem witness_FetchCancelByPhase_begun :
    (cancelling (engine 0 0)).Takes .fetchCancel (cmd 0x41 [50]) [] ∧
    (cancelling (engine 0 0)).fetchOf 50 = some (entry .delivering (some 6)) ∧
    (cancelling (engine 0 0)).fsc.turn = some { member := .readEngine, left := 7 } ∧
    (cancelling partial2).Takes .fetchCancel (cmd 0x41 [50]) [] :=
  ⟨asked_takes (by decide), by decide, by decide, asked_takes (by decide)⟩

/-- R164: the begun read completes first: it places the header, or the last frame, and the entry is then marked. -/
theorem test_cancel_begun :
    let p (g : ReadEngine) := after .fetchCancel (cancelling g)
    ((p (engine 0 0)).mgr.images.map (fun f => (f.number, f.last)) = [(0, false)] ∧ (p (engine 0 0)).fsc.turn = none ∧
      (p (engine 0 0)).fsc.fetches.map (fun e => (e.phase, e.cancelled, e.frames)) = [(.delivering, true, 1)]) ∧
    (p partial2).mgr.images.map ImageFrame.last = [true] ∧
    (p partial2).fsc.fetches.map (fun e => (e.phase, e.cancelled)) = [(.sending, true)] := by decide +kernel

/-- The last frame of a delivery is kept, and the other entry waits. -/
def keepingLast : Part :=
  queues (fetching twoHeld [entry .delivering (some 6), queued] (some { engine 2 4 with kept := some (image true) }))
    [] [] [image false, image false]

theorem witness_SendingTakesControlFirst_next :
    keepingLast.mgr.link = true ∧ keepingLast.mgr.wire = none ∧ keepingLast.mgr.control = [] ∧
    keepingLast.mgr.images = image false :: [image false] ∧
    keepingLast.fsc.engine = some { engine 2 4 with kept := some (image true) } ∧ queued.tag ≠ (image true).tag ∧
    (keepingLast.slot queued.slot).map Slot.state = some .held := by decide +kernel

/-- R156: behind the kept last frame the next eligible entry's delivery starts. -/
theorem test_kept_last_starts_next :
    (after .takeForSending keepingLast).fsc.fetches.map FetchEntry.phase = [.sending, .delivering] ∧
    (after .takeForSending keepingLast).fsc.engine = some { engine 0 0 with tag := 60, slot := 62 } := by decide +kernel

/-! ### Witnesses of the capture computation and of the change to STANDBY -/

/-- The second of two sightings of one job. -/
def laterSighting : Sighting := { caseSighting with reference := 5001500 }

theorem witness_SingleSightingWindow_several :
    let w := BitVec.ofNat 48 (roundDiv (record.windowHalfMm * 3072) 256)
    let own (x : Sighting) : Time :=
      x.reference + BitVec.ofNat 48 (roundDiv (x.distance * 3072) 256) + BitVec.ofInt 48 (2 * record.trim)
    ([caseSighting, laterSighting] ≠ [] ∧ ∀ x ∈ [caseSighting, laterSighting],
      (own x - w - 5000000).toNat < 2 ^ 46 ∧ (own x + w - 5000000).toNat < 2 ^ 46) ∧
    (computeTiming record 3072 [caseSighting, laterSighting]).narrowed = false ∧
    (computeTiming { record with pitchUm := 300 } 3072 [caseSighting, laterSighting]).narrowed = true := by decide

/-- R84: the window of two sightings runs from the first start to the last end; R88: at 500 counts a line
20,700 µs would be 4,140 lines. -/
theorem test_union :
    let g (pitch : Nat) := computeTiming { record with pitchUm := pitch } 3072 [caseSighting, laterSighting]
    ((g 500).start, (g 500).stop, (g 500).centre) = (5568806, 5589506, 5579156) ∧ (g 300).lineCount = 4096 := by decide

theorem witness_SingleSightingWindow_job :
    let p := opened online passage
    let q := opened online { passage with pace := none }
    ((p.passage .t1).state ≠ .vacant ∧ (p.passage .t1).number = job.passage ∧ (p.passage .t1).pace = some 3072) ∧
    ((q.passage .t1).state ≠ .vacant ∧ (q.passage .t1).number = job.passage ∧ (q.passage .t1).pace = none) ∧
    (online.passage .t1).state = .vacant ∧ (p.passage .t1).number ≠ ({ job with passage := 4 } : Job).passage := by decide

/-- R81, R91: the pace and the copies of the passage, the default pace with NO_SPEED, and those of the job. -/
theorem test_compute_job :
    let j := { job with pace := 4000, flags := { job.flags with fast := true } }
    let timed (r : Passage) := (opened online r).computeJob j
    ((timed { passage with pace := some 5000 }).pace, (timed { passage with pace := some 5000 }).flags.fast) =
      (5000, false) ∧
    ((timed { passage with pace := none }).pace, (timed { passage with pace := none }).flags.noSpeed) = (3072, true) ∧
    ((online.computeJob j).pace, (online.computeJob j).flags.fast, (online.computeJob j).flags.noSpeed) =
      (4000, true, false) := by decide

/-- The mixed jobs with a lamp entry of the job that waits, of the OPEN one and of the one that drains, and a bank. -/
def standingBy (waits opens : LampPhase) (b : Bank) (code : Nat) : Part :=
  { mixed.setLar { mixed.lar with
      entries := [{ lampEntry with phase := waits }, { lampEntry with tag := 52, track := .t2, phase := opens },
        { lampEntry with tag := 53 }]
      bank := b } with records := mixed.records.set .t1 { record with recoveryCode := code } }

theorem witness_ModeSetAnswers_standby :
    let p := standingBy .serving .requested (.inService 50 .t1 990000) 2
    let q := standingBy .awaiting .serving (.inService 52 .t2 990000) 2
    ((asked p 0x04 [2#8]).Runs .modeSet (cmd 0x04 [2#8]) [] ∧ (asked q 0x04 [2#8]).Runs .modeSet (cmd 0x04 [2#8]) [] ∧
      p.TagsDistinct) ∧
    (p.mode = .onLine ∧ p.mgr.control.length + p.mgr.waiting.length + 1 + 1 ≤ 16 ∧
      p.csc.jobs.filter (fun j => decide (j.state = .waiting)) = [job] ∧
      p.lar.entry 50 = some { lampEntry with phase := .serving } ∧
      (∀ x ∈ p.lar.entries, x.phase = .serving → x = { lampEntry with phase := .serving }) ∧
      { lampEntry with tag := 52, track := .t2, phase := .requested } ∈ p.lar.entries) ∧
    (q.lar.entry 50 = some lampEntry ∧ ∀ i : Track, (53 : Tag) ∉ q.lar.deferral.get i) ∧
    recoveryMs ((standingBy .serving .requested (.inService 50 .t1 990000) 0).record .t1).recoveryCode = 0 :=
  ⟨⟨asked_runs (by decide), asked_runs (by decide), by unfold Part.TagsDistinct; decide⟩, by decide,
   ⟨by decide, by intro i; cases i <;> decide⟩, by decide⟩

/-- R113, R126: the notice of the job that waited, the entry CLEARED, and the bank that rests or is kept. -/
theorem test_standby_notice_and_lamps :
    let p := after (.modeSet []) (asked (standingBy .serving .requested (.inService 50 .t1 990000) 2) 0x04 [2#8])
    let q := after (.modeSet []) (asked (standingBy .awaiting .serving (.inService 52 .t2 990000) 2) 0x04 [2#8])
    ((p.mgr.control.drop 1).map ControlRecord.body = [.notice (.jobEnded job 1000000 .cancelled .mode)] ∧
      p.lar.entries.map (fun e => (e.tag, e.phase)) = [(52, .cleared), (53, .awaiting)] ∧
      p.lar.bank = .recovery .t1 1002000) ∧
    q.lar.bank = .inService 52 .t2 990000 ∧ q.csc.jobs.map Job.tag = [52, 53] := by decide

/-! ### Witnesses of what an axle does to the pace and to the jobs -/

/-- A part with events at track 1, an open passage there, and the jobs of a schedule. -/
def pacing (l : List AxleEvent) (r : Passage) (js : List Job) : Part :=
  let p := opened (typed (withJobs js)) r
  p.setFront .t1 { p.front.get .t1 with queue := l }

/-- An exit axle of 18,100 µs, which is slower than the passage. -/
def slower : AxleEvent := { event .outward with transit := some 18100 }

/-- The coupled passage entered at pair 2. -/
def farCoupled : Passage := { coupled with entryPair := some .pair2 }

theorem witness_EventTakeClassesAxle_pace :
    let p := pacing [slower] farCoupled [taken]
    ((p.front.get .t1).queue = [slower] ∧ (p.trackers.get .t1).handling = none ∧ (p.passage .t1).state ≠ .vacant ∧
      (p.passage .t1).entryPair ≠ some slower.pair ∧ slower.direction ≠ .inward ∧ slower.transit = some 18100) ∧
    (p.mode = .onLine ∧ filterPace (p.passage .t1).pace (axlePace 18100 1500).pace ≠ 3072 ∧
      (p.passage .t1).matcher.coupling = some { distance := 3000, deadline := 1000000 } ∧
      (p.passage .t1).matcher.pending.getLast? =
        some { ordinal := 2, position := .inner, time := 930000, gap := some 2500 }) ∧
    ((pacing [outerEvent] passage []).front.get .t1).queue = [outerEvent] ∧ outerEvent.transit = none ∧
    outerEvent.direction ≠ .outward ∧ passage.flags.matchSuspended = false := by decide

/-- R46 to R48, R68: the pace goes from 3,072 to 3,076, the timer's deadline and the job's timing follow; R37: an entry
axle without a transit leaves the pace and is handed over with its ordinal. -/
theorem test_pace_changes :
    let p := after (.eventTake .t1) (pacing [slower] farCoupled [taken])
    let q := after (.eventTake .t1) (pacing [outerEvent] passage [taken])
    ((p.passage .t1).pace = some 3076 ∧ p.csc.jobs.map Job.pace = [3076] ∧
      (p.passage .t1).matcher.coupling = some { distance := 3000, deadline := 966047 }) ∧
    (q.passage .t1).pace = some 3072 ∧ q.csc.jobs = [taken] ∧
    (q.passage .t1).matcher.pending.map (fun a => (a.ordinal, a.time)) = [(2, 1008000)] := by decide

theorem witness_EventTakeClassesAxle_cancels :
    let p := pacing [event .outward] passage [taken, { taken with tag := 60, passage := 6 }]
    p.TagsDistinct ∧ ((p.front.get .t1).queue = [event .outward] ∧ (p.passage .t1).entryPair = some (event .outward).pair ∧
      taken.state = .waiting ∧ taken.track = .t1 ∧ taken.passage = (p.passage .t1).number ∧
      p.mgr.control.length + p.mgr.waiting.length + 1 ≤ 16) :=
  ⟨by unfold Part.TagsDistinct; decide, by decide⟩

/-- R41, R38, R111: a backout and a conflict end the jobs of the passage that wait, and no other, each with its cause. -/
theorem test_axle_cancels :
    let js := [taken, { taken with tag := 60, passage := 6 }]
    let p := after (.eventTake .t1) (pacing [event .outward] passage js)
    let q := after (.eventTake .t1) (pacing [event .inward] farPassage js)
    (p.csc.jobs.map Job.tag = [60] ∧
      p.mgr.control.map ControlRecord.body = [.notice (.jobEnded taken 1000000 .cancelled .reversal)]) ∧
    (q.csc.jobs.map Job.tag = [60] ∧
      q.mgr.control.map ControlRecord.body = [.notice (.jobEnded taken 1000000 .cancelled .conflict)]) := by decide

/-! ### Witnesses of the end of a handling, of the sightings of a vehicle, of merges and of ports -/

theorem witness_PassageCloses_general :
    let h (p : Part) := (p.trackers.get .t1).handling
    let l : List Deferred := [.report false, .toService]
    let p := handledWith true [] coupling
    (h p = some { takenAt := 999999, closeDue := true, deferred := [] } ∧ p.couplingPast .t1 = true) ∧
    (h (handledWith false l (opened online { passage with state := .clearing })) =
      some { takenAt := 999999, closeDue := false, deferred := l }) ∧
    (h (handledWith false [.toService] online) = some { takenAt := 999999, closeDue := false, deferred := [.toService] } ∧
      (online.passage .t1).state = .vacant) ∧
    (let q := opened online { coupled with silence := some 1000000 }
     (q.passage .t1).matcher.firstComplete = some { index := 0, facing := .forward, complete := true } ∧
     q.vehicleType 0 = none ∧ (q.passage .t1).silence = some q.now) := by decide

/-- R49, R69: taken first, the expiry hands its sighting on; behind the close the vehicle is counted and none reaches
the schedule. -/
theorem test_coupling_at_handling_end :
    let p (first : Bool) := after (.eventHandlingEnd .t1 first) (handledWith true [] coupling)
    let total (q : Part) := q.mgr.control.map (fun c => match c.body with
      | .notice (.passageClosed _ r _ reason) => some (r.vehicleCount, r.jobCount, reason)
      | _ => none)
    ((p true).csc.jobs.length = 1 ∧ total (p true) = [some (1, 1, .normal)]) ∧
    ((p false).csc.jobs = [] ∧ total (p false) = [some (1, 0, .normal)]) := by decide

/-- R35, R43: the report of CLEAR closes the passage before the change to SERVICE; log 34: a cleared type. -/
theorem test_deferred_in_order :
    let p := after (.eventHandlingEnd .t1 false)
      (handledWith false [.report false, .toService] (opened online { passage with state := .clearing }))
    let q := after (.silenceTimerExpiry .t1) (opened online { coupled with silence := some 1000000 })
    let totals (x : Part) := x.mgr.control.map (fun c => match c.body with
      | .notice (.passageClosed _ r _ reason) => some (r.vehicleCount, r.matcher.unmatched, reason)
      | _ => none)
    totals p = [some (0, 0, .normal)] ∧ (p.passage .t1).state = .vacant ∧ totals q = [some (0, 0, .timedOut)] := by decide

/-- Four axles that make LONG complete both ways, the coupling timer at its deadline. -/
def longCoupled : Part :=
  let a (n : Count16) (t : Time) (g : Option Nat) : PendingAxle :=
    { ordinal := n, position := .inner, time := t, gap := g }
  opened (typed online) { coupled with
    vehicleCount := 4
    matcher := { coupled.matcher with
      pending := [a 7 700000 none, a 8 730000 (some 2500), a 9 838000 (some 9000), a 10 868000 (some 2500)]
      candidates := [{ index := 1, facing := .forward, complete := true },
                     { index := 1, facing := .reversed, complete := true }] } }

theorem witness_CouplingExpiryDeclares_sightings :
    ((longCoupled.trackers.get .t1).handling = none ∧
      (longCoupled.passage .t1).matcher.coupling = some { distance := 3000, deadline := 1000000 } ∧
      reached longCoupled.now 1000000 = true ∧
      (longCoupled.passage .t1).matcher.firstComplete = some { index := 1, facing := .forward, complete := true }) ∧
    ((longCoupled.passage .t1).matcher.pending.length = 4 ∧ longCoupled.vehicleType 1 = some long ∧
      (longCoupled.passage .t1).entryPair = some .pair1 ∧ longCoupled.mode = .onLine) ∧
    ((longCoupled.setMgr { longCoupled.mgr with mode := .standby }).mode ≠ .onLine) ∧
    ({ coupled with entryPair := some .pair2 } : Passage).entryPair = some .pair2 := by decide

/-- R73 to R75: vehicle 5, its two sightings 11,000 mm and 3,000 mm behind its first axle of 700,000 µs, each a job. -/
theorem test_sightings_handed :
    let p := after (.couplingTimerExpiry .t1) longCoupled
    let x (m : Mark) (d : Nat) : Sighting :=
      { vehicle := 5, index := 1, pantograph := 0, mark := m, reference := 700000, distance := d }
    p.csc.jobs.map Job.sightings = [[x .unknownB 45000], [x .unknownA 53000]] ∧
    p.csc.jobs.map Job.entryOrder = [1, 0] ∧
    ((p.passage .t1).vehicleCount, (p.passage .t1).sightingCount, (p.passage .t1).jobCount) = (5, 2, 2) ∧
    (after (.couplingTimerExpiry .t1) (oneWay .reversed [])).csc.jobs.map Job.sightings =
      [[{ vehicle := 1, index := 0, pantograph := 0, mark := .reversed, reference := 900000, distance := 43250 }]] := by
  decide

theorem witness_TagAllocationFindsUnusedTag_lamp :
    let p := lamped (tracked [taken]) lampEntry
    let m := p.computeJob { taken with sightings := taken.sightings ++ [sightingAt 500000 48300] }
    p.lar.entry taken.tag = some lampEntry ∧ reached p.now m.lampRequest = false ∧
    LampPhase.requested ≠ .awaiting := by decide

/-- R119: the entry of the job that a sighting joins is given the new times. -/
theorem test_merged_lamp_entry :
    let entries (ph : LampPhase) := ((lamped (tracked [taken]) { lampEntry with phase := ph }).takeSighting .t1 5
      (sightingAt 500000 48300)).lar.entries
    ∀ ph ∈ [LampPhase.awaiting, .requested], entries ph = [{ lampEntry with
      start := 1068806, stop := 1089206, request := 1068606, phase := ph }] := by decide

theorem witness_PortSyncAndTriggers_full_and_off_grid :
    let p := queues (up part) (List.replicate 16 answer) [] []
    let q : Part := { triggering with tb := { triggering.tb with sub := 30 } }
    ((p.ports.get .t1).up = true ∧ (p.record .t1).enabled = true ∧ p.freePlace = false) ∧
    (q.job 50).map (fun j => ((q.now - j.start).toNat * 100 + q.tb.sub, j.triggered,
      decide ((q.now - j.start).toNat * 100 + q.tb.sub ≤ (j.triggered + 1) * (599 + 1)))) = some (1230, 2, true) := by
  decide

/-- R172: the LINK_DOWN is dropped; log 29: trigger 2 goes at 1,230 counts, and trigger 3 is due at 1,800. -/
theorem test_port_full_and_off_grid :
    let p := after (.cameraSyncLost .t1) (queues (up part) (List.replicate 16 answer) [] [])
    let q := after (.trigger .t1) { triggering with tb := { triggering.tb with sub := 30 } }
    ((p.ports.get .t1).losses = 1 ∧ p.mgr.noticeDrops = 1 ∧ p.mgr.control.length = 16) ∧
    (q.ports.get .t1).generator = some { load := 599, count := 570 } ∧ q.csc.jobs.map Job.triggered = [3] := by decide

end Sys2Proof.Tests
end

