-- ==== Sys2Proof/Proofs/Keeps.lean ====
section
/-! PROOFS. The invariants of the part as one relation: `p.Keeps q` says that `q` meets each invariant that `p` meets.
One rule per update of the part; every operation of the blocks is then a chain of them. -/

namespace Sys2Proof.Machine

/-- `q` meets each of the invariants that `p` meets. -/
structure Part.Keeps (p q : Part) : Prop where
  places : p.WithinPlaces → q.WithinPlaces
  tags   : p.TagsDistinct → q.TagsDistinct
  quiet  : p.QuietInService → q.QuietInService
  clock  : p.ClockInRange → q.ClockInRange
  page   : p.PageGuarded → q.PageGuarded

theorem Part.Keeps.refl (p : Part) : p.Keeps p := ⟨id, id, id, id, id⟩

theorem Part.Keeps.trans {p q r : Part} (h : p.Keeps q) (g : q.Keeps r) : p.Keeps r :=
  ⟨g.places ∘ h.places, g.tags ∘ h.tags, g.quiet ∘ h.quiet, g.clock ∘ h.clock, g.page ∘ h.page⟩

/-- What a front end keeps of its event queue: the 16 places, and in SERVICE the quiet (R10, R13). -/
structure FrontEnd.Tidy (m : Mode) (f g : FrontEnd) : Prop where
  places : f.queue.length ≤ 16 → g.queue.length ≤ 16
  quiet  : m = .service → f.queue = [] → f.loss = false → g.queue = [] ∧ g.loss = false

namespace Part.Keeps

variable {p q r : Part}

/-! ### One rule per update of the part -/

/-- An update that leaves the timebase, the page, the responder, the front ends and the tags of the schedule alone, and
adds nothing to a FIFO or to the fetch queue. -/
theorem blocks (h : p.Keeps q) (tb : r.tb = q.tb) (cal : r.cal = q.cal) (mgr : r.mgr = q.mgr) (front : r.front = q.front)
    (jobs : (r.csc.jobs.map Job.tag).Subperm (q.csc.jobs.map Job.tag))
    (fifos : ∀ k, (r.ports.get k).fifo.length ≤ (q.ports.get k).fifo.length)
    (fetches : r.fsc.fetches.length ≤ q.fsc.fetches.length) : p.Keeps r where
  places w :=
    have w := h.places w
    { intake := by rw [mgr]; exact w.intake
      control := by rw [mgr]; exact w.control
      images := by rw [mgr]; exact w.images
      fetches := fetches.trans w.fetches
      jobs := by
        have := jobs.length_le
        simp only [List.length_map] at this
        exact this.trans w.jobs
      events := by rw [front]; exact w.events
      lines := fun k => (fifos k).trans (w.lines k) }
  tags w := by
    obtain ⟨distinct, named⟩ := h.tags w
    obtain ⟨l, perm, sub⟩ := jobs
    refine ⟨perm.nodup_iff.mp (distinct.sublist sub), fun j hj hz => ?_⟩
    obtain ⟨i, hi, ht⟩ := List.mem_map.mp (sub.subset (perm.mem_iff.mpr (List.mem_map_of_mem hj)))
    exact named i hi (ht.trans hz)
  quiet w := by
    have := h.quiet w
    unfold Part.QuietInService Part.mode at *
    rwa [mgr, front]
  clock w := by
    unfold Part.ClockInRange
    rw [tb]
    exact h.clock w
  page w := by
    unfold Part.PageGuarded
    rw [cal]
    exact h.page w

theorem setTracker {k : Track} {x : Tracker} (h : p.Keeps q) : p.Keeps (q.setTracker k x) :=
  h.blocks rfl rfl rfl rfl (.refl _) (fun _ => le_rfl) le_rfl

theorem setPassage {k : Track} {x : Passage} (h : p.Keeps q) : p.Keeps (q.setPassage k x) := h.setTracker

theorem setMatcher {k : Track} {x : Matcher} (h : p.Keeps q) : p.Keeps (q.setMatcher k x) := h.setTracker

theorem setLar {x : Arbiter} (h : p.Keeps q) : p.Keeps (q.setLar x) :=
  h.blocks rfl rfl rfl rfl (.refl _) (fun _ => le_rfl) le_rfl

theorem setPort {k : Track} {x : Port} (h : p.Keeps q) (hx : x.fifo.length ≤ (q.ports.get k).fifo.length) :
    p.Keeps (q.setPort k x) :=
  h.blocks rfl rfl rfl rfl (.refl _) (fun j => by
    by_cases hj : k = j
    · subst hj; simpa using hx
    · simp [Quad.get_set_other _ (Ne.symm hj)]) le_rfl

theorem setFsc {x : Store} (h : p.Keeps q) (hx : x.fetches.length ≤ q.fsc.fetches.length) : p.Keeps (q.setFsc x) :=
  h.blocks rfl rfl rfl rfl (.refl _) (fun _ => le_rfl) hx

theorem setSlot {n : Nat} {x : Slot} (h : p.Keeps q) : p.Keeps (q.setSlot n x) := h.setFsc le_rfl

theorem modFetch {t : Tag} {f : FetchEntry → FetchEntry} (h : p.Keeps q) : p.Keeps (q.modFetch t f) :=
  h.setFsc (by simp)

theorem removeFetch {t : Tag} (h : p.Keeps q) : p.Keeps (q.removeFetch t) := h.setFsc (List.length_filter_le _ _)

theorem setJobs {js : List Job} (h : p.Keeps q) (hj : (js.map Job.tag).Subperm (q.csc.jobs.map Job.tag)) :
    p.Keeps (q.setJobs js) := h.blocks rfl rfl rfl rfl hj (fun _ => le_rfl) le_rfl

/-- A change to the job of a tag that keeps the tag. -/
theorem modJob {t : Tag} {f : Job → Job} (h : p.Keeps q) (hf : ∀ j, j.tag = t → (f j).tag = t) :
    p.Keeps (q.modJob t f) := by
  refine h.setJobs (List.Perm.subperm (.of_eq ?_))
  rw [List.map_map]
  refine List.map_congr_left fun j _ => ?_
  by_cases ht : j.tag = t
  · simp [ht, hf]
  · simp [ht]

theorem setLamp {t : Tag} {st : LampStatus} (h : p.Keeps q) : p.Keeps (q.setLamp t st) := h.modJob fun _ ht => ht

theorem removeJob {t : Tag} (h : p.Keeps q) : p.Keeps (q.removeJob t) :=
  h.setJobs (List.filter_sublist.map _).subperm

/-- An update of the responder that leaves its mode and adds to no queue of it beyond its places. -/
theorem setMgr {m : Responder} (h : p.Keeps q) (mode : m.mode = q.mgr.mode)
    (intake : q.mgr.intake.length ≤ 4 → m.intake.length ≤ 4)
    (control : q.mgr.control.length ≤ 16 → m.control.length ≤ 16)
    (images : q.mgr.images.length ≤ 2 → m.images.length ≤ 2) : p.Keeps (q.setMgr m) where
  places w :=
    have w := h.places w
    { w with intake := intake w.intake, control := control w.control, images := images w.images }
  tags := h.tags
  quiet w hm := h.quiet w (mode.symm.trans hm)
  clock := h.clock
  page := h.page

/-- A record at the tail of the control queue, where a place is free. -/
theorem pushControl {x : ControlRecord} (h : p.Keeps q) (hp : q.freePlace = true) : p.Keeps (q.pushControl x) :=
  h.setMgr rfl id (fun _ => by
    have := q.freePlace_iff.mp hp
    simp only [List.length_append, List.length_singleton]
    omega) id

theorem reply {x : CommandRecord} {st : Status} {n : Nat} {c : Reply} (h : p.Keeps q) (hp : q.freePlace = true) :
    p.Keeps (q.reply x st n c) := h.pushControl hp

theorem notice {n : Notice} (h : p.Keeps q) : p.Keeps (q.notice n) := by
  unfold Part.notice
  split
  · exact h.pushControl ‹_›
  · exact h.setMgr rfl id id id

theorem placeOrWait {x : ControlRecord} (h : p.Keeps q) : p.Keeps (q.placeOrWait x) := by
  unfold Part.placeOrWait
  split
  · exact h.pushControl ‹_›
  · exact h.setMgr rfl id id id

/-- A front end that keeps the places and the quiet of its event queue. -/
theorem setFront {k : Track} {f : FrontEnd} (h : p.Keeps q) (hf : (q.front.get k).Tidy q.mode f) :
    p.Keeps (q.setFront k f) where
  places w :=
    have w := h.places w
    { w with
      events := fun j => by
        by_cases hj : k = j
        · subst hj; simpa using hf.places (w.events k)
        · simpa [Quad.get_set_other _ (Ne.symm hj)] using w.events j }
  tags := h.tags
  quiet w hm j := by
    have w := h.quiet w hm
    by_cases hj : k = j
    · subst hj; simpa using hf.quiet hm (w k).1 (w k).2
    · simpa [Quad.get_set_other _ (Ne.symm hj)] using w j
  clock := h.clock
  page := h.page

/-- A fold keeps what each of its steps keeps. -/
theorem foldl {α : Type} {f : Part → α → Part} (hf : ∀ (q : Part) (a : α), p.Keeps q → p.Keeps (f q a)) :
    ∀ (l : List α) {q : Part}, p.Keeps q → p.Keeps (l.foldl f q)
  | [], _, h => h
  | a :: l, _, h => foldl hf l (hf _ a h)

end Part.Keeps

/-! ### The schedule order and the tags -/

/-- A job put at its place is one more job (R94). -/
theorem insertJob_perm (now : Time) (j : Job) (l : List Job) : (insertJob now j l).Perm (j :: l) := by
  induction l with
  | nil => exact .refl _
  | cons x l ih =>
    unfold insertJob
    split
    · exact .refl _
    · exact (ih.cons x).trans (.swap j x l)

/-- A schedule put into order is a permutation of it (R94). -/
theorem sortJobs_perm (now : Time) (l : List Job) : (sortJobs now l).Perm l := by
  induction l with
  | nil => exact .refl _
  | cons x l ih => exact (insertJob_perm now x _).trans (ih.cons x)

/-- R95: the tags go round through 1 to 255. -/
theorem nextTag_toNat (t : Tag) : (nextTag t).toNat = t.toNat % 255 + 1 := by
  have ht := t.isLt
  unfold nextTag
  split
  · subst t; rfl
  · rename_i hne
    have h255 : t.toNat ≠ 255 := fun h => hne (BitVec.eq_of_toNat_eq h)
    rw [BitVec.toNat_add, show (1 : Tag).toNat = 1 from rfl]
    omega

theorem nextTag_ne_zero (t : Tag) : nextTag t ≠ 0 := by
  intro h
  have := nextTag_toNat t
  rw [h] at this
  simp at this

/-- The tag reached after some steps of the counter. -/
theorem nextTag_iterate_toNat (t : Tag) (i : Nat) : (nextTag^[i + 1] t).toNat = (t.toNat + i) % 255 + 1 := by
  induction i with
  | zero => exact nextTag_toNat t
  | succ i ih =>
    rw [Function.iterate_succ_apply', nextTag_toNat, ih]
    omega

/-- The tags that R95 has in use, and those of FREE slots. -/
def Part.tagsAbout (p : Part) : List Tag := p.csc.jobs.map Job.tag ++ p.fsc.slots.toList.map Slot.tag

theorem Part.mem_tagsAbout {p : Part} {t : Tag} (h : p.tagUsed t = true) : t ∈ p.tagsAbout := by
  unfold Part.tagUsed at h
  rw [Bool.or_eq_true] at h
  refine List.mem_append.mpr (h.imp (fun h => ?_) (fun h => ?_))
  · obtain ⟨j, hj, ht⟩ := List.any_eq_true.mp h
    exact List.mem_map.mpr ⟨j, hj, by simpa using ht⟩
  · obtain ⟨n, hn⟩ := Option.isSome_iff_exists.mp h
    have hs := List.find?_some hn
    cases hx : p.slot n with
    | none => simp [hx] at hs
    | some x =>
      have hlt := Part.slot_lt hx
      simp only [hx, Option.map_some, Option.getD_some, Bool.and_eq_true, beq_iff_eq] at hs
      refine List.mem_map.mpr ⟨x, ?_, hs.2⟩
      unfold Part.slot at hx
      exact Vector.mem_toList_iff.mpr (Vector.mem_of_getElem? hx)

/-- R95: a counter that meets a tag not in use stops at one. -/
theorem Part.allocateTag_unused (p : Part) : ∀ (n : Nat) (t : Tag),
    (∃ i < n, p.tagUsed (nextTag^[i + 1] t) = false) → p.tagUsed (p.allocateTag n t) = false ∧ p.allocateTag n t ≠ 0
  | 0, _, ⟨_, hi, _⟩ => absurd hi (Nat.not_lt_zero _)
  | n + 1, t, ⟨i, hi, hu⟩ => by
    unfold Part.allocateTag
    cases hn : p.tagUsed (nextTag t) with
    | false => exact ⟨hn, nextTag_ne_zero t⟩
    | true =>
      refine p.allocateTag_unused n (nextTag t) ?_
      cases i with
      | zero => exact absurd (hn.symm.trans hu) (by decide)
      | succ i => exact ⟨i, Nat.lt_of_succ_lt_succ hi, hu⟩

/-- R95: with a place left in the schedule a tag is found that nothing uses: at most 31 jobs and 64 slots stand against
255 tags. -/
theorem Part.allocateTag_fresh {p : Part} (h : p.csc.jobs.length < 32) (t : Tag) :
    p.tagUsed (p.allocateTag 255 t) = false ∧ p.allocateTag 255 t ≠ 0 := by
  refine p.allocateTag_unused 255 t ?_
  by_contra hall
  have used : ∀ i < 255, p.tagUsed (nextTag^[i + 1] t) = true := fun i hi => by
    rw [← Bool.not_eq_false]
    exact fun hf => hall ⟨i, hi, hf⟩
  have nodup : ((List.range 255).map fun i => nextTag^[i + 1] t).Nodup := by
    refine List.Nodup.map_on (fun i hi j hj hij => ?_) List.nodup_range
    have := congrArg BitVec.toNat hij
    rw [nextTag_iterate_toNat, nextTag_iterate_toNat] at this
    rw [List.mem_range] at hi hj
    omega
  have sub : ((List.range 255).map fun i => nextTag^[i + 1] t) ⊆ p.tagsAbout := fun u hu => by
    obtain ⟨i, hi, rfl⟩ := List.mem_map.mp hu
    exact Part.mem_tagsAbout (used i (List.mem_range.mp hi))
  have := (List.subperm_of_subset nodup sub).length_le
  rw [List.length_map, List.length_range, Part.tagsAbout, List.length_append, List.length_map, List.length_map,
    Vector.length_toList] at this
  omega

end Sys2Proof.Machine
end

