-- ==== Sys2Proof/Proofs/KeepsBlocks.lean ====
section
/-! PROOFS. Every operation of the arbiter, the retrieval, the camera ports and the capture scheduler keeps the
invariants. -/

namespace Sys2Proof.Machine.Part.Keeps

variable {p q : Part}

/-! ### Lamp arbiter -/

theorem grant (h : p.Keeps q) : p.Keeps q.grant := by
  unfold Part.grant
  split
  · exact h.setLar.setLamp
  · exact h

theorem endService {k : Track} {t : Tag} (h : p.Keeps q) : p.Keeps (q.endService k t) := h.setLar.grant

theorem lampWindowEnd {t : Tag} (h : p.Keeps q) : p.Keeps (q.lampWindowEnd t) := by
  unfold Part.lampWindowEnd
  split
  · exact h
  · split
    · exact h.endService
    · exact h.setLar
    · exact h.setLar.setLamp
    all_goals exact h.setLar.setLamp.grant

theorem lampJobEnd {t : Tag} (h : p.Keeps q) : p.Keeps (q.lampJobEnd t) := by
  unfold Part.lampJobEnd
  split
  · exact h
  · split
    · exact h.endService
    · exact h.setLar
    · exact h.setLar
    all_goals exact h.setLar.grant

theorem requestTime {t : Tag} (h : p.Keeps q) : p.Keeps (q.requestTime t) := by
  unfold Part.requestTime
  split
  · unfold Part.decideRequest
    split
    · exact h
    · dsimp only
      split
      · exact h.setLar.setLamp
      · split
        · exact h.setLar.setLamp
        · exact h.setLar.setLamp.grant
  · exact h

theorem enterLamp {j : Job} (h : p.Keeps q) : p.Keeps (q.enterLamp j) := h.setLar.requestTime

theorem giveTimes {j : Job} (h : p.Keeps q) : p.Keeps (q.giveTimes j) := by
  unfold Part.giveTimes
  split
  · exact h
  · split
    · exact h
    · exact h.setLar.requestTime

theorem recoveryEnd (h : p.Keeps q) : p.Keeps q.recoveryEnd := by
  unfold Part.recoveryEnd
  split
  · exact h.setLar.grant
  · exact h

/-! ### Image retrieval -/

theorem finishFetch {e : FetchEntry} (h : p.Keeps q) : p.Keeps (q.finishFetch e) := by
  unfold Part.finishFetch
  dsimp only
  split
  · exact (h.pushControl ‹_›).removeFetch
  · exact h.modFetch.placeOrWait

theorem kickEngine (h : p.Keeps q) : p.Keeps q.kickEngine := by
  unfold Part.kickEngine
  split
  · exact h
  · split
    · exact h
    · exact setFsc h.modFetch le_rfl

/-- A frame is placed where the image data queue holds fewer than two (R159). -/
theorem placeFrame {f : ImageFrame} (h : p.Keeps q) (hq : q.mgr.images.length < 2) : p.Keeps (q.placeFrame f) := by
  have placed : p.Keeps (q.setMgr { q.mgr with images := q.mgr.images ++ [f] }) :=
    h.setMgr rfl id id (fun _ => by
      simp only [List.length_append, List.length_singleton]
      omega)
  unfold Part.placeFrame
  dsimp only
  split
  · exact kickEngine (setFsc placed.modFetch le_rfl)
  · exact setFsc placed.modFetch le_rfl

theorem completeFrame {f : ImageFrame} (h : p.Keeps q) : p.Keeps (q.completeFrame f) := by
  unfold Part.completeFrame
  split
  · exact h.placeFrame ‹_›
  · exact h.setFsc le_rfl

theorem engineRead {g : ReadEngine} (h : p.Keeps q) : p.Keeps (q.engineRead g) := by
  unfold Part.engineRead
  split
  · exact h.completeFrame
  · split
    · exact h
    · dsimp only
      split
      · exact completeFrame (setFsc h le_rfl)
      · exact h.setFsc le_rfl

theorem completeRead (h : p.Keeps q) : p.Keeps q.completeRead := by
  unfold Part.completeRead
  split
  · dsimp only
    split
    · exact h.setFsc le_rfl
    · exact engineRead (setFsc h le_rfl)
  · exact h

theorem readTurn (h : p.Keeps q) : p.Keeps q.readTurn := by
  unfold Part.readTurn
  split
  · exact h.completeRead
  · exact h

theorem placeKept (h : p.Keeps q) : p.Keeps q.placeKept := by
  unfold Part.placeKept
  split
  · split
    · split
      · exact h.placeFrame ‹_›
      · exact h
    · exact h
  · exact h

theorem endDelivery {t : Tag} (h : p.Keeps q) : p.Keeps (q.endDelivery t) := by
  unfold Part.endDelivery
  split
  · exact h
  · exact h.finishFetch

/-! ### Camera ports -/

theorem modPortJob {k : Track} {f : Job → Job} (h : p.Keeps q) (hf : ∀ j, (f j).tag = j.tag) :
    p.Keeps (q.modPortJob k f) := by
  unfold Part.modPortJob
  split
  · exact h.modJob fun j ht => (hf j).trans ht
  · exact h

theorem syncLost {k : Track} (h : p.Keeps q) : p.Keeps (q.syncLost k) := by
  unfold Part.syncLost
  dsimp only
  split
  · split
    · exact notice (setPort h le_rfl)
    · exact h.setPort le_rfl
  · exact h

theorem syncFound {k : Track} (h : p.Keeps q) : p.Keeps (q.syncFound k) := setPort h le_rfl

theorem writeLine {k : Track} {l : Line} (h : p.Keeps q) : p.Keeps (q.writeLine k l) := by
  unfold Part.writeLine
  split
  · exact h
  · dsimp only
    split
    · exact modJob h.setSlot fun _ ht => ht
    · exact h.modJob fun _ ht => ht

theorem flushFifo {k : Track} (h : p.Keeps q) : p.Keeps (q.flushFifo k) :=
  setPort (foldl (fun _ _ h => h.writeLine) _ h) (Nat.zero_le _)

theorem finishDrain {k : Track} {kind : DrainEnd} {n : Nat} (h : p.Keeps q) : p.Keeps (q.finishDrain k kind n) := by
  unfold Part.finishDrain
  split
  · exact h
  · split
    · exact h
    · dsimp only
      split
      · exact kickEngine (notice (removeJob (setSlot (setPort h le_rfl))))
      · exact kickEngine (notice (removeJob (setPort h le_rfl)))

theorem checkDrain {k : Track} (h : p.Keeps q) : p.Keeps (q.checkDrain k) := by
  unfold Part.checkDrain
  split
  · split
    · exact h.finishDrain
    · exact h
  · exact h

theorem finishTurn {k : Track} (h : p.Keeps q) : p.Keeps (q.finishTurn k) := by
  have ended : p.Keeps (q.setFsc { q.fsc with turn := none }) := h.setFsc le_rfl
  unfold Part.finishTurn
  dsimp only
  split
  · exact ended
  · rename_i l rest hf
    exact checkDrain (writeLine (setPort ended (by rw [hf]; exact Nat.le_succ _)))

theorem completeTurn {k : Track} (h : p.Keeps q) : p.Keeps (q.completeTurn k) := by
  unfold Part.completeTurn
  split
  · split
    · exact h.finishTurn
    · exact h
  · exact h

theorem flushDrain {k : Track} {kind : DrainEnd} (h : p.Keeps q) : p.Keeps (q.flushDrain k kind) := by
  unfold Part.flushDrain
  dsimp only
  split
  · exact h.flushFifo
  · exact finishDrain (modPortJob h.flushFifo fun _ => rfl)

theorem forceDrain {k : Track} {kind : DrainEnd} (h : p.Keeps q) : p.Keeps (q.forceDrain k kind) := by
  unfold Part.forceDrain
  dsimp only
  split
  · exact h.completeTurn.flushDrain
  · exact h.completeTurn

theorem drainDeadline {t : Tag} (h : p.Keeps q) : p.Keeps (q.drainDeadline t) := by
  unfold Part.drainDeadline
  split
  · split
    · exact h.forceDrain
    · exact h
  · exact h

theorem trigger {k : Track} (h : p.Keeps q) : p.Keeps (q.trigger k) := by
  unfold Part.trigger
  split
  · split
    · exact modPortJob (setPort h le_rfl) fun _ => rfl
    · exact h
  · exact h

theorem pulseEnd {k : Track} (h : p.Keeps q) : p.Keeps (q.pulseEnd k) := by
  unfold Part.pulseEnd
  split
  · exact h.setPort le_rfl
  · exact h

theorem strayLine {k : Track} (h : p.Keeps q) : p.Keeps (q.strayLine k) := h.setPort le_rfl

/-- R138: the eighth place of a FIFO is the last that a line takes. -/
theorem offerLine {k : Track} {l : Line} (h : p.Keeps q) : p.Keeps (q.offerLine k l) := by
  unfold Part.offerLine
  dsimp only
  split
  · rename_i room
    refine ⟨fun w => ?_, h.tags, h.quiet, h.clock, h.page⟩
    have w := h.places w
    refine { w with lines := fun j => ?_ }
    by_cases hj : j = k
    · subst hj
      simp only [Part.setPort_ports, Quad.get_set_self, List.length_append, List.length_singleton]
      omega
    · rw [Part.setPort_ports, Quad.get_set_other _ hj]
      exact w.lines j
  · exact modPortJob (setPort h le_rfl) fun _ => rfl

theorem takeLine {k : Track} {pk : LinePacket} {g : Bool} (h : p.Keeps q) : p.Keeps (q.takeLine k pk g) := by
  unfold Part.takeLine
  split
  · exact h.offerLine
  · exact modPortJob (setPort h le_rfl) fun _ => rfl

theorem linePacket {k : Track} {pk : LinePacket} (h : p.Keeps q) : p.Keeps (q.linePacket k pk) := by
  unfold Part.linePacket
  dsimp only
  split
  · split
    · exact h.strayLine
    · exact h.strayLine
    · split
      · exact h.strayLine
      · split
        · exact h.takeLine.checkDrain
        · split
          · exact h.strayLine
          · split
            · exact h.takeLine.checkDrain
            · exact checkDrain (takeLine (modPortJob h fun _ => rfl))
  · exact h

theorem writeTurn {k : Track} (h : p.Keeps q) : p.Keeps (q.writeTurn k) := by
  unfold Part.writeTurn
  split
  · exact h.finishTurn
  · exact h

theorem beginTurn (h : p.Keeps q) : p.Keeps q.beginTurn := by
  unfold Part.beginTurn
  split
  · exact h
  · split
    · exact h
    · exact h.setFsc le_rfl

/-! ### Capture scheduler -/

theorem resort (h : p.Keeps q) : p.Keeps q.resort := h.setJobs ((sortJobs_perm _ _).map _).subperm

theorem replaceJob {j : Job} (h : p.Keeps q) : p.Keeps (q.replaceJob j) := resort (modJob h fun _ _ => rfl)

theorem endJob {t : Tag} {r : EndReason} {c : CancelCause} (h : p.Keeps q) : p.Keeps (q.endJob t r c) := by
  unfold Part.endJob
  split
  · exact h
  · exact h.lampJobEnd.removeJob.notice

theorem cancelJobs {f : Job → Bool} {c : CancelCause} (h : p.Keeps q) : p.Keeps (q.cancelJobs f c) :=
  foldl (fun _ _ h => h.endJob) _ h

theorem openJob {t : Tag} (h : p.Keeps q) : p.Keeps (q.openJob t) := by
  unfold Part.openJob
  split
  · exact h
  · split
    · exact h.endJob
    · split
      · dsimp only
        split
        · exact modJob (setPort (setSlot h.forceDrain) le_rfl) fun _ ht => ht
        · exact modJob (setPort (setSlot h) le_rfl) fun _ ht => ht
      · exact h.endJob

theorem openIfDue {t : Tag} (h : p.Keeps q) : p.Keeps (q.openIfDue t) := by
  unfold Part.openIfDue
  split
  · exact h.openJob
  · exact h

theorem endWindow {t : Tag} {b : Time} (h : p.Keeps q) : p.Keeps (q.endWindow t b) := by
  unfold Part.endWindow
  split
  · exact h
  · exact checkDrain (modJob (lampWindowEnd (setPort h le_rfl)) fun _ ht => ht)

theorem windowEnd {t : Tag} (h : p.Keeps q) : p.Keeps (q.windowEnd t) := by
  unfold Part.windowEnd
  split
  · split
    · exact h.endWindow
    · exact h
  · exact h

theorem settleOne {k : Track} {a : Part × List Tag} {t : Tag} (h : p.Keeps a.1) :
    p.Keeps (Part.settleOne k a t).1 := by
  unfold Part.settleOne
  dsimp only
  split
  · exact h
  · split
    · exact h.replaceJob.endJob
    · exact h.replaceJob

theorem settleAll {k : Track} : ∀ (l : List Tag) {a : Part × List Tag}, p.Keeps a.1 →
    p.Keeps (l.foldl (Part.settleOne k) a).1
  | [], _, h => h
  | _ :: l, _, h => settleAll l h.settleOne

theorem settleOpen {t : Tag} (h : p.Keeps q) : p.Keeps (q.settleOpen t) := by
  unfold Part.settleOpen
  split
  · exact h
  · split
    · exact h.replaceJob.giveTimes.openJob
    · exact h

theorem passTimes {t : Tag} (h : p.Keeps q) : p.Keeps (q.passTimes t) := by
  unfold Part.passTimes
  split
  · exact h
  · split
    · exact h.giveTimes
    · exact h

theorem settleTrack {k : Track} {l : List Tag} (h : p.Keeps q) : p.Keeps (q.settleTrack k l) := by
  have late : p.Keeps (q.settleLate l) := foldl (fun _ _ h => h.endJob) _ h
  exact foldl (fun _ _ h => h.passTimes) _ (foldl (fun _ _ h => h.settleOpen) _ (settleAll _ late))

theorem retime {k : Track} {f : Job → Bool} (h : p.Keeps q) : p.Keeps (q.retime k f) := by
  unfold Part.retime
  dsimp only
  split
  · exact h
  · refine settleTrack (resort (setJobs h (List.Perm.subperm (.of_eq ?_))))
    rw [List.map_map]
    refine List.map_congr_left fun j _ => ?_
    simp only [Function.comp]
    split <;> rfl

theorem retimePassage {k : Track} {n : Count16} (h : p.Keeps q) : p.Keeps (q.retimePassage k n) := by
  unfold Part.retimePassage
  split
  · exact h.retime
  · exact h

/-- R94, R95, R99: a job enters the schedule where a place is left, under a tag that nothing uses. -/
theorem placeJob {own j : Job} {s : Sighting} (h : p.Keeps q) : p.Keeps (q.placeJob own j s) := by
  unfold Part.placeJob
  split
  · exact h.notice
  · rename_i full
    dsimp only
    have room : q.csc.jobs.length < 32 := Nat.not_le.mp full
    obtain ⟨unused, named⟩ := Part.allocateTag_fresh room q.csc.tagCounter
    refine openIfDue (enterLamp (setPassage ⟨fun w => ?_, fun w => ?_, h.quiet, h.clock, h.page⟩))
    · exact { h.places w with jobs := by rw [insertJob_length]; omega }
    · obtain ⟨distinct, others⟩ := h.tags w
      refine ⟨((insertJob_perm _ _ _).map _).nodup_iff.mpr (List.nodup_cons.mpr ⟨fun hm => ?_, distinct⟩),
        fun x hx => ?_⟩
      · obtain ⟨i, hi, ht⟩ := List.mem_map.mp hm
        unfold Part.tagUsed at unused
        rw [Bool.or_eq_false_iff, List.any_eq_false] at unused
        exact unused.1 i hi (beq_iff_eq.mpr ht)
      · rcases mem_insertJob.mp hx with rfl | hx
        · exact named
        · exact others x hx

theorem takeSighting {k : Track} {n : Count16} {s : Sighting} (h : p.Keeps q) : p.Keeps (q.takeSighting k n s) := by
  unfold Part.takeSighting
  dsimp only
  split
  · exact h.notice
  · split
    · exact h.placeJob
    · split
      · exact h.replaceJob.giveTimes.openIfDue
      · split
        · exact h.notice
        · exact h.placeJob

theorem abortWindow {t : Tag} (h : p.Keeps q) : p.Keeps (q.abortWindow t) :=
  endWindow (modJob h fun _ ht => ht)

theorem schedulerToService (h : p.Keeps q) : p.Keeps q.schedulerToService :=
  foldl (fun q j h => by
    split
    · exact h.endJob
    · exact h.abortWindow
    · exact h) _ h

end Sys2Proof.Machine.Part.Keeps
end

