-- ==== Sys2Proof/Proofs/KeepsTracks.lean ====
section
/-! PROOFS. Every operation of the matcher, the passage tracker and the sensor front end keeps the invariants. -/

namespace Sys2Proof.Machine

/-! ### The event queue of a front end (R10, R12, R13) -/

namespace FrontEnd.Tidy

variable {m : Mode} {f g x : FrontEnd}

theorem refl (m : Mode) (f : FrontEnd) : f.Tidy m f := ⟨id, fun _ hq hl => ⟨hq, hl⟩⟩

theorem trans (h : f.Tidy m g) (k : g.Tidy m x) : f.Tidy m x :=
  ⟨k.places ∘ h.places, fun hm hq hl =>
    have ⟨hq', hl'⟩ := h.quiet hm hq hl
    k.quiet hm hq' hl'⟩

/-- A front end whose queue and latch are as they were. -/
theorem of_eq (hq : g.queue = f.queue) (hl : g.loss = f.loss) : f.Tidy m g :=
  ⟨fun h => by rwa [hq], fun _ h1 h2 => ⟨hq.trans h1, hl.trans h2⟩⟩

theorem setPair (f : FrontEnd) (i : PairId) (s : SensorPair) : f.Tidy m (f.setPair i s) := by
  cases i <;> exact of_eq rfl rfl

/-- R10, R13: an event joins a queue with a place, and in SERVICE none. -/
theorem offer (f : FrontEnd) (m : Mode) (e : AxleEvent) : f.Tidy m (f.offer m e) := by
  rcases f.offer_cases m e with ⟨-, h⟩ | ⟨hm, room, h⟩ | ⟨hm, -, h⟩
  · rw [h]; exact refl m f
  · rw [h]
    refine ⟨fun _ => ?_, fun h => absurd h hm⟩
    simp only [List.length_append, List.length_singleton]
    omega
  · rw [h]; exact ⟨id, fun h => absurd h hm⟩

theorem formSingle (f : FrontEnd) (m : Mode) (i : PairId) (w : WaitingPulse) : f.Tidy m (f.formSingle m i w) :=
  (setPair f i _).trans (offer _ _ _)

theorem pulse (f : FrontEnd) (m : Mode) (r : TrackRecord) (i : PairId) (h : HeadId) (stamp : Time) :
    f.Tidy m (f.pulse m r i h stamp) := by
  unfold FrontEnd.pulse
  dsimp only
  split
  · exact formSingle f m i _
  · split
    · exact setPair f i _
    · split
      · exact (formSingle f m i _).trans (setPair _ _ _)
      · split
        · exact (setPair f i _).trans (offer _ _ _)
        · exact (formSingle f m i _).trans (setPair _ _ _)

theorem flushWaiting (f : FrontEnd) (m : Mode) (i : PairId) : f.Tidy m (f.flushWaiting m i) := by
  unfold FrontEnd.flushWaiting
  split
  · exact refl m f
  · exact (setPair f i _).trans (formSingle _ m i _)

/-- R12: a take leaves one event fewer, and an empty queue empty. -/
theorem dequeue (f : FrontEnd) (m : Mode) : f.Tidy m f.dequeue := by
  refine ⟨fun h => ?_, fun _ hq hl => ?_⟩
  · simp only [FrontEnd.dequeue, List.length_tail]
    omega
  · simp [FrontEnd.dequeue, hq, hl]

theorem onRecord (f : FrontEnd) (r : TrackRecord) (now : Time) : f.Tidy m (f.onRecord r now) := of_eq rfl rfl

end FrontEnd.Tidy

namespace Part.Keeps

variable {p q : Part}

/-! ### Axle pattern matcher -/

theorem flagNoSpeed {k : Track} (h : p.Keeps q) : p.Keeps (q.flagNoSpeed k) := by
  unfold Part.flagNoSpeed
  split
  · exact h
  · exact h.setPassage

theorem handSighting {k : Track} {c : Bool} {s : Sighting} (h : p.Keeps q) : p.Keeps (Part.handSighting k c q s) := by
  unfold Part.handSighting
  dsimp only
  split
  · exact h.setPassage.takeSighting
  · exact h.setPassage

theorem declare {k : Track} {c : Bool} {x : Candidate} (h : p.Keeps q) : p.Keeps (q.declare k c x) := by
  unfold Part.declare
  dsimp only
  split
  · exact setMatcher (foldl (fun _ _ h => h.handSighting) _ h.setPassage)
  · exact h.setMatcher

theorem arrive {k : Track} {a : PendingAxle} {g : Nat} (h : p.Keeps q) : p.Keeps (q.arrive k a g) := by
  unfold Part.arrive
  dsimp only
  split
  · exact h.setMatcher
  · split
    · split
      · exact h.declare.setMatcher
      · exact h.setPassage
    · exact h.setMatcher

theorem startCoupling {k : Track} (h : p.Keeps q) : p.Keeps (q.startCoupling k) := by
  unfold Part.startCoupling
  dsimp only
  split
  · exact h.flagNoSpeed.setMatcher
  · exact h

theorem innerTime {k : Track} {i : PairId} {d : HeadId} {t : Time} (h : p.Keeps q) :
    p.Keeps (q.innerTime k i d t).1 := by
  unfold Part.innerTime
  split
  · exact h
  · exact h.flagNoSpeed

theorem measureGap {k : Track} {t : Time} (h : p.Keeps q) : p.Keeps (q.measureGap k t).1 := by
  unfold Part.measureGap
  split
  · exact h
  · dsimp only
    split
    · exact h
    · exact h.flagNoSpeed

theorem handAxle {k : Track} {e : AxleEvent} {n : Count16} (h : p.Keeps q) : p.Keeps (q.handAxle k e n) :=
  h.setMatcher.innerTime.measureGap.arrive.startCoupling

theorem moveCoupling {k : Track} (h : p.Keeps q) : p.Keeps (q.moveCoupling k) := by
  unfold Part.moveCoupling
  dsimp only
  split
  · exact h.setMatcher
  · exact h

theorem expireCoupling {k : Track} (h : p.Keeps q) : p.Keeps (q.expireCoupling k) := by
  unfold Part.expireCoupling
  split
  · exact h.declare
  · exact h.setMatcher

theorem finishMatching {k : Track} (h : p.Keeps q) : p.Keeps (q.finishMatching k) := by
  unfold Part.finishMatching
  dsimp only
  split
  · exact h.declare
  · exact h.setPassage

/-! ### Passage tracker -/

theorem closePassage {k : Track} {r : CloseReason} (h : p.Keeps q) : p.Keeps (q.closePassage k r) := by
  unfold Part.closePassage
  split
  · exact h
  · exact h.finishMatching.notice.setPassage

theorem takeDeferred {k : Track} {d : Deferred} (h : p.Keeps q) : p.Keeps (Part.takeDeferred k q d) := by
  cases d with
  | report occupied =>
    show p.Keeps (q.takeReport k occupied)
    unfold Part.takeReport
    split
    · exact h.closePassage
    · exact h
  | toService => exact h.closePassage
  | reset => exact h.setPassage

theorem reachTracker {k : Track} {d : Deferred} (h : p.Keeps q) : p.Keeps (q.reachTracker k d) := by
  unfold Part.reachTracker
  split
  · exact h.setTracker
  · exact h.takeDeferred

theorem updatePace {k : Track} {i : PairId} {t : Option Nat} (h : p.Keeps q) : p.Keeps (q.updatePace k i t) := by
  unfold Part.updatePace
  split
  · exact h
  · dsimp only
    split
    · exact h.setPassage
    · exact h.setPassage.moveCoupling.retimePassage

theorem entryAxle {k : Track} {e : AxleEvent} (h : p.Keeps q) : p.Keeps (q.entryAxle k e) := by
  unfold Part.entryAxle
  dsimp only
  split
  · exact h.setPassage.updatePace
  · exact h.setPassage.updatePace.handAxle

theorem backout {k : Track} (h : p.Keeps q) : p.Keeps (q.backout k) := h.setPassage.cancelJobs.setPassage

theorem conflict {k : Track} (h : p.Keeps q) : p.Keeps (q.conflict k) := h.setPassage.cancelJobs.setPassage

theorem classify {k : Track} {e : AxleEvent} (h : p.Keeps q) : p.Keeps (q.classify k e) := by
  unfold Part.classify
  split
  · split
    · exact h.backout
    · exact h.entryAxle
  · split
    · exact h.conflict
    · exact h.setPassage.updatePace

theorem handleEvent {k : Track} {e : AxleEvent} {m : Bool} (h : p.Keeps q) : p.Keeps (q.handleEvent k e m) :=
  h.setPassage.classify.setTracker

theorem takeEvent {k : Track} (h : p.Keeps q) : p.Keeps (q.takeEvent k) := by
  have taken : p.Keeps (q.setFront k (q.front.get k).dequeue) := h.setFront (.dequeue _ _)
  unfold Part.takeEvent
  split
  · dsimp only
    split
    · exact h
    · split
      · split
        · exact taken.setTracker
        · exact taken.setPassage.handleEvent
      · exact taken.handleEvent
  · exact h

theorem couplingAtEnd {k : Track} (h : p.Keeps q) : p.Keeps (q.couplingAtEnd k) := by
  unfold Part.couplingAtEnd
  split
  · exact h.expireCoupling
  · exact h

theorem endHandling {k : Track} {c : Bool} (h : p.Keeps q) : p.Keeps (q.endHandling k c) := by
  unfold Part.endHandling
  split
  · exact h
  · dsimp only
    refine couplingAtEnd (foldl (fun _ _ h => h.takeDeferred) _ ?_)
    split
    · refine closePassage ?_
      split
      · exact h.setTracker.couplingAtEnd
      · exact h.setTracker
    · split
      · exact h.setTracker.couplingAtEnd
      · exact h.setTracker

theorem silenceExpiry {k : Track} (h : p.Keeps q) : p.Keeps (q.silenceExpiry k) := by
  unfold Part.silenceExpiry
  split
  · exact h.closePassage
  · exact h

theorem couplingExpiry {k : Track} (h : p.Keeps q) : p.Keeps (q.couplingExpiry k) := by
  unfold Part.couplingExpiry
  split
  · exact h.expireCoupling
  · exact h

theorem occupancyChange {k : Track} (h : p.Keeps q) : p.Keeps (q.occupancyChange k) := setFront h (.of_eq rfl rfl)

theorem settleExpiry {k : Track} (h : p.Keeps q) : p.Keeps (q.settleExpiry k) := by
  unfold Part.settleExpiry
  split
  · exact reachTracker (setFront h (.of_eq rfl rfl))
  · exact h

/-- R5, R24: a record replaces that of its track. -/
theorem writeRecord {k : Track} {r : TrackRecord} (h : p.Keeps q) : p.Keeps (q.writeRecord k r) := by
  have written : p.Keeps { q with
      records := q.records.set k r, front := q.front.set k ((q.front.get k).onRecord r q.now) } :=
    (h.setFront (.onRecord _ r q.now)).blocks rfl rfl rfl rfl (.refl _) (fun _ => le_rfl) le_rfl
  unfold Part.writeRecord
  dsimp only
  split
  · exact written.reachTracker
  · exact written

theorem loadRecords {l : Quad TrackRecord} (h : p.Keeps q) : p.Keeps (q.loadRecords l) :=
  foldl (fun _ _ h => h.writeRecord) _ h

/-! ### Sensor front end -/

theorem setHead {k : Track} {i : PairId} {d : HeadId} {x : Head} (h : p.Keeps q) : p.Keeps (q.setHead k i d x) :=
  h.setFront (.setPair _ _ _)

theorem headInputActive {k : Track} {i : PairId} {d : HeadId} (h : p.Keeps q) : p.Keeps (q.headInputActive k i d) := by
  unfold Part.headInputActive
  dsimp only
  split
  · exact h
  · split
    · exact h.setHead
    · exact h.setHead

theorem headInputInactive {k : Track} {i : PairId} {d : HeadId} (h : p.Keeps q) :
    p.Keeps (q.headInputInactive k i d) := by
  unfold Part.headInputInactive
  dsimp only
  split
  · split
    · exact h.setHead
    · exact h.setHead
  · exact h

theorem firstSample {k : Track} {i : PairId} {d : HeadId} (h : p.Keeps q) : p.Keeps (q.firstSample k i d) := by
  unfold Part.firstSample
  dsimp only
  split
  · split
    · exact h.setHead
    · exact h
  · exact h

theorem secondSample {k : Track} {i : PairId} {d : HeadId} (h : p.Keeps q) : p.Keeps (q.secondSample k i d) := by
  unfold Part.secondSample
  dsimp only
  split
  · split
    · split
      · exact setFront h.setHead (.pulse _ _ _ _ _ _)
      · exact h.setHead
    · exact h
  · exact h

theorem stuckLimit {k : Track} {i : PairId} {d : HeadId} (h : p.Keeps q) : p.Keeps (q.stuckLimit k i d) := by
  unfold Part.stuckLimit
  split
  · exact notice (setFront h.setHead (.flushWaiting _ _ _))
  · exact h

theorem ceilingExpiry {k : Track} {i : PairId} (h : p.Keeps q) : p.Keeps (q.ceilingExpiry k i) := by
  unfold Part.ceilingExpiry
  split
  · exact h.setFront (.flushWaiting _ _ _)
  · exact h

end Part.Keeps

end Sys2Proof.Machine
end

