-- ==== Sys2Proof/Proofs/KeepsSteps.lean ====
section
/-! PROOFS. What RESET_PART, a power-on reset and a mode change leave of the invariants; every command and every step
keeps them (O7, O8), and the state right after reset meets them (O9). -/

namespace Sys2Proof.Machine

/-! ### RESET_PART, said once (R182) -/

/-- R55: a tracker after RESET_PART: the reset waits for the end of a handling, or clears the record at once. -/
def Tracker.onReset (t : Tracker) : Tracker :=
  match t.handling with
  | some h => { t with stray := 0, handling := some { h with deferred := h.deferred ++ [.reset] } }
  | none => { t with stray := 0, passage := Passage.vacant t.passage.number }

theorem Part.resetTracker_eq (p : Part) (k : Track) :
    p.resetTracker k = p.setTracker k (p.trackers.get k).onReset := by
  unfold Part.resetTracker Part.reachTracker Tracker.onReset
  cases h : (p.trackers.get k).handling <;>
    simp [Part.setTracker, Part.takeDeferred, Part.clearPassage, Part.setPassage, Part.passage, h]

theorem Part.resetTrackers_eq (p : Part) :
    Track.all.foldl Part.resetTracker p = { p with trackers := p.trackers.map Tracker.onReset } := by
  simp only [Track.all, List.foldl_cons, List.foldl_nil, Part.resetTracker_eq]
  rfl

/-- R182: the whole of RESET_PART. -/
theorem Part.runResetPart_eq (r : CommandRecord) (p : Part) :
    p.runResetPart r = { p with
      front := p.resetFront.front
      trackers := p.trackers.map Tracker.onReset
      csc := { p.csc with jobs := [] }
      lar := p.lampReset.lar
      ports := p.ports.map Port.onReset
      fsc := p.fsc.onReset
      mgr := { p.mgr with
        mode := .service, intake := [], waiting := [], images := [], intakeDrops := 0, noticeDrops := 0, ignored := 0
        control := [r.answer .ok 0
          (.reset p.mgr.intake.length (p.mgr.control.length + p.mgr.waiting.length))] } } := by
  unfold Part.runResetPart
  simp only [Part.resetTrackers_eq]
  rfl

theorem Part.resetFront_get (p : Part) (k : Track) :
    p.resetFront.front.get k = (p.front.get k).onReset (p.record k) p.now := by
  cases k <;> rfl

/-! ### A mode change at the blocks (R175) -/

theorem mem_fullOrder (b : ModeBlock) (order : List ModeBlock) : b ∈ fullOrder order := by
  have hall : b ∈ ModeBlock.all := by cases b with | tracker k => cases k <;> decide | _ => decide
  unfold fullOrder
  by_cases h : b ∈ order
  · exact List.mem_append_left _ (List.mem_eraseDups.mpr h)
  · exact List.mem_append_right _ (List.mem_filter.mpr ⟨hall, by simpa using h⟩)

theorem Part.emptyQueues_quiet (p : Part) : p.emptyQueues.QuietInService := fun _ k => by
  simp [Part.emptyQueues, FrontEnd.emptyQueue]

namespace Part.Keeps

variable {p q : Part}

theorem blockTakesMode {old new : Mode} {b : ModeBlock} (h : p.Keeps q) :
    p.Keeps (Part.blockTakesMode old new q b) := by
  unfold Part.blockTakesMode
  split
  · split
    · exact ⟨fun w => { h.places w with events := fun k => by simp [Part.emptyQueues, FrontEnd.emptyQueue] }, h.tags,
        fun _ => q.emptyQueues_quiet, h.clock, h.page⟩
    · exact h
  · split
    · exact h.schedulerToService
    · exact h.cancelJobs
    · exact h
  · split
    · exact h.setLar
    · exact h
  · split
    · exact h.reachTracker
    · exact h

end Part.Keeps

/-- R13: after a change to SERVICE has been passed to every block the event queues are quiet. -/
theorem Part.blocksToService_quiet (old : Mode) {l : List ModeBlock} (h : .sensors ∈ l) (p : Part) :
    (l.foldl (Part.blockTakesMode old .service) p).QuietInService := by
  obtain ⟨before, after, rfl⟩ := List.append_of_mem h
  rw [List.foldl_append, List.foldl_cons]
  exact (Part.Keeps.foldl (fun _ _ h => h.blockTakesMode) after (.refl _)).quiet (Part.emptyQueues_quiet _)

theorem Part.blockTakesMode_kept (old new : Mode) (p : Part) (b : ModeBlock) :
    p.Kept (Part.blockTakesMode old new p b) := by
  unfold Part.blockTakesMode
  split
  · split
    · exact .blocks ..
    · exact .refl p
  · split
    · exact p.schedulerToService_kept
    · exact p.schedulerToStandby_kept
    · exact .refl p
  · split
    · exact p.setLar_kept _
    · exact .refl p
  · split
    · exact p.reachTracker_kept _ _
    · exact .refl p

theorem Part.passMode_kept (old new : Mode) (p : Part) (order : List ModeBlock) : p.Kept (p.passMode old new order) :=
  Part.Kept.foldl (Part.blockTakesMode_kept old new) _ p

/-- A page whose check value does not agree is INVALID (R178). -/
theorem Page.state_of_not_agrees {g : Page} (h : g.agrees = false) : g.state = .invalid := by
  simp [Page.state, Page.valid, h]

namespace Part.Keeps

variable {p q : Part}

/-! ### Recorder link -/

theorem acceptFrame {frame : List Byte} (h : p.Keeps q) : p.Keeps (q.acceptFrame frame) := by
  have offered : p.Keeps (q.offerCommand (commandRecord frame)) := by
    unfold Part.offerCommand
    split
    · rename_i room
      exact h.setMgr rfl (fun _ => by
        simp only [List.length_append, List.length_singleton]
        omega) id id
    · exact h.setMgr rfl id id id
  unfold Part.acceptFrame
  split
  · exact h
  · split
    · split
      · exact offered
      · exact h.setMgr rfl id id id
    · split
      · exact offered
      · exact h

theorem startWire {f : Frame} (h : p.Keeps q) : p.Keeps (q.startWire f) := h.setMgr rfl id id id

theorem placeWaiting (h : p.Keeps q) : p.Keeps q.placeWaiting := by
  unfold Part.placeWaiting
  split
  · exact h
  · rename_i w rest _
    split
    · rename_i room
      have placed : p.Keeps (q.setMgr { q.mgr with control := q.mgr.control ++ [w], waiting := rest }) :=
        h.setMgr rfl id (fun _ => by
          simp only [List.length_append, List.length_singleton]
          omega) id
      dsimp only
      split
      · exact placed.removeFetch
      · exact placed
    · exact h

theorem takeForSending (h : p.Keeps q) : p.Keeps q.takeForSending := by
  unfold Part.takeForSending
  split
  · split
    · rename_i r rest hc
      exact placeWaiting (startWire (setMgr h rfl id (fun w => by
        rw [hc] at w
        exact (Nat.le_succ _).trans w) id))
    · split
      · rename_i f rest hi
        have taken : p.Keeps ((q.setMgr { q.mgr with images := rest }).startWire (.image f)) :=
          startWire (setMgr h rfl id id (fun w => by
            rw [hi] at w
            exact (Nat.le_succ _).trans w))
        dsimp only
        refine placeKept ?_
        split
        · exact taken.endDelivery
        · exact taken
      · exact h
  · exact h

theorem sendingEnd (h : p.Keeps q) : p.Keeps q.sendingEnd := by
  unfold Part.sendingEnd
  split
  · exact h.setMgr rfl id id id
  · exact h

theorem linkLost (h : p.Keeps q) : p.Keeps q.linkLost := setMgr h rfl id id id

theorem linkFound (h : p.Keeps q) : p.Keeps q.linkFound := setMgr h rfl id id id

/-! ### Commands -/

/-- A command keeps the invariants if its run does, from a part with a free place for the reply. -/
theorem runs {c : Option Command} {run : CommandRecord → Part → Part} (h : p.Keeps q)
    (hr : ∀ (r : CommandRecord) (x : Part), p.Keeps x → x.freePlace = true → p.Keeps (run r x)) :
    p.Keeps (q.runs c run) := by
  unfold Part.runs Part.takes
  cases hi : q.mgr.intake with
  | nil => exact h
  | cons r rest =>
    dsimp only
    by_cases ht : q.freePlace = true ∧ r.command = c
    · rw [if_pos ht]
      refine hr _ _ (h.setMgr rfl (fun w => ?_) id id) ht.1
      rw [hi] at w
      exact (Nat.le_succ _).trans w
    · rw [if_neg ht]
      exact h

theorem runsCommand {c : Command} {run : CommandRecord → Part → Part} (h : p.Keeps q)
    (hr : ∀ (r : CommandRecord) (x : Part), p.Keeps x → x.freePlace = true → p.Keeps (run r x)) :
    p.Keeps (q.runsCommand c run) :=
  h.runs fun r x hx hp => by
    split
    · exact hx.reply hp
    · exact hr r x hx hp

theorem runResetPart {r : CommandRecord} (h : p.Keeps q) : p.Keeps (q.runResetPart r) := by
  rw [Part.runResetPart_eq]
  exact
    { places := fun _ =>
        { intake := Nat.zero_le _
          control := (by decide : 1 ≤ 16)
          images := Nat.zero_le _
          fetches := Nat.zero_le _
          jobs := Nat.zero_le _
          events := fun k => by rw [Part.resetFront_get]; exact Nat.zero_le _
          lines := fun k => by rw [Quad.get_map]; exact Nat.zero_le _ }
      tags := fun _ => ⟨List.nodup_nil, fun _ hj => absurd hj List.not_mem_nil⟩
      quiet := fun _ _ k => by rw [Part.resetFront_get]; exact ⟨rfl, rfl⟩
      clock := h.clock
      page := h.page }

/-- R175: a mode change; into SERVICE the event queues are emptied (R13). -/
theorem runModeSet {order : List ModeBlock} {r : CommandRecord} (h : p.Keeps q) (hp : q.freePlace = true) :
    p.Keeps (Part.runModeSet order r q) := by
  have addressed : p.Keeps ((q.setMgr { q.mgr with recorder := some r.source }).reply r .ok 0 .empty) :=
    reply (setMgr h rfl id id id) hp
  unfold Part.runModeSet
  split
  · exact h.reply hp
  · rename_i new _
    dsimp only
    split
    · exact addressed
    · split
      · exact h.reply hp
      · generalize hb : (q.setMgr { q.mgr with mode := new, recorder := some r.source }).reply r .ok 0 .empty = b
        have rest : b.Keeps (b.passMode q.mode new order) := foldl (fun _ _ h => h.blockTakesMode) _ (.refl b)
        refine ⟨fun w => rest.places ?_, fun w => rest.tags ?_, fun _ => ?_, fun w => rest.clock ?_,
          fun w => rest.page ?_⟩
        · have w := addressed.places w
          subst hb
          exact { w with }
        · subst hb; exact h.tags w
        · cases hn : new with
          | service => exact Part.blocksToService_quiet q.mode (mem_fullOrder _ _) b
          | _ =>
            intro hm
            have hm' := (Part.passMode_kept q.mode new b order).mode
            subst hb hn
            exact nomatch hm'.symm.trans hm
        · subst hb; exact h.clock w
        · subst hb; exact h.page w

theorem runTrackWrite {r : CommandRecord} (h : p.Keeps q) (hp : q.freePlace = true) :
    p.Keeps (Part.runTrackWrite r q) := by
  unfold Part.runTrackWrite
  split
  · exact h.reply hp
  · dsimp only
    split
    · exact h.reply hp
    · split
      · exact h.reply hp
      · split
        · exact h.reply hp
        · exact (h.reply hp).writeRecord

theorem setTrim {r : CommandRecord} {k : Track} {t : Int} (h : p.Keeps q) (hp : q.freePlace = true) :
    p.Keeps (q.setTrim r k t) := by
  have set : p.Keeps { q.reply r .ok 0 (.trim t) with
      records := (q.reply r .ok 0 (.trim t)).records.set k { q.record k with trim := t } } :=
    (h.reply hp).blocks rfl rfl rfl rfl (.refl _) (fun _ => le_rfl) le_rfl
  unfold Part.setTrim
  dsimp only
  split
  · exact set.retime
  · exact set

theorem runTrimSet {r : CommandRecord} (h : p.Keeps q) (hp : q.freePlace = true) : p.Keeps (Part.runTrimSet r q) := by
  unfold Part.runTrimSet
  split
  · exact h.reply hp
  · dsimp only
    split
    · exact h.setTrim hp
    · exact h.reply hp

theorem runTrimStep {r : CommandRecord} (h : p.Keeps q) (hp : q.freePlace = true) :
    p.Keeps (Part.runTrimStep r q) := by
  unfold Part.runTrimStep
  split
  · exact h.reply hp
  · dsimp only
    split
    · exact h.setTrim hp
    · exact h.reply hp

theorem runLampSet {r : CommandRecord} (h : p.Keeps q) (hp : q.freePlace = true) : p.Keeps (Part.runLampSet r q) := by
  unfold Part.runLampSet
  split
  · exact h.reply hp
  · split
    · exact h.reply hp
    · exact blocks (h.reply hp) rfl rfl rfl rfl (.refl _) (fun _ => le_rfl) le_rfl

theorem runTypeWrite {r : CommandRecord} (h : p.Keeps q) (hp : q.freePlace = true) :
    p.Keeps (Part.runTypeWrite r q) := by
  unfold Part.runTypeWrite
  dsimp only
  split
  · exact h.reply hp
  · exact blocks (h.reply hp) rfl rfl rfl rfl (.refl _) (fun _ => le_rfl) le_rfl

theorem runTypeClear {r : CommandRecord} (h : p.Keeps q) (hp : q.freePlace = true) :
    p.Keeps (Part.runTypeClear r q) := by
  unfold Part.runTypeClear
  dsimp only
  split
  · exact blocks (h.reply hp) rfl rfl rfl rfl (.refl _) (fun _ => le_rfl) le_rfl
  · split
    · exact blocks (h.reply hp) rfl rfl rfl rfl (.refl _) (fun _ => le_rfl) le_rfl
    · exact h.reply hp

theorem runTypeRead {r : CommandRecord} (h : p.Keeps q) (hp : q.freePlace = true) :
    p.Keeps (Part.runTypeRead r q) := by
  unfold Part.runTypeRead
  dsimp only
  split
  · exact h.reply hp
  · exact h.reply hp

theorem runTrackRead {r : CommandRecord} (h : p.Keeps q) (hp : q.freePlace = true) :
    p.Keeps (Part.runTrackRead r q) := by
  unfold Part.runTrackRead
  split
  · exact h.reply hp
  · exact h.reply hp

theorem runPassageRead {r : CommandRecord} (h : p.Keeps q) (hp : q.freePlace = true) :
    p.Keeps (Part.runPassageRead r q) := by
  unfold Part.runPassageRead
  split
  · exact h.reply hp
  · exact h.reply hp

theorem runHeadClear {r : CommandRecord} (h : p.Keeps q) (hp : q.freePlace = true) :
    p.Keeps (Part.runHeadClear r q) := by
  unfold Part.runHeadClear
  split
  · split
    · split
      · exact h.reply hp
      · exact (h.reply hp).setHead
    · exact h.reply hp
  · exact h.reply hp

theorem runSlotRelease {r : CommandRecord} (h : p.Keeps q) (hp : q.freePlace = true) :
    p.Keeps (Part.runSlotRelease r q) := by
  unfold Part.runSlotRelease
  split
  · exact h.reply hp
  · split
    · exact h.reply hp
    · exact (h.reply hp).setSlot

/-- R154: the eighth place of the fetch queue is the last that an entry takes. -/
theorem runFetch {r : CommandRecord} (h : p.Keeps q) (hp : q.freePlace = true) : p.Keeps (Part.runFetch r q) := by
  unfold Part.runFetch
  dsimp only
  split
  · exact h.reply hp
  · split
    · exact h.reply hp
    · split
      · exact h.reply hp
      · split
        · exact h.reply hp
        · rename_i n _ _ full
          have replied := h.reply (x := r) (st := .accepted) (n := 0)
            (c := .fetch (BitVec.ofNat 8 (r.byteAt 0)) n (((q.slot n).map Slot.state).getD .held)) hp
          have room : q.fsc.fetches.length < 8 := Nat.not_le.mp full
          refine kickEngine ⟨fun w => { replied.places w with fetches := ?_ }, replied.tags, replied.quiet,
            replied.clock, replied.page⟩
          simp only [Part.setFsc, Part.reply_fsc, List.length_append, List.length_singleton]
          omega

theorem cancelFetch {t : Tag} (h : p.Keeps q) : p.Keeps (q.cancelFetch t) := by
  unfold Part.cancelFetch
  split
  · exact h
  · split
    · exact h.finishFetch
    · exact setFsc h.modFetch le_rfl
    · exact h.modFetch
    · exact h

theorem runFetchCancel {r : CommandRecord} (h : p.Keeps q) (hp : q.freePlace = true) :
    p.Keeps (Part.runFetchCancel r q) := by
  unfold Part.runFetchCancel
  dsimp only
  split
  · exact h.reply hp
  · split
    · exact (h.reply hp).completeRead.cancelFetch
    · exact (h.reply hp).cancelFetch

/-! ### The calibration page (R178 to R181) -/

/-- An update of the page that keeps it guarded. -/
theorem setCal {c : Calibration} (h : p.Keeps q) (guarded : q.PageGuarded → { q with cal := c }.PageGuarded) :
    p.Keeps { q with cal := c } :=
  ⟨fun w => { h.places w with }, h.tags, h.quiet, h.clock, fun w => guarded (h.page w)⟩

theorem startWrite {r : CommandRecord} {l : Quad TrackRecord} {b : Bool} (h : p.Keeps q) :
    p.Keeps (q.startWrite r l b) := h.setCal fun _ _ _ => ⟨rfl, rfl⟩

/-- R178: a reading of the page sets the page state; a page that is being written does not agree. -/
theorem readPage (h : p.Keeps q) : p.Keeps { q with cal := { q.cal with state := q.cal.page.state } } :=
  h.setCal fun w x hx =>
    have ⟨apart, _⟩ := w x hx
    ⟨apart, Page.state_of_not_agrees apart⟩

theorem runCalStore {r : CommandRecord} (h : p.Keeps q) (hp : q.freePlace = true) :
    p.Keeps (Part.runCalStore r q) := by
  unfold Part.runCalStore
  split
  · exact h.reply hp
  · exact h.startWrite

theorem runCalAutoload {r : CommandRecord} (h : p.Keeps q) (hp : q.freePlace = true) :
    p.Keeps (Part.runCalAutoload r q) := by
  unfold Part.runCalAutoload
  split
  · exact h.reply hp
  · dsimp only
    split
    · exact h.readPage.startWrite
    · exact h.readPage.reply hp

theorem runCalLoad {r : CommandRecord} (h : p.Keeps q) (hp : q.freePlace = true) :
    p.Keeps (Part.runCalLoad r q) := by
  unfold Part.runCalLoad
  dsimp only
  split
  · split
    · exact h.readPage.reply hp
    · exact (h.readPage.reply hp).loadRecords
  · exact h.readPage.reply hp

theorem endWrite {b : Bool} (h : p.Keeps q) : p.Keeps (q.endWrite b) := by
  unfold Part.endWrite
  split
  · exact h
  · exact placeOrWait (setCal h fun _ _ hw => nomatch hw)

/-! ### A power-on reset (R181, R183) -/

/-- The state that a power-on reset leaves before auto-load meets every invariant. -/
theorem powerOnState (p q : Part) : p.Keeps q.powerOnState where
  places _ :=
    { intake := Nat.zero_le _
      control := Nat.zero_le _
      images := Nat.zero_le _
      fetches := Nat.zero_le _
      jobs := Nat.zero_le _
      events := fun k => by
        show ((q.front.map FrontEnd.powerOn).get k).queue.length ≤ 16
        rw [Quad.get_map]; exact Nat.zero_le _
      lines := fun k => by
        show ((Quad.all Port.reset).get k).fifo.length ≤ 8
        rw [Quad.get_all]; exact Nat.zero_le _ }
  tags _ := ⟨List.nodup_nil, fun _ hj => absurd hj List.not_mem_nil⟩
  quiet _ _ k := by
    show ((q.front.map FrontEnd.powerOn).get k).queue = [] ∧ ((q.front.map FrontEnd.powerOn).get k).loss = false
    rw [Quad.get_map]; exact ⟨rfl, rfl⟩
  clock _ := Nat.zero_lt_succ _
  page _ _ hw := nomatch hw

theorem autoLoad (h : p.Keeps q) (hw : q.cal.write = none) : p.Keeps q.autoLoad := by
  have unwritten : ∀ c : Calibration, c.write = q.cal.write → p.Keeps { q with cal := c } := fun c hc =>
    h.setCal fun _ w hx => nomatch (hx.symm.trans (hc.trans hw))
  unfold Part.autoLoad
  dsimp only
  split
  · split
    · exact loadRecords (unwritten _ rfl)
    · exact unwritten _ rfl
  · exact unwritten _ rfl

theorem powerOn : p.Keeps q.powerOn := (powerOnState p q).autoLoad rfl

/-! ### One clock count -/

theorem tick (h : p.Keeps q) : p.Keeps q.tick := by
  obtain ⟨places, tags, quiet, clock, page⟩ := h.beginTurn
  exact
    { places := fun w =>
        have w := places w
        { w with
          lines := fun k => by
            show ((q.beginTurn.ports.map Port.advance).get k).fifo.length ≤ 8
            rw [Quad.get_map]
            exact w.lines k }
      tags := tags
      quiet := quiet
      clock := fun w => by
        have w : q.beginTurn.tb.sub < 100 := clock w
        show q.beginTurn.tb.advance.sub < 100
        unfold Timebase.advance
        split
        · exact Nat.zero_lt_succ _
        · exact Nat.succ_lt_succ (by omega)
      page := page }

end Part.Keeps

/-! ### Every command and every step -/

theorem next_keeps {s t : State} {q : Part} (hq : s.part.Keeps q)
    (h : (.next (s.withPart q) : Host.Outcome State Fault Refusal) = .next t) : s.part.Keeps t.part := by
  cases h
  exact hq

/-- A command that is run by the responder keeps the invariants if its run does. -/
theorem command_keeps {s t : State} {c : Command} {run : CommandRecord → Part → Part}
    (h : s.onPart (fun p => p.runsCommand c run) = .next t)
    (hr : ∀ (r : CommandRecord) (x : Part), s.part.Keeps x → x.freePlace = true → s.part.Keeps (run r x)) :
    s.part.Keeps t.part :=
  next_keeps (Part.Keeps.runsCommand (.refl _) hr) h

/-- Every command keeps every invariant. -/
theorem exec_keeps {c : Instr} {s t : State} (h : exec c s = .next t) : s.part.Keeps t.part := by
  have start := Part.Keeps.refl s.part
  cases c with
  | powerOnReset => exact next_keeps .powerOn h
  | frameAccept frame => exact next_keeps start.acceptFrame h
  | unknownCommand => exact next_keeps (start.runs fun _ _ hx hp => hx.reply hp) h
  | ident => exact command_keeps h (fun _ _ hx hp => hx.reply hp)
  | status => exact command_keeps h (fun _ _ hx hp => hx.reply hp)
  | timeRead => exact command_keeps h (fun _ _ hx hp => hx.reply hp)
  | modeSet order => exact command_keeps h (fun _ _ hx hp => hx.runModeSet hp)
  | resetPart => exact command_keeps h (fun _ _ hx _ => hx.runResetPart)
  | trackWrite => exact command_keeps h (fun _ _ hx hp => hx.runTrackWrite hp)
  | trackRead => exact command_keeps h (fun _ _ hx hp => hx.runTrackRead hp)
  | trimSet => exact command_keeps h (fun _ _ hx hp => hx.runTrimSet hp)
  | trimStep => exact command_keeps h (fun _ _ hx hp => hx.runTrimStep hp)
  | lampSet => exact command_keeps h (fun _ _ hx hp => hx.runLampSet hp)
  | typeWrite => exact command_keeps h (fun _ _ hx hp => hx.runTypeWrite hp)
  | typeClear => exact command_keeps h (fun _ _ hx hp => hx.runTypeClear hp)
  | typeRead => exact command_keeps h (fun _ _ hx hp => hx.runTypeRead hp)
  | headClear => exact command_keeps h (fun _ _ hx hp => hx.runHeadClear hp)
  | scheduleRead => exact command_keeps h (fun _ _ hx hp => hx.reply hp)
  | passageRead => exact command_keeps h (fun _ _ hx hp => hx.runPassageRead hp)
  | slotRead => exact command_keeps h (fun _ _ hx hp => hx.reply hp)
  | fetch => exact command_keeps h (fun _ _ hx hp => hx.runFetch hp)
  | fetchCancel => exact command_keeps h (fun _ _ hx hp => hx.runFetchCancel hp)
  | slotRelease => exact command_keeps h (fun _ _ hx hp => hx.runSlotRelease hp)
  | calStore => exact command_keeps h (fun _ _ hx hp => hx.runCalStore hp)
  | calLoad => exact command_keeps h (fun _ _ hx hp => hx.runCalLoad hp)
  | calAutoload => exact command_keeps h (fun _ _ hx hp => hx.runCalAutoload hp)
  | pageWriteEnd verified => exact next_keeps start.endWrite h
  | takeForSending => exact next_keeps start.takeForSending h
  | ethernetLinkLost => exact next_keeps start.linkLost h
  | ethernetLinkFound => exact next_keeps start.linkFound h
  | headInputActive k i d => exact next_keeps start.headInputActive h
  | headInputInactive k i d => exact next_keeps start.headInputInactive h
  | candidateFirstSample k i d => exact next_keeps start.firstSample h
  | candidateSecondSample k i d => exact next_keeps start.secondSample h
  | headStuckLimit k i d => exact next_keeps start.stuckLimit h
  | pairCeilingExpiry k i => exact next_keeps start.ceilingExpiry h
  | occupancyInputChange k => exact next_keeps start.occupancyChange h
  | occupancySettleExpiry k => exact next_keeps start.settleExpiry h
  | eventTake k => exact next_keeps start.takeEvent h
  | eventHandlingEnd k b => exact next_keeps start.endHandling h
  | silenceTimerExpiry k => exact next_keeps start.silenceExpiry h
  | couplingTimerExpiry k => exact next_keeps start.couplingExpiry h
  | windowOpen tag => exact next_keeps start.openIfDue h
  | trigger k => exact next_keeps start.trigger h
  | windowEnd tag => exact next_keeps start.windowEnd h
  | drainDeadline tag => exact next_keeps start.drainDeadline h
  | lampRequestTime tag => exact next_keeps start.requestTime h
  | recoveryEnd => exact next_keeps start.recoveryEnd h
  | cameraSyncLost k => exact next_keeps start.syncLost h
  | cameraSyncFound k => exact next_keeps start.syncFound h
  | linePacket k packet => exact next_keeps start.linePacket h
  | storeTurnWrite k => exact next_keeps start.writeTurn h
  | storeTurnRead => exact next_keeps start.readTurn h
  | frameSendingEnd => exact next_keeps start.sendingEnd h
  | triggerPulseEnd k => exact next_keeps start.pulseEnd h

/-- Every step keeps every invariant, a timed step on an empty queue and a clock count with them. -/
theorem step_keeps {s t : State} (h : step s = .next t) : s.part.Keeps t.part := by
  unfold step at h
  split at h
  · rename_i rest _
    exact exec_keeps (s := { s with pending := rest }) h
  · split at h
    · have bumped : s.part.Keeps s.part.bumpFree :=
        (Part.Keeps.refl s.part).blocks rfl rfl rfl rfl (.refl _) (fun _ => le_rfl) le_rfl
      exact bumped.trans (exec_keeps (s := { s with part := s.part.bumpFree }) h)
    · cases h
      exact (Part.Keeps.refl s.part).tick

/-- Settles O7, from `step_keeps`. -/
theorem placesKept : Obligations.PlacesKept := fun _ _ h => ⟨(step_keeps h).places, (step_keeps h).tags⟩

/-- Settles O8, from `step_keeps`. -/
theorem quietInServiceKept : Obligations.QuietInServiceKept := fun _ _ h =>
  ⟨(step_keeps h).quiet, (step_keeps h).clock, (step_keeps h).page⟩

/-- Settles O9: the records are the unset ones, and every queue is empty. -/
theorem resetMeetsTheInvariants : Obligations.ResetMeetsTheInvariants := by
  refine ⟨(by decide : recordsOk (.all .unset) = true),
    ⟨Nat.zero_le _, Nat.zero_le _, Nat.zero_le _, Nat.zero_le _, Nat.zero_le _, fun k => ?_,
    fun k => ?_⟩, ⟨List.nodup_nil, fun _ hj => absurd hj List.not_mem_nil⟩, fun _ k => ?_, Nat.zero_lt_succ _,
    fun _ hw => nomatch hw⟩
  · show ((Quad.all FrontEnd.reset).get k).queue.length ≤ 16
    rw [Quad.get_all]; exact Nat.zero_le _
  · show ((Quad.all Port.reset).get k).fifo.length ≤ 8
    rw [Quad.get_all]; exact Nat.zero_le _
  · show ((Quad.all FrontEnd.reset).get k).queue = [] ∧ ((Quad.all FrontEnd.reset).get k).loss = false
    rw [Quad.get_all]; exact ⟨rfl, rfl⟩

end Sys2Proof.Machine
end

