-- ==== Sys2Proof/Proofs/SensorRules.lean ====
section
/-! PROOFS. What the heads, the pairs, the event queue and the occupancy input of a front end do (01), one equation per
case, and the statements about them (O41 to O46). -/

namespace Sys2Proof.Machine

/-! ### Reading and replacing a pair, a head and a front end -/

theorem FrontEnd.pair_setPair (f : FrontEnd) (i : PairId) (s : SensorPair) : (f.setPair i s).pair i = s := by
  cases i <;> rfl

theorem FrontEnd.setPair_setPair (f : FrontEnd) (i : PairId) (s t : SensorPair) :
    (f.setPair i s).setPair i t = f.setPair i t := by cases i <;> rfl

theorem SensorPair.setHead_waiting (s : SensorPair) (h : HeadId) (x : Head) : (s.setHead h x).waiting = s.waiting := by
  cases h <;> rfl

theorem Part.setFront_setFront (p : Part) (k : Track) (f g : FrontEnd) :
    (p.setFront k f).setFront k g = p.setFront k g := by simp [Part.setFront]

theorem HeadId.other_ne (h : HeadId) : h.other ≠ h := by cases h <;> decide

/-! ### The event queue (R10 to R13) -/

namespace FrontEnd

variable {f : FrontEnd} {m : Mode}

theorem offer_service (hm : m = .service) (e : AxleEvent) : f.offer m e = f := if_pos hm

theorem offer_room (hm : m ≠ .service) (room : f.queue.length < 16) (e : AxleEvent) :
    f.offer m e = { f with queue := f.queue ++ [e] } := by
  unfold offer
  rw [if_neg hm, if_pos room]

theorem offer_full (hm : m ≠ .service) (full : 16 ≤ f.queue.length) (e : AxleEvent) :
    f.offer m e = { f with discarded := f.discarded + 1, loss := true } := by
  unfold offer
  rw [if_neg hm, if_neg (Nat.not_lt.mpr full)]

theorem dequeue_cons {e : AxleEvent} {l : List AxleEvent} (h : f.queue = e :: l) :
    f.dequeue = { f with queue := l, loss := f.loss && !l.isEmpty } := by
  unfold dequeue
  rw [h]
  rfl

/-! ### Pairing (R6 to R8) -/

variable {r : TrackRecord} {i : PairId} {h : HeadId} {stamp : Time} {w : WaitingPulse}

theorem pulse_partner_fault (hp : ((f.pair i).head h.other).state = .fault) :
    f.pulse m r i h stamp = f.formSingle m i { head := h, stamp := stamp } := if_pos hp

theorem pulse_alone (hp : ((f.pair i).head h.other).state ≠ .fault) (hw : (f.pair i).waiting = none) :
    f.pulse m r i h stamp = f.setWaiting i (some { head := h, stamp := stamp }) := by
  unfold pulse
  dsimp only
  rw [if_neg hp, hw]

theorem pulse_same_head (hp : ((f.pair i).head h.other).state ≠ .fault) (hw : (f.pair i).waiting = some w)
    (hh : w.head = h) :
    f.pulse m r i h stamp = (f.formSingle m i w).setWaiting i (some { head := h, stamp := stamp }) := by
  unfold pulse
  dsimp only
  rw [if_neg hp, hw]
  exact if_pos hh

theorem pulse_paired (hp : ((f.pair i).head h.other).state ≠ .fault) (hw : (f.pair i).waiting = some w)
    (hh : w.head = h.other) (ht : (stamp - w.stamp).toNat ≤ r.spacing i * 720) :
    f.pulse m r i h stamp = (f.setWaiting i none).offer m (pairedEvent i w h stamp) := by
  unfold pulse
  dsimp only
  rw [if_neg hp, hw]
  dsimp only
  rw [if_neg (hh ▸ HeadId.other_ne h), if_pos (show _ ≤ transitCeiling r i from ht)]

theorem pulse_past_ceiling (hp : ((f.pair i).head h.other).state ≠ .fault) (hw : (f.pair i).waiting = some w)
    (hh : w.head = h.other) (ht : r.spacing i * 720 < (stamp - w.stamp).toNat) :
    f.pulse m r i h stamp = (f.formSingle m i w).setWaiting i (some { head := h, stamp := stamp }) := by
  unfold pulse
  dsimp only
  rw [if_neg hp, hw]
  dsimp only
  rw [if_neg (hh ▸ HeadId.other_ne h), if_neg (show ¬ _ ≤ transitCeiling r i from Nat.not_le.mpr ht)]

theorem flushWaiting_none (hw : (f.pair i).waiting = none) : f.flushWaiting m i = f := by
  unfold flushWaiting
  rw [hw]

/-- R7, R8: a waiting pulse that is pushed out is counted and offered as a single-head event. -/
theorem flushWaiting_some (hw : (f.pair i).waiting = some w) : f.flushWaiting m i =
    (f.setPair i { f.pair i with waiting := none, singles := (f.pair i).singles + 1 }).offer m (singleHeadEvent i w) := by
  unfold flushWaiting
  rw [hw]
  simp only [formSingle, setWaiting, pair_setPair, setPair_setPair]

end FrontEnd

/-- R6: a paired event is timed by the pulse of the inner head, and goes inward when that came last. -/
theorem pairedEvent_eq (i : PairId) (w : WaitingPulse) (h : HeadId) (stamp : Time) : pairedEvent i w h stamp =
    { pair := i, time := if h = .inner then stamp else w.stamp, position := .inner
      direction := if h = .inner then .inward else .outward
      transit := some (stamp - w.stamp).toNat, singleHead := false } := by cases h <;> rfl

/-- Settles O43, case by case of the table of pairing. -/
theorem pairingTable : Obligations.PairingTable := by
  intro f m r i h stamp single waits new
  refine ⟨FrontEnd.pulse_partner_fault, fun hp => ⟨FrontEnd.pulse_alone hp, fun w hw => ⟨?_, ?_, ?_⟩⟩⟩
  · exact FrontEnd.pulse_same_head hp hw
  · intro hh ht
    rw [FrontEnd.pulse_paired hp hw hh ht, pairedEvent_eq]
    rfl
  · exact FrontEnd.pulse_past_ceiling hp hw

/-- Settles O44, from the equations of `offer` and `dequeue`. -/
theorem eventQueueAndLossLatch : Obligations.EventQueueAndLossLatch := by
  intro f m e
  refine ⟨fun hm => FrontEnd.offer_service hm e, fun hm room => FrontEnd.offer_room hm room e,
    fun hm full => FrontEnd.offer_full hm full e, fun e' hq => ?_, fun a b l hq => ?_⟩
  · rw [FrontEnd.dequeue_cons hq]; simp
  · rw [FrontEnd.dequeue_cons hq]; simp

/-! ### Heads (R2 to R4) -/

namespace Part

variable {p : Part} {k : Track} {i : PairId} {h : HeadId} {since : Time}

theorem headInputActive_idle (hx : ((p.record k).headPolarity i h).names (p.head k i h).high = false)
    (he : (p.record k).enabled = true) (hs : (p.head k i h).state = .idle) : p.headInputActive k i h =
      p.setHead k i h { p.head k i h with
        high := ((p.record k).headPolarity i h).names true, state := .candidate p.now false } := by
  unfold headInputActive
  simp [hx, he, hs]

theorem headInputActive_other (hx : ((p.record k).headPolarity i h).names (p.head k i h).high = false)
    (ho : (p.record k).enabled = false ∨ (p.head k i h).state ≠ .idle) : p.headInputActive k i h =
      p.setHead k i h { p.head k i h with high := ((p.record k).headPolarity i h).names true } := by
  have no : ((p.record k).enabled && decide ((p.head k i h).state = .idle)) = false := by
    rcases ho with ho | ho <;> simp [ho]
  unfold headInputActive
  simp [hx, no]

theorem headInputInactive_held (hx : ((p.record k).headPolarity i h).names (p.head k i h).high = true)
    (hs : (p.head k i h).state = .held since) : p.headInputInactive k i h =
      p.setHead k i h { p.head k i h with
        high := !((p.record k).headPolarity i h).names true, state := .idle } := by
  unfold headInputInactive
  simp [hx, hs]

theorem headInputInactive_other (hx : ((p.record k).headPolarity i h).names (p.head k i h).high = true)
    (hs : ∀ since : Time, (p.head k i h).state ≠ .held since) : p.headInputInactive k i h =
      p.setHead k i h { p.head k i h with high := !((p.record k).headPolarity i h).names true } := by
  unfold headInputInactive
  dsimp only
  rw [if_pos hx]
  split
  · rename_i t ht
    exact absurd ht (hs t)
  · rfl

theorem firstSample_due (hs : (p.head k i h).state = .candidate since false)
    (hd : p.now = since + usTime ((p.head k i h).qualifyUs / 2)) : p.firstSample k i h =
      p.setHead k i h { p.head k i h with
        state := if (p.head k i h).active then .candidate since true else .idle } := by
  have due : reached p.now ((p.head k i h).firstSampleAt since) = true := by rw [hd]; exact reached_self _
  unfold firstSample
  simp only [hs, due, if_true]

theorem secondSample_active (hs : (p.head k i h).state = .candidate since true)
    (hd : p.now = since + usTime (p.head k i h).qualifyUs) (ha : (p.head k i h).active = true) :
    p.secondSample k i h = p.setFront k (((p.front.get k).setHead i h { p.head k i h with
      state := .held since, pulses := (p.head k i h).pulses + 1 }).pulse p.mode (p.record k) i h since) := by
  have due : reached p.now ((p.head k i h).secondSampleAt since) = true := by rw [hd]; exact reached_self _
  unfold secondSample
  simp only [hs, due, ha, if_true, setHead, setFront_setFront, setFront_front, Quad.get_set_self]

theorem secondSample_inactive (hs : (p.head k i h).state = .candidate since true)
    (hd : p.now = since + usTime (p.head k i h).qualifyUs) (ha : (p.head k i h).active = false) :
    p.secondSample k i h = p.setHead k i h { p.head k i h with state := .idle } := by
  have due : reached p.now ((p.head k i h).secondSampleAt since) = true := by rw [hd]; exact reached_self _
  unfold secondSample
  simp only [hs, due, ha, if_true, Bool.false_eq_true, if_false]

theorem stuckLimit_due (hs : (p.head k i h).state = .held since)
    (hd : p.now = since + usTime ((p.head k i h).stuckMs * 1000)) : p.stuckLimit k i h =
      (p.setFront k (((p.front.get k).setHead i h { p.head k i h with state := .fault }).flushWaiting p.mode i)).notice
        (.headStuck k i h p.now) := by
  have due : p.stuckDue k i h = true := by
    unfold stuckDue
    rw [hs, hd]
    exact reached_self _
  unfold stuckLimit
  simp only [due, if_true, setHead, setFront_setFront, setFront_front, Quad.get_set_self]

theorem ceilingExpiry_due {w : WaitingPulse} (hw : ((p.front.get k).pair i).waiting = some w)
    (hd : p.now = w.stamp + usTime ((p.record k).spacing i * 720 + (p.record k).qualifyUs)) : p.ceilingExpiry k i =
      p.setFront k ((p.front.get k).flushWaiting p.mode i) := by
  have due : p.ceilingDue k i = true := by
    unfold ceilingDue
    rw [hw, hd]
    exact reached_self _
  exact if_pos due

end Part

/-- Settles O41: the four cases of an input's change. -/
theorem headInputsMoveHeads : Obligations.HeadInputsMoveHeads := fun _ _ _ _ =>
  ⟨fun hx => ⟨fun he hs => State.next_withPart (Part.headInputActive_idle hx he hs),
      fun ho => State.next_withPart (Part.headInputActive_other hx ho)⟩,
    fun hx => ⟨fun _ hs => State.next_withPart (Part.headInputInactive_held hx hs),
      fun hs => State.next_withPart (Part.headInputInactive_other hx hs)⟩⟩

/-- Settles O42: the two samples, each with both levels of the input. -/
theorem candidateSamples : Obligations.CandidateSamples := by
  intro s k i h since p x
  refine ⟨fun hs hd => ⟨fun ha => ?_, fun ha => ?_⟩, fun hs hd => ⟨fun ha => ?_, fun ha => ?_⟩⟩
  · refine State.next_withPart ((Part.firstSample_due hs hd).trans ?_)
    rw [if_pos (show (p.head k i h).active = true from ha)]
  · refine State.next_withPart ((Part.firstSample_due hs hd).trans ?_)
    rw [if_neg (Bool.eq_false_iff.mp (show (p.head k i h).active = false from ha))]
  · exact State.next_withPart (Part.secondSample_active hs hd ha)
  · exact State.next_withPart (Part.secondSample_inactive hs hd ha)

/-- Settles O45: the stuck limit with and without a waiting pulse at the pair, and the expiry of a waiting pulse. -/
theorem stuckLimitAndCeiling : Obligations.StuckLimitAndCeiling := by
  intro s k i p single
  refine ⟨fun h since hs hd room => ?_, fun w hw hd => ?_⟩
  · intro f f'
    refine State.next_withPart ((Part.stuckLimit_due hs hd).trans ?_)
    have kept : (f.pair i).waiting = ((p.front.get k).pair i).waiting := by
      simp only [f, FrontEnd.setHead, FrontEnd.pair_setPair, SensorPair.setHead_waiting]
    have flushed : f.flushWaiting p.mode i = f' := by
      cases hw : ((p.front.get k).pair i).waiting with
      | none => simp only [f', hw]; exact FrontEnd.flushWaiting_none (kept.trans hw)
      | some w => simp only [f', hw]; exact FrontEnd.flushWaiting_some (kept.trans hw)
    show (p.setFront k (f.flushWaiting p.mode i)).notice _ = _
    rw [flushed]
    rcases (p.setFront k f').notice_cases (.headStuck k i h p.now) with ⟨-, hn⟩ | ⟨full, -⟩
    · exact hn
    · exact absurd (room.symm.trans full) (by decide)
  · refine State.next_withPart ((Part.ceilingExpiry_due hw hd).trans ?_)
    rw [FrontEnd.flushWaiting_some hw]
    rfl

/-! ### Occupancy (R14) -/

/-- R43: without a handling, a report reaches a tracker at once, and changes nothing but in CLEARING. -/
theorem Part.reachTracker_report_idle {p : Part} {k : Track} {o : Bool} (hh : (p.trackers.get k).handling = none)
    (ho : (p.passage k).state ≠ .clearing ∨ o = true) : p.reachTracker k (.report o) = p := by
  unfold Part.reachTracker
  rw [hh]
  refine if_neg fun ⟨clearing, clear⟩ => ?_
  rcases ho with ho | ho
  · exact ho clearing
  · exact absurd (ho.symm.trans clear) (by decide)

/-- Settles O46: the two changes on a track that uses its input, the change elsewhere, and the expiry. -/
theorem occupancySettles : Obligations.OccupancySettles := by
  intro s k p o pol uses becomes
  have changed {o' : Occupancy} (h : o.change (p.record k) p.now = o') : becomes (.occupancyInputChange k) o' :=
    State.next_withPart (by rw [← h]; rfl)
  refine ⟨fun hu hn => changed ?_, fun hu he => changed ?_, fun hu => changed ?_, fun ht hh ho => ?_⟩
  · have used : (p.record k).usesOccupancy = true := Bool.and_eq_true_iff.mpr hu
    unfold Occupancy.change
    dsimp only
    rw [if_pos used, if_neg hn]
    rfl
  · have used : (p.record k).usesOccupancy = true := Bool.and_eq_true_iff.mpr hu
    unfold Occupancy.change
    dsimp only
    rw [if_pos used, if_pos he]
  · have unused : ¬ (p.record k).usesOccupancy = true := fun h => hu (Bool.and_eq_true_iff.mp h)
    exact if_neg unused
  · have due : p.settleDue k = true := by
      unfold Part.settleDue
      rw [ht]
      exact reached_self _
    refine State.next_withPart ((if_pos due).trans ?_)
    exact Part.reachTracker_report_idle hh ho

end Sys2Proof.Machine
end

