-- ==== Sys2Proof/Proofs/ReadRules.lean ====
section
/-! PROOFS. The reading commands and HEAD_CLEAR (O24, O33). -/

namespace Sys2Proof.Machine

/-- The row of a command that passes checks 1 to 3 of R170 answers the machine with what its run leaves. -/
theorem Part.Runs.next {s : State} {c : Command} {r : CommandRecord} {rest : List CommandRecord} {q : Part}
    {run : CommandRecord → Part → Part} (h : s.part.Runs c r rest)
    (hq : run r (s.part.setMgr { s.part.mgr with intake := rest }) = q) :
    s.onPart (fun p => p.runsCommand c run) = .next (s.withPart q) :=
  State.next_withPart ((h.runsCommand_eq run).trans hq)

theorem Part.slotReport_of_slot (p : Part) {n : Nat} {x : Slot} (h : p.slot n = some x) : p.slotReport n =
    { state := x.state, tag := x.tag, track := trackOfSlot p.records n, lines := x.lines.length
      fetched := p.slotFetched n } := by
  unfold Part.slotReport
  rw [h]
  rfl

/-- R25: the regions of two tracks have no slot in common. -/
theorem inRegion_unique {r : Quad TrackRecord} {j k : Track} {n : Nat} (hj : inRegion r j n = true)
    (hk : inRegion r k n = true) : j = k := by
  simp only [inRegion, Bool.and_eq_true, decide_eq_true_eq] at hj hk
  cases j <;> cases k <;> simp only [regionStart, Quad.get] at hj hk <;> first | rfl | omega

/-- R150: the track of a slot is the one whose region holds it. -/
theorem trackOfSlot_iff (r : Quad TrackRecord) (n : Nat) (j : Track) :
    trackOfSlot r n = some j ↔ inRegion r j n = true := by
  unfold trackOfSlot
  constructor
  · intro h
    simpa using List.find?_some h
  · intro h
    have hall : j ∈ Track.all := by cases j <;> decide
    cases hf : Track.all.find? (fun k => inRegion r k n) with
    | none => exact absurd h (List.find?_eq_none.mp hf j hall)
    | some k => rw [inRegion_unique h (by simpa using List.find?_some hf)]

theorem Part.slotFetched_iff (p : Part) (n : Nat) : p.slotFetched n = true ↔ ∃ e ∈ p.fsc.fetches, e.slot = n := by
  simp [Part.slotFetched, List.any_eq_true]

/-- Settles O24: each reading command is taken in every mode and by no page write, and its reply is what it reads. -/
theorem readingCommandsReply : Obligations.ReadingCommandsReply := by
  refine ⟨fun s r rest => ?_, fun s r rest => ⟨fun h => ?_, fun h => ?_⟩, fun p => rfl, fun p n x hx => ?_⟩
  · exact ⟨fun h => (h.runs (fun _ => rfl) rfl).next rfl, fun h => (h.runs (fun _ => rfl) rfl).next rfl,
      fun h => (h.runs (fun _ => rfl) rfl).next rfl, fun h => (h.runs (fun _ => rfl) rfl).next rfl,
      fun h => (h.runs (fun _ => rfl) rfl).next rfl⟩
  · have run := h.runs (fun _ => rfl) rfl
    refine ⟨fun k hk => run.next ?_, fun hn => run.next ?_⟩
    · simp only [Part.runTrackRead, hk, Track.ofNumber_number]
      rfl
    · simp only [Part.runTrackRead, Track.ofNumber_none hn]
      rfl
  · have run := h.runs (fun _ => rfl) rfl
    refine ⟨fun k hk => run.next ?_, fun hn => run.next ?_⟩
    · simp only [Part.runPassageRead, hk, Track.ofNumber_number]
      rfl
    · simp only [Part.runPassageRead, Track.ofNumber_none hn]
      rfl
  · exact ⟨_, _, p.slotReport_of_slot hx, fun j => trackOfSlot_iff _ _ j, p.slotFetched_iff n⟩

/-! ### HEAD_CLEAR (R4) -/

theorem PairId.ofNumber_none {n : Nat} (h : n = 0 ∨ 2 < n) : PairId.ofNumber n = none := by
  unfold PairId.ofNumber
  split
  · omega
  · omega
  · rfl

theorem HeadId.ofCode_none {n : Nat} (h : 1 < n) : HeadId.ofCode n = none := by
  unfold HeadId.ofCode
  split
  · omega
  · omega
  · rfl

/-- HEAD_CLEAR of a head that its arguments name. -/
theorem Part.runHeadClear_named {p : Part} {r : CommandRecord} {k : Track} {i : PairId} {h : HeadId}
    (hk : r.byteAt 0 = k.number) (hi : PairId.ofNumber (r.byteAt 1) = some i)
    (hh : HeadId.ofCode (r.byteAt 2) = some h) : Part.runHeadClear r p =
      if (p.head k i h).state = .fault then
        if ((p.record k).headPolarity i h).names (p.head k i h).high then p.refuse r .busy
        else (p.reply r .ok 0 .empty).clearHead k i h
      else p.reply r .ok 0 .empty := by
  simp only [Part.runHeadClear, hk, Track.ofNumber_number, hi, hh]

theorem Part.runHeadClear_unnamed {p : Part} {r : CommandRecord}
    (h : (r.byteAt 0 = 0 ∨ 4 < r.byteAt 0) ∨ (r.byteAt 1 = 0 ∨ 2 < r.byteAt 1) ∨ 1 < r.byteAt 2) :
    Part.runHeadClear r p = p.refuse r .badArgument := by
  unfold Part.runHeadClear
  split
  · rename_i hk hi hh
    rcases h with h | h | h
    · exact nomatch (Track.ofNumber_none h).symm.trans hk
    · exact nomatch (PairId.ofNumber_none h).symm.trans hi
    · exact nomatch (HeadId.ofCode_none h).symm.trans hh
  · rfl

/-- Settles O33: the head named is in FAULT with its input inactive, in FAULT with it active, or not in FAULT; or the
arguments name no head. -/
theorem headClearLeavesFault : Obligations.HeadClearLeavesFault := by
  intro s r rest ht p
  have run := ht.runs (fun _ => rfl) rfl
  refine ⟨fun k i h hk hi hh => ?_, fun hn => run.next (Part.runHeadClear_unnamed hn)⟩
  refine ⟨fun fault inactive => run.next ?_, fun fault active => run.next ?_, fun sound => run.next ?_⟩
  all_goals rw [Part.runHeadClear_named hk hi hh]
  · rw [if_pos (by exact fault), if_neg (by exact Bool.eq_false_iff.mp inactive)]
    have watched : (p.head k i h).watch ((p.record k).headPolarity i h) (p.record k).qualifyUs (p.record k).stuckMs p.now =
        { p.head k i h with
          state := .idle, polarity := (p.record k).headPolarity i h, qualifyUs := (p.record k).qualifyUs
          stuckMs := (p.record k).stuckMs } := by
      unfold Head.watch
      rw [if_neg (Bool.eq_false_iff.mp inactive)]
    exact congrArg ((p.answered r rest .ok 0 .empty).setHead k i h) watched
  · rw [if_pos (by exact fault), if_pos (by exact active)]
    rfl
  · exact if_neg sound

end Sys2Proof.Machine
end

