-- ==== Sys2Proof/Proofs/ResetRules.lean ====
section
/-! PROOFS. What RESET_PART (O20), a power-on reset (O18) and an accepted TRACK_WRITE (O27) leave. -/

namespace Sys2Proof.Machine

/-! ### The front end of a track under a record and under RESET_PART (R5, R15, R19) -/

theorem FrontEnd.pair_onReset (f : FrontEnd) (r : TrackRecord) (now : Time) (i : PairId) :
    (f.onReset r now).pair i = (f.pair i).onReset r i now := by cases i <;> rfl

theorem SensorPair.head_onReset (s : SensorPair) (r : TrackRecord) (i : PairId) (now : Time) (h : HeadId) :
    (s.onReset r i now).head h = (s.head h).onReset r i h now := by cases h <;> rfl

theorem FrontEnd.pair_onRecord (f : FrontEnd) (r : TrackRecord) (now : Time) (i : PairId) :
    (f.onRecord r now).pair i = (f.pair i).onRecord r i now := by cases i <;> rfl

theorem SensorPair.head_onRecord (s : SensorPair) (r : TrackRecord) (i : PairId) (now : Time) (h : HeadId) :
    (s.onRecord r i now).head h = (s.head h).onRecord r i h now := by cases h <;> rfl

theorem Head.onReset_enabled {r : TrackRecord} (he : r.enabled = true) (x : Head) (i : PairId) (h : HeadId) (now : Time) :
    x.onReset r i h now =
      { state := if (r.headPolarity i h).names x.high then .held now else .idle, polarity := r.headPolarity i h
        qualifyUs := r.qualifyUs, stuckMs := r.stuckMs, high := x.high, pulses := 0 } := if_pos he

theorem Head.onReset_disabled {r : TrackRecord} (he : r.enabled = false) (x : Head) (i : PairId) (h : HeadId)
    (now : Time) : x.onReset r i h now = { x with state := .idle, pulses := 0 } := if_neg (Bool.eq_false_iff.mp he)

theorem Head.onRecord_fault {r : TrackRecord} (he : r.enabled = true) {x : Head} (hx : x.state = .fault) (i : PairId)
    (h : HeadId) (now : Time) : x.onRecord r i h now = x := (if_pos he).trans (if_pos hx)

theorem Head.onRecord_watch {r : TrackRecord} (he : r.enabled = true) {x : Head} (hx : x.state ≠ .fault) (i : PairId)
    (h : HeadId) (now : Time) : x.onRecord r i h now = { x with
      state := if (r.headPolarity i h).names x.high then .held now else .idle, polarity := r.headPolarity i h
      qualifyUs := r.qualifyUs, stuckMs := r.stuckMs } := (if_pos he).trans (if_neg hx)

theorem Head.onRecord_disabled {r : TrackRecord} (he : r.enabled = false) (x : Head) (i : PairId) (h : HeadId)
    (now : Time) : x.onRecord r i h now = { x with state := .idle } := if_neg (Bool.eq_false_iff.mp he)

/-- A record moves neither the input level of a head nor its count. -/
theorem Head.onRecord_level (x : Head) (r : TrackRecord) (i : PairId) (h : HeadId) (now : Time) :
    (x.onRecord r i h now).pulses = x.pulses ∧ (x.onRecord r i h now).high = x.high := by
  unfold Head.onRecord
  split
  · split
    · exact ⟨rfl, rfl⟩
    · exact ⟨rfl, rfl⟩
  · exact ⟨rfl, rfl⟩

/-! ### RESET_PART (R182) -/

theorem Tracker.onReset_idle {t : Tracker} (h : t.handling = none) :
    t.onReset = { t with stray := 0, passage := Passage.vacant t.passage.number } := by
  unfold Tracker.onReset
  rw [h]

theorem Tracker.onReset_handling {t : Tracker} {x : Handling} (h : t.handling = some x) :
    t.onReset = { t with stray := 0, handling := some { x with deferred := x.deferred ++ [.reset] } } := by
  unfold Tracker.onReset
  rw [h]

theorem Tracker.onReset_stray (t : Tracker) : t.onReset.stray = 0 := by
  unfold Tracker.onReset
  split <;> rfl

theorem Part.lampReset_serving {p : Part} {tag : Tag} {k : Track} {g : Time} (h : p.lar.bank = .inService tag k g) :
    p.lampReset.lar.bank = p.restedBank k := by
  simp only [Part.lampReset, Part.setLar, h]

theorem Part.lampReset_resting {p : Part} (h : p.lar.bank.serving = false) : p.lampReset.lar.bank = p.lar.bank := by
  simp only [Part.lampReset, Part.setLar]
  split
  · rename_i hb
    rw [hb] at h
    exact nomatch h
  · rfl

theorem Store.slot_onReset {s : Store} {n : Nat} {x : Slot} (h : s.slots[n]? = some x) :
    s.onReset.slots[n]? = some (if x.state = .filling then .empty else x) := by
  simp only [Store.onReset, Vector.getElem?_map, h]
  rfl

/-- Settles O20, block by block from `runResetPart_eq`. -/
theorem resetPartState : Obligations.ResetPartState := by
  intro s r rest h
  refine ⟨_, h.next (Part.runResetPart_eq r _), rfl, rfl, rfl, rfl, rfl, rfl, rfl, rfl, rfl, rfl, rfl, rfl, rfl, rfl, rfl,
    rfl, rfl, rfl, rfl, rfl, rfl, fun tag k g hb => ?_, fun hb => ?_, rfl, rfl, rfl, rfl, fun n x hx => ?_, fun k => ?_⟩
  · exact Part.lampReset_serving hb
  · exact Part.lampReset_resting hb
  · exact Store.slot_onReset hx
  · generalize hp : s.part.setMgr { s.part.mgr with intake := rest } = p
    have front : p.resetFront.front.get k = (s.part.front.get k).onReset (s.part.record k) s.part.now := by
      rw [Part.resetFront_get]
      subst hp
      rfl
    have tracker : (p.trackers.map Tracker.onReset).get k = (s.part.trackers.get k).onReset := by
      rw [Quad.get_map]
      subst hp
      rfl
    have port : (p.ports.map Port.onReset).get k = { Port.reset with up := (s.part.ports.get k).up } := by
      rw [Quad.get_map]
      subst hp
      rfl
    simp only [State.withPart, Part.passage, Part.head, front, tracker, port]
    refine ⟨trivial, rfl, rfl, rfl, Tracker.onReset_stray _, Quad.get_all _ k, Quad.get_all _ k, fun hh => ?_,
      fun x hh => ?_, rfl, fun i => ⟨?_, ?_, fun d => ⟨fun he => ?_, fun he => ?_⟩⟩⟩
    · rw [Tracker.onReset_idle hh]
      exact ⟨hh, rfl⟩
    · rw [Tracker.onReset_handling hh]
      exact ⟨rfl, rfl⟩
    · rw [FrontEnd.pair_onReset]; rfl
    · rw [FrontEnd.pair_onReset]; rfl
    · rw [FrontEnd.pair_onReset, SensorPair.head_onReset]
      exact Head.onReset_enabled he _ i d _
    · rw [FrontEnd.pair_onReset, SensorPair.head_onReset]
      exact Head.onReset_disabled he _ i d _

/-! ### Records written to the front ends (R5, R15, R24, R29) -/

/-- R24: a record that does not end the use of an OCCUPIED input is written with no report. -/
theorem Part.writeRecord_quiet {p : Part} {k : Track} {r : TrackRecord} (h : leavesOccupied (p.front.get k) r = false) :
    p.writeRecord k r = { p with
      records := p.records.set k r, front := p.front.set k ((p.front.get k).onRecord r p.now) } :=
  if_neg (Bool.eq_false_iff.mp h)

theorem leavesOccupied_clear {f : FrontEnd} (h : f.occupancy.occupied = false) (r : TrackRecord) :
    leavesOccupied f r = false := by
  unfold leavesOccupied
  rw [h, Bool.and_false]

/-- R29: with no settled state OCCUPIED four records are loaded with no report. -/
theorem Part.loadRecords_clear {p : Part} (h : ∀ k, (p.front.get k).occupancy.occupied = false) (l : Quad TrackRecord) :
    p.loadRecords l = { p with
      records := l
      front :=
        { one := p.front.one.onRecord l.one p.now, two := p.front.two.onRecord l.two p.now
          three := p.front.three.onRecord l.three p.now, four := p.front.four.onRecord l.four p.now } } := by
  have quiet := fun k => leavesOccupied_clear (h k)
  unfold Part.loadRecords Track.all
  simp only [List.foldl_cons, List.foldl_nil]
  rw [Part.writeRecord_quiet (quiet .t1 _), Part.writeRecord_quiet (k := .t2) (by exact quiet .t2 _),
    Part.writeRecord_quiet (k := .t3) (by exact quiet .t3 _), Part.writeRecord_quiet (k := .t4) (by exact quiet .t4 _)]
  rfl

/-! ### A power-on reset (R181, R183) -/

/-- What auto-load adds to the state after a power-on reset: the page is read, and with a valid page whose flag is set
each record is written to its front end. -/
theorem Part.powerOn_eq (p : Part) : ∃ (c : Calibration) (l : Quad TrackRecord) (f : Quad FrontEnd),
    p.powerOn = { p.powerOnState with cal := c, records := l, front := f } ∧ c.write = none ∧
    (p.cal.page.valid = false ∨ p.cal.page.flag = false → ∀ k, f.get k = (p.front.get k).powerOn) ∧
    ∀ k, f.get k = (p.front.get k).powerOn ∨ ∃ r, f.get k = (p.front.get k).powerOn.onRecord r 0 := by
  have same : ∀ k, p.powerOnState.front.get k = (p.front.get k).powerOn := fun k => Quad.get_map _ _ k
  unfold Part.powerOn Part.autoLoad
  dsimp only
  split
  · rename_i valid
    split
    · rename_i flag
      rw [Part.loadRecords_clear (fun k => by rw [show _ = _ from same k]; rfl)]
      refine ⟨_, _, _, rfl, rfl, fun h => ?_, fun k => .inr ⟨p.cal.page.records.get k, by cases k <;> rfl⟩⟩
      rcases h with h | h
      · exact absurd (h.symm.trans valid) (by decide)
      · exact absurd (h.symm.trans flag) (by decide)
    · exact ⟨_, _, _, rfl, rfl, fun _ => same, fun k => .inl (same k)⟩
  · exact ⟨_, _, _, rfl, rfl, fun _ => same, fun k => .inl (same k)⟩

/-- R18: a pair after a power-on reset. -/
theorem FrontEnd.pair_powerOn (f : FrontEnd) (i : PairId) :
    f.powerOn.pair i = .reset (f.pair i).outer.high (f.pair i).inner.high := by cases i <;> rfl

theorem SensorPair.head_reset (s : SensorPair) (h : HeadId) :
    (SensorPair.reset s.outer.high s.inner.high).head h = .reset (s.head h).high := by cases h <;> rfl

/-- Settles O18, block by block from `powerOn_eq`. -/
theorem powerOnResetState : Obligations.PowerOnResetState := by
  intro s
  obtain ⟨c, l, f, eq, unwritten, plain, loaded⟩ := s.part.powerOn_eq
  refine ⟨_, State.next_withPart eq, rfl, rfl, rfl, rfl, rfl, rfl, rfl, rfl, rfl, rfl, rfl, rfl, rfl, rfl, rfl, unwritten,
    rfl, rfl, rfl, rfl, rfl, rfl, rfl, rfl, rfl, fun n hn => ?_, fun i hi => ?_, fun k => ?_⟩
  · show (Vector.replicate 64 Slot.empty)[n]? = _
    rw [Vector.getElem?_replicate, if_pos hn]
    rfl
  · show ((Vector.replicate 64 (none : Option VehicleType))[i]?).bind id = none
    rw [Vector.getElem?_replicate, if_pos hi]
    rfl
  · refine ⟨congrArg Tracker.passage (Quad.get_all _ k), congrArg Tracker.stray (Quad.get_all _ k),
      congrArg Tracker.handling (Quad.get_all _ k), Quad.get_all _ k, ?_⟩
    simp only [State.withPart, Part.head]
    have lamp : (Arbiter.reset s.part.lar.daylight).pendingSet.get k = none ∧
        (Arbiter.reset s.part.lar.daylight).deferral.get k = [] := ⟨Quad.get_all _ k, Quad.get_all _ k⟩
    have idle : s.part.cal.page.valid = false ∨ s.part.cal.page.flag = false →
        (f.get k).occupancy.occupied = false ∧ ∀ (i : PairId) (h : HeadId), (((f.get k).pair i).head h).state = .idle := by
      intro hn
      rw [plain hn k]
      refine ⟨rfl, fun i h => ?_⟩
      rw [FrontEnd.pair_powerOn, SensorPair.head_reset]
      rfl
    rcases loaded k with hf | ⟨r, hf⟩
    · rw [hf] at idle ⊢
      refine ⟨rfl, rfl, rfl, lamp.1, lamp.2, rfl, rfl, fun i => ?_, idle⟩
      rw [FrontEnd.pair_powerOn]
      refine ⟨rfl, rfl, fun h => ?_⟩
      rw [SensorPair.head_reset]
      exact ⟨rfl, rfl⟩
    · rw [hf] at idle ⊢
      refine ⟨rfl, rfl, rfl, lamp.1, lamp.2, rfl, rfl, fun i => ?_, idle⟩
      rw [FrontEnd.pair_onRecord, FrontEnd.pair_powerOn]
      refine ⟨rfl, rfl, fun h => ?_⟩
      rw [SensorPair.head_onRecord, SensorPair.head_reset]
      exact Head.onRecord_level _ _ _ _ _

/-! ### TRACK_WRITE (R24) -/

/-- The record of a TRACK_WRITE that passes its checks is written behind the reply. -/
theorem Part.runTrackWrite_accepted {p : Part} {r : CommandRecord} {k : Track} (hk : r.byteAt 0 = k.number)
    (fields : firstBadField (r.args.drop 1) = none)
    (sum : slotSum (p.records.set k (trackRecordOf (r.args.drop 1))) ≤ 64)
    (slots : (trackRecordOf (r.args.drop 1)).slots = (p.record k).slots ∨
      ∀ (n : Nat) (x : Slot), p.slot n = some x → x.state = .free) :
    Part.runTrackWrite r p = (p.reply r .ok 0 .empty).writeRecord k (trackRecordOf (r.args.drop 1)) := by
  have unused : ¬ ((trackRecordOf (r.args.drop 1)).slots ≠ (p.record k).slots ∧ p.someSlotUsed = true) := by
    rintro ⟨differ, used⟩
    obtain ⟨n, x, hx, busy⟩ := p.someSlotUsed_iff.mp used
    exact slots.elim differ fun free => busy (free n x hx)
  unfold Part.runTrackWrite
  simp only [hk, Track.ofNumber_number, fields]
  rw [if_neg (show ¬ 64 < sumWith p.records k _ from Nat.not_lt.mpr sum), if_neg unused]

/-- R49: a close changes the tracker of the passage and the responder alone, and adds to the control queue. -/
theorem Part.closePassage_frame (p : Part) (k : Track) (reason : CloseReason) : ∃ (x : Tracker) (m : Responder),
    p.closePassage k reason = { p with trackers := p.trackers.set k x, mgr := m } ∧
    p.mgr.control <+: m.control ∧ m.intake = p.mgr.intake ∧ m.mode = p.mgr.mode := by
  have kept := p.closePassage_kept k reason
  have closed := p.closePassage_spec k reason
  unfold Part.ClosedAs at closed
  split at closed
  · exact ⟨p.trackers.get k, p.mgr, by rw [closed, Quad.set_get], List.prefix_refl _, rfl, rfl⟩
  · obtain ⟨final, -, eq⟩ := closed
    refine ⟨_, _, eq, ?_, by simpa only [eq] using kept.intake, by simpa only [eq] using kept.mode⟩
    split
    · exact List.prefix_append _ _
    · exact List.prefix_refl _

/-- R35, R43: a report changes the tracker that it reaches and the responder alone, and adds to the control queue. -/
theorem Part.reachTracker_report_frame (p : Part) (k : Track) (o : Bool) : ∃ (x : Tracker) (m : Responder),
    p.reachTracker k (.report o) = { p with trackers := p.trackers.set k x, mgr := m } ∧
    p.mgr.control <+: m.control ∧ m.intake = p.mgr.intake ∧ m.mode = p.mgr.mode := by
  unfold Part.reachTracker
  split
  · exact ⟨_, p.mgr, rfl, List.prefix_refl _, rfl, rfl⟩
  · show ∃ x m, p.takeReport k o = _ ∧ _
    unfold Part.takeReport
    split
    · exact p.closePassage_frame k .normal
    · exact ⟨p.trackers.get k, p.mgr, by rw [Quad.set_get], List.prefix_refl _, rfl, rfl⟩

/-- R15, R24: what a record written leaves: its front end, and at most a report of CLEAR to the tracker of the track. -/
theorem Part.writeRecord_frame (p : Part) (k : Track) (r : TrackRecord) : ∃ (x : Tracker) (m : Responder),
    p.writeRecord k r = { p with
      records := p.records.set k r, front := p.front.set k ((p.front.get k).onRecord r p.now)
      trackers := p.trackers.set k x, mgr := m } ∧
    p.mgr.control <+: m.control ∧ m.intake = p.mgr.intake ∧ m.mode = p.mgr.mode ∧
    (r.usesOccupancy = true ∨ (p.front.get k).occupancy.occupied = false ∨
      ((p.trackers.get k).handling = none ∧ (p.passage k).state ≠ .clearing) → p.trackers.set k x = p.trackers) := by
  cases hl : leavesOccupied (p.front.get k) r with
  | false =>
    rw [Part.writeRecord_quiet hl]
    exact ⟨p.trackers.get k, p.mgr, by rw [Quad.set_get], List.prefix_refl _, rfl, rfl, fun _ => Quad.set_get _ _⟩
  | true =>
    obtain ⟨unused, occupied⟩ := Bool.and_eq_true_iff.mp hl
    rw [show p.writeRecord k r = _ from if_pos hl]
    generalize hq : ({ p with
      records := p.records.set k r, front := p.front.set k ((p.front.get k).onRecord r p.now) } : Part) = q
    have trackers : q.trackers = p.trackers := by rw [← hq]
    have mgr : q.mgr = p.mgr := by rw [← hq]
    obtain ⟨x, m, eq, control, intake, mode⟩ := q.reachTracker_report_frame k false
    rw [eq]
    refine ⟨x, m, by rw [← hq], mgr ▸ control, mgr ▸ intake, mgr ▸ mode, ?_⟩
    rintro (used | clear | ⟨handling, state⟩)
    · rw [used] at unused; exact absurd unused (by decide)
    · exact absurd (clear.symm.trans occupied) (by decide)
    · rw [← trackers] at handling ⊢
      have state : (q.passage k).state ≠ .clearing := by unfold Part.passage at *; rwa [trackers]
      have := congrArg Part.trackers ((q.reachTracker_report_idle handling (.inl state)).symm.trans eq)
      exact this.symm

/-- Settles O27, from `runTrackWrite_accepted` and `writeRecord_frame`. -/
theorem trackWriteReplacesRecord : Obligations.TrackWriteReplacesRecord := by
  intro s r rest k h p new f hk fields sum slots
  obtain ⟨x, m, eq, control, intake, mode, trackers⟩ := (p.answered r rest .ok 0 .empty).writeRecord_frame k new
  have run := Part.runTrackWrite_accepted (p := p.setMgr { p.mgr with intake := rest }) hk fields sum slots
  refine ⟨_, h.next (run.trans eq), rfl, rfl, fun j hj => ?_, ?_,
    fun hq => trackers (hq.imp_left fun ⟨he, ho⟩ => Bool.and_eq_true_iff.mpr ⟨he, ho⟩), control, intake, rfl, rfl, rfl,
    rfl, rfl, rfl, rfl, mode⟩
  · exact ⟨Quad.get_set_other _ hj _, Quad.get_set_other _ hj _⟩
  · simp only [State.withPart, Part.head, Quad.get_set_self]
    refine ⟨rfl, rfl, rfl, rfl, fun i => ?_⟩
    rw [FrontEnd.pair_onRecord]
    refine ⟨rfl, rfl, fun d => ?_⟩
    rw [SensorPair.head_onRecord]
    exact ⟨fun he hx => Head.onRecord_fault he hx i d _, fun he hx => Head.onRecord_watch he hx i d _,
      fun he => Head.onRecord_disabled he _ i d _⟩

end Sys2Proof.Machine
end

