-- ==== Sys2Proof/Proofs/TakeRules.lean ====
section
/-! PROOFS. The take of an event while the passage record is VACANT (O47). -/

namespace Sys2Proof.Machine

/-! ### Reading and replacing a passage -/

theorem Part.passage_setPassage (p : Part) (k : Track) (r : Passage) : (p.setPassage k r).passage k = r := by
  simp [Part.setPassage, Part.passage]

theorem Part.setPassage_setPassage (p : Part) (k : Track) (r r' : Passage) :
    (p.setPassage k r).setPassage k r' = p.setPassage k r' := by
  simp [Part.setPassage, Part.setTracker]

/-! ### An axle handed to a matcher that holds none (R58, R63) -/

/-- The part with another matcher and another NO_SPEED flag in the passage of a track: all that a hand-over to an empty
matcher changes. -/
def Part.matching (p : Part) (k : Track) (m : Matcher) (noSpeed : Bool) : Part :=
  p.setPassage k { p.passage k with flags := { (p.passage k).flags with noSpeed := noSpeed }, matcher := m }

theorem Part.matching_setMatcher (p : Part) (k : Track) (m m' : Matcher) (b : Bool) :
    (p.matching k m b).setMatcher k m' = p.matching k m' b := by
  simp only [Part.matching, Part.setMatcher, Part.passage_setPassage, Part.setPassage_setPassage]

theorem Part.matching_matcher (p : Part) (k : Track) (m : Matcher) (b : Bool) :
    ((p.matching k m b).passage k).matcher = m := by
  rw [Part.matching, Part.passage_setPassage]

/-- R60: a conversion at most flags NO_SPEED. -/
theorem Part.matching_flagNoSpeed (p : Part) (k : Track) (m : Matcher) (b : Bool) :
    ∃ b', (p.matching k m b).flagNoSpeed k = p.matching k m b' := by
  unfold Part.flagNoSpeed
  split
  · exact ⟨b, rfl⟩
  · exact ⟨true, by simp only [Part.matching, Part.passage_setPassage, Part.setPassage_setPassage]⟩

theorem Part.matching_innerTime (p : Part) (k : Track) (m : Matcher) (b : Bool) (i : PairId) (h : HeadId) (t : Time) :
    ∃ b', ((p.matching k m b).innerTime k i h t).1 = p.matching k m b' := by
  unfold Part.innerTime
  split
  · exact ⟨b, rfl⟩
  · exact p.matching_flagNoSpeed k m b

/-- R67: the start of the coupling timer leaves the pending list. -/
theorem Part.matching_startCoupling (p : Part) (k : Track) (m : Matcher) (b : Bool) :
    ∃ m' b', (p.matching k m b).startCoupling k = p.matching k m' b' ∧ m'.pending = m.pending := by
  unfold Part.startCoupling
  dsimp only
  split
  · obtain ⟨b', h⟩ := p.matching_flagNoSpeed k m b
    rw [h, Part.matching_setMatcher]
    refine ⟨_, b', rfl, ?_⟩
    show ((p.matching k m b').passage k).matcher.pending = m.pending
    rw [Part.matching_matcher]
  · exact ⟨m, b, rfl, rfl⟩

/-- R58, R63: an axle handed to an empty pending list stands there alone. -/
theorem Part.handAxle_empty {p : Part} {k : Track} (h : (p.passage k).matcher.pending = []) (e : AxleEvent)
    (n : Count16) : ∃ m b, p.handAxle k e n = p.matching k m b ∧ m.pending.length = 1 := by
  have stopped : p.setMatcher k { (p.passage k).matcher with coupling := none } =
      p.matching k { (p.passage k).matcher with coupling := none } (p.passage k).flags.noSpeed := rfl
  unfold Part.handAxle
  rw [stopped]
  dsimp only
  generalize hm : ({ (p.passage k).matcher with coupling := none } : Matcher) = m
  have none : m.pending = [] := by rw [← hm]; exact h
  obtain ⟨b, inner⟩ := p.matching_innerTime k m (p.passage k).flags.noSpeed e.pair e.position e.time
  have gap : ∀ t, ((p.matching k m b).measureGap k t) = (p.matching k m b, 0) := fun t => by
    simp only [Part.measureGap, Part.matching_matcher, none, List.getLast?_nil]
  rw [inner, gap]
  have arrived : ∀ a g, ∃ m', (p.matching k m b).arrive k a g = p.matching k m' b ∧ m'.pending.length = 1 := fun a g => by
    simp only [Part.arrive, Part.matching_matcher, none, Part.arriveEmpty, Part.matching_setMatcher]
    exact ⟨_, rfl, rfl⟩
  obtain ⟨m', arrive, one⟩ := arrived { ordinal := n, position := e.position, time := _, gap := .none } 0
  rw [arrive]
  obtain ⟨m'', b', start, pending⟩ := p.matching_startCoupling k m' b
  exact ⟨m'', b', start, by rw [pending]; exact one⟩

/-! ### What the take of an event changes besides the passage of its track -/

/-- `q` is the part `p` with the front end and the passage record of a track replaced; outside ON_LINE nothing else has
changed, and in ON_LINE neither the tables nor the front ends and trackers of the other tracks. -/
structure Part.Entered (p : Part) (k : Track) (f : FrontEnd) (r : Passage) (q : Part) : Prop where
  front    : q.front = p.front.set k f
  trackers : q.trackers = p.trackers.set k { p.trackers.get k with passage := r }
  kept     : p.Kept q
  offLine  : p.mode ≠ .onLine →
    q.csc = p.csc ∧ q.lar = p.lar ∧ q.ports = p.ports ∧ q.fsc = p.fsc ∧ q.mgr = p.mgr

namespace Part.Entered

variable {p q : Part} {k : Track} {f : FrontEnd} {r : Passage}

theorem start (p : Part) (k : Track) (f : FrontEnd) : p.Entered k f (p.passage k) (p.setFront k f) :=
  ⟨rfl, (Quad.set_get _ _).symm, p.setFront_kept k f, fun _ => ⟨rfl, rfl, rfl, rfl, rfl⟩⟩

theorem passage (h : p.Entered k f r q) : q.passage k = r := by
  unfold Part.passage
  rw [h.trackers, Quad.get_set_self]

theorem setPassage {r' : Passage} (h : p.Entered k f r q) : p.Entered k f r' (q.setPassage k r') :=
  ⟨h.front, by simp [Part.setPassage, h.trackers], h.kept.trans (q.setPassage_kept k r'), h.offLine⟩

theorem retimePassage {n : Count16} (h : p.Entered k f r q) : p.Entered k f r (q.retimePassage k n) :=
  have same := q.retimePassage_tracks k n
  ⟨same.front.trans h.front, same.trackers.trans h.trackers, h.kept.trans (q.retimePassage_kept k n), fun hm => by
    have : q.retimePassage k n = q := if_neg fun on => hm (h.kept.mode.symm.trans on)
    rw [this]
    exact h.offLine hm⟩

/-- R46 to R48: the first pace of a passage whose coupling timer does not run. -/
theorem updatePace_first (h : p.Entered k f r q) (hp : r.pace = none) (hc : r.matcher.coupling = none) (i : PairId)
    (transit : Option Nat) : ∃ slow fast : Bool, p.Entered k f { r with
      pace := transit.map (fun d => (axlePace d ((p.record k).spacing i)).pace)
      flags := { r.flags with slow := slow, fast := fast } } (q.updatePace k i transit) := by
  cases transit with
  | none =>
    have same : { r with pace := none, flags := { r.flags with slow := r.flags.slow, fast := r.flags.fast } } = r := by
      rw [← hp]
    exact ⟨r.flags.slow, r.flags.fast, by rw [Option.map_none, same]; exact h⟩
  | some d =>
    have record : q.record k = p.record k := congrArg (·.get k) h.kept.records
    unfold Part.updatePace
    simp only [h.passage, record, hp, filterPace, reduceCtorEq, if_false]
    refine ⟨r.flags.slow || (axlePace d ((p.record k).spacing i)).slow,
      r.flags.fast || (axlePace d ((p.record k).spacing i)).fast, retimePassage ?_⟩
    unfold Part.moveCoupling
    simp only [Part.passage_setPassage, hc]
    exact h.setPassage

/-- R37, R58: the first entry axle of a passage is counted, gives the pace, and pends unless matching is suspended. -/
theorem entryAxle_first (h : p.Entered k f r q) (hp : r.pace = none) (hc : r.matcher.coupling = none)
    (hl : r.matcher.pending = []) (e : AxleEvent) : ∃ (slow fast noSpeed : Bool) (m : Matcher),
      m.pending.length = (if r.flags.matchSuspended then 0 else 1) ∧ p.Entered k f { r with
        entries := r.entries + 1, inside := r.inside + 1
        pace := e.transit.map (fun d => (axlePace d ((p.record k).spacing e.pair)).pace)
        flags := { r.flags with slow := slow, fast := fast, noSpeed := noSpeed }, matcher := m } (q.entryAxle k e) := by
  have counted : p.Entered k f { r with entries := r.entries + 1, inside := r.inside + 1 } _ := h.setPassage
  obtain ⟨slow, fast, paced⟩ := counted.updatePace_first hp hc e.pair e.transit
  unfold Part.entryAxle
  simp only [h.passage, paced.passage]
  split
  · exact ⟨slow, fast, r.flags.noSpeed, r.matcher, congrArg List.length hl, paced⟩
  · obtain ⟨m, b, handed, one⟩ := Part.handAxle_empty (k := k) (by rw [paced.passage]; exact hl) e (r.entries + 1)
    refine ⟨slow, fast, b, m, one, ?_⟩
    rw [handed, Part.matching, paced.passage]
    exact paced.setPassage

/-- R35, R42: with an axle inside, the handling that begins leaves the passage as it is, and no close is due. -/
theorem examineInside (h : p.Entered k f r q) (hi : r.inside ≠ 0) : ∃ t, q.examineInside k = t ∧
    t.front = p.front.set k f ∧
    t.trackers = p.trackers.set k { p.trackers.get k with
      passage := r, handling := some { takenAt := p.now, closeDue := false, deferred := [] } } ∧
    p.Kept t ∧ (p.mode ≠ .onLine →
      t.csc = p.csc ∧ t.lar = p.lar ∧ t.ports = p.ports ∧ t.fsc = p.fsc ∧ t.mgr = p.mgr) := by
  have now : q.now = p.now := congrArg Timebase.time h.kept.tb
  refine ⟨_, rfl, h.front, ?_, h.kept.trans (q.examineInside_kept k), h.offLine⟩
  unfold Part.examineInside
  simp only [h.passage, hi, decide_false, Bool.false_and, Bool.false_eq_true, if_false, Part.setTracker, h.trackers,
    Quad.get_set_self, Quad.set_set, now]

end Part.Entered

/-- R37: an event at the entry pair that does not go outward is an entry axle. -/
theorem Part.classify_entry {p : Part} {k : Track} {e : AxleEvent} (h : (p.passage k).entryPair = some e.pair)
    (hd : e.direction ≠ .outward) : p.classify k e = p.entryAxle k e := by
  unfold Part.classify
  rw [if_pos h]
  split
  · exact absurd ‹_› hd
  · rfl

/-- R35, R37: the handling of an entry axle. -/
theorem Part.handleEvent_entry {p : Part} {k : Track} {e : AxleEvent} {r : Passage} {marked : Bool}
    (hr : (p.passage k).taken (p.silenceAt k) marked = r) (h : r.entryPair = some e.pair)
    (hd : e.direction ≠ .outward) :
    p.handleEvent k e marked = ((p.setPassage k r).entryAxle k e).examineInside k := by
  unfold Part.handleEvent
  rw [hr, Part.classify_entry (by rw [Part.passage_setPassage]; exact h) hd]

/-- R36, R41, R45: the record of a passage just opened, at the take of the event that opened it. -/
theorem Passage.opened_taken (r : Passage) (e : AxleEvent) (deadline : Time) (marked : Bool) :
    let o := (r.opened e).taken deadline marked
    o.state = .running ∧ o.number = r.number + 1 ∧ o.entryPair = some e.pair ∧ o.openTime = e.time ∧ o.entries = 0 ∧
    o.exits = 0 ∧ o.backouts = 0 ∧ o.inside = 0 ∧ o.silence = some deadline ∧ o.pace = none ∧
    o.flags.axleLoss = marked ∧ o.flags.matchSuspended = marked ∧ o.matcher = .empty := by
  cases marked <;> exact ⟨rfl, rfl, rfl, rfl, rfl, rfl, rfl, rfl, rfl, rfl, rfl, rfl, rfl⟩

/-- R12, R35: the take of an event at a vacant record. -/
theorem Part.takeEvent_vacant {p : Part} {k : Track} {e : AxleEvent} {rest : List AxleEvent}
    (hq : (p.front.get k).queue = e :: rest) (hh : (p.trackers.get k).handling = none)
    (hv : (p.passage k).state = .vacant) :
    let q := p.setFront k (p.front.get k).dequeue
    p.takeEvent k =
      if e.direction = .outward then
        q.setTracker k { p.trackers.get k with stray := (p.trackers.get k).stray + 1 }
      else (q.setPassage k ((p.passage k).opened e)).handleEvent k e (p.front.get k).loss := by
  have due : p.takeDue k = true := by simp [Part.takeDue, hq, hh]
  have vacant : ((p.setFront k (p.front.get k).dequeue).passage k).state = .vacant := hv
  unfold Part.takeEvent
  rw [if_pos due]
  simp only [hq, vacant, if_true]
  rfl

/-- Settles O47: the stray event by `takeEvent_vacant`, the opening of a passage by `entryAxle_first`. -/
theorem eventTakeOpensPassage : Obligations.EventTakeOpensPassage := by
  intro s k e rest p f f' old hq hh hv
  have dequeued : (p.front.get k).dequeue = f' := FrontEnd.dequeue_cons hq
  have taken := Part.takeEvent_vacant hq hh hv
  rw [dequeued] at taken
  refine ⟨fun hd => State.next_withPart (taken.trans (if_pos hd)), fun hd => ?_⟩
  obtain ⟨state, number, entryPair, openTime, entries, exits, backouts, inside, silence, pace, axleLoss, suspended,
    matcher⟩ := old.opened_taken e (p.silenceAt k) f.loss
  generalize hr : (old.opened e).taken (p.silenceAt k) f.loss = r at *
  have opened : p.Entered k f' r (((p.setFront k f').setPassage k (old.opened e)).setPassage k r) :=
    ((Part.Entered.start p k f').setPassage).setPassage
  obtain ⟨slow, fast, noSpeed, m, pending, entered⟩ :=
    opened.entryAxle_first pace (by rw [matcher]; rfl) (by rw [matcher]; rfl) e
  obtain ⟨t, examined, front, trackers, kept, offLine⟩ :=
    entered.examineInside (show r.inside + 1 ≠ 0 by rw [inside]; decide)
  have handled := (taken.trans (if_neg hd)).trans
    (Part.handleEvent_entry (by rw [Part.passage_setPassage]; exact hr) entryPair hd)
  refine ⟨_, State.next_withPart (handled.trans examined), front, ?_⟩
  simp only [State.withPart, Part.passage, trackers, Quad.get_set_self]
  rw [suspended] at pending
  exact ⟨state, number, entryPair, openTime, by rw [entries]; rfl, exits, backouts, by rw [inside]; rfl, silence, trivial,
    axleLoss, suspended, pending, trivial, trivial, fun j hj => Quad.get_set_other _ hj _, kept.records, kept.types, kept.cal,
    offLine⟩

end Sys2Proof.Machine
end

