-- ==== Sys2Proof/Proofs/CeaseRules.lean ====
section
/-! PROOFS. What the capture scheduler does to each job at a change to SERVICE (06 R110, R112), and what the pass over
the schedule leaves of the jobs, the ports, the arbiter and the control queue. -/

namespace Sys2Proof.Machine

/-! ### Records that join the control queue -/

/-- `q` has the records of the control queue of `p` with at most `n` more behind them, and the same records waiting. -/
structure Part.Notes (p : Part) (n : Nat) (q : Part) : Prop where
  control : ∃ l : List ControlRecord, q.mgr.control = p.mgr.control ++ l ∧ l.length ≤ n
  waiting : q.mgr.waiting = p.mgr.waiting

namespace Part.Notes

variable {p q r : Part} {m n : Nat}

theorem of_mgr (h : q.mgr = p.mgr) : p.Notes n q :=
  ⟨⟨[], by rw [h, List.append_nil], Nat.zero_le _⟩, by rw [h]⟩

theorem trans (h : p.Notes m q) (g : q.Notes n r) : p.Notes (m + n) r := by
  obtain ⟨⟨l, hl, hm⟩, hw⟩ := h
  obtain ⟨⟨l', hl', hn⟩, hw'⟩ := g
  refine ⟨⟨l ++ l', by rw [hl', hl, List.append_assoc], ?_⟩, hw'.trans hw⟩
  rw [List.length_append]
  omega

theorem mono (h : p.Notes m q) (hmn : m ≤ n) : p.Notes n q := by
  obtain ⟨⟨l, hl, hm⟩, hw⟩ := h
  exact ⟨⟨l, hl, hm.trans hmn⟩, hw⟩

/-- R172: a notice takes one place or none. -/
theorem notice (p : Part) (x : Notice) : p.Notes 1 (p.notice x) := by
  rcases p.notice_cases x with ⟨-, h⟩ | ⟨-, h⟩
  · rw [h]; exact ⟨⟨_, rfl, le_rfl⟩, rfl⟩
  · rw [h]; exact ⟨⟨[], (List.append_nil _).symm, Nat.zero_le _⟩, rfl⟩

end Part.Notes

/-! ### The arbiter outside ON_LINE (R122, R123, R125) -/

/-- `b` has no lamp entry that `a` has not, and no request where `a` has none. -/
structure Arbiter.Released (a b : Arbiter) : Prop where
  entries  : ∀ t : Tag, a.entry t = none → b.entry t = none
  requests : (∀ k : Track, a.pendingSet.get k = none ∧ a.deferral.get k = []) →
    ∀ k : Track, b.pendingSet.get k = none ∧ b.deferral.get k = []

namespace Arbiter.Released

variable {a b c : Arbiter}

theorem refl (a : Arbiter) : a.Released a := ⟨fun _ h => h, fun h => h⟩

theorem trans (h : a.Released b) (g : b.Released c) : a.Released c :=
  ⟨fun t ht => g.entries t (h.entries t ht), fun hr => g.requests (h.requests hr)⟩

theorem bank (a : Arbiter) (x : Bank) : a.Released { a with bank := x } := ⟨fun _ h => h, fun h => h⟩

theorem removeEntry (a : Arbiter) (t : Tag) : a.Released (a.removeEntry t) := by
  refine ⟨fun u hu => ?_, fun h => h⟩
  unfold Arbiter.entry at *
  rw [List.find?_eq_none] at *
  exact fun e he => hu e (List.mem_of_mem_filter he)

theorem withdraw (a : Arbiter) (k : Track) (t : Tag) : a.Released (a.withdraw k t) := by
  refine ⟨fun u hu => Arbiter.entry_withdraw_none k t hu, fun h j => ?_⟩
  obtain ⟨none, empty⟩ := h k
  unfold Arbiter.withdraw
  rw [none, if_neg nofun, empty, List.filter_nil]
  refine ⟨(h j).1, ?_⟩
  by_cases hj : j = k
  · subst hj; exact Quad.get_set_self _ _ _
  · exact (Quad.get_set_other _ hj _).trans (h j).2

end Arbiter.Released

/-- R123, R125: outside ON_LINE the end of a job changes of the part the arbiter alone. -/
theorem Part.lampJobEnd_offLine {p : Part} (hm : p.mode ≠ .onLine) (t : Tag) :
    ∃ a, p.lar.Released a ∧ p.lampJobEnd t = p.setLar a := by
  have held : ∀ a, (p.setLar a).grant = p.setLar a := fun a => Part.grant_held (.inr hm)
  have removed := Arbiter.Released.removeEntry p.lar t
  have withdrawn := fun k => (Arbiter.Released.withdraw p.lar k t).trans (.removeEntry _ t)
  unfold Part.lampJobEnd
  split
  · exact ⟨p.lar, .refl _, rfl⟩
  · split
    · exact ⟨_, removed.trans (.bank _ _), held _⟩
    · exact ⟨_, removed, rfl⟩
    · exact ⟨_, removed, rfl⟩
    all_goals exact ⟨_, withdrawn _, held _⟩

/-- R123, R125: outside ON_LINE a window end changes the arbiter, and of a job that had a lamp entry the lamp status. -/
theorem Part.lampWindowEnd_offLine {p : Part} (hm : p.mode ≠ .onLine) (t : Tag) :
    ∃ a, p.lar.Released a ∧ (p.lampWindowEnd t = p.setLar a ∨
      (p.lar.entry t ≠ none ∧ p.lampWindowEnd t = (p.setLar a).setLamp t .unlit)) := by
  have held : ∀ a, (p.setLar a).grant = p.setLar a := fun a => Part.grant_held (.inr hm)
  have held' : ∀ a, ((p.setLar a).setLamp t .unlit).grant = (p.setLar a).setLamp t .unlit := fun a =>
    Part.grant_held (.inr hm)
  have removed := Arbiter.Released.removeEntry p.lar t
  have withdrawn := fun k => (Arbiter.Released.withdraw p.lar k t).trans (.removeEntry _ t)
  unfold Part.lampWindowEnd
  split
  · exact ⟨p.lar, .refl _, .inl rfl⟩
  · rename_i e he
    have entered : p.lar.entry t ≠ none := by rw [he]; exact nofun
    split
    · exact ⟨_, removed.trans (.bank _ _), .inl (held _)⟩
    · exact ⟨_, removed, .inl rfl⟩
    · exact ⟨_, removed, .inr ⟨entered, rfl⟩⟩
    all_goals exact ⟨_, withdrawn _, .inr ⟨entered, held' _⟩⟩

/-! ### Jobs by their tags -/

/-- Of jobs with distinct tags the one in the schedule is the one found. -/
theorem Part.job_of_mem {p : Part} (h : p.TagsDistinct) {i : Job} (hi : i ∈ p.csc.jobs) : p.job i.tag = some i := by
  cases hf : p.job i.tag with
  | none => exact absurd (beq_self_eq_true i.tag) (List.find?_eq_none.mp hf i hi)
  | some y =>
    obtain ⟨ht, hy⟩ := Part.job_some hf
    exact congrArg some (List.inj_on_of_nodup_map h.1 hy hi ht)

theorem Part.job_none {p : Part} {t : Tag} (h : p.job t = none) : ∀ x ∈ p.csc.jobs, x.tag ≠ t := fun x hx ht =>
  List.find?_eq_none.mp h x hx (beq_iff_eq.mpr ht)

theorem Part.modJob_none {p : Part} {t : Tag} (h : p.job t = none) (f : Job → Job) : p.modJob t f = p := by
  have : p.csc.jobs.map (fun j => if j.tag == t then f j else j) = p.csc.jobs :=
    (List.map_congr_left fun x hx => if_neg (by simpa using Part.job_none h x hx)).trans (List.map_id' _)
  unfold Part.modJob
  rw [this]
  rfl

theorem Part.modJob_modJob (p : Part) (t : Tag) {f : Job → Job} (hf : ∀ x, (f x).tag = x.tag) (g : Job → Job) :
    (p.modJob t f).modJob t g = p.modJob t (fun x => g (f x)) := by
  simp only [Part.modJob, Part.setJobs, List.map_map]
  congr 2
  refine List.map_congr_left fun x _ => ?_
  simp only [Function.comp]
  split
  · rename_i h
    rw [if_pos (by rw [hf]; exact h)]
  · rfl

/-! ### What the end of one job leaves -/

/-- `q` has of each port the job of `p` or none, of the arbiter no entry and no request that `p` has not, and at most `n`
more records in the control queue. -/
structure Part.Fades (p : Part) (n : Nat) (q : Part) : Prop where
  ports : ∀ k : Track, (q.ports.get k).job = (p.ports.get k).job ∨ (q.ports.get k).job = none
  lar   : p.lar.Released q.lar
  notes : p.Notes n q

theorem Part.Fades.refl (p : Part) : p.Fades 0 p := ⟨fun _ => .inl rfl, .refl _, .of_mgr rfl⟩

theorem Part.Fades.trans {p q r : Part} {m n : Nat} (h : p.Fades m q) (g : q.Fades n r) : p.Fades (m + n) r := by
  refine ⟨fun k => ?_, h.lar.trans g.lar, h.notes.trans g.notes⟩
  rcases g.ports k with hk | hk
  · rw [hk]; exact h.ports k
  · exact .inr hk

/-- No drain end takes the job: lines of it are outstanding, or no port serves it. -/
def Part.Undrained (p : Part) (x : Job) : Prop :=
  x.received + x.lost ≠ x.triggered ∨ ∀ k : Track, (p.ports.get k).job.map PortJob.tag ≠ some x.tag

theorem Part.Undrained.fades {p q : Part} {n : Nat} {x : Job} (h : p.Undrained x) (hq : p.Fades n q) :
    q.Undrained x := by
  refine h.imp_right fun unserved k => ?_
  rcases hq.ports k with hk | hk
  · rw [hk]; exact unserved k
  · rw [hk]; exact nofun

/-- R112: the job of a tag has ended, or it drains; the other jobs are as they were, but for one whose drain is at its
end. -/
structure Part.Ceases (p : Part) (t : Tag) (q : Part) : Prop where
  comes : ∀ x ∈ q.csc.jobs, (x ∈ p.csc.jobs ∧ x.tag ≠ t) ∨
    (x.tag = t ∧ x.state = .draining ∧ ∃ y ∈ p.csc.jobs, y.tag = t)
  stays : p.TagsDistinct → ∀ x ∈ p.csc.jobs, x.tag ≠ t → p.Undrained x → x ∈ q.csc.jobs
  fades : p.Fades 1 q

/-- A tag of no job has nothing to end. -/
theorem Part.Ceases.absent {p : Part} {t : Tag} (h : p.job t = none) : p.Ceases t p :=
  ⟨fun x hx => .inl ⟨hx, Part.job_none h x hx⟩, fun _ _ hx _ _ => hx,
    ⟨fun _ => .inl rfl, .refl _, .of_mgr rfl⟩⟩

/-- R110: the end of a job outside ON_LINE. -/
theorem Part.endJob_offLine {p : Part} (hm : p.mode ≠ .onLine) {t : Tag} {j : Job} (hj : p.job t = some j)
    (reason : EndReason) (cause : CancelCause) : ∃ a, p.lar.Released a ∧
      p.endJob t reason cause = ((p.setLar a).removeJob t).notice (.jobEnded j p.now reason cause) := by
  obtain ⟨a, released, eq⟩ := p.lampJobEnd_offLine hm t
  refine ⟨a, released, ?_⟩
  unfold Part.endJob
  rw [hj, eq]

theorem Part.endJob_ceases {p : Part} (hm : p.mode ≠ .onLine) (t : Tag) (reason : EndReason) (cause : CancelCause) :
    p.Ceases t (p.endJob t reason cause) ∧ ∀ x ∈ (p.endJob t reason cause).csc.jobs, x.tag ≠ t := by
  cases hj : p.job t with
  | none =>
    have : p.endJob t reason cause = p := by unfold Part.endJob; rw [hj]
    rw [this]
    exact ⟨.absent hj, Part.job_none hj⟩
  | some j =>
    obtain ⟨a, released, eq⟩ := Part.endJob_offLine hm hj reason cause
    obtain ⟨csc, -, ports, lar, -⟩ := ((p.setLar a).removeJob t).notice_frame (.jobEnded j p.now reason cause)
    have jobs : (p.endJob t reason cause).csc.jobs = p.csc.jobs.filter (fun x => x.tag != t) := by rw [eq, csc]; rfl
    have others : ∀ x, x ∈ (p.endJob t reason cause).csc.jobs ↔ x ∈ p.csc.jobs ∧ x.tag ≠ t := fun x => by
      rw [jobs, List.mem_filter, bne_iff_ne]
    refine ⟨⟨fun x hx => .inl ((others x).mp hx), fun _ x hx ht _ => (others x).mpr ⟨hx, ht⟩, ?_⟩,
      fun x hx => ((others x).mp hx).2⟩
    obtain ⟨control, waiting⟩ := Part.Notes.notice ((p.setLar a).removeJob t) (.jobEnded j p.now reason cause)
    rw [eq]
    exact ⟨fun k => .inl (by rw [ports]; rfl), by rw [lar]; exact released, ⟨control, waiting⟩⟩

/-! ### The end of a drain at the change (R108, R142) -/

/-- R108: where it finds a job, the end of a drain takes it from the schedule and from its port. -/
theorem Part.finishDrain_fades {p : Part} {k : Track} {pj : PortJob} {j : Job} (hp : (p.ports.get k).job = some pj)
    (hj : p.job pj.tag = some j) (kind : DrainEnd) (n : Nat) : p.Fades 1 (p.finishDrain k kind n) ∧
      (p.finishDrain k kind n).csc.jobs = p.csc.jobs.filter (fun x => x.tag != pj.tag) := by
  have after : ∀ (q : Part) (x : Notice), q.csc = p.csc → q.lar = p.lar → q.mgr = p.mgr →
      q.ports = p.ports.set k { p.ports.get k with
        activity := .idle, job := none, generator := none, fence := fenceAfter (p.ports.get k).expected n } →
      p.Fades 1 ((q.removeJob pj.tag).notice x).kickEngine ∧
      ((q.removeJob pj.tag).notice x).kickEngine.csc.jobs = p.csc.jobs.filter (fun x => x.tag != pj.tag) := by
    intro q x csc lar mgr ports
    obtain ⟨kcsc, kmgr, kports, klar, -⟩ := ((q.removeJob pj.tag).notice x).kickEngine_frame
    obtain ⟨ncsc, -, nports, nlar, -⟩ := (q.removeJob pj.tag).notice_frame x
    refine ⟨⟨fun i => ?_, ?_, ?_⟩, ?_⟩
    · rw [kports, nports, Part.removeJob_ports, ports]
      by_cases hi : i = k
      · subst hi; rw [Quad.get_set_self]; exact .inr rfl
      · rw [Quad.get_set_other _ hi]; exact .inl rfl
    · rw [klar, nlar, Part.removeJob_lar, lar]
      exact .refl _
    · obtain ⟨⟨l, hl, one⟩, hw⟩ := Part.Notes.notice (q.removeJob pj.tag) x
      rw [Part.removeJob_mgr, mgr] at hl hw
      exact ⟨⟨l, by rw [kmgr, hl], one⟩, by rw [kmgr, hw]⟩
    · rw [kcsc, ncsc, ← csc]; rfl
  unfold Part.finishDrain
  simp only [hp, hj]
  split
  · exact after _ _ rfl rfl rfl rfl
  · exact after _ _ rfl rfl rfl rfl

/-- R142: the comparison of the counts changes nothing, or ends the drain of a job with no line outstanding. -/
theorem Part.checkDrain_fades (p : Part) (k : Track) : p.checkDrain k = p ∨ ∃ (pj : PortJob) (j : Job),
    (p.ports.get k).job = some pj ∧ p.job pj.tag = some j ∧ j.received + j.lost = j.triggered ∧
    p.Fades 1 (p.checkDrain k) ∧ (p.checkDrain k).csc.jobs = p.csc.jobs.filter (fun x => x.tag != pj.tag) := by
  cases hp : p.portJob k with
  | none =>
    refine .inl ?_
    unfold Part.checkDrain
    rw [hp]
    split
    · exact nomatch ‹none = some _›
    · rfl
  | some j =>
    rcases Part.checkDrain_cases hp with ⟨-, counts, eq⟩ | ⟨-, eq⟩
    · obtain ⟨pj, hpj, hj⟩ := Option.bind_eq_some_iff.mp hp
      rw [eq]
      exact .inr ⟨pj, j, hpj, hj, counts, Part.finishDrain_fades hpj hj _ _⟩
    · exact .inl eq

/-! ### The window of an OPEN job (R112) -/

/-- The job of an aborted window before the counts are compared, its lamp status given. -/
def Job.aborted (now : Time) (lamp : LampStatus) (x : Job) : Job :=
  { x with
    state := .draining, drainDeadline := some (now + 1000#48), lamp := lamp
    flags := { x.flags with modeAbort := true } }

/-- The job of an aborted window, marked MODE_ABORT. -/
def Job.markAborted (x : Job) : Job := { x with flags := { x.flags with modeAbort := true } }

/-- The job of a window that ends, from its instant on. -/
def Job.beginDrain (now : Time) (x : Job) : Job := { x with state := .draining, drainDeadline := some (now + usTime 1000) }

/-- The part after the window of the job of a tag has been aborted, before the counts are compared. -/
def Part.aborting (p : Part) (t : Tag) (k : Track) (a : Arbiter) (lamp : Job → LampStatus) : Part :=
  ((p.stopTriggers k).setLar a).modJob t (fun x => x.aborted p.now (lamp x))

/-- R112: the abort of a window outside ON_LINE. -/
theorem Part.abortWindow_offLine {p : Part} (hm : p.mode ≠ .onLine) {t : Tag} {j : Job} (hj : p.job t = some j) :
    ∃ (a : Arbiter) (lamp : Job → LampStatus), p.lar.Released a ∧
      (∀ x, lamp x = x.lamp ∨ (lamp x = .unlit ∧ p.lar.entry t ≠ none)) ∧
      p.abortWindow t = (p.aborting t j.track a lamp).checkDrain j.track := by
  have hj' : (p.modJob t Job.markAborted).job t = some j.markAborted :=
    (find_mapped t Job.markAborted (fun _ => rfl) p.csc.jobs).trans (congrArg (Option.map Job.markAborted) hj)
  have ended : p.abortWindow t = ((((p.modJob t Job.markAborted).stopTriggers j.track).lampWindowEnd t).modJob t
      (Job.beginDrain p.now)).checkDrain j.track := by
    show (p.modJob t Job.markAborted).endWindow t p.now = _
    unfold Part.endWindow
    rw [hj']
    rfl
  obtain ⟨a, released, lamp⟩ := Part.lampWindowEnd_offLine (p := (p.modJob t Job.markAborted).stopTriggers j.track) hm t
  rw [ended]
  rcases lamp with eq | ⟨entered, eq⟩
  · refine ⟨a, Job.lamp, released, fun _ => .inl rfl, congrArg (Part.checkDrain · _) ?_⟩
    rw [eq]
    exact ((p.stopTriggers j.track).setLar a).modJob_modJob t (f := Job.markAborted) (fun _ => rfl) (Job.beginDrain p.now)
  · refine ⟨a, fun _ => .unlit, released, fun _ => .inr ⟨rfl, entered⟩, congrArg (Part.checkDrain · _) ?_⟩
    rw [eq]
    refine (Part.modJob_modJob _ t (f := fun x : Job => { x with lamp := .unlit }) (fun _ => rfl)
      (Job.beginDrain p.now)).trans ?_
    exact ((p.stopTriggers j.track).setLar a).modJob_modJob t (f := Job.markAborted) (fun _ => rfl)
      (fun x => ({ x with lamp := .unlit } : Job).beginDrain p.now)

/-- The jobs at an aborted window. -/
theorem Part.mem_aborting {p : Part} {t : Tag} {k : Track} {a : Arbiter} {lamp : Job → LampStatus} {x : Job} :
    x ∈ (p.aborting t k a lamp).csc.jobs ↔
      (x ∈ p.csc.jobs ∧ x.tag ≠ t) ∨ ∃ y ∈ p.csc.jobs, y.tag = t ∧ x = y.aborted p.now (lamp y) := by
  show x ∈ p.csc.jobs.map (fun y => if y.tag == t then y.aborted p.now (lamp y) else y) ↔ _
  rw [List.mem_map]
  constructor
  · rintro ⟨y, hy, rfl⟩
    by_cases ht : y.tag = t
    · exact .inr ⟨y, hy, ht, if_pos (beq_iff_eq.mpr ht)⟩
    · rw [if_neg (by simpa using ht)]
      exact .inl ⟨hy, ht⟩
  · rintro (⟨hx, ht⟩ | ⟨y, hy, ht, rfl⟩)
    · exact ⟨x, hx, if_neg (by simpa using ht)⟩
    · exact ⟨y, hy, if_pos (beq_iff_eq.mpr ht)⟩

theorem Part.aborting_fades {p : Part} {t : Tag} {k : Track} {a : Arbiter} {lamp : Job → LampStatus}
    (h : p.lar.Released a) : p.Fades 0 (p.aborting t k a lamp) := by
  refine ⟨fun j => .inl ?_, h, .of_mgr rfl⟩
  show ((p.ports.set k _).get j).job = _
  by_cases hj : j = k
  · subst hj; rw [Quad.get_set_self]
  · rw [Quad.get_set_other _ hj]

/-- The job of another tag is as it was at an aborted window. -/
theorem Part.job_aborting {p : Part} {t u : Tag} (h : u ≠ t) (k : Track) (a : Arbiter) (lamp : Job → LampStatus) :
    (p.aborting t k a lamp).job u = p.job u :=
  find_mapped_ne h (fun x => x.aborted p.now (lamp x)) (fun _ => rfl) p.csc.jobs

theorem Part.abortWindow_ceases {p : Part} (hm : p.mode ≠ .onLine) (t : Tag) : p.Ceases t (p.abortWindow t) := by
  cases hj : p.job t with
  | none =>
    have : p.abortWindow t = p := by
      unfold Part.abortWindow Part.endWindow
      rw [Part.modJob_none hj, hj]
    rw [this]
    exact .absent hj
  | some j =>
    obtain ⟨a, lamp, released, -, eq⟩ := Part.abortWindow_offLine hm hj
    have fades : p.Fades 0 (p.aborting t j.track a lamp) := Part.aborting_fades released
    have comes : ∀ x ∈ (p.aborting t j.track a lamp).csc.jobs, (x ∈ p.csc.jobs ∧ x.tag ≠ t) ∨
        (x.tag = t ∧ x.state = .draining ∧ ∃ y ∈ p.csc.jobs, y.tag = t) := fun x hx => by
      rcases Part.mem_aborting.mp hx with h | ⟨y, hy, ht, rfl⟩
      · exact .inl h
      · exact .inr ⟨ht, rfl, y, hy, ht⟩
    rw [eq]
    rcases (p.aborting t j.track a lamp).checkDrain_fades j.track with same | ⟨pj, y, hpj, hy, counts, drained, jobs⟩
    · rw [same]
      exact ⟨comes, fun _ x hx ht _ => Part.mem_aborting.mpr (.inl ⟨hx, ht⟩),
        ⟨fades.ports, fades.lar, fades.notes.mono (Nat.zero_le _)⟩⟩
    · refine ⟨fun x hx => comes x ?_, fun distinct x hx ht undrained => ?_, by simpa using fades.trans drained⟩
      · rw [jobs] at hx
        exact List.mem_of_mem_filter hx
      · rw [jobs, List.mem_filter, bne_iff_ne]
        refine ⟨Part.mem_aborting.mpr (.inl ⟨hx, ht⟩), fun same => ?_⟩
        rcases undrained.fades fades with outstanding | unserved
        · rw [Part.job_aborting (same ▸ ht), ← same, Part.job_of_mem distinct hx] at hy
          cases hy
          exact outstanding counts
        · exact unserved j.track (by rw [hpj, same]; rfl)

/-- R112: an OPEN job with lines outstanding drains from now on. -/
theorem Part.abortWindow_aborted {p : Part} (hm : p.mode ≠ .onLine) (distinct : p.TagsDistinct) {i : Job}
    (hi : i ∈ p.csc.jobs) (outstanding : i.received + i.lost ≠ i.triggered) : ∃ lamp : LampStatus,
      (lamp = i.lamp ∨ (lamp = .unlit ∧ p.lar.entry i.tag ≠ none)) ∧
      i.aborted p.now lamp ∈ (p.abortWindow i.tag).csc.jobs := by
  have hj := Part.job_of_mem distinct hi
  obtain ⟨a, lamp, -, status, eq⟩ := Part.abortWindow_offLine hm hj
  refine ⟨lamp i, status i, ?_⟩
  have stands : i.aborted p.now (lamp i) ∈ (p.aborting i.tag i.track a lamp).csc.jobs :=
    Part.mem_aborting.mpr (.inr ⟨i, hi, rfl, rfl⟩)
  rw [eq]
  rcases (p.aborting i.tag i.track a lamp).checkDrain_fades i.track with same | ⟨pj, y, hpj, hy, counts, -, jobs⟩
  · rw [same]; exact stands
  · rw [jobs, List.mem_filter, bne_iff_ne]
    refine ⟨stands, fun same => ?_⟩
    have found : (p.aborting i.tag i.track a lamp).job i.tag = some (i.aborted p.now (lamp i)) :=
      (find_mapped i.tag (fun x => x.aborted p.now (lamp x)) (fun _ => rfl) p.csc.jobs).trans
        (congrArg (Option.map _) hj)
    rw [← same, show (i.aborted p.now (lamp i)).tag = i.tag from rfl, found] at hy
    cases hy
    exact outstanding counts

/-! ### The pass over the schedule (R112) -/

/-- What the change to SERVICE does with one job of the schedule. -/
def Part.ceaseJob (q : Part) (j : Job) : Part :=
  match j.state with
  | .waiting => q.endJob j.tag .cancelled .mode
  | .opened => q.abortWindow j.tag
  | .draining => q

theorem Part.schedulerToService_eq (p : Part) : p.schedulerToService = p.csc.jobs.foldl Part.ceaseJob p := rfl

theorem Part.ceaseJob_waiting {j : Job} (h : j.state = .waiting) (q : Part) :
    q.ceaseJob j = q.endJob j.tag .cancelled .mode := by unfold Part.ceaseJob; rw [h]

theorem Part.ceaseJob_opened {j : Job} (h : j.state = .opened) (q : Part) : q.ceaseJob j = q.abortWindow j.tag := by
  unfold Part.ceaseJob; rw [h]

theorem Part.ceaseJob_draining {j : Job} (h : j.state = .draining) (q : Part) : q.ceaseJob j = q := by
  unfold Part.ceaseJob; rw [h]

theorem Part.ceaseJob_kept (q : Part) (j : Job) : q.Kept (q.ceaseJob j) := by
  unfold Part.ceaseJob
  split
  · exact q.endJob_kept _ _ _
  · exact q.abortWindow_kept _
  · exact .refl q

theorem Part.ceaseJob_keeps (q : Part) (j : Job) : q.Keeps (q.ceaseJob j) := by
  unfold Part.ceaseJob
  split
  · exact (Part.Keeps.refl q).endJob
  · exact (Part.Keeps.refl q).abortWindow
  · exact .refl q

/-- A job that drains is left alone, and any other is ended or drains from now on. -/
theorem Part.ceaseJob_cases {q : Part} (hm : q.mode ≠ .onLine) (j : Job) :
    (j.state = .draining ∧ q.ceaseJob j = q) ∨ (j.state ≠ .draining ∧ q.Ceases j.tag (q.ceaseJob j)) := by
  cases h : j.state with
  | waiting =>
    rw [Part.ceaseJob_waiting h]
    exact .inr ⟨nofun, (Part.endJob_ceases hm _ _ _).1⟩
  | opened =>
    rw [Part.ceaseJob_opened h]
    exact .inr ⟨nofun, Part.abortWindow_ceases hm _⟩
  | draining => exact .inl ⟨rfl, Part.ceaseJob_draining h q⟩

theorem Part.ceaseJob_offLine {q : Part} (hm : q.mode ≠ .onLine) (j : Job) : (q.ceaseJob j).mode ≠ .onLine := fun h =>
  hm ((q.ceaseJob_kept j).mode.symm.trans h)

theorem Part.ceaseJob_fades {q : Part} (hm : q.mode ≠ .onLine) (j : Job) : q.Fades 1 (q.ceaseJob j) := by
  rcases Part.ceaseJob_cases hm j with ⟨-, same⟩ | ⟨-, ceases⟩
  · rw [same]; exact ⟨fun _ => .inl rfl, .refl _, .of_mgr rfl⟩
  · exact ceases.fades

/-- A pass over jobs makes at most one notice for each. -/
theorem Part.ceaseJobs_fades : ∀ (l : List Job) {q : Part}, q.mode ≠ .onLine →
    q.Fades l.length (l.foldl Part.ceaseJob q) ∧ (l.foldl Part.ceaseJob q).mode ≠ .onLine
  | [], q, hm => ⟨.refl q, hm⟩
  | j :: l, q, hm => by
    obtain ⟨fades, off⟩ := Part.ceaseJobs_fades l (Part.ceaseJob_offLine hm j)
    have := (Part.ceaseJob_fades hm j).trans fades
    rw [Nat.add_comm] at this
    exact ⟨this, off⟩

theorem Part.ceaseJobs_keeps (l : List Job) (q : Part) : q.Keeps (l.foldl Part.ceaseJob q) :=
  Part.Keeps.foldl (fun x j h => h.trans (x.ceaseJob_keeps j)) l (.refl q)

theorem Part.ceaseJobs_kept (l : List Job) (q : Part) : q.Kept (l.foldl Part.ceaseJob q) :=
  Part.Kept.foldl Part.ceaseJob_kept l q

/-- After a pass over every job that does not drain, the jobs left drain. -/
theorem Part.ceaseJobs_draining : ∀ (l : List Job) {q : Part}, q.mode ≠ .onLine →
    (∀ x ∈ q.csc.jobs, x.state = .draining ∨ ∃ j ∈ l, j.tag = x.tag ∧ j.state ≠ .draining) →
    ∀ x ∈ (l.foldl Part.ceaseJob q).csc.jobs, x.state = .draining
  | [], _, _, h => fun x hx => (h x hx).resolve_right fun ⟨_, hj, _⟩ => absurd hj List.not_mem_nil
  | j :: l, q, hm, h => by
    refine Part.ceaseJobs_draining l (Part.ceaseJob_offLine hm j) fun x hx => ?_
    have later : x ∈ q.csc.jobs → (x.tag = j.tag → j.state = .draining) →
        x.state = .draining ∨ ∃ i ∈ l, i.tag = x.tag ∧ i.state ≠ .draining := fun hx hj => by
      refine (h x hx).imp_right fun ⟨i, hi, ht, hs⟩ => ?_
      rcases List.mem_cons.mp hi with rfl | hi
      · exact absurd (hj ht.symm) hs
      · exact ⟨i, hi, ht, hs⟩
    rcases Part.ceaseJob_cases hm j with ⟨draining, same⟩ | ⟨-, ceases⟩
    · rw [same] at hx
      exact later hx fun _ => draining
    · rcases ceases.comes x hx with ⟨hx, ht⟩ | ⟨-, drains, -⟩
      · exact later hx fun same => absurd same ht
      · exact .inl drains

/-- A pass brings no tag into the schedule. -/
theorem Part.ceaseJobs_tags : ∀ (l : List Job) {q : Part}, q.mode ≠ .onLine →
    ∀ x ∈ (l.foldl Part.ceaseJob q).csc.jobs, ∃ y ∈ q.csc.jobs, y.tag = x.tag
  | [], _, _, x, hx => ⟨x, hx, rfl⟩
  | j :: l, q, hm, x, hx => by
    obtain ⟨y, hy, ht⟩ := Part.ceaseJobs_tags l (Part.ceaseJob_offLine hm j) x hx
    rcases Part.ceaseJob_cases hm j with ⟨-, same⟩ | ⟨-, ceases⟩
    · rw [same] at hy
      exact ⟨y, hy, ht⟩
    · rcases ceases.comes y hy with ⟨hy, -⟩ | ⟨hj, -, z, hz, hzt⟩
      · exact ⟨y, hy, ht⟩
      · exact ⟨z, hz, hzt.trans (hj.symm.trans ht)⟩

/-- A WAITING job met in a pass leaves no job of its tag. -/
theorem Part.ceaseJobs_waiting {l : List Job} {q : Part} (hm : q.mode ≠ .onLine) {i : Job} (hi : i ∈ l)
    (hw : i.state = .waiting) : ∀ x ∈ (l.foldl Part.ceaseJob q).csc.jobs, x.tag ≠ i.tag := by
  obtain ⟨before, after, rfl⟩ := List.append_of_mem hi
  intro x hx
  rw [List.foldl_append, List.foldl_cons] at hx
  have off := (Part.ceaseJobs_fades before hm).2
  obtain ⟨y, hy, ht⟩ := Part.ceaseJobs_tags after (Part.ceaseJob_offLine off i) x hx
  rw [Part.ceaseJob_waiting hw] at hy
  exact ht ▸ (Part.endJob_ceases off _ _ _).2 y hy

/-- A job whose tag no job met carries, and that no drain end takes, is as it was. -/
theorem Part.ceaseJobs_stays : ∀ (l : List Job) {q : Part}, q.mode ≠ .onLine → q.TagsDistinct →
    ∀ x ∈ q.csc.jobs, (∀ j ∈ l, j.tag ≠ x.tag) → q.Undrained x → x ∈ (l.foldl Part.ceaseJob q).csc.jobs
  | [], _, _, _, _, hx, _, _ => hx
  | j :: l, q, hm, distinct, x, hx, apart, undrained => by
    refine Part.ceaseJobs_stays l (Part.ceaseJob_offLine hm j) ((q.ceaseJob_keeps j).tags distinct) x ?_
      (fun i hi => apart i (List.mem_cons_of_mem _ hi)) (undrained.fades (Part.ceaseJob_fades hm j))
    rcases Part.ceaseJob_cases hm j with ⟨-, same⟩ | ⟨-, ceases⟩
    · rw [same]; exact hx
    · exact ceases.stays distinct x hx (apart j List.mem_cons_self).symm undrained

/-- The JOB_ENDED of a job that the change to SERVICE cancels, as it stands in the control queue (R110). -/
def Part.cancelled (q : Part) (i : Job) : ControlRecord := q.noticeRecord (.jobEnded i q.now .cancelled .mode)

/-- R110: with places for every notice, each WAITING job of those named, none of which a port serves, makes its
JOB_ENDED, in the order of the pass. -/
theorem Part.ceaseJobs_notices (named : Job → Bool) : ∀ (l : List Job) {q : Part}, q.mode ≠ .onLine → q.TagsDistinct →
    (l.map Job.tag).Nodup → q.mgr.control.length + q.mgr.waiting.length + l.length ≤ 16 →
    (∀ i ∈ l, named i = true → i ∈ q.csc.jobs ∧ ∀ k : Track, (q.ports.get k).job.map PortJob.tag ≠ some i.tag) →
    ∃ m : List ControlRecord, (l.foldl Part.ceaseJob q).mgr.control = q.mgr.control ++ m ∧
      ((l.filter (fun i => decide (i.state = .waiting) && named i)).map q.cancelled).Sublist m
  | [], q, _, _, _, _, _ => ⟨[], (List.append_nil _).symm, .slnil⟩
  | j :: l, q, hm, distinct, apart, room, served => by
    rw [List.map_cons, List.nodup_cons] at apart
    rw [List.length_cons] at room
    have off := Part.ceaseJob_offLine hm j
    have kept := q.ceaseJob_kept j
    have fades := Part.ceaseJob_fades hm j
    obtain ⟨⟨m, control, one⟩, waiting⟩ := fades.notes
    have later : ∀ i ∈ l, named i = true → i ∈ (q.ceaseJob j).csc.jobs ∧
        ∀ k : Track, ((q.ceaseJob j).ports.get k).job.map PortJob.tag ≠ some i.tag := fun i hi hn => by
      obtain ⟨stands, unserved⟩ := served i (List.mem_cons_of_mem _ hi) hn
      have ne : i.tag ≠ j.tag := fun same => apart.1 (same ▸ List.mem_map_of_mem hi)
      refine ⟨?_, fun k => ?_⟩
      · exact Part.ceaseJobs_stays [j] hm distinct i stands (by simpa using ne.symm) (.inr unserved)
      · rcases fades.ports k with hk | hk
        · rw [hk]; exact unserved k
        · rw [hk]; exact nofun
    obtain ⟨m', control', sub⟩ := Part.ceaseJobs_notices named l off ((q.ceaseJob_keeps j).tags distinct) apart.2
      (by rw [control, waiting, List.length_append]; omega) later
    have same : (q.ceaseJob j).cancelled = q.cancelled := by
      funext i
      simp only [Part.cancelled, Part.noticeRecord, Part.now, kept.recorder, kept.tb]
    rw [same] at sub
    refine ⟨m ++ m', by rw [List.foldl_cons, control', control, List.append_assoc], ?_⟩
    rw [List.filter_cons]
    split
    · rename_i ends
      rw [Bool.and_eq_true, decide_eq_true_eq] at ends
      obtain ⟨stands, -⟩ := served j List.mem_cons_self ends.2
      obtain ⟨a, -, eq⟩ := Part.endJob_offLine hm (Part.job_of_mem distinct stands) .cancelled .mode
      have free : q.freePlace = true := q.freePlace_iff.mpr (by omega)
      have placed : (q.ceaseJob j).mgr.control = q.mgr.control ++ [q.cancelled j] := by
        rw [Part.ceaseJob_waiting ends.1, eq]
        rcases ((q.setLar a).removeJob j.tag).notice_cases (.jobEnded j q.now .cancelled .mode) with ⟨-, h⟩ | ⟨full, -⟩
        · rw [h]; rfl
        · exact absurd (free.symm.trans full) (by decide)
      have hm' : m = [q.cancelled j] := List.append_cancel_left (control.symm.trans placed)
      rw [hm', List.map_cons]
      exact sub.cons_cons _
    · exact sub.trans (List.sublist_append_right _ _)

/-! ### The schedule at the change to SERVICE -/

section

variable {q : Part}

/-- R112: the jobs that the change leaves drain, and each was OPEN or DRAINING before. -/
theorem Part.schedulerToService_left (hm : q.mode ≠ .onLine) : ∀ j ∈ q.schedulerToService.csc.jobs,
    j.state = .draining ∧ ∃ i ∈ q.csc.jobs, i.tag = j.tag ∧ i.state ≠ .waiting := fun j hj => by
  refine ⟨Part.ceaseJobs_draining q.csc.jobs hm (fun x hx => ?_) j hj, ?_⟩
  · by_cases hs : x.state = .draining
    · exact .inl hs
    · exact .inr ⟨x, hx, rfl, hs⟩
  · obtain ⟨i, hi, ht⟩ := Part.ceaseJobs_tags q.csc.jobs hm j hj
    exact ⟨i, hi, ht, fun waiting => Part.ceaseJobs_waiting hm hi waiting j hj ht.symm⟩

/-- A job that no drain end takes stands in the schedule when the pass comes to it, and no job after it has its tag. -/
theorem Part.ceaseJobs_turn (hm : q.mode ≠ .onLine) (distinct : q.TagsDistinct) {i : Job} (hi : i ∈ q.csc.jobs)
    (undrained : q.Undrained i) : ∃ before after : List Job, q.csc.jobs = before ++ i :: after ∧
      i ∈ (before.foldl Part.ceaseJob q).csc.jobs ∧ ∀ j ∈ after, j.tag ≠ i.tag := by
  obtain ⟨before, after, eq⟩ := List.append_of_mem hi
  have apart := distinct.1
  rw [eq, List.map_append, List.map_cons, List.nodup_middle, List.nodup_cons, List.mem_append] at apart
  refine ⟨before, after, eq, Part.ceaseJobs_stays before hm distinct i hi (fun j hj same => ?_) undrained,
    fun j hj same => ?_⟩
  · exact apart.1 (.inl (same ▸ List.mem_map_of_mem hj))
  · exact apart.1 (.inr (same ▸ List.mem_map_of_mem hj))

/-- R112: a job that drains with lines outstanding is kept. -/
theorem Part.schedulerToService_draining (hm : q.mode ≠ .onLine) (distinct : q.TagsDistinct) {i : Job}
    (hi : i ∈ q.csc.jobs) (drains : i.state = .draining) (outstanding : i.received + i.lost ≠ i.triggered) :
    i ∈ q.schedulerToService.csc.jobs := by
  obtain ⟨before, after, eq, stands, apart⟩ := Part.ceaseJobs_turn hm distinct hi (.inl outstanding)
  have off := (Part.ceaseJobs_fades before hm).2
  rw [Part.schedulerToService_eq, eq, List.foldl_append, List.foldl_cons, Part.ceaseJob_draining drains]
  exact Part.ceaseJobs_stays after off ((Part.ceaseJobs_keeps before q).tags distinct) i stands apart (.inl outstanding)

/-- R112: an OPEN job with lines outstanding drains, MODE_ABORT and its deadline set. -/
theorem Part.schedulerToService_opened (hm : q.mode ≠ .onLine) (distinct : q.TagsDistinct) {i : Job}
    (hi : i ∈ q.csc.jobs) (opened : i.state = .opened) (outstanding : i.received + i.lost ≠ i.triggered) :
    ∃ lamp : LampStatus, (lamp = i.lamp ∨ (lamp = .unlit ∧ q.lar.entry i.tag ≠ none)) ∧
      i.aborted q.now lamp ∈ q.schedulerToService.csc.jobs := by
  obtain ⟨before, after, eq, stands, apart⟩ := Part.ceaseJobs_turn hm distinct hi (.inl outstanding)
  obtain ⟨fades, off⟩ := Part.ceaseJobs_fades before hm
  have distinct' := (Part.ceaseJobs_keeps before q).tags distinct
  obtain ⟨lamp, status, aborted⟩ := Part.abortWindow_aborted off distinct' stands outstanding
  rw [show (before.foldl Part.ceaseJob q).now = q.now from congrArg Timebase.time (Part.ceaseJobs_kept before q).tb,
    ← Part.ceaseJob_opened opened] at aborted
  refine ⟨lamp, status.imp_right fun ⟨unlit, entered⟩ => ⟨unlit, fun none => entered (fades.lar.entries _ none)⟩, ?_⟩
  rw [Part.schedulerToService_eq, eq, List.foldl_append, List.foldl_cons]
  exact Part.ceaseJobs_stays after (Part.ceaseJob_offLine off i) ((Part.ceaseJob_keeps _ i).tags distinct') _ aborted
    apart (.inl outstanding)

end

end Sys2Proof.Machine
end

