-- ==== Sys2Proof/Proofs/ServeRules.lean ====
section
/-! PROOFS. A change to SERVICE passed to every block in some order (10 R175): what a block leaves of what the others
take, what each finds at its turn, and the settlement of O22. -/

namespace Sys2Proof.Machine

/-! ### The order of the blocks -/

theorem nodup_eraseDups {α : Type} [BEq α] [LawfulBEq α] (l : List α) : l.eraseDups.Nodup := by
  match l with
  | [] => exact .nil
  | a :: as =>
    rw [List.eraseDups_cons, List.nodup_cons, List.mem_eraseDups, List.mem_filter]
    exact ⟨fun ⟨_, h⟩ => by simp at h, nodup_eraseDups _⟩
termination_by l.length
decreasing_by exact Nat.lt_succ_of_le (List.length_filter_le _ _)

theorem fullOrder_nodup (order : List ModeBlock) : (fullOrder order).Nodup := by
  refine (nodup_eraseDups order).append (List.Nodup.filter _ (by decide)) fun b hb hb' => ?_
  have out := (List.mem_filter.mp hb').2
  rw [List.contains_iff_mem.mpr (List.mem_eraseDups.mp hb)] at out
  exact absurd out (by decide)

/-- The most notices that a block makes at a change to SERVICE, with `n` jobs in the schedule. -/
def ModeBlock.notices (n : Nat) : ModeBlock → Nat
  | .scheduler => n
  | .tracker _ => 1
  | .sensors | .arbiter => 0

/-- In every order the blocks together make at most a notice for each job and one for each track. -/
theorem fullOrder_notices (order : List ModeBlock) (n : Nat) :
    ((fullOrder order).map (ModeBlock.notices n)).sum = n + 4 := by
  have perm : (fullOrder order).Perm ModeBlock.all :=
    (List.perm_ext_iff_of_nodup (fullOrder_nodup order) (by decide)).mpr fun b => by
      refine ⟨fun _ => ?_, fun _ => mem_fullOrder b order⟩
      cases b with
      | tracker k => cases k <;> decide
      | _ => decide
  rw [(perm.map _).sum_nat]
  simp [ModeBlock.all, ModeBlock.notices]

/-! ### What a block leaves of what the others take -/

/-- `q` is the part `p` after the blocks of `l` have taken a change to SERVICE. -/
structure Part.Passes (p : Part) (l : List ModeBlock) (q : Part) : Prop where
  kept     : p.Kept q
  schedule : .scheduler ∉ l → q.csc = p.csc ∧ q.ports = p.ports
  trackers : ∀ k : Track, .tracker k ∉ l → q.trackers.get k = p.trackers.get k
  lar      : p.lar.Released q.lar
  notes    : ∀ n : Nat, (.scheduler ∈ l → p.csc.jobs.length ≤ n) → p.Notes (l.map (ModeBlock.notices n)).sum q

theorem Part.Passes.refl (p : Part) : p.Passes [] p :=
  ⟨.refl p, fun _ => ⟨rfl, rfl⟩, fun _ _ => rfl, .refl _, fun _ _ => .of_mgr rfl⟩

/-- Blocks one after another, the scheduler at most once among them. -/
theorem Part.Passes.cons {p q r : Part} {b : ModeBlock} {l : List ModeBlock} (h : p.Passes [b] q) (g : q.Passes l r)
    (once : b ∉ l) : p.Passes (b :: l) r := by
  refine ⟨h.kept.trans g.kept, fun hs => ?_, fun k hk => ?_, h.lar.trans g.lar, fun n hn => ?_⟩
  · rw [List.mem_cons, not_or] at hs
    obtain ⟨csc, ports⟩ := h.schedule (List.not_mem_cons_of_ne_of_not_mem hs.1 List.not_mem_nil)
    obtain ⟨csc', ports'⟩ := g.schedule hs.2
    exact ⟨csc'.trans csc, ports'.trans ports⟩
  · rw [List.mem_cons, not_or] at hk
    exact (g.trackers k hk.2).trans (h.trackers k (List.not_mem_cons_of_ne_of_not_mem hk.1 List.not_mem_nil))
  · have first := h.notes n fun hs => hn (by rw [List.mem_singleton.mp hs]; exact List.mem_cons_self)
    refine (first.trans (g.notes n fun hs => ?_)).mono (by simp)
    rw [(h.schedule fun hb => once (List.mem_singleton.mp hb ▸ hs)).1]
    exact hn (List.mem_cons_of_mem _ hs)

theorem Arbiter.released_clear (a : Arbiter) : a.Released a.clear := by
  refine ⟨fun t ht => ?_, fun _ k => by cases k <;> exact ⟨rfl, rfl⟩⟩
  unfold Arbiter.entry Arbiter.clear at *
  rw [List.find?_eq_none] at *
  intro e he
  obtain ⟨x, hx, rfl⟩ := List.mem_map.mp he
  have other := ht x hx
  split
  · exact other
  · exact other

/-- R49, R172: a close makes one notice or none. -/
theorem Part.closePassage_notes (p : Part) (k : Track) (reason : CloseReason) : p.Notes 1 (p.closePassage k reason) := by
  have closed := p.closePassage_spec k reason
  unfold Part.ClosedAs at closed
  split at closed
  · exact (Part.Notes.of_mgr (congrArg Part.mgr closed)).mono (Nat.zero_le 1)
  · obtain ⟨final, -, eq⟩ := closed
    rw [eq]
    by_cases free : p.freePlace = true
    · simp only [if_pos free]
      exact ⟨⟨_, rfl, le_rfl⟩, rfl⟩
    · simp only [if_neg free]
      exact ⟨⟨[], (List.append_nil _).symm, Nat.zero_le _⟩, rfl⟩

/-- R53: the change taken by a tracker changes the tracker and the responder alone. -/
theorem Part.reachTracker_toService_frame (p : Part) (k : Track) : p.Notes 1 (p.reachTracker k .toService) ∧
    ∃ (x : Tracker) (m : Responder),
      p.reachTracker k .toService = { p with trackers := p.trackers.set k x, mgr := m } := by
  unfold Part.reachTracker
  split
  · exact ⟨Part.Notes.mono (m := 0) (.of_mgr rfl) (Nat.zero_le 1), _, p.mgr, rfl⟩
  · obtain ⟨x, m, eq, -⟩ := p.closePassage_frame k .aborted
    exact ⟨p.closePassage_notes k .aborted, x, m, eq⟩

theorem Part.abortWindow_tracks (p : Part) (t : Tag) : p.SameTracks (p.abortWindow t) := by
  refine (p.modJob_tracks t Job.markAborted).trans ?_
  show Part.SameTracks _ ((p.modJob t Job.markAborted).endWindow t p.now)
  unfold Part.endWindow
  split
  · exact .refl _
  · exact (((Part.setPort_tracks _ _ _).trans (Part.lampWindowEnd_tracks _ _)).trans (Part.modJob_tracks _ _ _)).trans
      (Part.checkDrain_tracks _ _)

theorem Part.ceaseJob_tracks (q : Part) (j : Job) : q.SameTracks (q.ceaseJob j) := by
  unfold Part.ceaseJob
  split
  · exact q.endJob_tracks _ _ _
  · exact q.abortWindow_tracks _
  · exact .refl q

/-- R175: one block takes the change to SERVICE. -/
theorem Part.blockToService_passes (old : Mode) {p : Part} (hm : p.mode ≠ .onLine) (b : ModeBlock) :
    p.Passes [b] (Part.blockTakesMode old .service p b) := by
  have kept := Part.blockTakesMode_kept old .service p b
  cases b with
  | sensors => exact ⟨kept, fun _ => ⟨rfl, rfl⟩, fun _ _ => rfl, .refl _, fun _ _ => .of_mgr rfl⟩
  | arbiter =>
    show p.Passes _ (if old = .onLine then p.setLar p.lar.clear else p)
    replace kept : p.Kept (if old = .onLine then p.setLar p.lar.clear else p) := kept
    split
    · exact ⟨p.setLar_kept _, fun _ => ⟨rfl, rfl⟩, fun _ _ => rfl, p.lar.released_clear, fun _ _ => .of_mgr rfl⟩
    · exact ⟨.refl p, fun _ => ⟨rfl, rfl⟩, fun _ _ => rfl, .refl _, fun _ _ => .of_mgr rfl⟩
  | scheduler =>
    obtain ⟨fades, -⟩ := Part.ceaseJobs_fades p.csc.jobs hm
    have same := Part.SameTracks.foldl Part.ceaseJob_tracks p.csc.jobs p
    exact ⟨kept, fun h => absurd List.mem_cons_self h, fun k _ => congrArg (Quad.get · k) same.trackers, fades.lar,
      fun n hn => fades.notes.mono (hn List.mem_cons_self)⟩
  | tracker k =>
    obtain ⟨notes, x, m, eq⟩ := p.reachTracker_toService_frame k
    replace eq : Part.blockTakesMode old .service p (.tracker k) =
        { p with trackers := p.trackers.set k x, mgr := m } := eq
    refine ⟨kept, fun _ => by rw [eq]; exact ⟨rfl, rfl⟩, fun j hj => ?_, by rw [eq]; exact .refl _, fun _ _ => notes⟩
    rw [eq]
    exact Quad.get_set_other _ (fun same => hj (by rw [same]; exact List.mem_cons_self)) _

/-- R175: several blocks take the change, each once. -/
theorem Part.blocksToService_passes (old : Mode) : ∀ (l : List ModeBlock) {p : Part}, p.mode ≠ .onLine → l.Nodup →
    p.Passes l (l.foldl (Part.blockTakesMode old .service) p)
  | [], p, _, _ => .refl p
  | b :: l, p, hm, once => by
    have first := Part.blockToService_passes old hm b
    rw [List.nodup_cons] at once
    exact first.cons (Part.blocksToService_passes old l (fun h => hm (first.kept.mode.symm.trans h)) once.2) once.1

/-! ### The turn of a block -/

/-- In the pass of a change to SERVICE from `p` to `t`, the block `b` finds the part `q` at its turn: the blocks of
`before` have taken the change, those of `after` have not. -/
structure Part.Turn (old : Mode) (p : Part) (b : ModeBlock) (before after : List ModeBlock) (q t : Part) : Prop where
  first   : b ∉ before
  last    : b ∉ after
  notices : ∀ n, (before.map (ModeBlock.notices n)).sum + ModeBlock.notices n b +
    (after.map (ModeBlock.notices n)).sum = n + 4
  reached : p.Passes before q
  left    : (Part.blockTakesMode old .service q b).Passes after t

/-- Every block has its turn, in whatever order the blocks take the change. -/
theorem Part.passMode_turn (old : Mode) {p : Part} (hm : p.mode ≠ .onLine) (order : List ModeBlock) (b : ModeBlock) :
    ∃ (before after : List ModeBlock) (q : Part), Part.Turn old p b before after q (p.passMode old .service order) := by
  obtain ⟨before, after, eq⟩ := List.append_of_mem (mem_fullOrder b order)
  have once := fullOrder_nodup order
  have total := fullOrder_notices order
  rw [eq] at once
  obtain ⟨apart, once'⟩ := List.nodup_cons.mp (List.nodup_middle.mp once)
  rw [List.mem_append, not_or] at apart
  have reached := Part.blocksToService_passes old before hm (List.Nodup.of_append_left once')
  have off : (before.foldl (Part.blockTakesMode old .service) p).mode ≠ .onLine := fun h =>
    hm (reached.kept.mode.symm.trans h)
  refine ⟨before, after, before.foldl (Part.blockTakesMode old .service) p, apart.1, apart.2, fun n => ?_, reached, ?_⟩
  · have := total n
    rw [eq, List.map_append, List.map_cons, List.sum_append, List.sum_cons] at this
    omega
  · unfold Part.passMode
    rw [eq, List.foldl_append, List.foldl_cons]
    refine Part.blocksToService_passes old after (fun h => off ?_) (List.Nodup.of_append_right once')
    exact ((Part.blockTakesMode_kept old .service _ b).mode.symm.trans h : _)

namespace Part.Turn

variable {old : Mode} {p q t : Part} {b : ModeBlock} {before after : List ModeBlock}

/-- The records of the control queue at a turn, and at the end of the pass. -/
theorem prefixes (h : Part.Turn old p b before after q t) :
    p.mgr.control <+: q.mgr.control ∧ (Part.blockTakesMode old .service q b).mgr.control <+: t.mgr.control := by
  obtain ⟨l, hl, -⟩ := (h.reached.notes _ fun _ => le_rfl).control
  obtain ⟨m, hm, -⟩ := (h.left.notes _ fun _ => le_rfl).control
  exact ⟨⟨l, hl.symm⟩, ⟨m, hm.symm⟩⟩

/-- With places for every notice of the pass there are places at a turn for those of the block. -/
theorem room (h : Part.Turn old p b before after q t)
    (room : p.mgr.control.length + p.mgr.waiting.length + p.csc.jobs.length + 4 ≤ 16) :
    q.mgr.control.length + q.mgr.waiting.length + ModeBlock.notices p.csc.jobs.length b ≤ 16 := by
  obtain ⟨⟨l, hl, le⟩, waiting⟩ := h.reached.notes p.csc.jobs.length fun _ => le_rfl
  have total := h.notices p.csc.jobs.length
  rw [hl, waiting, List.length_append]
  omega

end Part.Turn

/-! ### The schedule after the pass (R110, R112) -/

namespace Part.Turn

variable {old : Mode} {p q t : Part} {before after : List ModeBlock}

/-- The scheduler finds the schedule and the ports as they were, and its jobs stay as it leaves them. -/
theorem schedule (h : Part.Turn old p .scheduler before after q t) :
    q.csc = p.csc ∧ q.ports = p.ports ∧ t.csc = q.schedulerToService.csc :=
  ⟨(h.reached.schedule h.first).1, (h.reached.schedule h.first).2, (h.left.schedule h.last).1⟩

theorem tagsDistinct (h : Part.Turn old p .scheduler before after q t) (distinct : p.TagsDistinct) : q.TagsDistinct := by
  unfold Part.TagsDistinct
  rw [h.schedule.1]
  exact distinct

/-- R110: with places for every notice, each WAITING job that no port serves makes its JOB_ENDED, in schedule order. -/
theorem jobEnded (h : Part.Turn old p .scheduler before after q t) (hm : q.mode ≠ .onLine) (distinct : p.TagsDistinct)
    (room : p.mgr.control.length + p.mgr.waiting.length + p.csc.jobs.length + 4 ≤ 16) {named : Job → Bool}
    (unserved : ∀ i, named i = true → ∀ k : Track, (p.ports.get k).job.map PortJob.tag ≠ some i.tag) :
    ((p.csc.jobs.filter (fun i => decide (i.state = .waiting) && named i)).map p.cancelled).Sublist t.mgr.control := by
  obtain ⟨csc, ports, -⟩ := h.schedule
  have places := h.room room
  rw [ModeBlock.notices, ← csc] at places
  obtain ⟨m, control, sub⟩ := Part.ceaseJobs_notices named q.csc.jobs hm (h.tagsDistinct distinct)
    (h.tagsDistinct distinct).1 places fun i hi hn => ⟨hi, by rw [ports]; exact unserved i hn⟩
  have same : q.cancelled = p.cancelled := by
    funext i
    simp only [Part.cancelled, Part.noticeRecord, Part.now, h.reached.kept.recorder, h.reached.kept.tb]
  rw [same, csc] at sub
  have last := h.prefixes.2
  rw [show (Part.blockTakesMode old .service q .scheduler).mgr.control = q.mgr.control ++ m from control] at last
  exact (sub.trans (List.sublist_append_right _ _)).trans last.sublist

end Part.Turn

/-! ### The passages after the pass (R50, R53) -/

/-- What the matcher leaves when it finishes reads of the part the passage record and the types alone. -/
theorem Part.FinishedAs.of_passage {p q : Part} {k : Track} {final : Passage} (h : q.FinishedAs k final)
    (passage : q.passage k = p.passage k) (types : q.types = p.types) : p.FinishedAs k final := by
  have vehicleType : q.vehicleType = p.vehicleType := by
    funext n
    unfold Part.vehicleType
    rw [types]
  obtain ⟨unmatched, declared, cleared⟩ := h
  rw [passage] at unmatched declared cleared
  rw [vehicleType] at declared cleared
  exact ⟨unmatched, declared, cleared⟩

/-- R50: a passage closes, its number kept. -/
theorem Part.closePassage_vacant (p : Part) (k : Track) (reason : CloseReason) :
    ((p.closePassage k reason).passage k).state = .vacant ∧
    ((p.closePassage k reason).passage k).number = (p.passage k).number := by
  have closed := p.closePassage_spec k reason
  unfold Part.ClosedAs at closed
  split at closed
  · rename_i vacant
    rw [closed]
    exact ⟨vacant, rfl⟩
  · obtain ⟨final, -, eq⟩ := closed
    rw [eq]
    unfold Part.passage
    rw [Quad.get_set_self]
    exact ⟨rfl, rfl⟩

/-- R49, R50: with a free place the close of an open passage makes its PASSAGE_CLOSED. -/
theorem Part.closePassage_closed {p : Part} {k : Track} (open_ : (p.passage k).state ≠ .vacant)
    (free : p.freePlace = true) (reason : CloseReason) : ∃ final : Passage, p.FinishedAs k final ∧
      p.noticeRecord (.passageClosed k final p.now reason) ∈ (p.closePassage k reason).mgr.control := by
  have closed := p.closePassage_spec k reason
  unfold Part.ClosedAs at closed
  rw [if_neg open_, free] at closed
  obtain ⟨final, finished, eq⟩ := closed
  refine ⟨final, finished, ?_⟩
  rw [eq]
  exact List.mem_append_right _ List.mem_cons_self

namespace Part.Turn

variable {old : Mode} {p q t : Part} {k : Track} {before after : List ModeBlock}

/-- A tracker finds itself as it was, and stays as it leaves itself. -/
theorem tracker (h : Part.Turn old p (.tracker k) before after q t) : q.trackers.get k = p.trackers.get k ∧
    t.trackers.get k = (q.reachTracker k .toService).trackers.get k :=
  ⟨h.reached.trackers k h.first, h.left.trackers k h.last⟩

/-- R53: a tracker that handles an event takes the change when the handling ends. -/
theorem tracker_deferred (h : Part.Turn old p (.tracker k) before after q t) {x : Handling}
    (handling : (p.trackers.get k).handling = some x) : t.trackers.get k =
      { p.trackers.get k with handling := some { x with deferred := x.deferred ++ [.toService] } } := by
  obtain ⟨reached, left⟩ := h.tracker
  rw [left]
  unfold Part.reachTracker
  rw [reached, handling]
  exact Quad.get_set_self _ _ _

theorem reachTracker_idle {d : Deferred} (handling : (q.trackers.get k).handling = none) :
    q.reachTracker k d = Part.takeDeferred k q d := by
  unfold Part.reachTracker
  rw [handling]

/-- R53: the passage of a tracker that handles no event is closed. -/
theorem tracker_vacant (h : Part.Turn old p (.tracker k) before after q t)
    (handling : (p.trackers.get k).handling = none) :
    (t.passage k).state = .vacant ∧ (t.passage k).number = (p.passage k).number := by
  obtain ⟨reached, left⟩ := h.tracker
  rw [reachTracker_idle (reached ▸ handling)] at left
  unfold Part.passage at *
  rw [left, ← reached]
  exact q.closePassage_vacant k .aborted

/-- R50: with places for every notice an open passage of such a tracker makes its PASSAGE_CLOSED, ABORTED. -/
theorem tracker_closed (h : Part.Turn old p (.tracker k) before after q t)
    (handling : (p.trackers.get k).handling = none) (open_ : (p.passage k).state ≠ .vacant)
    (room : p.mgr.control.length + p.mgr.waiting.length + p.csc.jobs.length + 4 ≤ 16) : ∃ final : Passage,
      p.FinishedAs k final ∧ p.noticeRecord (.passageClosed k final p.now .aborted) ∈ t.mgr.control := by
  have reached := h.tracker.1
  have passage : q.passage k = p.passage k := congrArg Tracker.passage reached
  have free : q.freePlace = true := q.freePlace_iff.mpr (h.room room)
  obtain ⟨final, finished, placed⟩ := Part.closePassage_closed (by rw [passage]; exact open_) free .aborted
  refine ⟨final, finished.of_passage passage h.reached.kept.types, h.prefixes.2.subset ?_⟩
  rw [show Part.blockTakesMode old .service q (.tracker k) = q.closePassage k .aborted from
    reachTracker_idle (reached ▸ handling)]
  simpa only [Part.noticeRecord, Part.now, h.reached.kept.recorder, h.reached.kept.tb] using placed

end Part.Turn

/-- R126: a change away from ON_LINE leaves no lamp request. -/
theorem Part.Turn.requests_cleared {old : Mode} {p q t : Part} {before after : List ModeBlock}
    (h : Part.Turn old p .arbiter before after q t) (online : old = .onLine) (k : Track) :
    t.lar.pendingSet.get k = none ∧ t.lar.deferral.get k = [] := by
  subst online
  exact h.left.lar.requests (fun j => by cases j <;> exact ⟨rfl, rfl⟩) k

/-! ### The change as a whole -/

/-- The block finds the mode already changed (R175). -/
theorem Part.Turn.offLine {old : Mode} {p q t : Part} {b : ModeBlock} {before after : List ModeBlock}
    (h : Part.Turn old p b before after q t) (hm : p.mode ≠ .onLine) : q.mode ≠ .onLine := fun hq =>
  hm (h.reached.kept.mode.symm.trans hq)

/-- The part as the blocks find it at a change to SERVICE: the mode and the recorder set, the reply placed (R174). -/
def Part.enteringService (p : Part) (r : CommandRecord) (rest : List CommandRecord) : Part :=
  (p.setMgr { p.mgr with intake := rest, mode := .service, recorder := some r.source }).reply r .ok 0 .empty

theorem Part.runModeSet_toService {p : Part} {r : CommandRecord} (rest : List CommandRecord) (order : List ModeBlock)
    (hm : p.mode ≠ .service) (code : Mode.ofCode (r.byteAt 0) = some .service) :
    Part.runModeSet order r (p.setMgr { p.mgr with intake := rest }) =
      (p.enteringService r rest).passMode p.mode .service order := by
  unfold Part.runModeSet
  rw [code]
  show (if Mode.service = p.mode then _ else if Mode.service ≠ .service ∧ _ then _ else _) = _
  rw [if_neg hm.symm, if_neg fun h => h.1 rfl]
  rfl

/-- R112: what the pass leaves of the jobs of a schedule with distinct tags. -/
theorem Part.Turn.jobs_kept {old : Mode} {p q t : Part} {before after : List ModeBlock}
    (h : Part.Turn old p .scheduler before after q t) (hm : p.mode ≠ .onLine) (distinct : p.TagsDistinct) {i : Job}
    (hi : i ∈ p.csc.jobs) (outstanding : i.received + i.lost ≠ i.triggered) :
    (i.state = .draining → i ∈ t.csc.jobs) ∧
    (i.state = .opened → ∃ lamp : LampStatus, (lamp = i.lamp ∨ (lamp = .unlit ∧ p.lar.entry i.tag ≠ none)) ∧
      i.aborted p.now lamp ∈ t.csc.jobs) := by
  obtain ⟨csc, -, left⟩ := h.schedule
  rw [← csc] at hi
  refine ⟨fun drains => ?_, fun opened => ?_⟩
  · rw [left]
    exact Part.schedulerToService_draining (h.offLine hm) (h.tagsDistinct distinct) hi drains outstanding
  · obtain ⟨lamp, status, aborted⟩ :=
      Part.schedulerToService_opened (h.offLine hm) (h.tagsDistinct distinct) hi opened outstanding
    refine ⟨lamp, status.imp_right fun ⟨unlit, entered⟩ => ⟨unlit, fun none =>
      entered (h.reached.lar.entries _ none)⟩, ?_⟩
    rw [left]
    rwa [show q.now = p.now from congrArg Timebase.time h.reached.kept.tb] at aborted

/-- R112: the jobs that the pass leaves drain, and each was OPEN or DRAINING before. -/
theorem Part.Turn.jobs_left {old : Mode} {p q t : Part} {before after : List ModeBlock}
    (h : Part.Turn old p .scheduler before after q t) (hm : p.mode ≠ .onLine) : ∀ j ∈ t.csc.jobs,
    j.state = .draining ∧ ∃ i ∈ p.csc.jobs, i.tag = j.tag ∧ i.state ≠ .waiting := by
  obtain ⟨csc, -, left⟩ := h.schedule
  rw [left, ← csc]
  exact Part.schedulerToService_left (h.offLine hm)

/-- Settles O22: each block is met at its turn, and what it finds there is what the blocks before it leave alone. -/
theorem modeSetToServiceEndsOperation : Obligations.ModeSetToServiceEndsOperation := by
  intro s r rest order p notice room unserved hr hm code
  generalize hb : p.enteringService r rest = b
  have off : b.mode ≠ .onLine := by rw [← hb]; exact nofun
  have kept := Part.passMode_kept p.mode .service b order
  have places : room → b.mgr.control.length + b.mgr.waiting.length + b.csc.jobs.length + 4 ≤ 16 := fun h => by
    subst hb
    show (p.mgr.control ++ [_]).length + p.mgr.waiting.length + p.csc.jobs.length + 4 ≤ 16
    rw [List.length_append, List.length_singleton]
    have : p.mgr.control.length + p.mgr.waiting.length + p.csc.jobs.length + 5 ≤ 16 := h
    omega
  obtain ⟨_, _, q, turn⟩ := Part.passMode_turn p.mode off order .scheduler
  obtain ⟨l, control, -⟩ :=
    ((Part.blocksToService_passes p.mode _ off (fullOrder_nodup order)).notes _ fun _ => le_rfl).control
  have left := turn.jobs_left off
  refine ⟨s.withPart (b.passMode p.mode .service order), ?_, rfl, ?_, ?_, ?_, ?_, fun j hj => (left j hj).1, ?_, ?_, ?_,
    fun distinct => ⟨?_, fun i hi drains outstanding => ?_, fun i hi opened outstanding => ?_, fun space => ?_⟩,
    fun k => ?_⟩
  · rw [← hb]
    exact hr.next (Part.runModeSet_toService rest order hm code)
  · exact kept.mode.trans (by rw [← hb]; rfl)
  · exact kept.recorder.trans (by rw [← hb]; rfl)
  · exact kept.intake.trans (by rw [← hb]; rfl)
  · subst hb
    exact ⟨l, control.symm⟩
  · exact kept.records.trans (by rw [← hb]; rfl)
  · exact kept.types.trans (by rw [← hb]; rfl)
  · exact kept.tb.trans (by rw [← hb]; rfl)
  · intro j hj
    subst hb
    exact (left j hj).2
  · subst hb
    exact (turn.jobs_kept off distinct hi outstanding).1 drains
  · subst hb
    exact (turn.jobs_kept off distinct hi outstanding).2 opened
  · subst hb
    exact turn.jobEnded (turn.offLine off) distinct (places space) (named := unserved) fun i hi j => by
      have := List.all_eq_true.mp hi j (by cases j <;> decide)
      exact bne_iff_ne.mp this
  · obtain ⟨queue, loss⟩ := Part.blocksToService_quiet p.mode (mem_fullOrder .sensors order) b
      (kept.mode.trans (by rw [← hb]; rfl)) k
    obtain ⟨_, _, _, tracker⟩ := Part.passMode_turn p.mode off order (.tracker k)
    subst hb
    refine ⟨queue, loss, fun idle => ⟨(tracker.tracker_vacant idle).1, (tracker.tracker_vacant idle).2,
      fun space open_ => ?_⟩, fun x handling => tracker.tracker_deferred handling, fun online => ?_⟩
    · obtain ⟨final, finished, placed⟩ := tracker.tracker_closed idle open_ (places space)
      exact ⟨final, finished.of_passage rfl rfl, placed⟩
    · obtain ⟨_, _, _, arbiter⟩ := Part.passMode_turn p.mode off order .arbiter
      exact arbiter.requests_cleared online k

end Sys2Proof.Machine
end

