-- ==== Sys2Proof/Proofs/TableFrame.lean ====
section
/-! PROOFS. Which commands write the track records in force and the vehicle type table (O4), and that the records stay
in their ranges (O6). -/

namespace Sys2Proof.Machine

/-! ### The run of a command, said once (R169, R170) -/

/-- A command of the catalogue does nothing, refuses the record it takes, or passes checks 1 to 3 and is run. -/
theorem Part.runsCommand_cases (p : Part) (c : Command) (run : CommandRecord → Part → Part) :
    p.runsCommand c run = p ∨ ∃ (r : CommandRecord) (rest : List CommandRecord),
      (∃ st : Status, p.runsCommand c run = p.answered r rest st 0 .empty) ∨
      (c.takenIn p.mode = true ∧ p.runsCommand c run = run r (p.setMgr { p.mgr with intake := rest })) := by
  cases intake : p.mgr.intake with
  | nil => exact .inl (by simp only [Part.runsCommand, Part.runs, Part.takes, intake])
  | cons r rest =>
    by_cases taken : p.freePlace = true ∧ r.command = some c
    · have takes : p.Takes c r rest := ⟨intake, taken.1, taken.2⟩
      rw [takes.runsCommand_eq]
      refine .inr ⟨r, rest, ?_⟩
      cases refused : p.refusal c r with
      | some st => exact .inl ⟨st, rfl⟩
      | none =>
        refine .inr ⟨?_, rfl⟩
        by_contra shut
        rw [Part.refusal, if_neg shut] at refused
        exact nomatch refused
    · exact .inl (by simp only [Part.runsCommand, Part.runs, Part.takes, intake, if_neg taken])

/-- What the responder's own changes keep, and a command's run keeps in the modes that take it, the command keeps. -/
theorem command_preserves {s t : State} {c : Command} {run : CommandRecord → Part → Part} {P : Part → Prop}
    (h : s.onPart (fun p => p.runsCommand c run) = .next t) (mgr : ∀ (q : Part) (m : Responder), P q → P (q.setMgr m))
    (start : P s.part) (hr : c.takenIn s.part.mode = true → ∀ (r : CommandRecord) (q : Part), P q → P (run r q)) :
    P t.part := by
  cases h
  show P (s.part.runsCommand c run)
  rcases s.part.runsCommand_cases c run with same | ⟨r, rest, ⟨st, refused⟩ | ⟨open_, ran⟩⟩
  · rwa [same]
  · rw [refused]
    exact mgr _ _ start
  · rw [ran]
    exact hr open_ r _ (mgr _ _ start)

/-! ### What leaves both tables alone -/

/-- `q` has the track records in force and the vehicle types of `p`. -/
structure Part.SameTables (p q : Part) : Prop where
  records : q.records = p.records
  types   : q.types = p.types

theorem Part.SameTables.refl (p : Part) : p.SameTables p := ⟨rfl, rfl⟩

theorem Part.Kept.tables {p q r : Part} (g : q.Kept r) (h : p.SameTables q) : p.SameTables r :=
  ⟨g.records.trans h.records, g.types.trans h.types⟩

theorem next_tables {s t : State} {q : Part} (h : (.next (s.withPart q) : Host.Outcome State Fault Refusal) = .next t)
    (hq : s.part.SameTables q) : s.part.SameTables t.part := by
  cases h
  exact hq

/-- A row that keeps the tables along with the other pieces of `Part.Kept`. -/
theorem next_kept {s t : State} {q : Part} (h : (.next (s.withPart q) : Host.Outcome State Fault Refusal) = .next t)
    (hq : s.part.Kept q) : s.part.SameTables t.part := next_tables h (hq.tables (.refl _))

/-- A command whose run leaves both tables alone. -/
theorem command_tables {s t : State} {c : Command} {run : CommandRecord → Part → Part}
    (h : s.onPart (fun p => p.runsCommand c run) = .next t)
    (hr : ∀ (r : CommandRecord) (q : Part), q.SameTables (run r q)) : s.part.SameTables t.part :=
  command_preserves (P := s.part.SameTables) h (fun _ _ hq => ⟨hq.records, hq.types⟩) (.refl _) fun _ r q hq =>
    ⟨(hr r q).records.trans hq.records, (hr r q).types.trans hq.types⟩

/-- A command whose run is a chain of operations of the blocks and of records placed in the control queue. -/
theorem command_kept {s t : State} {c : Command} {run : CommandRecord → Part → Part}
    (h : s.onPart (fun p => p.runsCommand c run) = .next t)
    (hr : ∀ (r : CommandRecord) (q : Part), q.Kept (run r q)) : s.part.SameTables t.part :=
  command_tables h fun r q => (hr r q).tables (.refl q)

theorem Part.acceptFrame_tables (p : Part) (frame : List Byte) : p.SameTables (p.acceptFrame frame) := by
  have offered : p.SameTables (p.offerCommand (commandRecord frame)) := by
    unfold Part.offerCommand
    split
    · exact ⟨rfl, rfl⟩
    · exact ⟨rfl, rfl⟩
  unfold Part.acceptFrame
  split
  · exact .refl p
  · split
    · split
      · exact offered
      · exact ⟨rfl, rfl⟩
    · split
      · exact offered
      · exact .refl p

theorem Part.runModeSet_tables (order : List ModeBlock) (r : CommandRecord) (p : Part) :
    p.SameTables (Part.runModeSet order r p) := by
  unfold Part.runModeSet
  split
  · exact ⟨rfl, rfl⟩
  · dsimp only
    split
    · exact ⟨rfl, rfl⟩
    · split
      · exact ⟨rfl, rfl⟩
      · exact (Part.passMode_kept _ _ _ order).tables ⟨rfl, rfl⟩

theorem Part.runResetPart_tables (r : CommandRecord) (p : Part) : p.SameTables (p.runResetPart r) := by
  rw [Part.runResetPart_eq]
  exact ⟨rfl, rfl⟩

theorem Part.runTrackRead_kept (r : CommandRecord) (p : Part) : p.Kept (Part.runTrackRead r p) := by
  unfold Part.runTrackRead
  split
  · exact p.refuse_kept _ _
  · exact p.reply_kept _ _ _ _

theorem Part.runPassageRead_kept (r : CommandRecord) (p : Part) : p.Kept (Part.runPassageRead r p) := by
  unfold Part.runPassageRead
  split
  · exact p.refuse_kept _ _
  · exact p.reply_kept _ _ _ _

theorem Part.runTypeRead_kept (r : CommandRecord) (p : Part) : p.Kept (Part.runTypeRead r p) := by
  unfold Part.runTypeRead
  dsimp only
  split
  · exact p.reply_kept _ _ _ _
  · exact p.refuse_kept _ _

theorem Part.runHeadClear_kept (r : CommandRecord) (p : Part) : p.Kept (Part.runHeadClear r p) := by
  unfold Part.runHeadClear
  split
  · split
    · split
      · exact p.refuse_kept _ _
      · exact (p.reply_kept _ _ _ _).trans (Part.setHead_kept _ _ _ _ _)
    · exact p.reply_kept _ _ _ _
  · exact p.refuse_kept _ _

theorem Part.runSlotRelease_kept (r : CommandRecord) (p : Part) : p.Kept (Part.runSlotRelease r p) := by
  unfold Part.runSlotRelease
  split
  · exact p.refuse_kept _ _
  · split
    · exact p.refuse_kept _ _
    · exact (p.reply_kept _ _ _ _).trans (Part.setSlot_kept _ _ _)

theorem Part.runFetch_kept (r : CommandRecord) (p : Part) : p.Kept (Part.runFetch r p) := by
  unfold Part.runFetch
  dsimp only
  split
  · exact p.refuse_kept _ _
  · split
    · exact p.refuse_kept _ _
    · split
      · exact p.refuse_kept _ _
      · split
        · exact p.refuse_kept _ _
        · exact ((p.reply_kept _ _ _ _).trans (Part.setFsc_kept _ _)).trans (Part.kickEngine_kept _)

theorem Part.cancelFetch_kept (p : Part) (t : Tag) : p.Kept (p.cancelFetch t) := by
  unfold Part.cancelFetch
  split
  · exact .refl p
  · split
    · exact p.finishFetch_kept _
    · exact (p.modFetch_kept _ _).trans (Part.setFsc_kept _ _)
    · exact p.modFetch_kept _ _
    · exact .refl p

theorem Part.runFetchCancel_kept (r : CommandRecord) (p : Part) : p.Kept (Part.runFetchCancel r p) := by
  unfold Part.runFetchCancel
  dsimp only
  split
  · exact p.refuse_kept _ _
  · split
    · exact ((p.reply_kept _ _ _ _).trans (Part.completeRead_kept _)).trans (Part.cancelFetch_kept _ _)
    · exact (p.reply_kept _ _ _ _).trans (Part.cancelFetch_kept _ _)

theorem Part.runCalStore_tables (r : CommandRecord) (p : Part) : p.SameTables (Part.runCalStore r p) := by
  unfold Part.runCalStore
  split
  · exact ⟨rfl, rfl⟩
  · exact ⟨rfl, rfl⟩

theorem Part.runCalAutoload_tables (r : CommandRecord) (p : Part) : p.SameTables (Part.runCalAutoload r p) := by
  unfold Part.runCalAutoload
  split
  · exact ⟨rfl, rfl⟩
  · dsimp only
    split
    · exact ⟨rfl, rfl⟩
    · exact ⟨rfl, rfl⟩

theorem Part.endWrite_tables (p : Part) (verified : Bool) : p.SameTables (p.endWrite verified) := by
  unfold Part.endWrite
  split
  · exact .refl p
  · exact (Part.placeOrWait_kept _ _).tables ⟨rfl, rfl⟩

theorem Part.runs_unknown_tables (p : Part) : p.SameTables (p.runs none (fun r q => q.refuse r .badArgument)) := by
  unfold Part.runs
  split
  · rename_i h
    unfold Part.takes at h
    split at h
    · exact nomatch h
    · split at h
      · cases h
        exact ⟨rfl, rfl⟩
      · exact nomatch h
  · exact .refl p

/-! ### The commands that write a table -/

theorem Part.writeRecord_types (p : Part) (k : Track) (r : TrackRecord) : (p.writeRecord k r).types = p.types := by
  obtain ⟨x, m, eq, -⟩ := p.writeRecord_frame k r
  rw [eq]

theorem Part.writeRecord_records (p : Part) (k : Track) (r : TrackRecord) :
    (p.writeRecord k r).records = p.records.set k r := by
  obtain ⟨x, m, eq, -⟩ := p.writeRecord_frame k r
  rw [eq]

/-- R29: the four records of a page loaded are those in force; the types are kept. -/
theorem Part.loadRecords_types (p : Part) (l : Quad TrackRecord) : (p.loadRecords l).types = p.types := by
  simp only [Part.loadRecords, Track.all, List.foldl_cons, List.foldl_nil, Part.writeRecord_types]

theorem Part.loadRecords_records (p : Part) (l : Quad TrackRecord) : (p.loadRecords l).records = l := by
  simp only [Part.loadRecords, Track.all, List.foldl_cons, List.foldl_nil, Part.writeRecord_records]
  rfl

/-- R27: the trim alone of the record changes; a re-timing that follows changes no record. -/
theorem Part.setTrim_tables (p : Part) (r : CommandRecord) (k : Track) (t : Int) :
    (p.setTrim r k t).records = p.records.set k { p.record k with trim := t } ∧ (p.setTrim r k t).types = p.types := by
  unfold Part.setTrim
  dsimp only
  split
  · exact ⟨(Part.retime_kept _ k _).records, (Part.retime_kept _ k _).types⟩
  · exact ⟨rfl, rfl⟩

theorem Part.runTrackWrite_types (r : CommandRecord) (p : Part) : (Part.runTrackWrite r p).types = p.types := by
  unfold Part.runTrackWrite
  split
  · rfl
  · dsimp only
    split
    · rfl
    · split
      · rfl
      · split
        · rfl
        · exact Part.writeRecord_types _ _ _

theorem Part.runTrimSet_types (r : CommandRecord) (p : Part) : (Part.runTrimSet r p).types = p.types := by
  unfold Part.runTrimSet
  split
  · rfl
  · dsimp only
    split
    · exact (p.setTrim_tables _ _ _).2
    · rfl

theorem Part.runTrimStep_types (r : CommandRecord) (p : Part) : (Part.runTrimStep r p).types = p.types := by
  unfold Part.runTrimStep
  split
  · rfl
  · dsimp only
    split
    · exact (p.setTrim_tables _ _ _).2
    · rfl

theorem Part.runLampSet_types (r : CommandRecord) (p : Part) : (Part.runLampSet r p).types = p.types := by
  unfold Part.runLampSet
  split
  · rfl
  · split
    · rfl
    · rfl

theorem Part.runCalLoad_types (r : CommandRecord) (p : Part) : (Part.runCalLoad r p).types = p.types := by
  unfold Part.runCalLoad
  dsimp only
  split
  · split
    · rfl
    · exact Part.loadRecords_types _ _
  · rfl

theorem Part.runTypeWrite_records (r : CommandRecord) (p : Part) : (Part.runTypeWrite r p).records = p.records := by
  unfold Part.runTypeWrite
  dsimp only
  split
  · rfl
  · rfl

theorem Part.runTypeClear_records (r : CommandRecord) (p : Part) : (Part.runTypeClear r p).records = p.records := by
  unfold Part.runTypeClear
  dsimp only
  split
  · rfl
  · split
    · rfl
    · rfl

/-- A command whose run leaves the vehicle types alone. -/
theorem command_types {s t : State} {c : Command} {run : CommandRecord → Part → Part}
    (h : s.onPart (fun p => p.runsCommand c run) = .next t)
    (hr : ∀ (r : CommandRecord) (q : Part), (run r q).types = q.types) : t.part.types = s.part.types :=
  command_preserves (P := fun q => q.types = s.part.types) h (fun _ _ hq => hq) rfl fun _ r q hq => (hr r q).trans hq

/-- A command that SERVICE alone takes and whose run leaves the records alone: it writes the types in SERVICE. -/
theorem command_inService {s t : State} {c : Command} {run : CommandRecord → Part → Part}
    (h : s.onPart (fun p => p.runsCommand c run) = .next t) (hc : ∀ m : Mode, c.takenIn m = true → m = .service)
    (hr : ∀ (r : CommandRecord) (q : Part), (run r q).records = q.records) :
    t.part.records = s.part.records ∧ (t.part.types = s.part.types ∨ s.part.mode = .service) :=
  command_preserves (P := fun q => q.records = s.part.records ∧ (q.types = s.part.types ∨ s.part.mode = .service)) h
    (fun _ _ hq => hq) ⟨rfl, .inl rfl⟩ fun open_ r q hq => ⟨(hr r q).trans hq.1, .inr (hc _ open_)⟩

/-- Settles O4: the rows that write a table are met one by one, and every other row leaves both alone. -/
theorem tablesChangeOnlyByTheirCommands : Obligations.TablesChangeOnlyByTheirCommands := by
  intro c s t h
  have same {A B : Prop} (g : s.part.SameTables t.part) :
      (t.part.records = s.part.records ∨ A) ∧ (t.part.types = s.part.types ∨ B) := ⟨.inl g.records, .inl g.types⟩
  cases c with
  | powerOnReset => exact ⟨.inr (by decide), .inr (.inl rfl)⟩
  | trackWrite => exact ⟨.inr (by decide), .inl (command_types h Part.runTrackWrite_types)⟩
  | trimSet => exact ⟨.inr (by decide), .inl (command_types h Part.runTrimSet_types)⟩
  | trimStep => exact ⟨.inr (by decide), .inl (command_types h Part.runTrimStep_types)⟩
  | lampSet => exact ⟨.inr (by decide), .inl (command_types h Part.runLampSet_types)⟩
  | calLoad => exact ⟨.inr (by decide), .inl (command_types h Part.runCalLoad_types)⟩
  | typeWrite =>
    obtain ⟨records, types⟩ := command_inService h (fun _ hm => of_decide_eq_true hm) Part.runTypeWrite_records
    exact ⟨.inl records, types.imp_right fun service => .inr ⟨.inl rfl, service⟩⟩
  | typeClear =>
    obtain ⟨records, types⟩ := command_inService h (fun _ hm => of_decide_eq_true hm) Part.runTypeClear_records
    exact ⟨.inl records, types.imp_right fun service => .inr ⟨.inr rfl, service⟩⟩
  | frameAccept frame => exact same (next_tables h (s.part.acceptFrame_tables frame))
  | unknownCommand => exact same (next_tables h s.part.runs_unknown_tables)
  | ident => exact same (command_kept h fun r q => q.reply_kept r _ _ _)
  | status => exact same (command_kept h fun r q => q.reply_kept r _ _ _)
  | timeRead => exact same (command_kept h fun r q => q.reply_kept r _ _ _)
  | modeSet order => exact same (command_tables h (Part.runModeSet_tables order))
  | resetPart => exact same (command_tables h Part.runResetPart_tables)
  | trackRead => exact same (command_kept h Part.runTrackRead_kept)
  | typeRead => exact same (command_kept h Part.runTypeRead_kept)
  | headClear => exact same (command_kept h Part.runHeadClear_kept)
  | scheduleRead => exact same (command_kept h fun r q => q.reply_kept r _ _ _)
  | passageRead => exact same (command_kept h Part.runPassageRead_kept)
  | slotRead => exact same (command_kept h fun r q => q.reply_kept r _ _ _)
  | fetch => exact same (command_kept h Part.runFetch_kept)
  | fetchCancel => exact same (command_kept h Part.runFetchCancel_kept)
  | slotRelease => exact same (command_kept h Part.runSlotRelease_kept)
  | calStore => exact same (command_tables h Part.runCalStore_tables)
  | calAutoload => exact same (command_tables h Part.runCalAutoload_tables)
  | pageWriteEnd verified => exact same (next_tables h (s.part.endWrite_tables verified))
  | takeForSending => exact same (next_kept h s.part.takeForSending_kept)
  | ethernetLinkLost => exact same (next_tables h ⟨rfl, rfl⟩)
  | ethernetLinkFound => exact same (next_tables h ⟨rfl, rfl⟩)
  | headInputActive k i d => exact same (next_kept h (s.part.headInputActive_kept k i d))
  | headInputInactive k i d => exact same (next_kept h (s.part.headInputInactive_kept k i d))
  | candidateFirstSample k i d => exact same (next_kept h (s.part.firstSample_kept k i d))
  | candidateSecondSample k i d => exact same (next_kept h (s.part.secondSample_kept k i d))
  | headStuckLimit k i d => exact same (next_kept h (s.part.stuckLimit_kept k i d))
  | pairCeilingExpiry k i => exact same (next_kept h (s.part.ceilingExpiry_kept k i))
  | occupancyInputChange k => exact same (next_kept h (s.part.setFront_kept k _))
  | occupancySettleExpiry k => exact same (next_kept h (s.part.settleExpiry_kept k))
  | eventTake k => exact same (next_kept h (s.part.takeEvent_kept k))
  | eventHandlingEnd k b => exact same (next_kept h (s.part.endHandling_kept k b))
  | silenceTimerExpiry k => exact same (next_kept h (s.part.silenceExpiry_kept k))
  | couplingTimerExpiry k => exact same (next_kept h (s.part.couplingExpiry_kept k))
  | windowOpen tag => exact same (next_kept h (s.part.openIfDue_kept tag))
  | trigger k => exact same (next_kept h (s.part.trigger_kept k))
  | windowEnd tag => exact same (next_kept h (s.part.windowEnd_kept tag))
  | drainDeadline tag => exact same (next_kept h (s.part.drainDeadline_kept tag))
  | lampRequestTime tag => exact same (next_kept h (s.part.requestTime_kept tag))
  | recoveryEnd => exact same (next_kept h s.part.recoveryEnd_kept)
  | cameraSyncLost k => exact same (next_kept h (s.part.syncLost_kept k))
  | cameraSyncFound k => exact same (next_kept h (s.part.setPort_kept k _))
  | linePacket k packet => exact same (next_kept h (s.part.linePacket_kept k packet))
  | storeTurnWrite k => exact same (next_kept h (s.part.writeTurn_kept k))
  | storeTurnRead => exact same (next_kept h s.part.readTurn_kept)
  | frameSendingEnd => exact same (next_kept h s.part.sendingEnd_kept)
  | triggerPulseEnd k => exact same (next_kept h (s.part.pulseEnd_kept k))

/-! ### Ranges of a record (R21, R22) -/

theorem mem_fieldNumbers {n : Nat} : n ∈ fieldNumbers ↔ 1 ≤ n ∧ n ≤ 23 := by
  simp only [fieldNumbers, List.mem_map, List.mem_range]
  exact ⟨by rintro ⟨i, hi, rfl⟩; omega, fun h => ⟨n - 1, by omega, by omega⟩⟩

/-- R21: a record lies in its ranges when each of its fields does. -/
theorem TrackRecord.inRange_iff (r : TrackRecord) : r.inRange = true ↔ ∀ n : Nat, r.fieldOk n = true := by
  unfold TrackRecord.inRange
  rw [List.all_eq_true]
  refine ⟨fun h n => ?_, fun h n _ => h n⟩
  by_cases hn : 1 ≤ n ∧ n ≤ 23
  · exact h n (mem_fieldNumbers.mpr hn)
  · unfold TrackRecord.fieldOk
    split <;> first | rfl | omega

/-- R21, R22: the four records in force lie in their ranges, and their slots number at most 64. -/
theorem recordsOk_iff (q : Quad TrackRecord) :
    recordsOk q = true ↔ (∀ k : Track, (q.get k).inRange = true) ∧ slotSum q ≤ 64 := by
  unfold recordsOk Quad.toList
  simp only [Bool.and_eq_true, List.all_eq_true, decide_eq_true_eq, List.forall_mem_cons, List.not_mem_nil,
    false_imp_iff, implies_true, and_true]
  exact and_congr_left' ⟨fun ⟨a, b, c, d⟩ k => by cases k <;> assumption, fun h => ⟨h .t1, h .t2, h .t3, h .t4⟩⟩

/-- A record in its ranges with the slot count of the one that it replaces leaves the records in their ranges. -/
theorem recordsOk_set {q : Quad TrackRecord} {k : Track} {r : TrackRecord} (h : recordsOk q = true)
    (hr : r.inRange = true) (slots : r.slots = (q.get k).slots) : recordsOk (q.set k r) = true := by
  obtain ⟨ranges, sum⟩ := (recordsOk_iff q).mp h
  refine (recordsOk_iff _).mpr ⟨fun j => ?_, ?_⟩
  · by_cases hj : j = k
    · subst hj; rwa [Quad.get_set_self]
    · rw [Quad.get_set_other _ hj]; exact ranges j
  · cases k <;> simp only [slotSum, Quad.set, Quad.get] at slots sum ⊢ <;> omega

theorem TrackRecord.inRange_trim {r : TrackRecord} (h : r.inRange = true) {t : Int} (lo : -64 ≤ t) (hi : t ≤ 63) :
    { r with trim := t }.inRange = true := by
  refine (TrackRecord.inRange_iff _).mpr fun n => ?_
  by_cases hn : n = 19
  · subst hn
    exact Bool.and_eq_true_iff.mpr ⟨decide_eq_true lo, decide_eq_true hi⟩
  · refine Eq.trans ?_ (r.inRange_iff.mp h n)
    unfold TrackRecord.fieldOk
    split <;> first | rfl | contradiction

theorem TrackRecord.inRange_lamp {r : TrackRecord} (h : r.inRange = true) {priority code : Nat} {mask daylight : Bool}
    (hp : priority ≤ 7) (hc : code ≤ 7) :
    { r with lampPriority := priority, lampMask := mask, recoveryCode := code, daylightUse := daylight }.inRange =
      true := by
  refine (TrackRecord.inRange_iff _).mpr fun n => ?_
  by_cases h20 : n = 20
  · subst h20; exact decide_eq_true hp
  · by_cases h22 : n = 22
    · subst h22; exact decide_eq_true hc
    · refine Eq.trans ?_ (r.inRange_iff.mp h n)
      unfold TrackRecord.fieldOk
      split <;> first | rfl | contradiction

/-- R21: 35 bytes that pass the checks carry a record in its ranges. -/
theorem inRange_of_firstBadField {bytes : List Byte} (h : firstBadField bytes = none) :
    (trackRecordOf bytes).inRange = true := by
  refine List.all_eq_true.mpr fun n hn => ?_
  have := List.find?_eq_none.mp h n hn
  simp only [Bool.not_eq_true', Bool.not_eq_false] at this
  exact (Bool.and_eq_true_iff.mp this).1

theorem steppedTrim_range {t : Int} (lo : -64 ≤ t) (hi : t ≤ 63) (step : Int) :
    -64 ≤ steppedTrim t step ∧ steppedTrim t step ≤ 63 := by
  unfold steppedTrim
  split
  · split <;> omega
  · split <;> omega

/-! ### Every step keeps the ranges (R20 to R22, R29) -/

theorem Part.setTrim_inRange {p : Part} (h : p.RecordsInRange) (r : CommandRecord) (k : Track) {t : Int}
    (lo : -64 ≤ t) (hi : t ≤ 63) : (p.setTrim r k t).RecordsInRange := by
  unfold Part.RecordsInRange
  rw [(p.setTrim_tables r k t).1]
  exact recordsOk_set h (TrackRecord.inRange_trim (((recordsOk_iff _).mp h).1 k) lo hi) rfl

theorem Part.runTrackWrite_inRange (r : CommandRecord) {p : Part} (h : p.RecordsInRange) :
    (Part.runTrackWrite r p).RecordsInRange := by
  unfold Part.runTrackWrite
  split
  · exact h
  · rename_i k _
    dsimp only
    split
    · exact h
    · rename_i fields
      split
      · exact h
      · rename_i sum
        split
        · exact h
        · unfold Part.RecordsInRange
          rw [Part.writeRecord_records]
          refine (recordsOk_iff _).mpr ⟨fun j => ?_, Nat.not_lt.mp sum⟩
          by_cases hj : j = k
          · subst hj
            rw [Quad.get_set_self]
            exact inRange_of_firstBadField fields
          · rw [Quad.get_set_other _ hj]
            exact ((recordsOk_iff _).mp h).1 j

theorem Part.runTrimSet_inRange (r : CommandRecord) {p : Part} (h : p.RecordsInRange) :
    (Part.runTrimSet r p).RecordsInRange := by
  unfold Part.runTrimSet
  split
  · exact h
  · dsimp only
    split
    · rename_i trim
      exact Part.setTrim_inRange h r _ trim.1 trim.2
    · exact h

theorem Part.runTrimStep_inRange (r : CommandRecord) {p : Part} (h : p.RecordsInRange) :
    (Part.runTrimStep r p).RecordsInRange := by
  unfold Part.runTrimStep
  split
  · exact h
  · rename_i k _
    dsimp only
    split
    · have old := (p.record k).inRange_iff.mp (((recordsOk_iff _).mp h).1 k) 19
      obtain ⟨lo, hi⟩ := Bool.and_eq_true_iff.mp old
      obtain ⟨lo, hi⟩ := steppedTrim_range (of_decide_eq_true lo) (of_decide_eq_true hi) (signedByte (r.byteAt 1))
      exact Part.setTrim_inRange h r k lo hi
    · exact h

/-- R28: lamp fields that pass the checks lie in their ranges. -/
theorem firstBadLampField_none {priority mask code daylight : Nat}
    (h : firstBadLampField priority mask code daylight = none) :
    priority ≤ 7 ∧ mask ≤ 1 ∧ code ≤ 7 ∧ daylight ≤ 1 := by
  unfold firstBadLampField at h
  split at h
  · exact nomatch h
  · split at h
    · exact nomatch h
    · split at h
      · exact nomatch h
      · split at h
        · exact nomatch h
        · omega

theorem Part.runLampSet_inRange (r : CommandRecord) {p : Part} (h : p.RecordsInRange) :
    (Part.runLampSet r p).RecordsInRange := by
  unfold Part.runLampSet
  split
  · exact h
  · rename_i k _
    split
    · exact h
    · rename_i fields
      obtain ⟨priority, -, code, -⟩ := firstBadLampField_none fields
      exact recordsOk_set h (TrackRecord.inRange_lamp (((recordsOk_iff _).mp h).1 k) priority code) rfl

theorem Part.runCalLoad_inRange (r : CommandRecord) {p : Part} (h : p.RecordsInRange) :
    (Part.runCalLoad r p).RecordsInRange := by
  unfold Part.runCalLoad
  dsimp only
  split
  · rename_i valid
    split
    · exact h
    · unfold Part.RecordsInRange
      rw [Part.loadRecords_records]
      exact (Bool.and_eq_true_iff.mp valid).2
  · exact h

/-- R181, R183: a power-on reset leaves the unset records, or those of a valid page. -/
theorem Part.powerOn_inRange (p : Part) : p.powerOn.RecordsInRange := by
  have unset : p.powerOnState.RecordsInRange := (by decide : recordsOk (.all .unset) = true)
  unfold Part.powerOn Part.autoLoad
  dsimp only
  split
  · rename_i valid
    split
    · unfold Part.RecordsInRange
      rw [Part.loadRecords_records]
      exact (Bool.and_eq_true_iff.mp valid).2
    · exact unset
  · exact unset

/-- Every command keeps the records in their ranges: the six that write a record check it (O4). -/
theorem exec_recordsInRange {c : Instr} {s t : State} (h : exec c s = .next t) (start : s.part.RecordsInRange) :
    t.part.RecordsInRange := by
  rcases (tablesChangeOnlyByTheirCommands c s t h).1 with same | writes
  · unfold Part.RecordsInRange
    rwa [same]
  · have mgr : ∀ (q : Part) (m : Responder), q.RecordsInRange → (q.setMgr m).RecordsInRange := fun _ _ hq => hq
    simp only [List.mem_cons, List.not_mem_nil, or_false] at writes
    rcases writes with rfl | rfl | rfl | rfl | rfl | rfl
    · cases h
      exact s.part.powerOn_inRange
    · exact command_preserves h mgr start fun _ r _ hq => Part.runTrackWrite_inRange r hq
    · exact command_preserves h mgr start fun _ r _ hq => Part.runTrimSet_inRange r hq
    · exact command_preserves h mgr start fun _ r _ hq => Part.runTrimStep_inRange r hq
    · exact command_preserves h mgr start fun _ r _ hq => Part.runLampSet_inRange r hq
    · exact command_preserves h mgr start fun _ r _ hq => Part.runCalLoad_inRange r hq

theorem Part.tick_records (p : Part) : p.tick.records = p.records := by
  show p.beginTurn.records = p.records
  unfold Part.beginTurn
  split
  · rfl
  · split
    · rfl
    · rfl

/-- Settles O6: a command at the front of the queue or a timed step by `exec_recordsInRange`; a clock count writes no
record. -/
theorem recordsInRangeKept : Obligations.RecordsInRangeKept := by
  intro s t start h
  unfold step at h
  split at h
  · rename_i rest _
    exact exec_recordsInRange (s := { s with pending := rest }) h start
  · split at h
    · exact exec_recordsInRange (s := { s with part := s.part.bumpFree }) h start
    · cases h
      show recordsOk s.part.tick.records = true
      rw [Part.tick_records]
      exact start

end Sys2Proof.Machine
end

