-- ==== Sys2Proof/Proofs/TableRules.lean ====
section
/-! PROOFS. The commands of the tables: what TYPE_READ, TRACK_WRITE, LAMP_SET, TYPE_WRITE, TYPE_CLEAR and CAL_LOAD check
and do (O25, O26, O29, O30, O32), the bytes of a track record (O16), and the slot that a job is given (O53). -/

namespace Sys2Proof.Machine

/-! ### Checks numbered from 1 -/

/-- Of checks numbered from 1, the first that fails. -/
theorem find_numbered_some {N n : Nat} (f : Nat → Bool) : ((List.range N).map (· + 1)).find? f = some n ↔
    1 ≤ n ∧ n ≤ N ∧ f n = true ∧ ∀ m : Nat, 1 ≤ m → m < n → f m = false := by
  simp only [List.find?_map, Option.map_eq_some_iff, List.find?_range_eq_some, Function.comp_apply, List.mem_range,
    Bool.not_eq_true']
  constructor
  · rintro ⟨i, ⟨fails, bound, before⟩, rfl⟩
    refine ⟨by omega, by omega, fails, fun m low high => ?_⟩
    obtain ⟨m, rfl⟩ := Nat.exists_eq_add_of_le' low
    exact before m (by omega)
  · rintro ⟨low, high, fails, before⟩
    obtain ⟨i, rfl⟩ := Nat.exists_eq_add_of_le' low
    exact ⟨i, ⟨fails, by omega, fun j hj => before (j + 1) (by omega) (by omega)⟩, rfl⟩

theorem find_numbered_none {N : Nat} (f : Nat → Bool) :
    ((List.range N).map (· + 1)).find? f = none ↔ ∀ n : Nat, 1 ≤ n → n ≤ N → f n = false := by
  simp only [List.find?_map, Option.map_eq_none_iff, List.find?_range_eq_none, Function.comp_apply, Bool.not_eq_true']
  refine ⟨fun h n low high => ?_, fun h i hi => h (i + 1) (by omega) (by omega)⟩
  obtain ⟨i, rfl⟩ := Nat.exists_eq_add_of_le' low
  exact h i (by omega)

/-! ### Slots (R25, R104, R151) -/

/-- Settles O53: the search goes through the slots in the order of their numbers. -/
theorem freeSlotIsLowestOfRegion : Obligations.FreeSlotIsLowestOfRegion := by
  intro p k
  have free : ∀ (n : Nat) (x : Slot), p.slot n = some x →
      ((p.slot n).map (fun s => decide (s.state = .free))).getD false = decide (x.state = .free) := fun n x hx => by
    rw [hx]; rfl
  refine ⟨fun j n hk hj => inRegion_unique hj hk, fun n hn => ?_, fun hn m x region hx state => ?_⟩
  · unfold Part.freeSlot at hn
    obtain ⟨found, -, before⟩ := List.find?_range_eq_some.mp hn
    obtain ⟨region, found⟩ := Bool.and_eq_true_iff.mp found
    refine ⟨region, ?_, fun m x hm region hx state => ?_⟩
    · cases hx : p.slot n with
      | none => rw [hx] at found; exact nomatch found
      | some x =>
        rw [free n x hx] at found
        exact ⟨x, rfl, of_decide_eq_true found⟩
    · have := before m hm
      rw [region, free m x hx, state] at this
      exact absurd this (by decide)
  · have := List.find?_range_eq_none.mp hn m (Part.slot_lt hx)
    rw [region, free m x hx, state] at this
    exact absurd this (by decide)

/-! ### The bytes of a track record (R184, 11 §11.4) -/

/-- A number sent most significant byte first and read behind what was read before. -/
theorem bigEndian_be_acc (w n acc : Nat) :
    (be w n).foldl (fun a b => a * 256 + b.toNat) acc = acc * 256 ^ w + n % 256 ^ w := by
  induction w generalizing acc with
  | zero => simp [be, Nat.mod_one]
  | succ w ih =>
    rw [be, List.foldl_cons, ih, BitVec.toNat_ofNat, Nat.mod_pow_succ (x := n) (b := 256), pow_succ 256 w,
      show 2 ^ 8 = 256 from rfl]
    ring

/-- A number sent in some bytes reads back modulo what they hold. -/
theorem bigEndian_be (w n : Nat) : bigEndian (be w n) = n % 256 ^ w := by
  rw [bigEndian, bigEndian_be_acc, Nat.zero_mul, Nat.zero_add]

/-- R184: the number by which a polarity is sent. -/
def Polarity.code : Polarity → Nat
  | .high => 0
  | .low => 1

/-- 11 §11.4: the number that each field of a track record is sent as, by field number. -/
def TrackRecord.code (r : TrackRecord) (n : Nat) : Nat :=
  match n with
  | 1 => r.enabled.toNat
  | 2 => r.spacing1 | 3 => r.spacing2 | 4 => r.approach1 | 5 => r.approach2
  | 6 => r.outer1.code | 7 => r.inner1.code | 8 => r.outer2.code | 9 => r.inner2.code
  | 10 => r.qualifyUs | 11 => r.stuckMs
  | 12 => r.occUse.toNat | 13 => r.occPolarity.code
  | 14 => r.silenceS | 15 => r.pitchUm | 16 => r.windowHalfMm | 17 => r.defaultPace | 18 => r.slots
  | 19 => (BitVec.ofInt 8 r.trim).toNat
  | 20 => r.lampPriority
  | 21 => r.lampMask.toNat
  | 22 => r.recoveryCode
  | 23 => r.daylightUse.toNat
  | _ => 0

theorem encYes_eq (b : Bool) : encYes b = be 1 b.toNat := by cases b <;> rfl

theorem encPolarity_eq (q : Polarity) : encPolarity q = be 1 q.code := by cases q <;> rfl

theorem encTrim_eq (t : Int) : encTrim t = be 1 (BitVec.ofInt 8 t).toNat := by
  simp only [encTrim, be, pow_zero, Nat.div_one, BitVec.ofNat_toNat, BitVec.setWidth_eq]

/-- The 35 bytes are the fields in the order of their numbers, each in its width. -/
theorem encTrackRecord_eq (r : TrackRecord) :
    encTrackRecord r = fieldNumbers.flatMap (fun n => be (trackField n).2 (r.code n)) := by
  rw [show fieldNumbers = [1, 2, 3, 4, 5, 6, 7, 8, 9, 10, 11, 12, 13, 14, 15, 16, 17, 18, 19, 20, 21, 22, 23] from rfl]
  delta encTrackRecord
  simp only [encYes_eq, encPolarity_eq, encTrim_eq, List.flatMap_cons, List.flatMap_nil, trackField,
    TrackRecord.code, List.append_assoc, List.append_nil]

/-- Each field of the 35 bytes carries the number that it is sent as, as far as its width holds it. -/
theorem rawField_encTrackRecord_mod (r : TrackRecord) {n : Nat} (low : 1 ≤ n) (high : n ≤ 23) :
    rawField (encTrackRecord r) n = r.code n % 256 ^ (trackField n).2 := by
  rw [← bigEndian_be, encTrackRecord_eq]
  interval_cases n <;> rfl

theorem trackField_beyond {n : Nat} (h : ¬ (1 ≤ n ∧ n ≤ 23)) : trackField n = (35, 0) := by
  unfold trackField
  split <;> first | rfl | omega

theorem TrackRecord.code_beyond (r : TrackRecord) {n : Nat} (h : ¬ (1 ≤ n ∧ n ≤ 23)) : r.code n = 0 := by
  unfold TrackRecord.code
  split <;> first | rfl | omega

theorem TrackRecord.within_le {r : TrackRecord} {v lo hi : Nat} (h : r.within v lo hi = true) : v ≤ hi := by
  simp only [TrackRecord.within, Bool.or_eq_true, Bool.and_eq_true, decide_eq_true_eq] at h
  omega

theorem Polarity.code_le (q : Polarity) : q.code ≤ 1 := by cases q <;> decide

/-- A field in its range fits its width. -/
theorem TrackRecord.code_lt (r : TrackRecord) : ∀ n : Nat, r.fieldOk n = true → r.code n < 256 ^ (trackField n).2
  | 2, ok | 3, ok | 4, ok | 5, ok | 10, ok | 11, ok | 14, ok | 15, ok | 16, ok | 17, ok =>
    (TrackRecord.within_le ok).trans_lt (by decide)
  | 18, ok | 20, ok | 22, ok => (of_decide_eq_true ok).trans_lt (by decide)
  | 19, _ => BitVec.isLt _
  | 1, _ | 12, _ | 21, _ | 23, _ => (Bool.toNat_le _).trans_lt (by decide)
  | 6, _ | 7, _ | 8, _ | 9, _ | 13, _ => (Polarity.code_le _).trans_lt (by decide)
  | 0, _ | _ + 24, _ => Nat.one_pos

/-- The received value of each field of a record in its ranges is the number that it is sent as. -/
theorem rawField_encTrackRecord {r : TrackRecord} (h : r.inRange = true) :
    rawField (encTrackRecord r) = r.code := by
  funext n
  by_cases hn : 1 ≤ n ∧ n ≤ 23
  · rw [rawField_encTrackRecord_mod r hn.1 hn.2]
    exact Nat.mod_eq_of_lt (r.code_lt n (r.inRange_iff.mp h n))
  · rw [rawField, trackField_beyond hn, r.code_beyond hn]
    rfl

theorem decide_toNat (b : Bool) : decide (b.toNat = 1) = b := by cases b <;> rfl

theorem polarityOf_code (q : Polarity) : polarityOf q.code = q := by cases q <;> rfl

/-- A trim in its range reads back from its byte in two's complement. -/
theorem signedByte_ofInt {t : Int} (lo : -64 ≤ t) (hi : t ≤ 63) : signedByte (BitVec.ofInt 8 t).toNat = t := by
  rw [signedByte, BitVec.ofNat_toNat, BitVec.setWidth_eq, BitVec.toInt_ofInt]
  exact Int.bmod_eq_of_le (by omega) (by omega)

theorem trackRecordOf_encTrackRecord {r : TrackRecord} (h : r.inRange = true) :
    trackRecordOf (encTrackRecord r) = r := by
  have trim : signedByte (BitVec.ofInt 8 r.trim).toNat = r.trim := by
    obtain ⟨lo, hi⟩ := Bool.and_eq_true_iff.mp (r.inRange_iff.mp h 19)
    exact signedByte_ofInt (of_decide_eq_true lo) (of_decide_eq_true hi)
  simp only [trackRecordOf, rawField_encTrackRecord h, TrackRecord.code, decide_toNat, polarityOf_code, trim]

/-- A yes-or-no or polarity field is sent as one of its two codes. -/
theorem codeFieldOk_encTrackRecord {r : TrackRecord} (h : r.inRange = true) (n : Nat) :
    codeFieldOk (encTrackRecord r) n = true := by
  unfold codeFieldOk
  rw [rawField_encTrackRecord h]
  split
  case h_10 => rfl
  all_goals first | exact decide_eq_true (Bool.toNat_le _) | exact decide_eq_true (Polarity.code_le _)

/-- Settles O16, field by field from `rawField_encTrackRecord`. -/
theorem trackRecordRoundTrip : Obligations.TrackRecordRoundTrip := by
  intro r h
  refine ⟨trackRecordOf_encTrackRecord h, by rw [encTrackRecord_eq]; rfl, List.find?_eq_none.mpr fun n _ => ?_⟩
  rw [trackRecordOf_encTrackRecord h, r.inRange_iff.mp h n, codeFieldOk_encTrackRecord h]
  decide

/-! ### TYPE_READ, TYPE_WRITE and TYPE_CLEAR (R31 to R33) -/

/-- Settles O25: the index lies in the table or not. -/
theorem typeReadReplies : Obligations.TypeReadReplies := by
  intro s r rest h
  have run := h.runs (fun _ => rfl) rfl
  exact ⟨fun inside => run.next (if_pos (Nat.lt_succ_of_le inside)),
    fun outside => run.next (if_neg (Nat.not_lt.mpr outside))⟩

theorem TypeArgs.firstBad_some {a : TypeArgs} {n : Nat} (low : 1 ≤ n) (high : n ≤ 11) (bad : a.checkOk n = false)
    (before : ∀ m : Nat, 1 ≤ m → m < n → a.checkOk m = true) : a.firstBad = some n :=
  (find_numbered_some _).mpr ⟨low, high, by rw [bad]; rfl, fun m hm hn => by rw [before m hm hn]; rfl⟩

theorem TypeArgs.firstBad_none {a : TypeArgs} (ok : ∀ n : Nat, 1 ≤ n → n ≤ 11 → a.checkOk n = true) :
    a.firstBad = none :=
  (find_numbered_none _).mpr fun n low high => by rw [ok n low high]; rfl

/-- Check 7 of R31 compares the smallest of the gaps. -/
theorem smallest_eq_min? (l : List Nat) : smallest l = l.min? := by cases l <;> rfl

/-- Check 7 of R31: twice the tolerance lies under the smallest gap when it lies under every gap. -/
theorem TypeArgs.checkOk_seven {a : TypeArgs} (h : a.gaps ≠ []) :
    a.checkOk 7 = true ↔ ∀ g ∈ a.gaps, 2 * a.tolerance < g := by
  obtain ⟨m, hm⟩ := Option.isSome_iff_exists.mp (List.isSome_min?_of_ne_nil h)
  obtain ⟨mem, least⟩ := List.min?_eq_some_iff.mp hm
  have check : a.checkOk 7 = decide (2 * a.tolerance < m) := by
    show ((smallest a.gaps).map _).getD false = _
    rw [smallest_eq_min?, hm]
    rfl
  rw [check, decide_eq_true_eq]
  exact ⟨fun hlt g hg => hlt.trans_le (least g hg), fun all => all m mem⟩

/-- Check 11 of R31: two offsets differ. -/
theorem TypeArgs.checkOk_eleven (a : TypeArgs) :
    a.checkOk 11 = true ↔ ∀ x y : Nat, a.offsets = [x, y] → x ≠ y := by
  simp only [TypeArgs.checkOk]
  split
  · rename_i x y eq
    rw [eq, decide_eq_true_eq]
    exact ⟨fun differ _ _ same => by cases same; exact differ, fun all => all x y rfl⟩
  · rename_i other
    exact ⟨fun _ x y eq => absurd eq (other x y), fun _ => rfl⟩

theorem TypeArgs.checkOk_iff (a : TypeArgs) :
    (a.checkOk 1 = true ↔ a.index ≤ 63) ∧
    (a.checkOk 2 = true ↔ ∀ b ∈ a.name, 0x20 ≤ b.toNat ∧ b.toNat ≤ 0x7E) ∧
    (a.checkOk 3 = true ↔ 2 ≤ a.axles ∧ a.axles ≤ 8) ∧
    (a.checkOk 4 = true ↔ (∀ g ∈ a.gaps, 1000 ≤ g ∧ g ≤ 20000) ∧ ∀ g ∈ a.spareGaps, g = 0) ∧
    (a.checkOk 5 = true ↔ a.gaps.sum ≤ 24000) ∧
    (a.checkOk 6 = true ↔ 20 ≤ a.tolerance ∧ a.tolerance ≤ 500) ∧
    (a.checkOk 8 = true ↔ 1500 ≤ a.couplingGap ∧ a.couplingGap ≤ 10000) ∧
    (a.checkOk 9 = true ↔ a.pantCount ≤ 2) ∧
    (a.checkOk 10 = true ↔ (∀ f ∈ a.offsets, f ≤ a.gaps.sum) ∧ ∀ f ∈ a.spareOffsets, f = 0) := by
  simp only [TypeArgs.checkOk, Bool.and_eq_true, decide_eq_true_eq, List.all_eq_true, beq_iff_eq, and_self]

/-- Settles O30: the first check that fails answers; an index of TYPE_CLEAR names an entry, all of them or none. -/
theorem typeTableCommands : Obligations.TypeTableCommands := by
  refine ⟨fun s r rest => ⟨fun run => ⟨fun n low high bad before => run.next ?_, fun ok => run.next ?_⟩,
    fun run => ⟨fun inside => run.next (if_pos (Nat.lt_succ_of_le inside)), fun all => run.next ?_,
      fun outside one => run.next ?_⟩⟩, fun a => ?_⟩
  · simp only [Part.runTypeWrite, TypeArgs.firstBad_some low high bad before]
    rfl
  · simp only [Part.runTypeWrite, TypeArgs.firstBad_none ok]
    rfl
  · unfold Part.runTypeClear
    dsimp only
    rw [all, if_neg (by decide), if_pos rfl]
    rfl
  · unfold Part.runTypeClear
    dsimp only
    rw [if_neg (Nat.not_lt.mpr outside), if_neg one]
    rfl
  · obtain ⟨one, two, three, four, five, six, eight, nine, ten⟩ := a.checkOk_iff
    exact ⟨one, two, three, four, five, six, TypeArgs.checkOk_seven, eight, nine, ten, a.checkOk_eleven⟩

/-! ### TRACK_WRITE (R21 to R23) -/

/-- R23: a slot count that differs is refused while some slot is not FREE. -/
theorem Part.runTrackWrite_inUse {p : Part} {r : CommandRecord} {k : Track} (hk : r.byteAt 0 = k.number)
    (fields : firstBadField (r.args.drop 1) = none)
    (sum : slotSum (p.records.set k (trackRecordOf (r.args.drop 1))) ≤ 64)
    (differ : (trackRecordOf (r.args.drop 1)).slots ≠ (p.record k).slots)
    (used : ∃ (n : Nat) (x : Slot), p.slot n = some x ∧ x.state ≠ .free) :
    Part.runTrackWrite r p = p.refuse r .inUse := by
  unfold Part.runTrackWrite
  simp only [hk, Track.ofNumber_number, fields]
  rw [if_neg (show ¬ 64 < sumWith p.records k _ from Nat.not_lt.mpr sum),
    if_pos ⟨differ, p.someSlotUsed_iff.mpr used⟩]

theorem within_trackRecordOf (bytes : List Byte) (v lo hi : Nat) :
    (trackRecordOf bytes).within v lo hi = true ↔ (lo ≤ v ∧ v ≤ hi) ∨ (rawField bytes 1 ≠ 1 ∧ v = 0) := by
  simp only [TrackRecord.within, trackRecordOf, Bool.or_eq_true, Bool.and_eq_true, Bool.not_eq_true', decide_eq_true_eq,
    decide_eq_false_iff_not, ne_eq]

/-- R21: the check of one field of 35 received bytes. -/
def checkField (bytes : List Byte) (n : Nat) : Bool := (trackRecordOf bytes).fieldOk n && codeFieldOk bytes n

theorem firstBadField_eq_none (bytes : List Byte) :
    firstBadField bytes = none ↔ ∀ n : Nat, 1 ≤ n → n ≤ 23 → checkField bytes n = true := by
  refine (find_numbered_none _).trans ?_
  simp only [Bool.not_eq_false', checkField]

theorem firstBadField_eq_some (bytes : List Byte) (n : Nat) : firstBadField bytes = some n ↔
    1 ≤ n ∧ n ≤ 23 ∧ ¬ checkField bytes n = true ∧ ∀ m : Nat, 1 ≤ m → m < n → checkField bytes m = true := by
  refine (find_numbered_some _).trans ?_
  simp only [Bool.not_eq_true', Bool.not_eq_false', Bool.not_eq_true, checkField]

/-- Settles O26: the checks of the command in their order, and those of the fields by `checkField`. -/
theorem trackWriteChecksInOrder : Obligations.TrackWriteChecksInOrder := by
  refine ⟨fun s r rest run => ⟨fun outside => run.next ?_, fun k hk => ⟨fun n bad => run.next ?_,
    fun fields sum => run.next ?_, fun fields sum differ used => run.next ?_⟩⟩, fun bytes => ?_⟩
  · simp only [Part.runTrackWrite, Track.ofNumber_none outside]
    rfl
  · simp only [Part.runTrackWrite, hk, Track.ofNumber_number, bad]
    rfl
  · simp only [Part.runTrackWrite, hk, Track.ofNumber_number, fields]
    exact if_pos sum
  · exact Part.runTrackWrite_inUse hk fields sum differ used
  · intro v lies ok
    have check : ∀ n : Nat, 1 ≤ n → n ≤ 23 → (checkField bytes n = true ↔ ok n) := by
      have numeric : ∀ n lo hi : Nat, ((trackRecordOf bytes).within (v n) lo hi && true) = true ↔ lies n lo hi :=
        fun n lo hi => by rw [Bool.and_true]; exact within_trackRecordOf bytes (v n) lo hi
      have bounded : ∀ n hi : Nat, (decide (v n ≤ hi) && true) = true ↔ v n ≤ hi := fun n hi => by
        rw [Bool.and_true, decide_eq_true_eq]
      have coded : ∀ n : Nat, (true && decide (v n ≤ 1)) = true ↔ v n ≤ 1 := fun n => by
        rw [Bool.true_and, decide_eq_true_eq]
      intro n low high
      match n with
      | 2 | 3 | 4 | 5 | 10 | 11 | 14 | 15 | 16 | 17 => exact numeric _ _ _
      | 18 | 20 | 22 => exact bounded _ _
      | 19 =>
        show (decide (-64 ≤ signedByte (v 19)) && decide (signedByte (v 19) ≤ 63) && true) = true ↔ _
        rw [Bool.and_true, Bool.and_eq_true, decide_eq_true_eq, decide_eq_true_eq]
        exact Iff.rfl
      | 1 | 6 | 7 | 8 | 9 | 12 | 13 | 21 | 23 => exact coded _
      | 0 => exact absurd low (by decide)
      | n + 24 => exact absurd high (by omega)
    refine ⟨(firstBadField_eq_none bytes).trans (forall_congr' fun n => forall_congr' fun low =>
      forall_congr' fun high => check n low high), fun n => (firstBadField_eq_some bytes n).trans ?_⟩
    refine and_congr_right fun low => and_congr_right fun high => and_congr (not_congr (check n low high)) ?_
    exact forall_congr' fun m => forall_congr' fun hm => forall_congr' fun before => check m hm (by omega)

/-! ### LAMP_SET (R28) -/

/-- Settles O29: the four fields are checked in the order of their numbers. -/
theorem lampSetReplacesLampFields : Obligations.LampSetReplacesLampFields := by
  intro s r rest run
  refine ⟨fun outside => run.next ?_, fun k hk => ?_⟩
  · simp only [Part.runLampSet, Track.ofNumber_none outside]
    rfl
  · have refused : ∀ n : Nat, firstBadLampField (r.byteAt 1) (r.byteAt 2) (r.byteAt 3) (r.byteAt 4) = some n →
        exec .lampSet s = .next (s.withPart (s.part.answered r rest .badArgument n .empty)) := fun n bad => run.next (by
      simp only [Part.runLampSet, hk, Track.ofNumber_number, bad]
      rfl)
    refine ⟨fun h1 => refused 20 (if_pos h1), fun h1 h2 => refused 21 ?_, fun h1 h2 h3 => refused 22 ?_,
      fun h1 h2 h3 h4 => refused 23 ?_, fun h1 h2 h3 h4 => run.next ?_⟩
    · rw [firstBadLampField, if_neg (Nat.not_lt.mpr h1), if_pos h2]
    · rw [firstBadLampField, if_neg (Nat.not_lt.mpr h1), if_neg (Nat.not_lt.mpr h2), if_pos h3]
    · rw [firstBadLampField, if_neg (Nat.not_lt.mpr h1), if_neg (Nat.not_lt.mpr h2), if_neg (Nat.not_lt.mpr h3),
        if_pos h4]
    · have fine : firstBadLampField (r.byteAt 1) (r.byteAt 2) (r.byteAt 3) (r.byteAt 4) = none := by
        rw [firstBadLampField, if_neg (Nat.not_lt.mpr h1), if_neg (Nat.not_lt.mpr h2), if_neg (Nat.not_lt.mpr h3),
          if_neg (Nat.not_lt.mpr h4)]
      simp only [Part.runLampSet, hk, Track.ofNumber_number, fine]
      rfl

/-! ### CAL_LOAD (R29, R180) -/

/-- R29: what four records loaded leave: the front ends, and at most reports of CLEAR to the trackers. -/
theorem Part.loadRecords_frame (p : Part) (l : Quad TrackRecord) : ∃ (x : Quad Tracker) (m : Responder),
    p.loadRecords l = { p with
      records := l
      front :=
        { one := p.front.one.onRecord l.one p.now, two := p.front.two.onRecord l.two p.now
          three := p.front.three.onRecord l.three p.now, four := p.front.four.onRecord l.four p.now }
      trackers := x, mgr := m } ∧
    p.mgr.control <+: m.control ∧ m.intake = p.mgr.intake := by
  obtain ⟨x₁, m₁, eq₁, control₁, intake₁, -⟩ := p.writeRecord_frame .t1 l.one
  generalize h₁ : p.writeRecord .t1 l.one = p₁ at eq₁
  obtain ⟨x₂, m₂, eq₂, control₂, intake₂, -⟩ := p₁.writeRecord_frame .t2 l.two
  generalize h₂ : p₁.writeRecord .t2 l.two = p₂ at eq₂
  obtain ⟨x₃, m₃, eq₃, control₃, intake₃, -⟩ := p₂.writeRecord_frame .t3 l.three
  generalize h₃ : p₂.writeRecord .t3 l.three = p₃ at eq₃
  obtain ⟨x₄, m₄, eq₄, control₄, intake₄, -⟩ := p₃.writeRecord_frame .t4 l.four
  have loaded : p.loadRecords l = p₃.writeRecord .t4 l.four := by
    subst h₁ h₂ h₃
    rfl
  rw [loaded, eq₄]
  subst eq₁ eq₂ eq₃
  exact ⟨_, m₄, rfl, ((control₁.trans control₂).trans control₃).trans control₄,
    ((intake₄.trans intake₃).trans intake₂).trans intake₁⟩

theorem slotsDiffer_iff (a b : Quad TrackRecord) :
    slotsDiffer a b = true ↔ ∃ k : Track, (a.get k).slots ≠ (b.get k).slots := by
  have all : ∀ k : Track, k ∈ Track.all := fun k => by cases k <;> decide
  simp only [slotsDiffer, List.any_eq_true, decide_eq_true_eq]
  exact ⟨fun ⟨k, _, h⟩ => ⟨k, h⟩, fun ⟨k, h⟩ => ⟨k, all k, h⟩⟩

/-- R180: a page that fails its check is found INVALID and refused. -/
theorem Part.runCalLoad_badPage {p : Part} (h : p.cal.page.valid = false) (r : CommandRecord) :
    Part.runCalLoad r p = { p.refuse r .badPage with cal := { p.cal with state := .invalid } } := by
  have invalid : ¬ p.cal.page.valid = true := Bool.eq_false_iff.mp h
  rw [← show p.cal.page.state = .invalid from if_neg invalid]
  exact if_neg invalid

/-- R180: a valid page whose slot counts differ while a slot is not FREE is refused. -/
theorem Part.runCalLoad_inUse {p : Part} (h : p.cal.page.valid = true)
    (differ : ∃ k : Track, (p.cal.page.records.get k).slots ≠ (p.record k).slots)
    (used : ∃ (n : Nat) (x : Slot), p.slot n = some x ∧ x.state ≠ .free) (r : CommandRecord) :
    Part.runCalLoad r p = { p.refuse r .inUse with cal := { p.cal with state := .valid p.cal.page.flag } } := by
  rw [← show p.cal.page.state = .valid p.cal.page.flag from if_pos h]
  exact (if_pos h).trans
    (if_pos (Bool.and_eq_true_iff.mpr ⟨(slotsDiffer_iff _ _).mpr differ, p.someSlotUsed_iff.mpr used⟩))

/-- R29: any other valid page is loaded behind the reply. -/
theorem Part.runCalLoad_loads {p : Part} (h : p.cal.page.valid = true)
    (taken : (∀ k : Track, (p.cal.page.records.get k).slots = (p.record k).slots) ∨
      ∀ (n : Nat) (x : Slot), p.slot n = some x → x.state = .free) (r : CommandRecord) :
    Part.runCalLoad r p =
      ({ p.reply r .ok 0 .empty with cal := { p.cal with state := .valid p.cal.page.flag } } : Part).loadRecords
        p.cal.page.records := by
  have allowed : ¬ (slotsDiffer p.cal.page.records p.records && p.someSlotUsed) = true := fun both => by
    obtain ⟨differ, used⟩ := Bool.and_eq_true_iff.mp both
    obtain ⟨k, hk⟩ := (slotsDiffer_iff _ _).mp differ
    obtain ⟨n, x, hx, busy⟩ := p.someSlotUsed_iff.mp used
    exact taken.elim (fun same => hk (same k)) fun free => busy (free n x hx)
  rw [← show p.cal.page.state = .valid p.cal.page.flag from if_pos h]
  exact (if_pos h).trans (if_neg allowed)

/-- Settles O32: the page fails its check, its slot counts may not be taken, or its records are loaded. -/
theorem calLoadReplacesRecords : Obligations.CalLoadReplacesRecords := by
  intro s r rest run p
  refine ⟨fun invalid => run.next (Part.runCalLoad_badPage (p := p.setMgr { p.mgr with intake := rest }) invalid r),
    fun valid differ used => run.next (Part.runCalLoad_inUse (p := p.setMgr { p.mgr with intake := rest }) valid differ used r),
    fun valid taken => ?_⟩
  have loads := Part.runCalLoad_loads (p := p.setMgr { p.mgr with intake := rest }) valid taken r
  obtain ⟨x, m, eq, control, intake⟩ :=
    ({ p.answered r rest .ok 0 .empty with cal := { p.cal with state := .valid p.cal.page.flag } } : Part).loadRecords_frame
      p.cal.page.records
  exact ⟨_, run.next (loads.trans eq), rfl, rfl, fun k => by cases k <;> rfl, rfl, control, intake, rfl, rfl, rfl⟩

end Sys2Proof.Machine
end

