-- ==== Sys2Proof/Proofs/RelitRules.lean ====
section
/-! PROOFS. What the lamp arbiter can change of the part, said once as a relation, and what no operation of the camera
ports and the capture scheduler takes from the control queue. -/

namespace Sys2Proof.Machine

/-! ### What the arbiter changes (07 §7.1) -/

/-- A job without its lamp status. -/
def Job.unlit (j : Job) : Job := { j with lamp := .none }

/-- `q` is the part `p` with another arbiter and other lamp statuses. -/
structure Part.Relit (p q : Part) : Prop where
  rest : q = { p with csc := { p.csc with jobs := q.csc.jobs }, lar := q.lar }
  jobs : q.csc.jobs.map Job.unlit = p.csc.jobs.map Job.unlit

theorem Part.Relit.refl (p : Part) : p.Relit p := ⟨rfl, rfl⟩

theorem Part.Relit.trans {p q r : Part} (h : p.Relit q) (g : q.Relit r) : p.Relit r :=
  ⟨g.rest.trans (by rw [h.rest]), g.jobs.trans h.jobs⟩

theorem Part.setLar_relit (p : Part) (a : Arbiter) : p.Relit (p.setLar a) := ⟨rfl, rfl⟩

theorem Part.setLamp_relit (p : Part) (t : Tag) (st : LampStatus) : p.Relit (p.setLamp t st) := by
  refine ⟨rfl, ?_⟩
  show (p.csc.jobs.map _).map Job.unlit = _
  rw [List.map_map]
  refine List.map_congr_left fun j _ => ?_
  rw [Function.comp_apply]
  split
  · rfl
  · rfl

theorem Part.grant_relit (p : Part) : p.Relit p.grant := by
  rcases p.grant_cases with same | ⟨e, -, -, -, granted⟩
  · rw [same]
    exact .refl p
  · rw [granted]
    exact (p.setLar_relit _).trans (Part.setLamp_relit _ _ _)

theorem Part.lampJobEnd_relit (p : Part) (t : Tag) : p.Relit (p.lampJobEnd t) := by
  unfold Part.lampJobEnd
  split
  · exact .refl p
  · split
    · exact (p.setLar_relit _).trans (Part.grant_relit _)
    · exact p.setLar_relit _
    · exact p.setLar_relit _
    all_goals exact (p.setLar_relit _).trans (Part.grant_relit _)

theorem Part.decideRequest_relit (p : Part) (t : Tag) : p.Relit (p.decideRequest t) := by
  unfold Part.decideRequest
  split
  · exact .refl p
  · dsimp only
    split
    · exact (p.setLar_relit _).trans (Part.setLamp_relit _ _ _)
    · split
      · exact (p.setLar_relit _).trans (Part.setLamp_relit _ _ _)
      · exact ((p.setLar_relit _).trans (Part.setLamp_relit _ _ _)).trans (Part.grant_relit _)

theorem Part.requestTime_relit (p : Part) (t : Tag) : p.Relit (p.requestTime t) := by
  unfold Part.requestTime
  split
  · exact p.decideRequest_relit t
  · exact .refl p

theorem Part.giveTimes_relit (p : Part) (j : Job) : p.Relit (p.giveTimes j) := by
  unfold Part.giveTimes
  split
  · exact .refl p
  · split
    · exact .refl p
    · exact (p.setLar_relit _).trans (Part.requestTime_relit _ _)

theorem Part.Relit.mgr {p q : Part} (h : p.Relit q) : q.mgr = p.mgr := by rw [h.rest]

theorem Part.Relit.ports {p q : Part} (h : p.Relit q) : q.ports = p.ports := by rw [h.rest]

theorem Part.Relit.fsc {p q : Part} (h : p.Relit q) : q.fsc = p.fsc := by rw [h.rest]

theorem Part.Relit.freeSlot {p q : Part} (h : p.Relit q) (k : Track) : q.freeSlot k = p.freeSlot k := by
  rw [h.rest]
  rfl

/-- Each job of the part is the job it was but for its lamp status. -/
theorem Part.Relit.mem {p q : Part} (h : p.Relit q) {x : Job} (hx : x ∈ p.csc.jobs) :
    ∃ lamp : LampStatus, { x with lamp := lamp } ∈ q.csc.jobs := by
  have mem := List.mem_map_of_mem (f := Job.unlit) hx
  rw [← h.jobs] at mem
  obtain ⟨y, hy, same⟩ := List.mem_map.mp mem
  have eq : y = { x with lamp := y.lamp } := by
    have := congrArg (fun z : Job => { z with lamp := y.lamp }) same
    exact this
  exact ⟨y.lamp, eq ▸ hy⟩

theorem Part.Relit.mem_of {p q : Part} (h : p.Relit q) {y : Job} (hy : y ∈ q.csc.jobs) :
    ∃ x ∈ p.csc.jobs, x.unlit = y.unlit := by
  have mem := List.mem_map_of_mem (f := Job.unlit) hy
  rw [h.jobs] at mem
  exact List.mem_map.mp mem

theorem Part.Relit.tags {p q : Part} (h : p.Relit q) : q.csc.jobs.map Job.tag = p.csc.jobs.map Job.tag := by
  have := congrArg (List.map Job.tag) h.jobs
  rwa [List.map_map, List.map_map] at this

theorem Part.Relit.tagsDistinct {p q : Part} (h : p.Relit q) (distinct : p.TagsDistinct) : q.TagsDistinct :=
  ((Part.Keeps.refl p).blocks (r := q) (by rw [h.rest]) (by rw [h.rest]) h.mgr (by rw [h.rest])
    (List.Perm.subperm (.of_eq h.tags)) (fun k => by rw [h.ports]) (by rw [h.fsc])).tags distinct

/-! ### The control queue only grows (R171) -/

/-- The records in the control queue of `p` stand at the front of that of `q`. -/
structure Part.Appends (p q : Part) : Prop where
  control : p.mgr.control <+: q.mgr.control

theorem Part.Appends.of_mgr {p q : Part} (h : q.mgr = p.mgr) : p.Appends q := ⟨by rw [h]⟩

theorem Part.Appends.refl (p : Part) : p.Appends p := .of_mgr rfl

theorem Part.Appends.trans {p q r : Part} (h : p.Appends q) (g : q.Appends r) : p.Appends r :=
  ⟨h.control.trans g.control⟩

/-- A step that leaves the responder alone, before one that appends. -/
theorem Part.Appends.behind {p q r : Part} (g : q.Appends r) (h : q.mgr = p.mgr) : p.Appends r :=
  .trans (.of_mgr h) g

theorem Part.Appends.foldl {α : Type} {f : Part → α → Part} (hf : ∀ q a, Part.Appends q (f q a)) :
    ∀ (l : List α) (p : Part), p.Appends (l.foldl f p)
  | [], p => .refl p
  | a :: l, p => (hf p a).trans (Part.Appends.foldl hf l (f p a))

theorem Part.Relit.appends {p q : Part} (h : p.Relit q) : p.Appends q := .of_mgr h.mgr

theorem Part.notice_appends (p : Part) (n : Notice) : p.Appends (p.notice n) := by
  rcases p.notice_cases n with ⟨-, eq⟩ | ⟨-, eq⟩
  · rw [eq]
    exact ⟨List.prefix_append _ _⟩
  · rw [eq]
    exact ⟨List.prefix_refl _⟩

theorem Part.kickEngine_appends (p : Part) : p.Appends p.kickEngine := .of_mgr p.kickEngine_frame.2.1

theorem Part.writeLine_mgr (p : Part) (k : Track) (l : Line) : (p.writeLine k l).mgr = p.mgr := by
  unfold Part.writeLine
  split
  · rfl
  · dsimp only
    split
    · rfl
    · rfl

theorem Part.flushFifo_appends (p : Part) (k : Track) : p.Appends (p.flushFifo k) :=
  ⟨(Part.Appends.foldl (fun q l => .of_mgr (q.writeLine_mgr k l)) (p.ports.get k).fifo p).control⟩

theorem Part.modPortJob_appends (p : Part) (k : Track) (f : Job → Job) : p.Appends (p.modPortJob k f) := by
  unfold Part.modPortJob
  split
  · exact .of_mgr rfl
  · exact .refl p

theorem Part.finishDrain_appends (p : Part) (k : Track) (kind : DrainEnd) (n : Nat) :
    p.Appends (p.finishDrain k kind n) := by
  unfold Part.finishDrain
  split
  · exact .refl p
  · split
    · exact .refl p
    · dsimp only
      refine ((Part.notice_appends _ _).trans (Part.kickEngine_appends _)).behind ?_
      split
      · rfl
      · rfl

theorem Part.checkDrain_appends (p : Part) (k : Track) : p.Appends (p.checkDrain k) := by
  unfold Part.checkDrain
  split
  · split
    · exact p.finishDrain_appends _ _ _
    · exact .refl p
  · exact .refl p

theorem Part.completeTurn_appends (p : Part) (k : Track) : p.Appends (p.completeTurn k) := by
  unfold Part.completeTurn
  split
  · split
    · unfold Part.finishTurn
      dsimp only
      split
      · exact .of_mgr rfl
      · exact (Part.checkDrain_appends _ _).behind (Part.writeLine_mgr _ _ _)
    · exact .refl p
  · exact .refl p

theorem Part.forceDrain_appends (p : Part) (k : Track) (kind : DrainEnd) : p.Appends (p.forceDrain k kind) := by
  unfold Part.forceDrain
  dsimp only
  split
  · refine (p.completeTurn_appends k).trans ?_
    unfold Part.flushDrain
    dsimp only
    split
    · exact Part.flushFifo_appends _ k
    · exact ((Part.flushFifo_appends _ k).trans (Part.modPortJob_appends _ _ _)).trans (Part.finishDrain_appends _ _ _ _)
  · exact p.completeTurn_appends k

theorem Part.endJob_appends (p : Part) (t : Tag) (reason : EndReason) (cause : CancelCause) :
    p.Appends (p.endJob t reason cause) := by
  rcases p.endJob_cases t reason cause with ⟨-, eq⟩ | ⟨j, -, eq⟩
  · rw [eq]
    exact .refl p
  · rw [eq]
    exact (p.lampJobEnd_relit t).appends.trans ((Part.notice_appends _ _).behind rfl)

theorem Part.openJob_appends (p : Part) (t : Tag) : p.Appends (p.openJob t) := by
  unfold Part.openJob
  split
  · exact .refl p
  · split
    · exact p.endJob_appends _ _ _
    · split
      · dsimp only
        split
        · exact ⟨(p.forceDrain_appends _ _).control⟩
        · exact .of_mgr rfl
      · exact p.endJob_appends _ _ _

theorem Part.settleOne_appends (k : Track) (a : Part × List Tag) (t : Tag) :
    a.1.Appends (Part.settleOne k a t).1 := by
  unfold Part.settleOne
  dsimp only
  split
  · exact .refl _
  · split
    · exact (Part.endJob_appends _ _ _ _).behind rfl
    · exact .of_mgr rfl

theorem Part.settleAll_appends (k : Track) :
    ∀ (l : List Tag) (a : Part × List Tag), a.1.Appends (l.foldl (Part.settleOne k) a).1
  | [], a => .refl a.1
  | t :: l, a => (Part.settleOne_appends k a t).trans (Part.settleAll_appends k l _)

theorem Part.settleOpen_appends (p : Part) (t : Tag) : p.Appends (p.settleOpen t) := by
  unfold Part.settleOpen
  split
  · exact .refl p
  · split
    · exact ((Part.giveTimes_relit _ _).appends.trans (Part.openJob_appends _ _)).behind rfl
    · exact .refl p

theorem Part.passTimes_appends (p : Part) (t : Tag) : p.Appends (p.passTimes t) := by
  unfold Part.passTimes
  split
  · exact .refl p
  · split
    · exact (p.giveTimes_relit _).appends
    · exact .refl p

/-- R101, R102: a re-timing places its notices behind the records that stand in the control queue. -/
theorem Part.retime_appends (p : Part) (k : Track) (test : Job → Bool) : p.Appends (p.retime k test) := by
  unfold Part.retime
  dsimp only
  split
  · exact .refl p
  · unfold Part.settleTrack
    exact ((((Part.Appends.foldl (fun q t => q.endJob_appends t _ _) _ _).trans
      (Part.settleAll_appends k _ (_, []))).trans (Part.Appends.foldl Part.settleOpen_appends _ _)).trans
      (Part.Appends.foldl Part.passTimes_appends _ _)).behind rfl

end Sys2Proof.Machine
end

