-- ==== Sys2Proof/Proofs/RetimeRules.lean ====
section
/-! PROOFS. What TRIM_SET and TRIM_STEP do, and the re-timing of a track whose one WAITING job is named (O28). -/

namespace Sys2Proof.Machine

/-! ### The schedule order (R94) -/

/-- R94: one job stands before another by its start as read against the present, then by its entry. -/
theorem Job.before_iff (now : Time) (a b : Job) : a.before now b = true ↔
    (a.start - now).toInt < (b.start - now).toInt ∨
      ((a.start - now).toInt = (b.start - now).toInt ∧ a.entryOrder < b.entryOrder) := by
  have start : a.start = b.start ↔ (a.start - now).toInt = (b.start - now).toInt := by
    rw [BitVec.toInt_inj, sub_left_inj]
  simp only [Job.before, Bool.or_eq_true, Bool.and_eq_true, decide_eq_true_eq, beq_iff_eq, start]

/-- `a` need not give way to `b` in the schedule. -/
def Job.inOrder (now : Time) (a b : Job) : Prop := b.before now a = false

theorem Job.inOrder_iff {now : Time} {a b : Job} : a.inOrder now b ↔
    (a.start - now).toInt < (b.start - now).toInt ∨
      ((a.start - now).toInt = (b.start - now).toInt ∧ a.entryOrder ≤ b.entryOrder) := by
  rw [Job.inOrder, ← Bool.not_eq_true, Job.before_iff]
  omega

theorem Job.inOrder_trans {now : Time} {a b c : Job} (h : a.inOrder now b) (g : b.inOrder now c) : a.inOrder now c := by
  rw [Job.inOrder_iff] at *
  omega

theorem Job.inOrder_of_before {now : Time} {a b : Job} (h : a.before now b = true) : a.inOrder now b := by
  rw [Job.before_iff] at h
  rw [Job.inOrder_iff]
  omega

/-- A job put at its place keeps a schedule in order. -/
theorem insertJob_pairwise {now : Time} (j : Job) {l : List Job} (h : l.Pairwise (Job.inOrder now)) :
    (insertJob now j l).Pairwise (Job.inOrder now) := by
  induction l with
  | nil => exact List.pairwise_singleton _ _
  | cons x l ih =>
    obtain ⟨first, rest⟩ := List.pairwise_cons.mp h
    unfold insertJob
    split
    · rename_i before
      have lead := Job.inOrder_of_before before
      refine List.pairwise_cons.mpr ⟨fun y hy => ?_, h⟩
      rcases List.mem_cons.mp hy with rfl | hy
      · exact lead
      · exact Job.inOrder_trans lead (first y hy)
    · rename_i behind
      refine List.pairwise_cons.mpr ⟨fun y hy => ?_, ih rest⟩
      rcases mem_insertJob.mp hy with rfl | hy
      · exact Bool.eq_false_iff.mpr behind
      · exact first y hy

/-- R94: a schedule put into order is in order. -/
theorem sortJobs_pairwise (now : Time) (l : List Job) : (sortJobs now l).Pairwise (Job.inOrder now) := by
  induction l with
  | nil => exact .nil
  | cons x l ih => exact insertJob_pairwise x ih

/-- The order of a schedule does not turn on lamp statuses. -/
theorem Part.Relit.pairwise {p q : Part} (h : p.Relit q) {now : Time} (order : p.csc.jobs.Pairwise (Job.inOrder now)) :
    q.csc.jobs.Pairwise (Job.inOrder now) := by
  have unlit : (p.csc.jobs.map Job.unlit).Pairwise (Job.inOrder now) := List.pairwise_map.mpr order
  rw [← h.jobs] at unlit
  exact (List.pairwise_map (f := Job.unlit)).mp unlit

/-! ### A job that has changed (R94) -/

theorem Part.replaceJob_jobs (p : Part) (j : Job) : (p.replaceJob j).csc.jobs =
    sortJobs p.now (p.csc.jobs.map (fun x => if x.tag == j.tag then j else x)) := rfl

theorem Part.mem_replaceJob {p : Part} {j x : Job} (h : x ∈ (p.replaceJob j).csc.jobs) :
    x = j ∨ (x ∈ p.csc.jobs ∧ x.tag ≠ j.tag) := by
  rw [Part.replaceJob_jobs, mem_sortJobs] at h
  obtain ⟨y, hy, rfl⟩ := List.mem_map.mp h
  by_cases ht : y.tag = j.tag
  · exact .inl (if_pos (beq_iff_eq.mpr ht))
  · rw [if_neg (by rwa [beq_iff_eq])]
    exact .inr ⟨hy, ht⟩

theorem Part.mem_replaceJob_self {p : Part} {i j : Job} (hi : i ∈ p.csc.jobs) (ht : i.tag = j.tag) :
    j ∈ (p.replaceJob j).csc.jobs := by
  rw [Part.replaceJob_jobs, mem_sortJobs]
  exact List.mem_map.mpr ⟨i, hi, if_pos (beq_iff_eq.mpr ht)⟩

theorem Part.mem_replaceJob_other {p : Part} {j x : Job} (hx : x ∈ p.csc.jobs) (ht : x.tag ≠ j.tag) :
    x ∈ (p.replaceJob j).csc.jobs := by
  rw [Part.replaceJob_jobs, mem_sortJobs]
  exact List.mem_map.mpr ⟨x, hx, if_neg (by rwa [beq_iff_eq])⟩

/-- Of two changes to one job the second stands. -/
theorem Part.replaceJob_replaceJob_perm (p : Part) {i j : Job} (ht : i.tag = j.tag) :
    ((p.replaceJob i).replaceJob j).csc.jobs.Perm (p.csc.jobs.map (fun x => if x.tag == j.tag then j else x)) := by
  rw [Part.replaceJob_jobs]
  refine (sortJobs_perm _ _).trans (((sortJobs_perm _ _).map _).trans (.of_eq ?_))
  rw [show (p.modJob i.tag fun _ => i).csc.jobs = p.csc.jobs.map (fun x => if x.tag == i.tag then i else x) from rfl,
    List.map_map]
  refine List.map_congr_left fun x _ => ?_
  rw [Function.comp_apply, ht]
  by_cases hx : (x.tag == j.tag) = true
  · rw [if_pos hx, if_pos (by rw [ht]; exact beq_self_eq_true _), if_pos hx]
  · rw [if_neg hx, if_neg hx]

/-! ### The one WAITING job of a track -/

/-- The job `j` stands in the schedule as the one WAITING job of the track `k`. -/
structure Part.Waits (p : Part) (k : Track) (j : Job) : Prop where
  distinct : p.TagsDistinct
  mem      : j ∈ p.csc.jobs
  track    : j.track = k
  waiting  : j.state = .waiting
  alone    : ∀ x ∈ p.csc.jobs, x.track = k → x.tag ≠ j.tag → x.state ≠ .waiting

/-- A test that only the job of one tag meets picks that job. -/
theorem filter_tag {l : List Job} (distinct : (l.map Job.tag).Nodup) {j : Job} (hj : j ∈ l) {test : Job → Bool}
    (meets : test j = true) (only : ∀ x ∈ l, test x = true → x.tag = j.tag) : l.filter test = [j] := by
  refine List.perm_singleton.mp ((List.perm_ext_iff_of_nodup (distinct.of_map.filter _) (List.nodup_singleton j)).mpr ?_)
  intro x
  rw [List.mem_filter, List.mem_singleton]
  constructor
  · rintro ⟨hx, test⟩
    exact List.inj_on_of_nodup_map distinct hx hj (only x hx test)
  · rintro rfl
    exact ⟨hj, meets⟩

theorem Part.waitingTags_nil {p : Part} {k : Track} (h : ∀ x ∈ p.csc.jobs, x.track = k → x.state ≠ .waiting) :
    p.waitingTags k = [] := by
  unfold Part.waitingTags Part.trackJobs
  rw [List.filter_filter, List.map_eq_nil_iff, List.filter_eq_nil_iff]
  intro x hx both
  obtain ⟨waiting, track⟩ := Bool.and_eq_true_iff.mp both
  exact h x hx (beq_iff_eq.mp track) (of_decide_eq_true waiting)

namespace Part.Waits

variable {p q : Part} {k : Track} {j : Job}

theorem job (h : p.Waits k j) : p.job j.tag = some j := Part.job_of_mem h.distinct h.mem

theorem waitingTags (h : p.Waits k j) : p.waitingTags k = [j.tag] := by
  unfold Part.waitingTags Part.trackJobs
  rw [List.filter_filter, filter_tag h.distinct.1 h.mem (by rw [h.waiting, h.track]; simp) fun x hx both => ?_]
  · rfl
  · obtain ⟨waiting, track⟩ := Bool.and_eq_true_iff.mp both
    by_contra other
    exact h.alone x hx (beq_iff_eq.mp track) other (of_decide_eq_true waiting)

/-- The job changed, still WAITING on its track. -/
theorem replaceJob (h : p.Waits k j) {j' : Job} (tag : j'.tag = j.tag) (track : j'.track = j.track)
    (state : j'.state = j.state) : (p.replaceJob j').Waits k j' where
  distinct := (Part.Keeps.replaceJob (.refl p)).tags h.distinct
  mem := Part.mem_replaceJob_self h.mem tag.symm
  track := track.trans h.track
  waiting := state.trans h.waiting
  alone x hx track other := by
    rcases Part.mem_replaceJob hx with rfl | ⟨hx, ht⟩
    · exact absurd rfl other
    · exact h.alone x hx track (tag ▸ ht)

/-- Another lamp status may have been given to the job. -/
theorem relit (h : p.Waits k j) (g : p.Relit q) : ∃ lamp : LampStatus, q.Waits k { j with lamp := lamp } := by
  obtain ⟨lamp, mem⟩ := g.mem h.mem
  refine ⟨lamp, g.tagsDistinct h.distinct, mem, h.track, h.waiting, fun y hy track other => ?_⟩
  obtain ⟨x, hx, same⟩ := g.mem_of hy
  have tags : x.unlit.tag = y.unlit.tag := congrArg Job.tag same
  have tracks : x.unlit.track = y.unlit.track := congrArg Job.track same
  have states : x.unlit.state = y.unlit.state := congrArg Job.state same
  exact states ▸ h.alone x hx (tracks.trans track) (tags ▸ other)

/-! ### The job ends (R110) -/

end Part.Waits

/-- R110: `t` is the part `p` after its job `j` has ended for a reason: the job has left the schedule, the arbiter holds
no entry of it, and where a place is free JOB_ENDED carries the job. -/
structure Part.EndsJob (p t : Part) (j : Job) (reason : EndReason) : Prop where
  gone   : ∀ x ∈ t.csc.jobs, x.tag ≠ j.tag
  entry  : t.lar.entry j.tag = none
  notice : p.freePlace = true → t.mgr = { p.mgr with
    control := p.mgr.control ++ [p.noticeRecord (.jobEnded j p.now reason .none)] }

/-- A job that has changed before it ends is the one that its JOB_ENDED carries. -/
theorem Part.EndsJob.of_replaced {p t : Part} {i j : Job} {reason : EndReason}
    (h : (p.replaceJob i).EndsJob t j reason) : p.EndsJob t j reason := ⟨h.gone, h.entry, h.notice⟩

theorem Part.lampJobEnd_entry (p : Part) (t : Tag) : (p.lampJobEnd t).lar.entry t = none := by
  cases he : p.lar.entry t with
  | none =>
    unfold Part.lampJobEnd
    rw [he]
    exact he
  | some e =>
    have gone := (Part.lampJobEnd_freed he).gone
    rwa [Arbiter.entry_tag he] at gone

namespace Part.Waits

variable {p q : Part} {k : Track} {j : Job}

/-- The one WAITING job of a track ends, and no job of the track waits. -/
theorem endJob (h : p.Waits k j) (reason : EndReason) :
    p.EndsJob (p.endJob j.tag reason .none) j reason ∧ (p.endJob j.tag reason .none).waitingTags k = [] := by
  rcases p.endJob_cases j.tag reason .none with ⟨absent, -⟩ | ⟨i, found, eq⟩
  · exact nomatch absent.symm.trans h.job
  · cases found.symm.trans h.job
    have relit := p.lampJobEnd_relit j.tag
    have frame := ((p.lampJobEnd j.tag).removeJob j.tag).notice_frame (.jobEnded j p.now reason .none)
    obtain ⟨csc, -, -, lar, -⟩ := frame
    have left : ∀ x ∈ (p.endJob j.tag reason .none).csc.jobs, x.tag ≠ j.tag ∧ x ∈ (p.lampJobEnd j.tag).csc.jobs := by
      intro x hx
      rw [eq, csc] at hx
      obtain ⟨hx, ht⟩ := List.mem_filter.mp hx
      exact ⟨bne_iff_ne.mp ht, hx⟩
    refine ⟨⟨fun x hx => (left x hx).1, ?_, fun free => ?_⟩, Part.waitingTags_nil fun x hx track waiting => ?_⟩
    · rw [eq, lar]
      exact p.lampJobEnd_entry j.tag
    · have mgr : ((p.lampJobEnd j.tag).removeJob j.tag).mgr = p.mgr := relit.mgr
      have place : ((p.lampJobEnd j.tag).removeJob j.tag).freePlace = true := by
        unfold Part.freePlace at free ⊢
        rwa [mgr]
      rw [eq]
      rcases Part.notice_cases ((p.lampJobEnd j.tag).removeJob j.tag) (.jobEnded j p.now reason .none) with
        ⟨-, placed⟩ | ⟨full, -⟩
      · rw [placed]
        show ({ ((p.lampJobEnd j.tag).removeJob j.tag).mgr with control := _ } : Responder) = _
        unfold Part.noticeRecord
        rw [mgr]
      · exact nomatch full.symm.trans place
    · obtain ⟨other, hx⟩ := left x hx
      obtain ⟨lamp, waits⟩ := h.relit relit
      exact waits.alone x hx track other waiting

/-! ### The steps of a re-timing (R101, R102) -/

/-- R101: the one job that a re-timing names is computed anew, and the track is settled. -/
theorem retime (h : p.Waits k j) {named : Job → Bool} (hn : named j = true) :
    p.retime k named = (p.replaceJob (p.computeJob j)).settleTrack k [j.tag] := by
  have only : ∀ x ∈ p.csc.jobs, (x.track == k && decide (x.state = .waiting) && named x) = true → x = j := by
    intro x hx test
    obtain ⟨test, -⟩ := Bool.and_eq_true_iff.mp test
    obtain ⟨track, waiting⟩ := Bool.and_eq_true_iff.mp test
    refine List.inj_on_of_nodup_map h.distinct.1 hx h.mem ?_
    by_contra other
    exact h.alone x hx (beq_iff_eq.mp track) other (of_decide_eq_true waiting)
  have meets : (j.track == k && decide (j.state = .waiting) && named j) = true := by
    rw [h.track, h.waiting, hn]
    simp
  have picked := filter_tag h.distinct.1 h.mem meets fun x hx test => congrArg Job.tag (only x hx test)
  have computed : p.csc.jobs.map (fun x =>
      if (x.track == k && decide (x.state = .waiting) && named x) = true then p.computeJob x else x) =
      p.csc.jobs.map (fun x => if x.tag == (p.computeJob j).tag then p.computeJob j else x) := by
    refine List.map_congr_left fun x hx => ?_
    by_cases same : x = j
    · subst same
      exact (if_pos meets).trans (if_pos (beq_self_eq_true x.tag)).symm
    · rw [if_neg (fun test => same (only x hx test)), if_neg fun tag => same ?_]
      exact List.inj_on_of_nodup_map h.distinct.1 hx h.mem (beq_iff_eq.mp tag)
  unfold Part.retime
  dsimp only
  rw [picked, computed]
  rfl

theorem settleLate_passed (h : p.Waits k j) (late : reached p.now j.stop = true) :
    p.settleLate [j.tag] = p.endJob j.tag .tooLate .none := by
  unfold Part.settleLate
  rw [filter_tag h.distinct.1 h.mem (by rw [late]; simp) fun x _ test => ?_]
  · rfl
  · simpa using (Bool.and_eq_true_iff.mp test).1

theorem settleLate_early (h : p.Waits k j) (early : reached p.now j.stop = false) : p.settleLate [j.tag] = p := by
  unfold Part.settleLate
  rw [show p.csc.jobs.filter _ = [] from List.filter_eq_nil_iff.mpr fun x hx test => ?_]
  · rfl
  · obtain ⟨tag, passed⟩ := Bool.and_eq_true_iff.mp test
    have same := List.inj_on_of_nodup_map h.distinct.1 hx h.mem (by simpa using tag)
    rw [same, early] at passed
    exact nomatch passed

end Part.Waits

/-- The jobs of a track but for the job of a tag, in schedule order (R98). -/
def Part.rivals (p : Part) (k : Track) (t : Tag) : List Job := p.csc.jobs.filter (fun o => o.track == k && o.tag != t)

theorem Part.mem_rivals {p : Part} {k : Track} {t : Tag} {x : Job} :
    x ∈ p.rivals k t ↔ x ∈ p.csc.jobs ∧ x.track = k ∧ x.tag ≠ t := by
  simp only [Part.rivals, List.mem_filter, Bool.and_eq_true, beq_iff_eq, bne_iff_ne]

namespace Part.Waits

variable {p : Part} {k : Track} {j j' : Job}

/-- R102, step 2: the one WAITING job is separated from every other job of its track. -/
theorem rivals_eq (h : p.Waits k j) : (p.trackJobs k).filter (fun o =>
    o.tag != j.tag && (decide (o.state ≠ .waiting) || ([] : List Tag).contains o.tag)) = p.rivals k j.tag := by
  unfold Part.trackJobs Part.rivals
  rw [List.filter_filter]
  refine List.filter_congr fun x hx => Bool.eq_iff_iff.mpr ?_
  have alone := h.alone x hx
  simp only [Bool.and_eq_true, Bool.or_eq_true, beq_iff_eq, bne_iff_ne, decide_eq_true_eq, List.contains_nil,
    Bool.false_eq_true, or_false]
  tauto

theorem settleOne_empty (h : p.Waits k j)
    (empty : separate ((p.rivals k j.tag).length + 1) (p.rivals k j.tag) j = .empty j') :
    Part.settleOne k (p, []) j.tag = ((p.replaceJob j').endJob j.tag .overlap .none, []) := by
  unfold Part.settleOne
  dsimp only
  rw [h.job]
  dsimp only
  rw [h.rivals_eq, empty]

theorem settleOne_kept (h : p.Waits k j)
    (kept : separate ((p.rivals k j.tag).length + 1) (p.rivals k j.tag) j = .kept j') :
    Part.settleOne k (p, []) j.tag = (p.replaceJob j', [j.tag]) := by
  unfold Part.settleOne
  dsimp only
  rw [h.job]
  dsimp only
  rw [h.rivals_eq, kept]
  rfl

/-- R102, step 1: a job whose end has passed ends TOO_LATE, and nothing is left to settle. -/
theorem settleTrack_late (h : p.Waits k j) (late : reached p.now j.stop = true) :
    p.EndsJob (p.settleTrack k [j.tag]) j .tooLate := by
  obtain ⟨ended, none_⟩ := h.endJob .tooLate
  have settled : p.settleTrack k [j.tag] = p.endJob j.tag .tooLate .none := by
    unfold Part.settleTrack
    dsimp only
    rw [h.settleLate_passed late]
    simp only [none_, List.foldl_nil]
  rw [settled]
  exact ended

/-- R102, step 2: a job that separation leaves empty ends OVERLAP. -/
theorem settleTrack_empty (h : p.Waits k j) (early : reached p.now j.stop = false)
    (empty : separate ((p.rivals k j.tag).length + 1) (p.rivals k j.tag) j = .empty j')
    (tag : j'.tag = j.tag) (track : j'.track = j.track) (state : j'.state = j.state) :
    p.EndsJob (p.settleTrack k [j.tag]) j' .overlap := by
  obtain ⟨ended, none_⟩ := (h.replaceJob tag track state).endJob .overlap
  have settled : p.settleTrack k [j.tag] = (p.replaceJob j').endJob j'.tag .overlap .none := by
    unfold Part.settleTrack
    dsimp only
    rw [h.settleLate_early early, h.waitingTags, List.foldl_cons, List.foldl_nil, h.settleOne_empty empty, ← tag]
    simp only [none_, List.foldl_nil]
  rw [settled]
  exact ended.of_replaced

/-- R102, step 3: a job that separation leaves is opened if its start has passed; the rest are given their times. -/
theorem settleTrack_kept (h : p.Waits k j) (early : reached p.now j.stop = false)
    (kept : separate ((p.rivals k j.tag).length + 1) (p.rivals k j.tag) j = .kept j')
    (tag : j'.tag = j.tag) (track : j'.track = j.track) (state : j'.state = j.state) :
    p.settleTrack k [j.tag] = (((p.replaceJob j').settleOpen j'.tag).waitingTags k).foldl Part.passTimes
      ((p.replaceJob j').settleOpen j'.tag) := by
  unfold Part.settleTrack
  dsimp only
  rw [h.settleLate_early early, h.waitingTags, List.foldl_cons, List.foldl_nil, h.settleOne_kept kept]
  dsimp only
  rw [(h.replaceJob tag track state).waitingTags, List.foldl_cons, List.foldl_nil]

/-- A job whose start has not passed stays where it is. -/
theorem settleOpen_early (h : p.Waits k j) (early : liesBefore j.start p.now = false) : p.settleOpen j.tag = p := by
  unfold Part.settleOpen
  rw [h.job]
  exact if_neg (Bool.eq_false_iff.mp early)

theorem settleOpen_passed (h : p.Waits k j) (passed : liesBefore j.start p.now = true) : p.settleOpen j.tag =
    ((p.replaceJob (j.openLate p.now)).giveTimes (j.openLate p.now)).openJob j.tag := by
  unfold Part.settleOpen
  rw [h.job]
  exact if_pos passed

theorem passTimes (h : p.Waits k j) : p.passTimes j.tag = p.giveTimes j := by
  unfold Part.passTimes
  rw [h.job]
  exact if_pos h.waiting

/-! ### Opening (R104, R105) -/

/-- R104, R105: a WAITING job opens on an idle port that is UP with a FREE slot of its region. -/
theorem openJob (h : p.Waits k j) {n : Nat} (free : p.freeSlot k = some n) (up : (p.ports.get k).up = true)
    (idle : (p.ports.get k).activity = .idle) : p.openJob j.tag =
      ((p.claimSlot n j.tag).startPort k j.tag n j.linePeriod).modJob j.tag
        (fun x => { x with state := .opened, slot := some n }) := by
  unfold Part.openJob
  rw [h.job]
  dsimp only
  rw [h.track, free]
  dsimp only
  rw [if_pos up, if_neg (by rw [idle]; decide)]

/-- The job is OPEN in its slot on its port, and no job of the track waits. -/
theorem openJob_opened (h : p.Waits k j) {n : Nat} (free : p.freeSlot k = some n) (up : (p.ports.get k).up = true)
    (idle : (p.ports.get k).activity = .idle) :
    (p.openJob j.tag).job j.tag = some { j with state := .opened, slot := some n } ∧
    (p.openJob j.tag).ports = p.ports.set k { p.ports.get k with
      activity := .triggering, job := some { tag := j.tag, slot := n }, expected := none
      generator := some { load := BitVec.ofNat 16 (j.linePeriod - 1), count := 0 } } ∧
    (p.openJob j.tag).slot n = some { state := .filling, tag := j.tag, lines := [], header := none } ∧
    (p.openJob j.tag).mgr = p.mgr ∧ (p.openJob j.tag).waitingTags k = [] := by
  obtain ⟨-, lowest, -⟩ := freeSlotIsLowestOfRegion p k
  obtain ⟨-, ⟨x, hx, -⟩, -⟩ := lowest n free
  rw [h.openJob free up idle]
  refine ⟨?_, rfl, ?_, rfl, Part.waitingTags_nil fun y hy track => ?_⟩
  · refine (find_mapped j.tag (fun x => { x with state := .opened, slot := some n }) (fun _ => rfl) p.csc.jobs).trans ?_
    rw [show p.csc.jobs.find? (fun y => y.tag == j.tag) = some j from h.job]
    rfl
  · exact (p.slot_setSlot n n _).trans (if_pos ⟨rfl, Part.slot_lt hx⟩)
  · obtain ⟨z, hz, rfl⟩ := List.mem_map.mp hy
    by_cases ht : z.tag = j.tag
    · rw [if_pos (beq_iff_eq.mpr ht)]
      exact nofun
    · rw [if_neg (by rwa [beq_iff_eq])] at track ⊢
      exact h.alone z hz track ht

end Part.Waits

/-! ### The lamp entry of a job with new times (R119) -/

theorem Arbiter.entry_modEntry (a : Arbiter) (t : Tag) {f : LampEntry → LampEntry} (hf : ∀ e, (f e).tag = e.tag) :
    (a.modEntry t f).entry t = (a.entry t).map f := by
  unfold Arbiter.entry Arbiter.modEntry
  induction a.entries with
  | nil => rfl
  | cons e l ih =>
    rw [List.map_cons, List.find?_cons, List.find?_cons]
    cases h : (e.tag == t)
    · simp only [Bool.false_eq_true, if_false, h, ih]
    · simp only [if_true, hf, h, Option.map_some]

/-- R119: an entry whose new request time has not come takes the new times and stays. -/
theorem Part.giveTimes_entry {p : Part} {j : Job} {e : LampEntry} (he : p.lar.entry j.tag = some e)
    (ahead : reached p.now j.lampRequest = false) :
    (p.giveTimes j).lar.entry j.tag = some { e with start := j.start, stop := j.stop, request := j.lampRequest } := by
  unfold Part.giveTimes
  rw [he]
  dsimp only
  split
  · rename_i same
    obtain ⟨start, stop, request⟩ := same
    rw [he, ← start, ← stop, ← request]
  · generalize hq : p.setLar (p.lar.modEntry j.tag fun e =>
      { e with start := j.start, stop := j.stop, request := j.lampRequest }) = q
    have entry : q.lar.entry j.tag = some { e with start := j.start, stop := j.stop, request := j.lampRequest } := by
      rw [← hq]
      refine (Arbiter.entry_modEntry p.lar j.tag
        (f := fun e => { e with start := j.start, stop := j.stop, request := j.lampRequest }) fun _ => rfl).trans ?_
      rw [he]
      rfl
    have pending : ¬ q.requestDue j.tag = true := by
      have now : q.now = p.now := by rw [← hq]; rfl
      unfold Part.requestDue
      rw [entry]
      dsimp only
      rw [now, ahead, Bool.and_false]
      decide
    unfold Part.requestTime
    rw [if_neg pending]
    exact entry

/-! ### Separation from one job (R98) -/

theorem separate_free {n : Nat} {others : List Job} {j : Job} (h : ∀ o ∈ others, j.overlaps o = false) :
    separate (n + 1) others j = .kept j := by
  rcases separate_succ n others j with ⟨-, kept⟩ | ⟨o, found, -⟩
  · exact kept
  · have := List.find?_some found
    rw [h o (List.mem_of_find?_eq_some found)] at this
    exact nomatch this

/-- A window that starts behind a job's end does not overlap it. -/
theorem overlaps_behind {j o : Job} (h : j.start = o.stop + usTime 1) : j.overlaps o = false := by
  have behind : atOrBefore j.start o.stop = false := by
    rw [h]
    unfold atOrBefore liesBefore liesAfter usTime
    rw [Bool.or_eq_false_iff, beq_eq_false_iff_ne, Bool.and_eq_false_iff, decide_eq_false_iff_not,
      decide_eq_false_iff_not]
    constructor
    · bv_omega
    · right
      bv_omega
  unfold Job.overlaps
  rw [behind, Bool.false_and]

/-- R98: a window that overlaps the one other job moves behind it, once, or is left empty. -/
theorem separate_one {j o : Job} (h : j.overlaps o = true) :
    (atOrBefore j.stop (o.stop + usTime 1) = true → separate 2 [o] j = .empty { j with
      start := o.stop + usTime 1, lampRequest := lampRequestTime (o.stop + usTime 1)
      flags := { j.flags with clipped := true } }) ∧
    (atOrBefore j.stop (o.stop + usTime 1) = false → separate 2 [o] j = .kept { j.moveStart (o.stop + usTime 1) with
      flags := { j.flags with clipped := true } }) := by
  rcases separate_succ 1 [o] j with ⟨apart, -⟩ | ⟨o', found, moves⟩
  · exact nomatch (apart o (List.mem_singleton_self o)).symm.trans h
  · cases List.mem_singleton.mp (List.mem_of_find?_eq_some found)
    rcases j.clip_cases (o.stop + usTime 1) with ⟨empty, clipped⟩ | ⟨left, clipped⟩
    · refine ⟨fun _ => ?_, fun full => nomatch empty.symm.trans full⟩
      rcases moves with ⟨j', clip, emptied⟩ | ⟨j', clip, -⟩
      · cases clipped.symm.trans clip
        exact emptied
      · exact nomatch clipped.symm.trans clip
    · refine ⟨fun none_ => (nomatch left.symm.trans none_), fun _ => ?_⟩
      rcases moves with ⟨j', clip, -⟩ | ⟨j', clip, kept⟩
      · exact nomatch clipped.symm.trans clip
      · cases clipped.symm.trans clip
        refine kept.trans (separate_free (n := 0) fun x hx => ?_)
        rw [List.mem_singleton.mp hx]
        exact overlaps_behind rfl

/-! ### The outcomes of a re-timing (R101, R102) -/

/-- `t` is the part `p` with the job `j` in the place of the job of its tag: the schedule is in order, and where the new
request time has not come the lamp entry of the job holds the new times; nothing else changes but for what the arbiter
goes on to do. -/
structure Part.Reschedules (p t : Part) (j : Job) : Prop where
  jobs  : (t.csc.jobs.map Job.unlit).Perm ((p.csc.jobs.map (fun x => if x.tag == j.tag then j else x)).map Job.unlit)
  order : t.csc.jobs.Pairwise (Job.inOrder p.now)
  mgr   : t.mgr = p.mgr
  ports : t.ports = p.ports
  fsc   : t.fsc = p.fsc
  entry : ∀ e : LampEntry, p.lar.entry j.tag = some e → reached p.now j.lampRequest = false →
    t.lar.entry j.tag = some { e with start := j.start, stop := j.stop, request := j.lampRequest }

theorem Part.giveTimes_reschedules (p : Part) {i j : Job} (ht : i.tag = j.tag) :
    p.Reschedules (((p.replaceJob i).replaceJob j).giveTimes j) j :=
  have relit := ((p.replaceJob i).replaceJob j).giveTimes_relit j
  { jobs := (List.Perm.of_eq relit.jobs).trans ((p.replaceJob_replaceJob_perm ht).map _)
    order := relit.pairwise (sortJobs_pairwise p.now _)
    mgr := relit.mgr
    ports := relit.ports
    fsc := relit.fsc
    entry := fun _ he ahead => Part.giveTimes_entry (p := (p.replaceJob i).replaceJob j) he ahead }

namespace Part.Waits

variable {p : Part} {k : Track} {j j' : Job}

theorem settleTrack_stands (h : p.Waits k j) (early : reached p.now j.stop = false)
    (kept : separate ((p.rivals k j.tag).length + 1) (p.rivals k j.tag) j = .kept j')
    (tag : j'.tag = j.tag) (track : j'.track = j.track) (state : j'.state = j.state)
    (ahead : liesBefore j'.start p.now = false) : p.settleTrack k [j.tag] = (p.replaceJob j').giveTimes j' := by
  have waits := h.replaceJob tag track state
  rw [h.settleTrack_kept early kept tag track state, waits.settleOpen_early ahead, waits.waitingTags, List.foldl_cons,
    List.foldl_nil, waits.passTimes]

/-- R102, step 3: the job opens late, with the lamp status that its request has given it. -/
theorem settleTrack_opens (h : p.Waits k j) (early : reached p.now j.stop = false)
    (kept : separate ((p.rivals k j.tag).length + 1) (p.rivals k j.tag) j = .kept j')
    (tag : j'.tag = j.tag) (track : j'.track = j.track) (state : j'.state = j.state)
    (passed : liesBefore j'.start p.now = true) {n : Nat} (free : p.freeSlot k = some n)
    (up : (p.ports.get k).up = true) (idle : (p.ports.get k).activity = .idle) :
    ∃ lamp : LampStatus, (p.settleTrack k [j.tag]).job j.tag = some { j'.openLate p.now with
        state := .opened, slot := some n, lamp := lamp } ∧
      (p.settleTrack k [j.tag]).ports = p.ports.set k { p.ports.get k with
        activity := .triggering, job := some { tag := j.tag, slot := n }, expected := none
        generator := some { load := BitVec.ofNat 16 (j'.linePeriod - 1), count := 0 } } ∧
      (p.settleTrack k [j.tag]).slot n = some { state := .filling, tag := j.tag, lines := [], header := none } ∧
      (p.settleTrack k [j.tag]).mgr = p.mgr := by
  have waits := h.replaceJob tag track state
  have late := waits.replaceJob (j' := j'.openLate p.now) rfl rfl rfl
  have relit := ((p.replaceJob j').replaceJob (j'.openLate p.now)).giveTimes_relit (j'.openLate p.now)
  obtain ⟨lamp, lit⟩ := late.relit relit
  obtain ⟨job, ports, slot, mgr, none_⟩ := lit.openJob_opened ((relit.freeSlot k).trans free)
    (by rw [relit.ports]; exact up) (by rw [relit.ports]; exact idle)
  have settled : p.settleTrack k [j.tag] = (((p.replaceJob j').replaceJob (j'.openLate p.now)).giveTimes
      (j'.openLate p.now)).openJob j'.tag := by
    rw [h.settleTrack_kept early kept tag track state, waits.settleOpen_passed passed]
    exact congrArg (fun l => List.foldl Part.passTimes _ l) none_
  rw [settled, ← tag]
  exact ⟨lamp, job, ports.trans (by rw [relit.ports]; rfl), slot, mgr.trans relit.mgr⟩

/-- Jobs of the track that the window does not overlap do not move it. -/
theorem rivals_free (h : ∀ x ∈ p.csc.jobs, x.track = k → x.tag ≠ j.tag → j.overlaps x = false) :
    separate (((p.replaceJob j).rivals k j.tag).length + 1) ((p.replaceJob j).rivals k j.tag) j = .kept j :=
  separate_free fun o ho => by
    obtain ⟨mem, track, tag⟩ := Part.mem_rivals.mp ho
    rcases Part.mem_replaceJob mem with rfl | ⟨mem, -⟩
    · exact absurd rfl tag
    · exact h o mem track tag

/-- The one other job of the track is the one rival. -/
theorem rivals_one (h : (p.replaceJob j).Waits k j) {o : Job} (ho : o ∈ p.csc.jobs) (track : o.track = k)
    (tag : o.tag ≠ j.tag) (only : ∀ x ∈ p.csc.jobs, x.track = k → x.tag = j.tag ∨ x.tag = o.tag) :
    (p.replaceJob j).rivals k j.tag = [o] := by
  refine filter_tag h.distinct.1 (Part.mem_replaceJob_other ho tag) (by simp [track, tag]) fun x hx test => ?_
  obtain ⟨at_, other⟩ := Bool.and_eq_true_iff.mp test
  rcases Part.mem_replaceJob hx with rfl | ⟨hx, -⟩
  · exact absurd rfl (bne_iff_ne.mp other)
  · exact (only x hx (beq_iff_eq.mp at_)).resolve_left (bne_iff_ne.mp other)

theorem separate_rivals (h : (p.replaceJob j).Waits k j) {o : Job} (ho : o ∈ p.csc.jobs) (track : o.track = k)
    (tag : o.tag ≠ j.tag) (only : ∀ x ∈ p.csc.jobs, x.track = k → x.tag = j.tag ∨ x.tag = o.tag) :
    separate (((p.replaceJob j).rivals k j.tag).length + 1) ((p.replaceJob j).rivals k j.tag) j =
      separate 2 [o] j := by
  rw [h.rivals_one ho track tag only]
  rfl

end Part.Waits

/-- R101: a re-timing that names no WAITING job of its track changes nothing. -/
theorem Part.retime_unnamed {p : Part} {k : Track} {named : Job → Bool}
    (h : ∀ j ∈ p.csc.jobs, j.track = k → j.state = .waiting → named j = false) : p.retime k named = p := by
  have picked : p.csc.jobs.filter (fun j => j.track == k && decide (j.state = .waiting) && named j) = [] := by
    refine List.filter_eq_nil_iff.mpr fun x hx test => ?_
    obtain ⟨test, name⟩ := Bool.and_eq_true_iff.mp test
    obtain ⟨track, waiting⟩ := Bool.and_eq_true_iff.mp test
    exact nomatch (h x hx (beq_iff_eq.mp track) (of_decide_eq_true waiting)).symm.trans name
  unfold Part.retime
  dsimp only
  rw [picked]
  rfl

/-! ### TRIM_SET and TRIM_STEP (R27) -/

/-- R27: the part after a trim has been put into a record and the reply placed, before any re-timing. -/
def Part.trimmed (p : Part) (r : CommandRecord) (rest : List CommandRecord) (k : Track) (x : Int) : Part :=
  { p.answered r rest .ok 0 (.trim x) with records := p.records.set k { p.record k with trim := x } }

/-- R27, R101: a trim is put into its record; in ON_LINE a change re-times the track. -/
theorem Part.setTrim_cases (p : Part) (r : CommandRecord) (rest : List CommandRecord) (k : Track) (x : Int) :
    (p.mode ≠ .onLine ∨ x = (p.record k).trim →
      (p.setMgr { p.mgr with intake := rest }).setTrim r k x = p.trimmed r rest k x) ∧
    (p.mode = .onLine → x ≠ (p.record k).trim →
      (p.setMgr { p.mgr with intake := rest }).setTrim r k x = (p.trimmed r rest k x).retime k (fun _ => true)) :=
  ⟨fun same => if_neg fun ⟨on, change⟩ => same.elim (fun off => off on) change,
    fun on change => if_pos ⟨on, change⟩⟩

/-- What a command leaves whose run sets a trim. -/
theorem Part.Runs.setsTrim {s : State} {c : Command} {r : CommandRecord} {rest : List CommandRecord}
    {run : CommandRecord → Part → Part} {k : Track} {x : Int} (h : s.part.Runs c r rest)
    (ran : run r (s.part.setMgr { s.part.mgr with intake := rest }) =
      (s.part.setMgr { s.part.mgr with intake := rest }).setTrim r k x) :
    (s.part.mode ≠ .onLine ∨ x = (s.part.record k).trim →
      s.onPart (fun p => p.runsCommand c run) = .next (s.withPart (s.part.trimmed r rest k x))) ∧
    (s.part.mode = .onLine → x ≠ (s.part.record k).trim →
      s.onPart (fun p => p.runsCommand c run) =
        .next (s.withPart ((s.part.trimmed r rest k x).retime k (fun _ => true)))) ∧
    ∃ t : State, s.onPart (fun p => p.runsCommand c run) = .next t ∧
      t.part.records = (s.part.trimmed r rest k x).records ∧
      (s.part.mgr.control ++ [r.answer .ok 0 (.trim x)]) <+: t.part.mgr.control ∧ t.part.mgr.intake = rest ∧
      t.part.front = s.part.front ∧ t.part.trackers = s.part.trackers ∧ t.part.types = s.part.types ∧
      t.part.cal = s.part.cal := by
  obtain ⟨same, change⟩ := s.part.setTrim_cases r rest k x
  refine ⟨fun hs => h.next (ran.trans (same hs)), fun on hx => h.next (ran.trans (change on hx)), ?_⟩
  by_cases hs : s.part.mode ≠ .onLine ∨ x = (s.part.record k).trim
  · exact ⟨_, h.next (ran.trans (same hs)), rfl, List.prefix_refl _, rfl, rfl, rfl, rfl, rfl⟩
  · obtain ⟨on, hx⟩ := not_or.mp hs
    have kept := (s.part.trimmed r rest k x).retime_kept k (fun _ => true)
    have tracks := (s.part.trimmed r rest k x).retime_tracks k (fun _ => true)
    exact ⟨_, h.next (ran.trans (change (not_not.mp on) hx)), kept.records,
      ((s.part.trimmed r rest k x).retime_appends k _).control, kept.intake, tracks.front, tracks.trackers, kept.types,
      kept.cal⟩

theorem Part.runTrimSet_sets {p : Part} {r : CommandRecord} {k : Track} (hk : r.byteAt 0 = k.number)
    (lo : -64 ≤ signedByte (r.byteAt 1)) (hi : signedByte (r.byteAt 1) ≤ 63) :
    Part.runTrimSet r p = p.setTrim r k (signedByte (r.byteAt 1)) := by
  simp only [Part.runTrimSet, hk, Track.ofNumber_number]
  exact if_pos ⟨lo, hi⟩

theorem Part.runTrimStep_sets {p : Part} {r : CommandRecord} {k : Track} (hk : r.byteAt 0 = k.number)
    (step : signedByte (r.byteAt 1) = 1 ∨ signedByte (r.byteAt 1) = -1) :
    Part.runTrimStep r p = p.setTrim r k (steppedTrim (p.record k).trim (signedByte (r.byteAt 1))) := by
  simp only [Part.runTrimStep, hk, Track.ofNumber_number]
  exact if_pos step

/-- Settles O28: the commands from `setTrim_cases`, the re-timing from the outcomes of `settleTrack`. -/
theorem trimCommandsSetTrim : Obligations.TrimCommandsSetTrim := by
  refine ⟨fun s r rest k => ?_, fun p k named => ⟨Part.retime_unnamed, fun j distinct found track waiting hn alone => ?_⟩⟩
  · have run {c : Command} (h : s.part.Takes c r rest) (mode : ∀ m, c.takenIn m = true)
        (free : r.keptByWrite c = false) := h.runs mode free
    refine ⟨fun outside => ⟨fun h => (run h (fun _ => rfl) rfl).next ?_, fun h => (run h (fun _ => rfl) rfl).next ?_⟩,
      fun hk => ⟨fun h lo hi => (run h (fun _ => rfl) rfl).setsTrim (Part.runTrimSet_sets hk lo hi),
        fun h beyond => (run h (fun _ => rfl) rfl).next ?_,
        fun h one => (run h (fun _ => rfl) rfl).setsTrim ((Part.runTrimStep_sets hk (.inl one)).trans ?_),
        fun h one => (run h (fun _ => rfl) rfl).setsTrim ((Part.runTrimStep_sets hk (.inr one)).trans ?_),
        fun h up down => (run h (fun _ => rfl) rfl).next ?_⟩⟩
    · simp only [Part.runTrimSet, Track.ofNumber_none outside]
      rfl
    · simp only [Part.runTrimStep, Track.ofNumber_none outside]
      rfl
    · simp only [Part.runTrimSet, hk, Track.ofNumber_number]
      exact if_neg fun ⟨lo, hi⟩ => beyond.elim (fun h => absurd lo (not_le.mpr h)) fun h => absurd hi (not_le.mpr h)
    · rw [show signedByte (r.byteAt 1) = 1 from one]
      have stepped : steppedTrim (s.part.record k).trim 1 =
          if (s.part.record k).trim = 63 then 63 else (s.part.record k).trim + 1 := by
        unfold steppedTrim
        rw [if_pos rfl]
        split
        · assumption
        · rfl
      exact congrArg _ stepped
    · rw [show signedByte (r.byteAt 1) = -1 from one]
      have stepped : steppedTrim (s.part.record k).trim (-1) =
          if (s.part.record k).trim = -64 then -64 else (s.part.record k).trim - 1 := by
        unfold steppedTrim
        rw [if_neg (by decide)]
        split
        · assumption
        · rfl
      exact congrArg _ stepped
    · simp only [Part.runTrimStep, hk, Track.ofNumber_number]
      exact if_neg fun step => step.elim up down
  · intro t m unlit ends stands moved
    have waits : p.Waits k j := ⟨distinct, (Part.job_some found).2, track, waiting, alone⟩
    have computed : (p.replaceJob m).Waits k m := waits.replaceJob rfl rfl rfl
    have settled : t = (p.replaceJob m).settleTrack k [m.tag] := waits.retime hn
    have ended {m' : Job} {reason : EndReason} (e : p.EndsJob t m' reason) (tag : m'.tag = j.tag) : ends m' reason :=
      ⟨tag ▸ e.gone, tag ▸ e.entry, e.notice⟩
    have standing {m' : Job} (e : p.Reschedules t m') (tag : m'.tag = j.tag) : stands m' :=
      ⟨tag ▸ e.jobs, e.order, e.mgr, e.ports, e.fsc, fun x hx _ ahead => tag ▸ e.entry x (tag ▸ hx) ahead⟩
    refine ⟨fun late => ended ?_ rfl, fun early => ⟨fun free => ⟨fun ahead => standing ?_ rfl,
      fun n passed slot up idle => ?_⟩, fun o ho otrack otag overlap only => ⟨fun empty => ended ?_ rfl,
      fun left ahead => standing ?_ rfl⟩⟩⟩
    · rw [settled]
      exact (computed.settleTrack_late late).of_replaced
    · rw [settled, computed.settleTrack_stands early (Part.Waits.rivals_free free) rfl rfl rfl ahead]
      exact p.giveTimes_reschedules rfl
    · rw [settled]
      exact computed.settleTrack_opens early (Part.Waits.rivals_free free) rfl rfl rfl passed slot up idle
    · have separated := (computed.separate_rivals ho otrack otag only).trans ((separate_one overlap).1 empty)
      rw [settled]
      exact (computed.settleTrack_empty early separated rfl rfl rfl).of_replaced
    · have separated := (computed.separate_rivals ho otrack otag only).trans ((separate_one overlap).2 left)
      rw [settled, computed.settleTrack_stands early separated rfl rfl rfl ahead]
      exact p.giveTimes_reschedules rfl

end Sys2Proof.Machine
end

