-- ==== Sys2Proof/Proofs/PaceRules.lean ====
section
/-! PROOFS. The axle pace with its clamps and the filter of the pace (O12). -/

namespace Sys2Proof.Machine

/-! ### The axle pace (R80) -/

/-- R80: the clamps of the axle pace, by where the rounded quotient lies. -/
theorem axlePace_cases (transit spacing : Nat) :
    let a := roundDiv (transit * 256) spacing
    (a ≤ 2304 ∧ axlePace transit spacing = { pace := 2304, fast := true, slow := false }) ∨
    (184320 ≤ a ∧ axlePace transit spacing = { pace := 184320, fast := false, slow := true }) ∨
    (2304 < a ∧ a < 184320 ∧ axlePace transit spacing = { pace := a, fast := false, slow := false }) := by
  intro a
  unfold axlePace minPace maxPace
  dsimp only
  split
  · exact .inl ⟨‹_›, rfl⟩
  · split
    · exact .inr (.inl ⟨‹_›, rfl⟩)
    · exact .inr (.inr ⟨by omega, by omega, rfl⟩)

/-- R6, R80: at the transit ceiling of 720 µs for each millimetre of spacing the quotient meets the SLOW limit. -/
theorem roundDiv_le_maxPace {transit spacing : Nat} (positive : 0 < spacing) (ceiling : transit ≤ spacing * 720) :
    roundDiv (transit * 256) spacing ≤ 184320 := by
  unfold roundDiv
  refine Nat.le_of_lt_succ ((Nat.div_lt_iff_lt_mul (by omega)).mpr ?_)
  omega

/-! ### The filter (R47) -/

/-- R47: toward a greater axle pace the pace rises by a quarter of the difference, rounded down. -/
theorem filterPace_up {pace a : Nat} (h : pace ≤ a) : filterPace (some pace) a = pace + (a - pace) / 4 := by
  unfold filterPace
  dsimp only
  rw [Int.tdiv_eq_ediv_of_nonneg (by omega)]
  omega

/-- R47: toward a smaller axle pace the pace falls by a quarter of the difference, rounded down. -/
theorem filterPace_down {pace a : Nat} (h : a ≤ pace) : filterPace (some pace) a = pace - (pace - a) / 4 := by
  have mirrored : Int.tdiv ((a : Int) - pace) 4 = -(((pace : Int) - a) / 4) := by
    rw [← Int.tdiv_eq_ediv_of_nonneg (by omega), ← Int.neg_tdiv, neg_sub]
  unfold filterPace
  dsimp only
  rw [mirrored]
  omega

/-- Settles O12: the three cases of the clamp, and the filter from below and from above. -/
theorem axleAndFilteredPace : Obligations.AxleAndFilteredPace := by
  refine ⟨fun transit spacing positive => ?_, fun pace a => ?_⟩
  · have ceiling := roundDiv_le_maxPace (transit := transit) positive
    rcases axlePace_cases transit spacing with ⟨fast, eq⟩ | ⟨slow, eq⟩ | ⟨above, below, eq⟩
    · rw [eq]
      exact ⟨by decide, by decide, by simpa using fast, by simp; omega, by omega, fun _ => rfl, nofun, ceiling⟩
    · rw [eq]
      exact ⟨by decide, by decide, by simp; omega, by simpa using slow, by omega, nofun, fun _ => rfl, ceiling⟩
    · rw [eq]
      exact ⟨by simp only; omega, by simp only; omega, by simp; omega, by simp; omega, fun _ _ => rfl, nofun, nofun,
        ceiling⟩
  · unfold natDist
    rcases Nat.le_total pace a with h | h
    · rw [filterPace_up h]
      exact ⟨by omega, by omega, by omega, rfl⟩
    · rw [filterPace_down h]
      exact ⟨by omega, by omega, by omega, rfl⟩

end Sys2Proof.Machine
end

