-- ==== Sys2Proof/Proofs/StandbyRules.lean ====
section
/-! PROOFS. A change from ON_LINE to STANDBY at a bank whose job stands in a deferral list (O21). -/

namespace Sys2Proof.Machine

/-! ### A job in service whose entry stands in a deferral list -/

/-- The MODE_SET to STANDBY of a recorder. -/
def toStandby : CommandRecord := { source := 2, code := 0x04, token := 7, args := [2], framed := true }

/-- A WAITING job of track 1. -/
def waitingJob (tag : Tag) : Job :=
  { Job.ofSighting .t1 0
      { vehicle := 1, index := 0, pantograph := 0, mark := .forward, reference := 0, distance := 0 } with
    tag := tag }

/-- The lamp entry of a job of track 1. -/
def lampEntryOf (tag : Tag) (phase : LampPhase) : LampEntry :=
  { tag := tag, track := .t1, start := 0, stop := 0, request := 0, phase := phase }

/-- An arbiter that serves job 2 while its tag stands deferred behind the request of job 1. -/
def servesDeferred : Arbiter :=
  { Arbiter.reset false with
    entries := [lampEntryOf 1 .requested, lampEntryOf 2 .serving]
    pendingSet := (Quad.all none).set .t1 (some 1)
    deferral := (Quad.all []).set .t1 [2]
    bank := .inService 2 .t1 0 }

/-- A part in ON_LINE with two jobs that wait, the lamp bank as `servesDeferred` has it, and a MODE_SET to STANDBY. -/
def servingDeferred : Part :=
  { Part.reset with
    records := .all { TrackRecord.unset with enabled := true }
    csc := { jobs := [waitingJob 1, waitingJob 2], tagCounter := 2, nextEntry := 2 }
    lar := servesDeferred
    mgr := { Responder.reset 1 true with mode := .onLine, intake := [toStandby] } }

/-- R121, R125: the end of job 1 promotes the entry of job 2 out of service, so that the end of job 2 withdraws a
request and leaves the bank as it was. -/
theorem servingDeferred_bank :
    (Part.runModeSet [] toStandby (servingDeferred.setMgr { servingDeferred.mgr with intake := [] })).lar.bank =
      .inService 2 .t1 0 := by decide

/-- Refutes O21: the bank of `servingDeferred`, whose track has no recovery time, is not IDLE after the end of the job
that it served. The clause on the bank, other than that on the entries, asks nothing of the deferral lists. -/
theorem not_modeSetAnswers : ¬ Obligations.ModeSetAnswers := by
  intro ⟨_, changes⟩
  have runs : servingDeferred.Runs .modeSet toStandby [] := ⟨⟨rfl, by decide, by decide⟩, by decide, by decide⟩
  obtain ⟨_, standby⟩ :=
    changes { part := servingDeferred, pending := [] } toStandby [] [] .standby .t1 runs (by decide) (by decide)
  obtain ⟨t, answer, -, -, -, -, -, -, -, -, ⟨-, -, -, -, bank⟩, -⟩ := standby rfl rfl
  have idle := bank (waitingJob 2) (by decide) (lampEntryOf 2 .serving) (by decide) rfl (by decide)
  have next := runs.next (s := { part := servingDeferred, pending := [] }) (run := Part.runModeSet []) rfl
  cases answer.symm.trans next
  exact absurd (servingDeferred_bank.symm.trans idle) (by decide)

end Sys2Proof.Machine
end

