-- ==== Sys2Proof/Proofs/CloseRules.lean ====
section
/-! PROOFS. The end of a handling, and the closes of a passage (O49). -/

namespace Sys2Proof.Machine

/-! ### The handling of a track, and its coupling timer -/

/-- A close leaves the handling of the track. -/
theorem Part.closePassage_handling (p : Part) (k : Track) (reason : CloseReason) :
    ((p.closePassage k reason).trackers.get k).handling = (p.trackers.get k).handling := by
  have closed := p.closePassage_spec k reason
  unfold Part.ClosedAs at closed
  split at closed
  · rw [closed]
  · obtain ⟨final, -, eq⟩ := closed
    rw [eq, Quad.get_set_self]

/-- R35: what waited for the end of a handling begins none. -/
theorem Part.takeDeferred_handling (k : Track) (p : Part) (d : Deferred) :
    ((Part.takeDeferred k p d).trackers.get k).handling = (p.trackers.get k).handling := by
  cases d with
  | report occupied =>
    show ((p.takeReport k occupied).trackers.get k).handling = _
    unfold Part.takeReport
    split
    · exact p.closePassage_handling k _
    · rfl
  | toService => exact p.closePassage_handling k _
  | reset =>
    show ((p.setPassage k _).trackers.get k).handling = _
    rw [Part.setPassage, Part.setTracker_trackers, Quad.get_set_self]

theorem Part.takeAllDeferred_handling (k : Track) : ∀ (l : List Deferred) (p : Part),
    ((l.foldl (Part.takeDeferred k) p).trackers.get k).handling = (p.trackers.get k).handling
  | [], _ => rfl
  | d :: l, p => (Part.takeAllDeferred_handling k l _).trans (p.takeDeferred_handling k d)

/-- R69: outside a handling the expiry at the end of one is the expiry of the timer. -/
theorem Part.couplingExpiry_idle {p : Part} {k : Track} (idle : (p.trackers.get k).handling = none) :
    p.couplingExpiry k = p.couplingAtEnd k := by
  unfold Part.couplingExpiry Part.couplingAtEnd Part.couplingDue
  rw [idle, decide_eq_true rfl, Bool.true_and]

theorem Part.couplingAtEnd_early {p : Part} {k : Track} (early : p.couplingPast k = false) : p.couplingAtEnd k = p := by
  unfold Part.couplingAtEnd
  rw [early]
  rfl

/-- A passage without a running coupling timer has none past. -/
theorem Part.couplingPast_stopped {p : Part} {k : Track} (stopped : (p.passage k).matcher.coupling = none) :
    p.couplingPast k = false := by
  unfold Part.couplingPast
  rw [stopped]

/-! ### The close of an open passage (R49, R50) -/

/-- The part with the handling of a track ended. -/
def Part.idled (p : Part) (k : Track) : Part := p.setTracker k { p.trackers.get k with handling := none }

theorem Part.idled_tracker (p : Part) (k : Track) :
    (p.idled k).trackers.get k = { p.trackers.get k with handling := none } := Quad.get_set_self _ _ _

theorem Part.idled_handling (p : Part) (k : Track) : ((p.idled k).trackers.get k).handling = none := by
  rw [p.idled_tracker]

theorem Part.idled_passage (p : Part) (k : Track) : (p.idled k).passage k = p.passage k := by
  rw [Part.passage, p.idled_tracker]
  rfl

/-- A track that handles no event is idle as it is. -/
theorem Part.idled_idle {p : Part} {k : Track} (idle : (p.trackers.get k).handling = none) : p.idled k = p := by
  have same : ({ p.trackers.get k with handling := none } : Tracker) = p.trackers.get k := by rw [← idle]
  unfold Part.idled Part.setTracker
  rw [same, Quad.set_get]

/-- R49, R50: the close of the open passage of a track whose handling, if any, has ended; its front end may have
changed. -/
theorem Part.closePassage_idled {p : Part} {k : Track} (opened : (p.passage k).state ≠ .vacant) (front : Quad FrontEnd)
    (reason : CloseReason) : ∃ final : Passage, p.FinishedAs k final ∧
      ({ p.idled k with front := front } : Part).closePassage k reason = { p with
        front := front
        trackers := p.trackers.set k
          { p.trackers.get k with passage := Passage.vacant (p.passage k).number, handling := none }
        mgr := if p.freePlace then
            { p.mgr with control := p.mgr.control ++ [p.noticeRecord (.passageClosed k final p.now reason)] }
          else { p.mgr with noticeDrops := p.mgr.noticeDrops + 1 } } := by
  have passage : ({ p.idled k with front := front } : Part).passage k = p.passage k := p.idled_passage k
  have closed := ({ p.idled k with front := front } : Part).closePassage_spec k reason
  unfold Part.ClosedAs at closed
  rw [if_neg (by rw [passage]; exact opened), passage] at closed
  obtain ⟨final, finished, eq⟩ := closed
  refine ⟨final, finished.of_passage passage rfl, eq.trans ?_⟩
  simp only [Part.idled, Part.setTracker, Quad.set_set, Quad.get_set_self]
  rfl

/-- R53: a change to SERVICE closes no passage that has closed. -/
theorem Part.closePassage_of_vacant {p : Part} {k : Track} (vacant : (p.passage k).state = .vacant)
    (reason : CloseReason) : p.closePassage k reason = p := if_pos vacant

/-! ### The end of a handling (R35, R42) -/

/-- The part at the end of a handling with a coupling expiry taken first, if it is due then. -/
def Part.expiredFirst (p : Part) (k : Track) (first : Bool) : Part :=
  if first then (p.idled k).couplingAtEnd k else p.idled k

/-- The part at the end of a handling once the close due to it has been made. -/
def Part.closedIfDue (p : Part) (k : Track) (due : Bool) : Part := if due then p.closePassage k .normal else p

theorem Part.expiredFirst_handling (p : Part) (k : Track) (first : Bool) :
    ((p.expiredFirst k first).trackers.get k).handling = none := by
  cases first with
  | false => exact p.idled_handling k
  | true => exact (Part.couplingAtEnd_handling _ k).trans (p.idled_handling k)

theorem Part.closedIfDue_handling (p : Part) (k : Track) (due : Bool) :
    ((p.closedIfDue k due).trackers.get k).handling = (p.trackers.get k).handling := by
  cases due with
  | false => rfl
  | true => exact p.closePassage_handling k _

/-- R35, R42, R69: the end of a handling in its order. -/
theorem Part.endHandling_eq {p : Part} {k : Track} {h : Handling} (handling : (p.trackers.get k).handling = some h)
    (first : Bool) : p.endHandling k first =
      (h.deferred.foldl (Part.takeDeferred k) ((p.expiredFirst k first).closedIfDue k h.closeDue)).couplingAtEnd k := by
  unfold Part.endHandling
  rw [handling]
  rfl

theorem Part.idled_couplingPast {p : Part} {k : Track} (early : p.couplingPast k = false) :
    (p.idled k).couplingPast k = false := by
  unfold Part.couplingPast at *
  rw [p.idled_passage]
  exact early

/-- With no coupling timer past nothing expires before the close. -/
theorem Part.expiredFirst_early {p : Part} {k : Track} (early : p.couplingPast k = false) (first : Bool) :
    p.expiredFirst k first = p.idled k := by
  have idle := Part.idled_couplingPast early
  cases first with
  | false => rfl
  | true => exact Part.couplingAtEnd_early idle

/-- R69: a passage that has closed has no coupling timer. -/
theorem Part.closePassage_couplingPast {p : Part} {k : Track} (opened : (p.passage k).state ≠ .vacant)
    (reason : CloseReason) : (p.closePassage k reason).couplingPast k = false := by
  have closed := p.closePassage_spec k reason
  unfold Part.ClosedAs at closed
  rw [if_neg opened] at closed
  obtain ⟨final, -, eq⟩ := closed
  refine Part.couplingPast_stopped ?_
  rw [eq, Part.passage, Quad.get_set_self]
  rfl

/-- R35, R42, R53: the close of an open passage at the end of its handling, with nothing deferred behind it but a change
to SERVICE. -/
theorem Part.endHandling_closes {p : Part} {k : Track} {h : Handling} (handling : (p.trackers.get k).handling = some h)
    (early : p.couplingPast k = false) (opened : (p.passage k).state ≠ .vacant) (first : Bool) :
    (h.deferred = [] ∨ h.deferred = [.toService] → h.closeDue = true →
      p.endHandling k first = (p.idled k).closePassage k .normal) ∧
    (h.deferred = [.toService] → h.closeDue = false →
      p.endHandling k first = (p.idled k).closePassage k .aborted) := by
  have open_ : ((p.idled k).passage k).state ≠ .vacant := by rwa [p.idled_passage k]
  have ended (reason : CloseReason) := Part.couplingAtEnd_early (Part.closePassage_couplingPast open_ reason)
  rw [Part.endHandling_eq handling, Part.expiredFirst_early early]
  refine ⟨fun deferred due => ?_, fun deferred notDue => ?_⟩
  · have taken : h.deferred.foldl (Part.takeDeferred k) ((p.idled k).closePassage k .normal) =
        (p.idled k).closePassage k .normal := by
      rcases deferred with nothing | service
      · rw [nothing]
        rfl
      · rw [service]
        exact Part.closePassage_of_vacant (Part.closePassage_vacant _ k .normal).1 _
    rw [due]
    exact (congrArg (Part.couplingAtEnd · k) taken).trans (ended .normal)
  · rw [deferred, notDue]
    exact ended .aborted

/-- R35, R55: the end of a handling at which no close is due, with nothing deferred or a RESET_PART. -/
theorem Part.endHandling_keeps {p : Part} {k : Track} {h : Handling} (handling : (p.trackers.get k).handling = some h)
    (early : p.couplingPast k = false) (notDue : h.closeDue = false) (first : Bool) :
    (h.deferred = [] → p.endHandling k first = p.idled k) ∧
    (h.deferred = [.reset] →
      p.endHandling k first = (p.idled k).setPassage k (Passage.vacant (p.passage k).number)) := by
  have same := p.idled_passage k
  rw [Part.endHandling_eq handling, Part.expiredFirst_early early, notDue]
  refine ⟨fun nothing => ?_, fun reset => ?_⟩
  · rw [nothing]
    refine Part.couplingAtEnd_early ?_
    exact Part.idled_couplingPast early
  · rw [reset, ← same]
    refine Part.couplingAtEnd_early (Part.couplingPast_stopped ?_)
    show (((p.idled k).setPassage k (Passage.vacant _)).passage k).matcher.coupling = _
    rw [Part.passage_setPassage]
    rfl

/-! ### The two timers that close a passage (R43, R45) -/

/-- R14, R43: the settling to CLEAR closes a passage in CLEARING. -/
theorem Part.settleExpiry_closes {p : Part} {k : Track} (idle : (p.trackers.get k).handling = none)
    (clearing : (p.passage k).state = .clearing) (due : (p.front.get k).occupancy.timer = some p.now)
    (clear : (p.record k).occPolarity.names (p.front.get k).occupancy.high = false) :
    p.settleExpiry k = (p.setFront k { p.front.get k with occupancy :=
      { (p.front.get k).occupancy with occupied := false, timer := none } }).closePassage k .normal := by
  have settles : p.settleDue k = true := by
    unfold Part.settleDue
    rw [due]
    exact reached_self _
  have settled : (p.front.get k).occupancy.settle (p.record k) =
      { (p.front.get k).occupancy with occupied := false, timer := none } := by
    unfold Occupancy.settle
    rw [clear]
  rw [← settled]
  exact ((if_pos settles).trans (Part.Turn.reachTracker_idle (q := p.setFront k _) idle)).trans
    (if_pos ⟨clearing, clear⟩)

/-- R45: the silence timer of an open passage expires. -/
theorem Part.silenceExpiry_closes {p : Part} {k : Track} (idle : (p.trackers.get k).handling = none)
    (opened : (p.passage k).state ≠ .vacant) (due : (p.passage k).silence = some p.now) :
    p.silenceExpiry k = p.closePassage k .timedOut := by
  have expires : p.silenceDue k = true := by
    unfold Part.silenceDue
    rw [idle, due, decide_eq_true opened, decide_eq_true rfl]
    exact reached_self _
  exact if_pos expires

/-- Settles O49: any end by `endHandling_eq`, the closes by `SamePassage.closePassage`. -/
theorem passageCloses : Obligations.PassageCloses := by
  intro s k first p r f closes ends idle
  have closed {i : Instr} {reason : CloseReason} {front : Quad FrontEnd} (opened : r.state ≠ .vacant)
      (next : exec i s = .next (s.withPart (({ p.idled k with front := front } : Part).closePassage k reason))) :
      closes i reason front := by
    obtain ⟨final, finished, eq⟩ := Part.closePassage_idled opened front reason
    exact ⟨_, final, next, finished, eq⟩
  refine ⟨fun h handling => ?_, fun h handling early => ⟨fun deferred due opened => ?_,
    fun deferred notDue opened => ?_, fun deferred notDue => ?_, fun deferred notDue => ?_⟩,
    fun handling clearing due clear => ?_, fun handling opened due => ?_⟩
  · have expired := p.expiredFirst_handling k first
    have taken := (Part.takeAllDeferred_handling k h.deferred _).trans
      ((Part.closedIfDue_handling _ k h.closeDue).trans expired)
    refine ⟨p.expiredFirst k first, (p.expiredFirst k first).closedIfDue k h.closeDue, _, _, fun coupled => ?_,
      fun behind => ?_, fun due => ?_, fun notDue => ?_, Part.takeAllDeferred_spec k _ _,
      State.next_withPart (Part.couplingExpiry_idle taken), State.next_withPart (Part.endHandling_eq handling first)⟩
    · rw [coupled]
      exact State.next_withPart (Part.couplingExpiry_idle (p.idled_handling k))
    · rw [behind]
      rfl
    · rw [due]
      exact Part.closePassage_spec _ k .normal
    · rw [notDue]
      rfl
  · exact closed (front := p.front) opened
      (State.next_withPart ((Part.endHandling_closes handling early opened first).1 deferred due))
  · exact closed (front := p.front) opened
      (State.next_withPart ((Part.endHandling_closes handling early opened first).2 deferred notDue))
  · refine State.next_withPart (((Part.endHandling_keeps handling early notDue first).2 deferred).trans ?_)
    simp only [Part.idled, Part.setPassage, Part.setTracker, Quad.get_set_self, Quad.set_set]
    rfl
  · exact State.next_withPart ((Part.endHandling_keeps handling early notDue first).1 deferred)
  · have opened : r.state ≠ .vacant := by rw [clearing]; exact nofun
    refine closed opened (State.next_withPart ?_)
    rw [Part.idled_idle handling]
    exact Part.settleExpiry_closes handling clearing due clear
  · refine closed opened (State.next_withPart ?_)
    rw [Part.idled_idle handling]
    exact Part.silenceExpiry_closes handling opened due

end Sys2Proof.Machine
end

