-- ==== Sys2Proof/Proofs/CancelRules.lean ====
section
/-! PROOFS. The end of the WAITING jobs that a cancel request names (06 R110, R111). -/

namespace Sys2Proof.Machine

/-! ### Schedules but for lamp statuses -/

theorem Job.unlit_tag {x y : Job} (h : x.unlit = y.unlit) : x.tag = y.tag :=
  (congrArg Job.tag h : x.unlit.tag = y.unlit.tag)

/-- A test that reads no lamp status picks the same jobs with their lamp statuses left out. -/
theorem map_unlit_filter {test : Job → Bool} (blind : ∀ x : Job, test x.unlit = test x) (l : List Job) :
    (l.filter test).map Job.unlit = (l.map Job.unlit).filter test := by
  rw [List.filter_map]
  exact congrArg (List.map Job.unlit) (List.filter_congr fun x _ => (blind x).symm)

/-! ### Several jobs end (R110) -/

/-- R110: the end of a job takes it from the schedule, and of the other jobs changes lamp statuses alone. -/
theorem Part.endJob_unlit (p : Part) (t : Tag) (reason : EndReason) (cause : CancelCause) :
    (p.endJob t reason cause).csc.jobs.map Job.unlit = (p.csc.jobs.filter (fun x => x.tag != t)).map Job.unlit := by
  rcases p.endJob_cases t reason cause with ⟨absent, same⟩ | ⟨j, -, ended⟩
  · rw [same, List.filter_eq_self.mpr fun x hx => bne_iff_ne.mpr (Part.job_none absent x hx)]
  · rw [ended, (Part.notice_frame _ _).1]
    show ((p.lampJobEnd t).csc.jobs.filter (fun x => x.tag != t)).map Job.unlit = _
    rw [map_unlit_filter fun _ => rfl, (p.lampJobEnd_relit t).jobs, map_unlit_filter fun _ => rfl]

/-- The part after the jobs of a list have ended CANCELLED, one after the other. -/
def Part.cancelAll (p : Part) (cause : CancelCause) (l : List Job) : Part :=
  l.foldl (fun q j => q.endJob j.tag .cancelled cause) p

/-- R111: the jobs that a list of cancelled jobs leaves. -/
theorem Part.cancelAll_unlit (cause : CancelCause) : ∀ (l : List Job) (p : Part),
    (p.cancelAll cause l).csc.jobs.map Job.unlit =
      (p.csc.jobs.filter (fun x => decide (x.tag ∉ l.map Job.tag))).map Job.unlit
  | [], p => by
    rw [List.filter_eq_self.mpr fun x _ => decide_eq_true (by exact List.not_mem_nil)]
    rfl
  | j :: l, p => by
    refine (Part.cancelAll_unlit cause l _).trans ?_
    rw [map_unlit_filter fun _ => rfl, p.endJob_unlit, ← map_unlit_filter fun _ => rfl, List.filter_filter]
    refine congrArg (List.map Job.unlit) (List.filter_congr fun x _ => ?_)
    rw [List.map_cons, Bool.eq_iff_iff]
    simp only [Bool.and_eq_true, decide_eq_true_eq, bne_iff_ne, List.mem_cons, not_or]
    exact and_comm

/-- R110, R172: a job found in the schedule ends with its JOB_ENDED where a place is free. -/
theorem Part.endJob_mgr {p : Part} {t : Tag} {j : Job} (found : p.job t = some j) (free : p.freePlace = true)
    (reason : EndReason) (cause : CancelCause) : (p.endJob t reason cause).mgr =
      { p.mgr with control := p.mgr.control ++ [p.noticeRecord (.jobEnded j p.now reason cause)] } := by
  have told : ((p.lampJobEnd t).removeJob t).mgr = p.mgr := (p.lampJobEnd_relit t).mgr
  unfold Part.endJob
  rw [found]
  dsimp only
  rcases ((p.lampJobEnd t).removeJob t).notice_cases (.jobEnded j p.now reason cause) with ⟨-, placed⟩ | ⟨full, -⟩
  · rw [placed, Part.setMgr_mgr, Part.noticeRecord, told]
    rfl
  · unfold Part.freePlace at *
    rw [told] at full
    exact absurd (free.symm.trans full) (by decide)

/-- R110, R111: with places for all of them, each of the jobs of a list makes its JOB_ENDED in the order of the list. -/
theorem Part.cancelAll_mgr (cause : CancelCause) : ∀ (l : List Job) {p : Part}, p.TagsDistinct →
    (l.map Job.tag).Nodup → (∀ j ∈ l, ∃ x ∈ p.csc.jobs, x.unlit = j.unlit) →
    p.mgr.control.length + p.mgr.waiting.length + l.length ≤ 16 →
    ∃ ended : List Job, ended.map Job.unlit = l.map Job.unlit ∧ (p.cancelAll cause l).mgr = { p.mgr with
      control := p.mgr.control ++ ended.map (fun j => p.noticeRecord (.jobEnded j p.now .cancelled cause)) }
  | [], p, _, _, _, _ => ⟨[], rfl, by rw [List.map_nil, List.append_nil]; rfl⟩
  | j :: l, p, distinct, apart, stand, room => by
    rw [List.map_cons, List.nodup_cons] at apart
    rw [List.length_cons] at room
    obtain ⟨x, hx, same⟩ := stand j List.mem_cons_self
    have found : p.job j.tag = some x := Job.unlit_tag same ▸ Part.job_of_mem distinct hx
    have mgr := Part.endJob_mgr found (p.freePlace_iff.mpr (by omega)) .cancelled cause
    have kept := p.endJob_kept j.tag .cancelled cause
    have later : ∀ i ∈ l, ∃ y ∈ (p.endJob j.tag .cancelled cause).csc.jobs, y.unlit = i.unlit := fun i hi => by
      obtain ⟨y, hy, yi⟩ := stand i (List.mem_cons_of_mem _ hi)
      have other : y.tag ≠ j.tag := fun h => apart.1 (h ▸ Job.unlit_tag yi ▸ List.mem_map_of_mem hi)
      refine List.mem_map.mp ?_
      rw [p.endJob_unlit, ← yi]
      exact List.mem_map_of_mem (List.mem_filter.mpr ⟨hy, bne_iff_ne.mpr other⟩)
    obtain ⟨ended, unlit, control⟩ := Part.cancelAll_mgr cause l (p := p.endJob j.tag .cancelled cause)
      ((Part.Keeps.refl p).endJob.tags distinct) apart.2 later (by
        rw [mgr, List.length_append, List.length_singleton]
        show _ + 1 + p.mgr.waiting.length + _ ≤ 16
        omega)
    refine ⟨x :: ended, by rw [List.map_cons, List.map_cons, same, unlit], control.trans ?_⟩
    simp only [Part.noticeRecord, Part.now, kept.recorder, kept.tb]
    rw [mgr]
    simp only [List.append_assoc]
    rfl

/-! ### A cancel request (R111) -/

/-- The jobs that a cancel request for a passage of a track names. -/
def Job.waitsIn (k : Track) (num : Count16) (j : Job) : Bool :=
  decide (j.state = .waiting) && j.track == k && j.passage == num

theorem Job.waitsIn_iff {k : Track} {num : Count16} {j : Job} :
    j.waitsIn k num = true ↔ j.state = .waiting ∧ j.track = k ∧ j.passage = num := by
  simp only [Job.waitsIn, Bool.and_eq_true, decide_eq_true_eq, beq_iff_eq, and_assoc]

theorem Part.cancelPassage_eq (p : Part) (k : Track) (num : Count16) (cause : CancelCause) :
    p.cancelPassage k num cause = p.cancelAll cause (p.csc.jobs.filter (Job.waitsIn k num)) := by
  unfold Part.cancelPassage Part.cancelJobs
  rw [List.filter_congr fun j _ => (Bool.and_assoc _ _ _).symm]
  rfl

/-- R111: a cancel request leaves no WAITING job that it names. -/
theorem Part.cancelPassage_left {p : Part} {k : Track} {num : Count16} {cause : CancelCause} {j : Job}
    (left : j ∈ (p.cancelPassage k num cause).csc.jobs) : j.waitsIn k num = false := by
  rw [p.cancelPassage_eq] at left
  have seen := List.mem_map_of_mem (f := Job.unlit) left
  rw [Part.cancelAll_unlit] at seen
  obtain ⟨x, hx, same⟩ := List.mem_map.mp seen
  obtain ⟨stood, spared⟩ := List.mem_filter.mp hx
  have waits : x.waitsIn k num = j.waitsIn k num :=
    (congrArg (Job.waitsIn k num) same : x.unlit.waitsIn k num = j.unlit.waitsIn k num)
  rw [← waits, ← Bool.not_eq_true]
  exact fun named => of_decide_eq_true spared (List.mem_map_of_mem (List.mem_filter.mpr ⟨stood, named⟩))

/-- R111: a cancel request leaves every other job. -/
theorem Part.cancelPassage_unlit {p : Part} (distinct : p.TagsDistinct) (k : Track) (num : Count16)
    (cause : CancelCause) : (p.cancelPassage k num cause).csc.jobs.map Job.unlit =
      (p.csc.jobs.filter (fun j => !j.waitsIn k num)).map Job.unlit := by
  rw [p.cancelPassage_eq, Part.cancelAll_unlit]
  refine congrArg (List.map Job.unlit) (List.filter_congr fun x hx => ?_)
  rw [Bool.eq_iff_iff, decide_eq_true_eq, Bool.not_eq_true', ← Bool.not_eq_true, not_iff_not, List.mem_map]
  constructor
  · rintro ⟨y, hy, same⟩
    obtain ⟨stood, named⟩ := List.mem_filter.mp hy
    exact List.inj_on_of_nodup_map distinct.1 stood hx same ▸ named
  · exact fun named => ⟨x, List.mem_filter.mpr ⟨hx, named⟩, rfl⟩

/-- R110, R111: with places for all of them, the jobs that a cancel request names make their JOB_ENDED in the order of
the schedule. -/
theorem Part.cancelPassage_mgr {p : Part} (distinct : p.TagsDistinct) {k : Track} {num : Count16} (cause : CancelCause)
    (room : p.mgr.control.length + p.mgr.waiting.length + (p.csc.jobs.filter (Job.waitsIn k num)).length ≤ 16) :
    ∃ ended : List Job, ended.map Job.unlit = (p.csc.jobs.filter (Job.waitsIn k num)).map Job.unlit ∧
      (p.cancelPassage k num cause).mgr = { p.mgr with
        control := p.mgr.control ++ ended.map (fun j => p.noticeRecord (.jobEnded j p.now .cancelled cause)) } := by
  rw [p.cancelPassage_eq]
  exact Part.cancelAll_mgr cause _ distinct (List.Nodup.sublist ((List.filter_sublist).map _) distinct.1)
    (fun j hj => ⟨j, List.mem_of_mem_filter hj, rfl⟩) room

end Sys2Proof.Machine
end

