-- ==== Sys2Proof/Proofs/AxleRules.lean ====
section
/-! PROOFS. The take of an event in an open passage (O48). -/

namespace Sys2Proof.Machine

/-! ### What the matcher and the scheduler leave of a passage record -/

/-- A passage record without the fields that the matcher and the scheduler write. -/
def Passage.axles (r : Passage) : Passage :=
  { r with
    flags := { r.flags with noSpeed := false, unmatched := false, listFull := false }
    matcher := .empty, vehicleCount := 0, sightingCount := 0, jobCount := 0 }

/-- The fields in which two records agree that `Passage.axles` makes equal. -/
structure Passage.SameAxles (a b : Passage) : Prop where
  state          : a.state = b.state
  number         : a.number = b.number
  entryPair      : a.entryPair = b.entryPair
  openTime       : a.openTime = b.openTime
  entries        : a.entries = b.entries
  exits          : a.exits = b.exits
  backouts       : a.backouts = b.backouts
  inside         : a.inside = b.inside
  pace           : a.pace = b.pace
  silence        : a.silence = b.silence
  slow           : a.flags.slow = b.flags.slow
  fast           : a.flags.fast = b.flags.fast
  axleLoss       : a.flags.axleLoss = b.flags.axleLoss
  reversal       : a.flags.reversal = b.flags.reversal
  conflict       : a.flags.conflict = b.flags.conflict
  countError     : a.flags.countError = b.flags.countError
  matchSuspended : a.flags.matchSuspended = b.flags.matchSuspended

theorem Passage.sameAxles {a b : Passage} (h : a.axles = b.axles) : a.SameAxles b := by
  simp only [Passage.axles, Passage.mk.injEq, PassageFlags.mk.injEq] at h
  obtain ⟨state, number, entryPair, openTime, entries, exits, backouts, inside, pace, ⟨slow, fast, -, axleLoss,
    reversal, conflict, countError, -, -, matchSuspended⟩, silence, -⟩ := h
  exact ⟨state, number, entryPair, openTime, entries, exits, backouts, inside, pace, silence, slow, fast, axleLoss,
    reversal, conflict, countError, matchSuspended⟩

/-- `q` has the front ends, the tables and the trackers of `p`, but at one track for what the matcher and the scheduler
write of the passage record. -/
structure Part.Matched (p : Part) (k : Track) (q : Part) : Prop where
  front    : q.front = p.front
  trackers : q.trackers = p.trackers.set k { p.trackers.get k with passage := q.passage k }
  axles    : (q.passage k).axles = (p.passage k).axles
  kept     : p.Kept q

theorem Part.Matched.trans {p q r : Part} {k : Track} (h : p.Matched k q) (g : q.Matched k r) : p.Matched k r := by
  refine ⟨g.front.trans h.front, ?_, g.axles.trans h.axles, h.kept.trans g.kept⟩
  rw [g.trackers, h.trackers]
  simp only [Quad.get_set_self, Quad.set_set]

theorem Part.SameTracks.matched {p q : Part} (h : p.SameTracks q) (kept : p.Kept q) (k : Track) : p.Matched k q := by
  have passage : q.passage k = p.passage k := by rw [Part.passage, h.trackers]; rfl
  refine ⟨h.front, ?_, by rw [passage], kept⟩
  rw [passage, h.trackers]
  exact (Quad.set_get _ _).symm

theorem Part.Matched.refl (p : Part) (k : Track) : p.Matched k p := (Part.SameTracks.refl p).matched (.refl p) k

theorem Part.setPassage_matched {p : Part} {k : Track} {r : Passage} (h : r.axles = (p.passage k).axles) :
    p.Matched k (p.setPassage k r) :=
  ⟨rfl, by rw [Part.passage_setPassage]; rfl, by rw [Part.passage_setPassage]; exact h, p.setPassage_kept k r⟩

theorem Part.Matched.of_axles {p q : Part} {k : Track} {a b : Passage} (h : (p.setPassage k a).Matched k q)
    (same : a.axles = b.axles) : (p.setPassage k b).Matched k q := by
  rw [← p.setPassage_setPassage k b a] at h
  exact .trans (Part.setPassage_matched (by rw [Part.passage_setPassage]; exact same)) h

theorem Part.setMatcher_matched (p : Part) (k : Track) (m : Matcher) : p.Matched k (p.setMatcher k m) :=
  Part.setPassage_matched rfl

/-- R60: a conversion at most flags NO_SPEED. -/
theorem Part.flagNoSpeed_matched (p : Part) (k : Track) : p.Matched k (p.flagNoSpeed k) := by
  unfold Part.flagNoSpeed
  split
  · exact .refl p k
  · exact Part.setPassage_matched rfl

/-! ### A declaration (R71 to R75) -/

theorem Part.takeSighting_matched (p : Part) (k : Track) (num : Count16) (s : Sighting) :
    p.Matched k (p.takeSighting k num s) := by
  obtain ⟨front, n, trackers⟩ := p.takeSighting_tracks k num s
  have passage : (p.takeSighting k num s).passage k = { p.passage k with jobCount := n } := by
    rw [Part.passage, trackers, Quad.get_set_self]
  exact ⟨front, by rw [passage, trackers], by rw [passage]; rfl, p.takeSighting_kept k num s⟩

theorem Part.handSighting_matched (k : Track) (closing : Bool) (p : Part) (s : Sighting) :
    p.Matched k (Part.handSighting k closing p s) := by
  have counted : p.Matched k
      (p.setPassage k { p.passage k with sightingCount := (p.passage k).sightingCount + 1 }) :=
    Part.setPassage_matched rfl
  unfold Part.handSighting
  dsimp only
  split
  · exact counted.trans (Part.takeSighting_matched _ k _ s)
  · exact counted

theorem Part.handSightings_matched (k : Track) (closing : Bool) : ∀ (l : List Sighting) (p : Part),
    p.Matched k (l.foldl (Part.handSighting k closing) p)
  | [], p => .refl p k
  | s :: l, p => (p.handSighting_matched k closing s).trans (Part.handSightings_matched k closing l _)

theorem Passage.enterVehicle_axles (r : Passage) (v : VehicleEntry) : (r.enterVehicle v).axles = r.axles := by
  unfold Passage.enterVehicle
  split
  · rfl
  · rfl

theorem Part.declare_matched (p : Part) (k : Track) (closing : Bool) (c : Candidate) :
    p.Matched k (p.declare k closing c) := by
  unfold Part.declare
  dsimp only
  split
  · exact ((Part.setPassage_matched (Passage.enterVehicle_axles _ _)).trans
      (Part.handSightings_matched k closing _ _)).trans (Part.setMatcher_matched _ k _)
  · exact Part.setMatcher_matched _ k _

/-! ### An axle handed to the matcher (R58 to R67) -/

theorem Part.innerTime_matched (p : Part) (k : Track) (i : PairId) (h : HeadId) (t : Time) :
    p.Matched k (p.innerTime k i h t).1 := by
  unfold Part.innerTime
  split
  · exact .refl p k
  · exact p.flagNoSpeed_matched k

theorem Part.measureGap_matched (p : Part) (k : Track) (t : Time) : p.Matched k (p.measureGap k t).1 := by
  unfold Part.measureGap
  split
  · exact .refl p k
  · dsimp only
    split
    · exact .refl p k
    · exact p.flagNoSpeed_matched k

theorem Part.arrive_matched (p : Part) (k : Track) (a : PendingAxle) (g : Nat) : p.Matched k (p.arrive k a g) := by
  unfold Part.arrive
  dsimp only
  split
  · exact p.setMatcher_matched k _
  · split
    · split
      · exact (p.declare_matched k false _).trans (Part.setMatcher_matched _ k _)
      · exact Part.setPassage_matched rfl
    · exact p.setMatcher_matched k _

theorem Part.startCoupling_matched (p : Part) (k : Track) : p.Matched k (p.startCoupling k) := by
  unfold Part.startCoupling
  dsimp only
  split
  · exact (p.flagNoSpeed_matched k).trans (Part.setMatcher_matched _ k _)
  · exact .refl p k

theorem Part.handAxle_matched (p : Part) (k : Track) (e : AxleEvent) (n : Count16) : p.Matched k (p.handAxle k e n) :=
  ((((p.setMatcher_matched k _).trans (Part.innerTime_matched _ k _ _ _)).trans (Part.measureGap_matched _ k _)).trans
    (Part.arrive_matched _ k _ _)).trans (Part.startCoupling_matched _ k)

/-! ### The records of a take -/

theorem Part.setPassage_self (p : Part) (k : Track) : p.setPassage k (p.passage k) = p := by
  show { p with trackers := p.trackers.set k (p.trackers.get k) } = p
  rw [Quad.set_get]

/-- R35, R41, R45: the record at the take of an event, whose mark of a loss is given. -/
def Passage.takenAs (r : Passage) (deadline : Time) (loss : Bool) : Passage :=
  { r with
    silence := some deadline, state := .running
    flags := { r.flags with
      axleLoss := r.flags.axleLoss || loss, matchSuspended := r.flags.matchSuspended || loss }
    matcher := if loss && !r.flags.matchSuspended then
        { r.matcher with pending := [], candidates := [], coupling := none }
      else r.matcher }

theorem Passage.taken_eq (r : Passage) (deadline : Time) (loss : Bool) :
    r.taken deadline loss = r.takenAs deadline loss := by
  unfold Passage.taken Passage.takenAs Passage.suspend
  cases loss with
  | false => simp
  | true => cases h : r.flags.matchSuspended <;> simp [h, Matcher.clear]

/-- R38, R39: the count of the axles inside after one has left. -/
def Passage.left (r : Passage) : Count16 := if r.inside = 0 then 0 else r.inside - 1

theorem Passage.leave_eq (r : Passage) : r.leave = { r with
    inside := r.left
    flags := { r.flags with countError := r.flags.countError || decide (r.inside = 0) } } := by
  unfold Passage.leave Passage.left
  by_cases h : r.inside = 0
  · have inside : (if r.inside = 0 then 0 else r.inside - 1) = r.inside := by rw [if_pos h, h]
    rw [if_pos h, inside, decide_eq_true h, Bool.or_true]
  · rw [if_neg h, if_neg h, decide_eq_false h, Bool.or_false]

/-- R37, R38: the record with an entry axle or an exit axle counted. -/
def Passage.counted (r : Passage) (inner : Bool) : Passage :=
  if inner then { r with entries := r.entries + 1, inside := r.inside + 1 }
  else { r with
    exits := r.exits + 1, inside := r.left
    flags := { r.flags with countError := r.flags.countError || decide (r.inside = 0) } }

/-- The record `c` has what a pace update reads of `r`. -/
structure Passage.PacedLike (c r : Passage) : Prop where
  pace   : c.pace = r.pace
  fast   : c.flags.fast = r.flags.fast
  slow   : c.flags.slow = r.flags.slow
  number : c.number = r.number

theorem Passage.PacedLike.counted {c r : Passage} (h : c.PacedLike r) (inner : Bool) :
    (c.counted inner).PacedLike r := by
  obtain ⟨pace, fast, slow, number⟩ := h
  cases inner
  · exact ⟨pace, fast, slow, number⟩
  · exact ⟨pace, fast, slow, number⟩

/-- R46, R47: the record `c` with the pace to which that of `r` is moved by a transit. -/
def Passage.paced (c r : Passage) (spacing : Nat) (transit : Option Nat) : Passage :=
  match transit with
  | none => c
  | some d => { c with
      pace := some (filterPace r.pace (axlePace d spacing).pace)
      flags := { c.flags with
        fast := r.flags.fast || (axlePace d spacing).fast, slow := r.flags.slow || (axlePace d spacing).slow } }

/-- R68: the record with the deadline of a running coupling timer moved, if the pace is another than the one given. -/
def Passage.moved (r : Passage) (old : Option Nat) : Passage :=
  match r.matcher.coupling, r.matcher.pending.getLast?, r.pace with
  | some c, some last, some pace =>
    if old = some pace then r
    else { r with matcher := { r.matcher with
      coupling := some { c with deadline := last.time + BitVec.ofNat 48 (roundDiv (c.distance * pace) 256) } } }
  | _, _, _ => r

theorem Passage.moved_axles (r : Passage) (old : Option Nat) : (r.moved old).axles = r.axles := by
  unfold Passage.moved
  split
  · split
    · rfl
    · rfl
  · rfl

theorem Passage.moved_same (r : Passage) : r.moved r.pace = r := by
  unfold Passage.moved
  split
  · rename_i pace
    exact if_pos pace
  · rfl

/-- R68: the timer of a track is moved with a pace that has changed. -/
theorem Part.moveCoupling_eq {p : Part} {k : Track} {pace : Nat} (hp : (p.passage k).pace = some pace)
    {old : Option Nat} (changed : old ≠ some pace) : p.moveCoupling k = p.setPassage k ((p.passage k).moved old) := by
  unfold Part.moveCoupling Passage.moved Part.matchPace
  dsimp only
  rw [hp]
  cases (p.passage k).matcher.coupling with
  | none => exact (p.setPassage_self k).symm
  | some c =>
    cases (p.passage k).matcher.pending.getLast? with
    | none => exact (p.setPassage_self k).symm
    | some last =>
      dsimp only [Option.getD]
      rw [if_neg changed, ← hp]
      rfl

/-- R46 to R48, R68: a pace update. -/
theorem Part.updatePace_eq {p : Part} {k : Track} {c r : Passage} (hc : p.passage k = c) (like : c.PacedLike r)
    (i : PairId) (transit : Option Nat) : p.updatePace k i transit =
      if p.mode = .onLine ∧ (c.paced r ((p.record k).spacing i) transit).pace ≠ r.pace then
        (p.setPassage k ((c.paced r ((p.record k).spacing i) transit).moved r.pace)).retime k
          (fun j => j.passage == r.number)
      else p.setPassage k ((c.paced r ((p.record k).spacing i) transit).moved r.pace) := by
  obtain ⟨pace, fast, slow, number⟩ := like
  cases transit with
  | none =>
    show p = if p.mode = .onLine ∧ c.pace ≠ r.pace then _ else p.setPassage k (c.moved r.pace)
    rw [if_neg fun h => h.2 pace, ← pace, c.moved_same, ← hc, p.setPassage_self]
  | some d =>
    generalize hx : c.paced r ((p.record k).spacing i) (some d) = x
    have xpace : x.pace = some (filterPace r.pace (axlePace d ((p.record k).spacing i)).pace) := by rw [← hx]; rfl
    have updated : p.updatePace k i (some d) = if r.pace = x.pace then p.setPassage k x
        else ((p.setPassage k x).moveCoupling k).retimePassage k r.number := by
      unfold Part.updatePace
      rw [xpace, ← hx, ← pace, ← number, ← hc]
      unfold Passage.paced
      rw [← fast, ← slow, ← pace, ← hc]
    rw [updated]
    by_cases same : r.pace = x.pace
    · rw [if_pos same, if_neg fun h => h.2 same.symm, same, x.moved_same]
    · rw [if_neg same, Part.moveCoupling_eq (by rw [Part.passage_setPassage]; exact xpace) (xpace ▸ same),
        Part.passage_setPassage, Part.setPassage_setPassage]
      unfold Part.retimePassage
      refine if_congr ?_ rfl rfl
      exact (and_iff_left (Ne.symm same)).symm

theorem Part.updatePace_matched {p : Part} {k : Track} {c r : Passage} (hc : p.passage k = c) (like : c.PacedLike r)
    (i : PairId) (transit : Option Nat) : (p.setPassage k (c.paced r ((p.record k).spacing i) transit)).Matched k
      (p.updatePace k i transit) := by
  refine Part.Matched.of_axles ?_ ((c.paced r ((p.record k).spacing i) transit).moved_axles r.pace)
  rw [Part.updatePace_eq hc like]
  split
  · exact (Part.retime_tracks _ k _).matched (Part.retime_kept _ k _) k
  · exact .refl _ k

/-- R38 to R40: the record with a backout or a conflict counted, before matching is suspended. -/
def Passage.turning (r : Passage) (inner : Bool) : Passage :=
  if inner then { r with
    backouts := r.backouts + 1, inside := r.left
    flags := { r.flags with countError := r.flags.countError || decide (r.inside = 0), reversal := true } }
  else { r with inside := r.inside + 1, flags := { r.flags with conflict := true } }

/-! ### The class of an axle (R37 to R40) -/

/-- An entry axle, or an exit axle: by its pair and its direction it moves the pace. -/
def AxleEvent.Paces (e : AxleEvent) (inner : Bool) : Prop :=
  (inner = true ∧ e.direction ≠ .outward) ∨ (inner = false ∧ e.direction ≠ .inward)

/-- R37, R38: an entry axle or an exit axle is counted and moves the pace; an entry axle is handed over. -/
theorem Part.classify_paces {q : Part} {k : Track} {e : AxleEvent} {c : Passage} {inner : Bool} (hc : q.passage k = c)
    (pair : inner = decide (c.entryPair = some e.pair)) (paces : e.Paces inner) :
    q.classify k e =
      let timed := (q.setPassage k (c.counted inner)).updatePace k e.pair e.transit
      if inner && !(c.counted inner).flags.matchSuspended then timed.handAxle k e (c.entries + 1) else timed := by
  rcases paces with ⟨rfl, inward⟩ | ⟨rfl, outward⟩
  · have atEntry : (q.passage k).entryPair = some e.pair := by rw [hc]; exact of_decide_eq_true pair.symm
    have matched := Part.updatePace_matched (p := q.setPassage k (c.counted true)) (k := k) (Part.passage_setPassage ..)
      (Passage.PacedLike.counted ⟨rfl, rfl, rfl, rfl⟩ true : (c.counted true).PacedLike c) e.pair e.transit
    have suspended : (((q.setPassage k (c.counted true)).updatePace k e.pair e.transit).passage
        k).flags.matchSuspended = c.flags.matchSuspended := by
      have axles := matched.axles
      rw [Part.passage_setPassage] at axles
      refine (Passage.sameAxles axles).matchSuspended.trans ?_
      cases e.transit with
      | none => rfl
      | some d => rfl
    rw [Part.classify_entry atEntry inward]
    unfold Part.entryAxle
    rw [hc]
    dsimp only
    rw [show (q.setPassage k { c with entries := c.entries + 1, inside := c.inside + 1 }) =
      q.setPassage k (c.counted true) from rfl, suspended]
    cases h : c.flags.matchSuspended with
    | true => simp [Passage.counted, h]
    | false => simp [Passage.counted, h]
  · have apart : ¬ (q.passage k).entryPair = some e.pair := by rw [hc]; exact of_decide_eq_false pair.symm
    have exits : q.classify k e = q.exitAxle k e := by
      unfold Part.classify
      rw [if_neg apart]
      split
      · exact absurd ‹_› outward
      · rfl
    rw [exits]
    unfold Part.exitAxle
    rw [hc, c.leave_eq]
    rfl

/-- R37, R38, R48, R68: the same with the pace update written out. -/
theorem Part.classify_timed {q : Part} {k : Track} {e : AxleEvent} {c r : Passage} {inner : Bool} (hc : q.passage k = c)
    (pair : inner = decide (c.entryPair = some e.pair)) (paces : e.Paces inner) (like : c.PacedLike r) :
    q.classify k e =
      let paced := (c.counted inner).paced r ((q.record k).spacing e.pair) e.transit
      let axled := q.setPassage k (paced.moved r.pace)
      let timed := if q.mode = .onLine ∧ paced.pace ≠ r.pace then axled.retime k (fun j => j.passage == r.number)
        else axled
      if inner && !(c.counted inner).flags.matchSuspended then timed.handAxle k e (c.entries + 1) else timed := by
  rw [Part.classify_paces hc pair paces, Part.updatePace_eq (Part.passage_setPassage ..) (like.counted inner),
    Part.setPassage_setPassage]
  rfl

/-- R39 to R41, R111: a backout or a conflict is counted, cancels the jobs of the passage and suspends matching. -/
theorem Part.classify_turns {q : Part} {k : Track} {e : AxleEvent} {c : Passage} {inner : Bool} (hc : q.passage k = c)
    (pair : inner = decide (c.entryPair = some e.pair)) (turns : ¬ e.Paces inner) : q.classify k e =
      ((q.setPassage k (c.turning inner)).cancelPassage k c.number
        (if inner then .reversal else .conflict)).setPassage k (c.turning inner).suspend := by
  have cancelled (n : Count16) (cause : CancelCause) :
      ((q.setPassage k (c.turning inner)).cancelPassage k n cause).passage k = c.turning inner := by
    rw [Part.passage, (Part.cancelPassage_tracks _ k n cause).trackers]
    exact Part.passage_setPassage ..
  unfold Part.classify
  rw [hc]
  cases inner with
  | true =>
    have outward : e.direction = .outward := Decidable.not_not.mp fun h => turns (.inl ⟨rfl, h⟩)
    rw [if_pos (of_decide_eq_true pair.symm), outward]
    show q.backout k = _
    unfold Part.backout
    rw [hc, c.leave_eq]
    exact congrArg (Part.setPassage _ k) (congrArg Passage.suspend (cancelled _ _))
  | false =>
    have inward : e.direction = .inward := Decidable.not_not.mp fun h => turns (.inr ⟨rfl, h⟩)
    rw [if_neg (of_decide_eq_false pair.symm), inward]
    show q.conflict k = _
    unfold Part.conflict
    rw [hc]
    exact congrArg (Part.setPassage _ k) (congrArg Passage.suspend (cancelled _ _))

/-! ### The end of the take (R35, R42) -/

/-- R42: the state of a record whose axles inside are counted, on a track that is OCCUPIED or not. -/
def Passage.examined (r : Passage) (occupied : Bool) : PassageState :=
  if decide (r.inside = 0) && occupied then .clearing else .running

/-- The handling that begins with a record whose axles inside are counted. -/
def Passage.handling (r : Passage) (occupied : Bool) (now : Time) : Handling :=
  { takenAt := now, closeDue := decide (r.inside = 0) && !occupied, deferred := [] }

/-- `t` is the part `p` at the end of the take of an event: `q` is the part once the event has been classed, `f` the
front end it leaves, and `c` the record but for what the matcher and the scheduler write of it. -/
structure Part.Examined (p q : Part) (k : Track) (f : FrontEnd) (c : Passage) (t : Part) : Prop where
  part     : t = { q with trackers := q.trackers.set k { q.trackers.get k with
    passage := { q.passage k with state := (t.passage k).examined f.occupancy.occupied }
    handling := some ((t.passage k).handling f.occupancy.occupied p.now) } }
  front    : t.front = p.front.set k f
  record   : (t.passage k).SameAxles { c with state := (t.passage k).examined f.occupancy.occupied }
  handling : (t.trackers.get k).handling = some ((t.passage k).handling f.occupancy.occupied p.now)
  others   : ∀ j : Track, j ≠ k → t.trackers.get j = p.trackers.get j
  records  : t.records = p.records

theorem Part.Matched.examined {p q : Part} {k : Track} {f : FrontEnd} {c : Passage}
    (h : ((p.setFront k f).setPassage k c).Matched k q) (running : c.state = .running) :
    p.Examined q k f c (q.examineInside k) := by
  obtain ⟨front, trackers, axles, kept⟩ := h
  rw [Part.passage_setPassage] at axles
  have state : (q.passage k).state = .running := (Passage.sameAxles axles).state.trans running
  have occupied : (q.front.get k).occupancy = f.occupancy := by
    rw [front]
    exact congrArg FrontEnd.occupancy (Quad.get_set_self _ _ _)
  have now : q.now = p.now := congrArg Timebase.time kept.tb
  have begun : (q.examineInside k).trackers.get k = { q.trackers.get k with
      passage := { q.passage k with state := (q.passage k).examined f.occupancy.occupied }
      handling := some ((q.passage k).handling f.occupancy.occupied p.now) } := by
    unfold Part.examineInside
    dsimp only
    rw [Part.setTracker_trackers, Quad.get_set_self, occupied, now, state]
    rfl
  have passage : (q.examineInside k).passage k =
      { q.passage k with state := (q.passage k).examined f.occupancy.occupied } := congrArg Tracker.passage begun
  have inside : ((q.examineInside k).passage k).inside = (q.passage k).inside := by
    rw [passage]
  have examined : ((q.examineInside k).passage k).examined = (q.passage k).examined := by
    unfold Passage.examined
    rw [inside]
  have handling : ((q.examineInside k).passage k).handling = (q.passage k).handling := by
    unfold Passage.handling
    rw [inside]
  refine ⟨?_, front, ?_, ?_, fun j hj => ?_, kept.records⟩
  · rw [examined, handling, ← begun]
    show q.setTracker k _ = { q with trackers := q.trackers.set k ((q.setTracker k _).trackers.get k) }
    rw [Part.setTracker_trackers, Quad.get_set_self]
    rfl
  · rw [passage]
    have same := Passage.sameAxles axles
    exact { same with state := rfl }
  · rw [handling]
    exact congrArg Tracker.handling begun
  · unfold Part.examineInside
    rw [Part.setTracker_trackers, Quad.get_set_other _ hj, trackers]
    simp only [Part.setPassage, Part.setTracker, Part.setFront, Quad.get_set_other _ hj]

/-! ### What each class makes of the record -/

/-- R41: the record with matching suspended. -/
def Passage.suspended (r : Passage) : Passage := { r with flags := { r.flags with matchSuspended := true } }

theorem Passage.suspend_axles (r : Passage) : r.suspend.axles = r.suspended.axles := by
  unfold Passage.suspend
  split
  · rename_i already
    have same : r.suspended = r := by unfold Passage.suspended; rw [← already]
    rw [same]
  · rfl

/-- R46, R47: a transit moves the pace and may set FAST or SLOW; without one they stay. -/
theorem Passage.paced_cases (c r : Passage) (spacing : Nat) (transit : Option Nat) :
    ∃ (pace : Option Nat) (fast slow : Bool),
      c.paced r spacing transit = { c with pace := pace, flags := { c.flags with fast := fast, slow := slow } } ∧
      (∀ d : Nat, transit = some d → pace = some (filterPace r.pace (axlePace d spacing).pace) ∧
        fast = (r.flags.fast || (axlePace d spacing).fast) ∧ slow = (r.flags.slow || (axlePace d spacing).slow)) ∧
      (transit = none → pace = c.pace ∧ fast = c.flags.fast ∧ slow = c.flags.slow) := by
  cases transit with
  | none => exact ⟨c.pace, c.flags.fast, c.flags.slow, rfl, nofun, fun _ => ⟨rfl, rfl, rfl⟩⟩
  | some d => exact ⟨_, _, _, rfl, fun _ h => by cases h; exact ⟨rfl, rfl, rfl⟩, nofun⟩

/-- R35, R37 to R41, R45 to R47: `c` is what the take of the event `e` makes of the open record `r`, `inner` telling
whether it is of the entry pair. -/
structure Passage.Classed (r : Passage) (e : AxleEvent) (inner : Bool) (deadline : Time) (loss : Bool) (spacing : Nat)
    (c : Passage) : Prop where
  number    : c.number = r.number
  entryPair : c.entryPair = r.entryPair
  openTime  : c.openTime = r.openTime
  silence   : c.silence = some deadline
  axleLoss  : c.flags.axleLoss = (r.flags.axleLoss || loss)
  lossStops : loss = true → c.flags.matchSuspended = true
  entry     : inner = true → e.direction ≠ .outward → c.entries = r.entries + 1 ∧ c.inside = r.inside + 1 ∧
    c.exits = r.exits ∧ c.backouts = r.backouts ∧ c.flags.countError = r.flags.countError ∧
    c.flags.reversal = r.flags.reversal ∧ c.flags.conflict = r.flags.conflict
  exit      : inner = false → e.direction ≠ .inward → c.exits = r.exits + 1 ∧ c.inside = r.left ∧
    c.entries = r.entries ∧ c.backouts = r.backouts ∧
    c.flags.countError = (r.flags.countError || decide (r.inside = 0)) ∧
    c.flags.reversal = r.flags.reversal ∧ c.flags.conflict = r.flags.conflict
  backout   : inner = true → e.direction = .outward → c.backouts = r.backouts + 1 ∧ c.inside = r.left ∧
    c.entries = r.entries ∧ c.exits = r.exits ∧ c.flags.reversal = true ∧
    c.flags.countError = (r.flags.countError || decide (r.inside = 0)) ∧ c.flags.conflict = r.flags.conflict
  conflict  : inner = false → e.direction = .inward → c.inside = r.inside + 1 ∧ c.flags.conflict = true ∧
    c.entries = r.entries ∧ c.exits = r.exits ∧ c.backouts = r.backouts ∧
    c.flags.countError = r.flags.countError ∧ c.flags.reversal = r.flags.reversal
  turnStops : ¬ e.Paces inner → c.flags.matchSuspended = true
  paced     : ∀ d : Nat, e.Paces inner → e.transit = some d →
    c.pace = some (filterPace r.pace (axlePace d spacing).pace) ∧
    c.flags.fast = (r.flags.fast || (axlePace d spacing).fast) ∧
    c.flags.slow = (r.flags.slow || (axlePace d spacing).slow)
  unpaced   : ¬ e.Paces inner ∨ e.transit = none →
    c.pace = r.pace ∧ c.flags.fast = r.flags.fast ∧ c.flags.slow = r.flags.slow

/-- R37, R38, R46, R47: an entry axle or an exit axle. -/
theorem Passage.counted_classed (r : Passage) {e : AxleEvent} {inner : Bool} (paces : e.Paces inner) (deadline : Time)
    (loss : Bool) (spacing : Nat) : r.Classed e inner deadline loss spacing
      (((r.takenAs deadline loss).counted inner).paced r spacing e.transit) := by
  obtain ⟨pace, fast, slow, eq, moved, kept⟩ :=
    ((r.takenAs deadline loss).counted inner).paced_cases r spacing e.transit
  rw [eq]
  rcases paces with ⟨rfl, inward⟩ | ⟨rfl, outward⟩
  · exact {
      number := rfl, entryPair := rfl, openTime := rfl, silence := rfl, axleLoss := rfl
      lossStops := fun lost => by rw [lost]; exact Bool.or_true _
      entry := fun _ _ => ⟨rfl, rfl, rfl, rfl, rfl, rfl, rfl⟩
      exit := nofun
      backout := fun _ h => absurd h inward
      conflict := nofun
      turnStops := fun h => absurd (.inl ⟨rfl, inward⟩) h
      paced := fun d _ => moved d
      unpaced := fun h => kept (h.resolve_left (not_not_intro (.inl ⟨rfl, inward⟩))) }
  · exact {
      number := rfl, entryPair := rfl, openTime := rfl, silence := rfl, axleLoss := rfl
      lossStops := fun lost => by rw [lost]; exact Bool.or_true _
      entry := nofun
      exit := fun _ _ => ⟨rfl, rfl, rfl, rfl, rfl, rfl, rfl⟩
      backout := nofun
      conflict := fun _ h => absurd h outward
      turnStops := fun h => absurd (.inr ⟨rfl, outward⟩) h
      paced := fun d _ => moved d
      unpaced := fun h => kept (h.resolve_left (not_not_intro (.inr ⟨rfl, outward⟩))) }

/-- R39 to R41: a backout or a conflict. -/
theorem Passage.turning_classed (r : Passage) {e : AxleEvent} {inner : Bool} (turns : ¬ e.Paces inner) (deadline : Time)
    (loss : Bool) (spacing : Nat) : r.Classed e inner deadline loss spacing
      ((r.takenAs deadline loss).turning inner).suspended := by
  cases inner with
  | true => exact {
      number := rfl, entryPair := rfl, openTime := rfl, silence := rfl, axleLoss := rfl
      lossStops := fun _ => rfl
      entry := fun _ h => absurd (.inl ⟨rfl, h⟩) turns
      exit := nofun
      backout := fun _ _ => ⟨rfl, rfl, rfl, rfl, rfl, rfl, rfl⟩
      conflict := nofun
      turnStops := fun _ => rfl
      paced := fun _ h => absurd h turns
      unpaced := fun _ => ⟨rfl, rfl, rfl⟩ }
  | false => exact {
      number := rfl, entryPair := rfl, openTime := rfl, silence := rfl, axleLoss := rfl
      lossStops := fun _ => rfl
      entry := nofun
      exit := fun _ h => absurd (.inr ⟨rfl, h⟩) turns
      backout := nofun
      conflict := fun _ _ => ⟨rfl, rfl, rfl, rfl, rfl, rfl, rfl⟩
      turnStops := fun _ => rfl
      paced := fun _ h => absurd h turns
      unpaced := fun _ => ⟨rfl, rfl, rfl⟩ }

/-- The fields that `Classed` speaks of. -/
theorem Passage.Classed.of_same {r c a : Passage} {e : AxleEvent} {inner : Bool} {deadline : Time} {loss : Bool}
    {spacing : Nat} {state : PassageState} (h : r.Classed e inner deadline loss spacing c)
    (same : a.SameAxles { c with state := state }) : r.Classed e inner deadline loss spacing a := by
  obtain ⟨-, number, entryPair, openTime, entries, exits, backouts, inside, pace, silence, slow, fast, axleLoss,
    reversal, conflict, countError, matchSuspended⟩ := same
  obtain ⟨_, _, _, _, _, _, _, _, _, _, _, _, _⟩ := h
  constructor <;>
    simpa only [number, entryPair, openTime, entries, exits, backouts, inside, pace, silence, slow, fast, axleLoss,
      reversal, conflict, countError, matchSuspended]

/-- A record that is counted, or backed out of, in RUNNING stays there. -/
theorem Passage.paced_running (r : Passage) (deadline : Time) (loss inner : Bool) (spacing : Nat)
    (transit : Option Nat) : (((r.takenAs deadline loss).counted inner).paced r spacing transit).state = .running := by
  obtain ⟨_, _, _, eq, -⟩ := ((r.takenAs deadline loss).counted inner).paced_cases r spacing transit
  rw [eq]
  cases inner
  · rfl
  · rfl

theorem Passage.turning_running (r : Passage) (deadline : Time) (loss inner : Bool) :
    ((r.takenAs deadline loss).turning inner).suspended.state = .running := by
  cases inner
  · rfl
  · rfl

/-! ### The take of an event in an open passage -/

/-- R12, R35: the take of an event at an open record. -/
theorem Part.takeEvent_open {p : Part} {k : Track} {e : AxleEvent} {rest : List AxleEvent}
    (hq : (p.front.get k).queue = e :: rest) (hh : (p.trackers.get k).handling = none)
    (opened : (p.passage k).state ≠ .vacant) : p.takeEvent k =
      (((p.setFront k (p.front.get k).dequeue).setPassage k
        ((p.passage k).takenAs (p.silenceAt k) (p.front.get k).loss)).classify k e).examineInside k := by
  have due : p.takeDue k = true := by simp [Part.takeDue, hq, hh]
  have opened' : ((p.setFront k (p.front.get k).dequeue).passage k).state ≠ .vacant := opened
  unfold Part.takeEvent
  rw [if_pos due]
  simp only [hq, opened', if_false]
  rw [← Passage.taken_eq]
  rfl

/-- R37, R38: what an entry axle or an exit axle, classed, leaves of the track. -/
theorem Part.classify_paces_matched {q : Part} {k : Track} {e : AxleEvent} {c r : Passage} {inner : Bool}
    (hc : q.passage k = c) (pair : inner = decide (c.entryPair = some e.pair)) (paces : e.Paces inner)
    (like : c.PacedLike r) :
    (q.setPassage k ((c.counted inner).paced r ((q.record k).spacing e.pair) e.transit)).Matched k
      (q.classify k e) := by
  have updated := Part.updatePace_matched (p := q.setPassage k (c.counted inner)) (k := k) (Part.passage_setPassage ..)
    (like.counted inner) e.pair e.transit
  rw [Part.setPassage_setPassage] at updated
  rw [Part.classify_paces hc pair paces]
  dsimp only
  split
  · exact updated.trans (Part.handAxle_matched _ k e _)
  · exact updated

/-- R39, R40: what a backout or a conflict, classed, leaves of the track. -/
theorem Part.classify_turns_matched {q : Part} {k : Track} {e : AxleEvent} {c : Passage} {inner : Bool}
    (hc : q.passage k = c) (pair : inner = decide (c.entryPair = some e.pair)) (turns : ¬ e.Paces inner) :
    (q.setPassage k (c.turning inner).suspended).Matched k (q.classify k e) := by
  rw [Part.classify_turns hc pair turns]
  generalize (if inner then CancelCause.reversal else CancelCause.conflict) = cause
  have tracks := (q.setPassage k (c.turning inner)).cancelPassage_tracks k c.number cause
  have kept := (q.setPassage k (c.turning inner)).cancelPassage_kept k c.number cause
  generalize (q.setPassage k (c.turning inner)).cancelPassage k c.number cause = cancelled at *
  have before := (q.setPassage k (c.turning inner).suspend).setPassage_kept k (c.turning inner)
  rw [Part.setPassage_setPassage] at before
  have same : (q.setPassage k (c.turning inner).suspend).SameTracks
      (cancelled.setPassage k (c.turning inner).suspend) := by
    refine ⟨tracks.front, ?_⟩
    show cancelled.trackers.set k { cancelled.trackers.get k with passage := (c.turning inner).suspend } = _
    rw [tracks.trackers]
    exact congrArg Part.trackers (q.setPassage_setPassage k (c.turning inner) (c.turning inner).suspend)
  exact .of_axles (same.matched ((before.trans kept).trans (cancelled.setPassage_kept k _)) k) (Passage.suspend_axles _)

/-- R35 to R47: an event classed at the record of its take, on a track whose front end has given it up. -/
theorem Part.classify_classed (p : Part) (k : Track) (f : FrontEnd) (r : Passage) (e : AxleEvent) (deadline : Time)
    (loss : Bool) : ∃ c : Passage,
      ((p.setFront k f).setPassage k c).Matched k
        (((p.setFront k f).setPassage k (r.takenAs deadline loss)).classify k e) ∧ c.state = .running ∧
      r.Classed e (decide (r.entryPair = some e.pair)) deadline loss ((p.record k).spacing e.pair) c := by
  have record := (p.setFront k f).passage_setPassage k (r.takenAs deadline loss)
  by_cases paces : e.Paces (decide (r.entryPair = some e.pair))
  · have matched := Part.classify_paces_matched (r := r) record rfl paces ⟨rfl, rfl, rfl, rfl⟩
    rw [Part.setPassage_setPassage] at matched
    exact ⟨_, matched, Passage.paced_running .., r.counted_classed paces ..⟩
  · have matched := Part.classify_turns_matched record rfl paces
    rw [Part.setPassage_setPassage] at matched
    exact ⟨_, matched, Passage.turning_running .., r.turning_classed paces ..⟩

/-- R38, R40, R111: a backout or a conflict ends the WAITING jobs of the passage and no other, each with its JOB_ENDED
where places are free. -/
theorem Part.classify_cancels {q : Part} {k : Track} {e : AxleEvent} {c : Passage} {inner : Bool} (hc : q.passage k = c)
    (pair : inner = decide (c.entryPair = some e.pair)) (turns : ¬ e.Paces inner) :
    (∀ j ∈ (q.classify k e).csc.jobs, j.waitsIn k c.number = false) ∧
    (q.TagsDistinct → (q.classify k e).csc.jobs.map Job.unlit =
        (q.csc.jobs.filter (fun j => !j.waitsIn k c.number)).map Job.unlit ∧
      (q.mgr.control.length + q.mgr.waiting.length + (q.csc.jobs.filter (Job.waitsIn k c.number)).length ≤ 16 →
        ∃ ended : List Job, ended.map Job.unlit = (q.csc.jobs.filter (Job.waitsIn k c.number)).map Job.unlit ∧
          (q.classify k e).mgr = { q.mgr with control := q.mgr.control ++ ended.map (fun j =>
            q.noticeRecord (.jobEnded j q.now .cancelled (if inner then .reversal else .conflict))) })) := by
  rw [Part.classify_turns hc pair turns]
  exact ⟨fun j left => Part.cancelPassage_left left, fun distinct =>
    ⟨Part.cancelPassage_unlit (p := q.setPassage k (c.turning inner)) distinct k c.number _,
      Part.cancelPassage_mgr (p := q.setPassage k (c.turning inner)) distinct _⟩⟩

/-- Settles O48: `classify_timed` and `classify_cancels` say what each class does, `Classed` what it makes of the
record. -/
theorem eventTakeClassesAxle : Obligations.EventTakeClassesAxle := by
  intro s k e rest p f r atEntry left inner paces deadline taken counted measured paced moved axled timed handed waits
    unlit cause hq hh opened
  have event := Part.takeEvent_open hq hh opened
  rw [FrontEnd.dequeue_cons hq] at event
  have record := (p.setFront k { f with queue := rest, loss := f.loss && !rest.isEmpty }).passage_setPassage k
    ((p.passage k).takenAs (p.silenceAt k) (p.front.get k).loss)
  obtain ⟨c, matched, running, classed⟩ := p.classify_classed k
    { f with queue := rest, loss := f.loss && !rest.isEmpty } (p.passage k) e (p.silenceAt k) (p.front.get k).loss
  have ex := matched.examined running
  have of := classed.of_same ex.record
  have turns (h : (atEntry ∧ e.direction = .outward) ∨ (¬ atEntry ∧ e.direction = .inward)) : ¬ paces := by
    rintro (⟨at_, hd⟩ | ⟨at_, hd⟩)
    · exact h.elim (fun h => hd h.2) (fun h => h.1 (of_decide_eq_true at_))
    · exact h.elim (fun h => of_decide_eq_false at_ h.1) (fun h => hd h.2)
  have pacing (hp : paces) := (Part.classify_timed (inner := inner) (r := r) record rfl hp
    ⟨rfl, rfl, rfl, rfl⟩).trans (show _ = handed by simp only [Part.setPassage_setPassage]; rfl)
  refine ⟨_, State.next_withPart event, ex.front, fun at_ hd => of.entry (decide_eq_true at_) hd,
    fun at_ hd => of.exit (decide_eq_false at_) hd, fun at_ hd => of.backout (decide_eq_true at_) hd,
    fun at_ hd => of.conflict (decide_eq_false at_) hd, fun h => ⟨of.turnStops (turns h), ?_, ?_⟩,
    fun hp => congrArg s.withPart (ex.part.trans ?_), fun d hp ht => of.paced d hp ht, of.unpaced, of.number,
    of.entryPair, of.openTime, of.silence, of.axleLoss, of.lossStops, ex.record.state, ex.handling, ex.others,
    ex.records⟩
  · intro j hj waiting track passage
    have left : j.waitsIn k r.number = false := (Part.classify_cancels record rfl (turns h)).1 j hj
    exact absurd (Job.waitsIn_iff.mpr ⟨waiting, track, passage⟩) (by rw [left]; exact nofun)
  · exact (Part.classify_cancels record rfl (turns h)).2
  · rw [pacing hp]
    rfl

end Sys2Proof.Machine
end

