-- ==== Sys2Proof/Proofs/JobRules.lean ====
section
/-! PROOFS. Where a job can enter the schedule (O11): `p.NoNewJobs q` says that `q` is in the mode of `p` and, outside
ON_LINE, has no tag in its schedule that `p` has not. One rule per update of the part; every operation is then a chain
of them, but for those that R75, R101 and R113 keep to ON_LINE. -/

namespace Sys2Proof.Machine

/-- `q` is in the mode of `p`, and outside ON_LINE its schedule holds no tag that the schedule of `p` does not hold. -/
structure Part.NoNewJobs (p q : Part) : Prop where
  mode : q.mode = p.mode
  tags : p.mode ≠ .onLine → ∀ j ∈ q.csc.jobs, ∃ i ∈ p.csc.jobs, i.tag = j.tag

namespace Part.NoNewJobs

variable {p q r : Part}

theorem refl (p : Part) : p.NoNewJobs p := ⟨rfl, fun _ j hj => ⟨j, hj, rfl⟩⟩

theorem trans (h : p.NoNewJobs q) (g : q.NoNewJobs r) : p.NoNewJobs r := by
  refine ⟨g.mode.trans h.mode, fun off j hj => ?_⟩
  obtain ⟨i, hi, same⟩ := g.tags (h.mode ▸ off) j hj
  obtain ⟨x, hx, same'⟩ := h.tags off i hi
  exact ⟨x, hx, same'.trans same⟩

/-! ### One rule per update of the part -/

/-- An update that leaves the mode and the scheduler alone. -/
theorem same (h : p.NoNewJobs q) (mode : r.mode = q.mode) (csc : r.csc = q.csc) : p.NoNewJobs r :=
  ⟨mode.trans h.mode, fun off => by rw [csc]; exact h.tags off⟩

/-- A part in ON_LINE may have made jobs, as long as it stays there. -/
theorem of_kept (kept : q.Kept r) (gated : q.mode ≠ .onLine → q.NoNewJobs r) : q.NoNewJobs r :=
  ⟨kept.mode, fun off => (gated off).tags off⟩

theorem setTracker {k : Track} {x : Tracker} (h : p.NoNewJobs q) : p.NoNewJobs (q.setTracker k x) := h.same rfl rfl

theorem setPassage {k : Track} {x : Passage} (h : p.NoNewJobs q) : p.NoNewJobs (q.setPassage k x) := h.setTracker

theorem setMatcher {k : Track} {x : Matcher} (h : p.NoNewJobs q) : p.NoNewJobs (q.setMatcher k x) := h.setTracker

theorem modJob {t : Tag} {f : Job → Job} (h : p.NoNewJobs q) (hf : ∀ j, (f j).tag = j.tag) :
    p.NoNewJobs (q.modJob t f) := by
  refine ⟨h.mode, fun off x hx => ?_⟩
  obtain ⟨j, hj, rfl⟩ := List.mem_map.mp hx
  obtain ⟨i, hi, tag⟩ := h.tags off j hj
  refine ⟨i, hi, ?_⟩
  split
  · exact tag.trans (hf j).symm
  · exact tag

theorem removeJob {t : Tag} (h : p.NoNewJobs q) : p.NoNewJobs (q.removeJob t) :=
  ⟨h.mode, fun off j hj => h.tags off j (List.mem_of_mem_filter hj)⟩

theorem notice {n : Notice} (h : p.NoNewJobs q) : p.NoNewJobs (q.notice n) :=
  h.same (q.notice_kept n).mode (q.notice_frame n).1

theorem placeOrWait {x : ControlRecord} (h : p.NoNewJobs q) : p.NoNewJobs (q.placeOrWait x) := by
  rcases q.placeOrWait_cases x with ⟨-, eq⟩ | ⟨-, eq⟩
  · rw [eq]
    exact h.same rfl rfl
  · rw [eq]
    exact h.same rfl rfl

/-- A fold makes no new job if none of its steps does. -/
theorem foldl {α : Type} {f : Part → α → Part} (hf : ∀ (q : Part) (a : α), p.NoNewJobs q → p.NoNewJobs (f q a)) :
    ∀ (l : List α) {q : Part}, p.NoNewJobs q → p.NoNewJobs (l.foldl f q)
  | [], _, h => h
  | a :: l, _, h => foldl hf l (hf _ a h)

/-! ### Lamp arbiter -/

/-- The arbiter changes no tag of the schedule (07 §7.1). -/
theorem relit (h : p.NoNewJobs q) (g : q.Relit r) : p.NoNewJobs r := by
  refine ⟨(congrArg Responder.mode g.mgr).trans h.mode, fun off j hj => ?_⟩
  obtain ⟨i, hi, tag⟩ := List.mem_map.mp (g.tags ▸ List.mem_map_of_mem (f := Job.tag) hj)
  exact tag ▸ h.tags off i hi

theorem lampWindowEnd {t : Tag} (h : p.NoNewJobs q) : p.NoNewJobs (q.lampWindowEnd t) := by
  unfold Part.lampWindowEnd
  split
  · exact h
  · split
    · exact h.relit ((q.setLar_relit _).trans (Part.grant_relit _))
    · exact h.relit (q.setLar_relit _)
    · exact h.relit ((q.setLar_relit _).trans (Part.setLamp_relit _ _ _))
    all_goals exact h.relit (((q.setLar_relit _).trans (Part.setLamp_relit _ _ _)).trans (Part.grant_relit _))

theorem recoveryEnd (h : p.NoNewJobs q) : p.NoNewJobs q.recoveryEnd := by
  unfold Part.recoveryEnd
  split
  · exact h.relit ((q.setLar_relit _).trans (Part.grant_relit _))
  · exact h

/-! ### Image retrieval -/

theorem kickEngine (h : p.NoNewJobs q) : p.NoNewJobs q.kickEngine :=
  h.same q.kickEngine_kept.mode q.kickEngine_frame.1

theorem finishFetch {e : FetchEntry} (h : p.NoNewJobs q) : p.NoNewJobs (q.finishFetch e) := by
  unfold Part.finishFetch
  dsimp only
  split
  · exact h.same rfl rfl
  · exact placeOrWait (h.same rfl rfl)

theorem placeFrame {f : ImageFrame} (h : p.NoNewJobs q) : p.NoNewJobs (q.placeFrame f) := by
  unfold Part.placeFrame
  dsimp only
  split
  · exact kickEngine (h.same rfl rfl)
  · exact h.same rfl rfl

theorem completeFrame {f : ImageFrame} (h : p.NoNewJobs q) : p.NoNewJobs (q.completeFrame f) := by
  unfold Part.completeFrame
  split
  · exact h.placeFrame
  · exact h.same rfl rfl

theorem engineRead {g : ReadEngine} (h : p.NoNewJobs q) : p.NoNewJobs (q.engineRead g) := by
  unfold Part.engineRead
  split
  · exact h.completeFrame
  · split
    · exact h
    · dsimp only
      split
      · exact completeFrame (h.same rfl rfl)
      · exact h.same rfl rfl

theorem completeRead (h : p.NoNewJobs q) : p.NoNewJobs q.completeRead := by
  unfold Part.completeRead
  split
  · dsimp only
    split
    · exact h.same rfl rfl
    · exact engineRead (h.same rfl rfl)
  · exact h

theorem readTurn (h : p.NoNewJobs q) : p.NoNewJobs q.readTurn := by
  unfold Part.readTurn
  split
  · exact h.completeRead
  · exact h

theorem placeKept (h : p.NoNewJobs q) : p.NoNewJobs q.placeKept := by
  unfold Part.placeKept
  split
  · split
    · split
      · exact h.placeFrame
      · exact h
    · exact h
  · exact h

theorem endDelivery {t : Tag} (h : p.NoNewJobs q) : p.NoNewJobs (q.endDelivery t) := by
  unfold Part.endDelivery
  split
  · exact h
  · exact h.finishFetch

/-! ### Camera ports -/

theorem modPortJob {k : Track} {f : Job → Job} (h : p.NoNewJobs q) (hf : ∀ j, (f j).tag = j.tag) :
    p.NoNewJobs (q.modPortJob k f) := by
  unfold Part.modPortJob
  split
  · exact h.modJob hf
  · exact h

theorem syncLost {k : Track} (h : p.NoNewJobs q) : p.NoNewJobs (q.syncLost k) := by
  unfold Part.syncLost
  dsimp only
  split
  · split
    · exact notice (h.same rfl rfl)
    · exact h.same rfl rfl
  · exact h

theorem syncFound {k : Track} (h : p.NoNewJobs q) : p.NoNewJobs (q.syncFound k) := h.same rfl rfl

theorem writeLine {k : Track} {l : Line} (h : p.NoNewJobs q) : p.NoNewJobs (q.writeLine k l) := by
  unfold Part.writeLine
  split
  · exact h
  · refine modJob ?_ fun _ => rfl
    split
    · exact h.same rfl rfl
    · exact h

theorem finishDrain {k : Track} {kind : DrainEnd} {n : Nat} (h : p.NoNewJobs q) :
    p.NoNewJobs (q.finishDrain k kind n) := by
  unfold Part.finishDrain
  split
  · exact h
  · split
    · exact h
    · refine kickEngine (notice (removeJob ?_))
      split
      · exact h.same rfl rfl
      · exact h.same rfl rfl

theorem checkDrain {k : Track} (h : p.NoNewJobs q) : p.NoNewJobs (q.checkDrain k) := by
  unfold Part.checkDrain
  split
  · split
    · exact h.finishDrain
    · exact h
  · exact h

theorem finishTurn {k : Track} (h : p.NoNewJobs q) : p.NoNewJobs (q.finishTurn k) := by
  unfold Part.finishTurn
  dsimp only
  split
  · exact h.same rfl rfl
  · exact checkDrain (writeLine (h.same rfl rfl))

theorem writeTurn {k : Track} (h : p.NoNewJobs q) : p.NoNewJobs (q.writeTurn k) := by
  unfold Part.writeTurn
  split
  · exact h.finishTurn
  · exact h

theorem completeTurn {k : Track} (h : p.NoNewJobs q) : p.NoNewJobs (q.completeTurn k) := by
  unfold Part.completeTurn
  split
  · split
    · exact h.finishTurn
    · exact h
  · exact h

theorem flushDrain {k : Track} {kind : DrainEnd} (h : p.NoNewJobs q) : p.NoNewJobs (q.flushDrain k kind) := by
  have flushed : p.NoNewJobs (q.flushFifo k) := 
    same (foldl (fun _ _ h => h.writeLine) (q.ports.get k).fifo h) rfl rfl
  unfold Part.flushDrain
  dsimp only
  split
  · exact flushed
  · exact finishDrain (flushed.modPortJob fun _ => rfl)

theorem forceDrain {k : Track} {kind : DrainEnd} (h : p.NoNewJobs q) : p.NoNewJobs (q.forceDrain k kind) := by
  unfold Part.forceDrain
  dsimp only
  split
  · exact h.completeTurn.flushDrain
  · exact h.completeTurn

theorem drainDeadline {t : Tag} (h : p.NoNewJobs q) : p.NoNewJobs (q.drainDeadline t) := by
  unfold Part.drainDeadline
  split
  · split
    · exact h.forceDrain
    · exact h
  · exact h

theorem trigger {k : Track} (h : p.NoNewJobs q) : p.NoNewJobs (q.trigger k) := by
  unfold Part.trigger
  split
  · split
    · exact modPortJob (h.same rfl rfl) fun _ => rfl
    · exact h
  · exact h

theorem pulseEnd {k : Track} (h : p.NoNewJobs q) : p.NoNewJobs (q.pulseEnd k) := by
  unfold Part.pulseEnd
  split
  · exact h.same rfl rfl
  · exact h

theorem takeLine {k : Track} {pk : LinePacket} {g : Bool} (h : p.NoNewJobs q) : p.NoNewJobs (q.takeLine k pk g) := by
  unfold Part.takeLine
  split
  · unfold Part.offerLine
    dsimp only
    split
    · exact h.same rfl rfl
    · exact modPortJob (h.same rfl rfl) fun _ => rfl
  · exact modPortJob (h.same rfl rfl) fun _ => rfl

theorem linePacket {k : Track} {pk : LinePacket} (h : p.NoNewJobs q) : p.NoNewJobs (q.linePacket k pk) := by
  have stray : p.NoNewJobs (q.strayLine k) := h.same rfl rfl
  unfold Part.linePacket
  dsimp only
  split
  · split
    · exact stray
    · exact stray
    · split
      · exact stray
      · split
        · exact h.takeLine.checkDrain
        · split
          · exact stray
          · split
            · exact h.takeLine.checkDrain
            · exact checkDrain (takeLine (h.modPortJob fun _ => rfl))
  · exact h

/-! ### Capture scheduler -/

theorem endJob {t : Tag} {reason : EndReason} {c : CancelCause} (h : p.NoNewJobs q) :
    p.NoNewJobs (q.endJob t reason c) := by
  rcases q.endJob_cases t reason c with ⟨-, eq⟩ | ⟨j, -, eq⟩
  · rw [eq]
    exact h
  · rw [eq]
    exact (h.relit (q.lampJobEnd_relit t)).removeJob.notice

theorem cancelJobs {f : Job → Bool} {c : CancelCause} (h : p.NoNewJobs q) : p.NoNewJobs (q.cancelJobs f c) :=
  foldl (fun _ _ h => h.endJob) _ h

theorem openJob {t : Tag} (h : p.NoNewJobs q) : p.NoNewJobs (q.openJob t) := by
  unfold Part.openJob
  split
  · exact h
  · split
    · exact h.endJob
    · split
      · dsimp only
        split
        · exact modJob (h.forceDrain.same rfl rfl) fun _ => rfl
        · exact modJob (h.same rfl rfl) fun _ => rfl
      · exact h.endJob

theorem openIfDue {t : Tag} (h : p.NoNewJobs q) : p.NoNewJobs (q.openIfDue t) := by
  unfold Part.openIfDue
  split
  · exact h.openJob
  · exact h

theorem endWindow {t : Tag} {b : Time} (h : p.NoNewJobs q) : p.NoNewJobs (q.endWindow t b) := by
  unfold Part.endWindow
  split
  · exact h
  · exact checkDrain (modJob (lampWindowEnd (h.same rfl rfl)) fun _ => rfl)

theorem windowEnd {t : Tag} (h : p.NoNewJobs q) : p.NoNewJobs (q.windowEnd t) := by
  unfold Part.windowEnd
  split
  · split
    · exact h.endWindow
    · exact h
  · exact h

theorem ceaseJob {j : Job} (h : p.NoNewJobs q) : p.NoNewJobs (q.ceaseJob j) := by
  unfold Part.ceaseJob
  split
  · exact h.endJob
  · exact endWindow (h.modJob fun _ => rfl)
  · exact h

/-- R48, R101: a pace change re-times jobs in ON_LINE only. -/
theorem retimePassage {k : Track} {n : Count16} (h : p.NoNewJobs q) : p.NoNewJobs (q.retimePassage k n) :=
  h.trans (of_kept (q.retimePassage_kept k n) fun off => by
    rw [Part.retimePassage, if_neg off]
    exact .refl q)

/-! ### Axle pattern matcher -/

theorem flagNoSpeed {k : Track} (h : p.NoNewJobs q) : p.NoNewJobs (q.flagNoSpeed k) := by
  unfold Part.flagNoSpeed
  split
  · exact h
  · exact h.setPassage

/-- R75: a sighting is handed to the capture scheduler in ON_LINE only. -/
theorem handSighting {k : Track} {c : Bool} {s : Sighting} (h : p.NoNewJobs q) :
    p.NoNewJobs (Part.handSighting k c q s) := by
  refine h.trans (of_kept (Part.handSighting_kept k c q s) fun off => ?_)
  unfold Part.handSighting
  dsimp only
  rw [if_neg fun on => off on.1]
  exact (refl q).setPassage

theorem declare {k : Track} {c : Bool} {x : Candidate} (h : p.NoNewJobs q) : p.NoNewJobs (q.declare k c x) := by
  unfold Part.declare
  dsimp only
  split
  · exact setMatcher (foldl (fun _ _ h => h.handSighting) _ h.setPassage)
  · exact h.setMatcher

theorem arrive {k : Track} {a : PendingAxle} {g : Nat} (h : p.NoNewJobs q) : p.NoNewJobs (q.arrive k a g) := by
  unfold Part.arrive
  dsimp only
  split
  · exact h.setMatcher
  · split
    · split
      · exact h.declare.setMatcher
      · exact h.setPassage
    · exact h.setMatcher

theorem startCoupling {k : Track} (h : p.NoNewJobs q) : p.NoNewJobs (q.startCoupling k) := by
  unfold Part.startCoupling
  dsimp only
  split
  · exact h.flagNoSpeed.setMatcher
  · exact h

theorem innerTime {k : Track} {i : PairId} {d : HeadId} {t : Time} (h : p.NoNewJobs q) :
    p.NoNewJobs (q.innerTime k i d t).1 := by
  unfold Part.innerTime
  split
  · exact h
  · exact h.flagNoSpeed

theorem measureGap {k : Track} {t : Time} (h : p.NoNewJobs q) : p.NoNewJobs (q.measureGap k t).1 := by
  unfold Part.measureGap
  split
  · exact h
  · dsimp only
    split
    · exact h
    · exact h.flagNoSpeed

theorem handAxle {k : Track} {e : AxleEvent} {n : Count16} (h : p.NoNewJobs q) : p.NoNewJobs (q.handAxle k e n) :=
  h.setMatcher.innerTime.measureGap.arrive.startCoupling

theorem moveCoupling {k : Track} (h : p.NoNewJobs q) : p.NoNewJobs (q.moveCoupling k) := by
  unfold Part.moveCoupling
  dsimp only
  split
  · exact h.setMatcher
  · exact h

theorem expireCoupling {k : Track} (h : p.NoNewJobs q) : p.NoNewJobs (q.expireCoupling k) := by
  unfold Part.expireCoupling
  split
  · exact h.declare
  · exact h.setMatcher

/-! ### Passage tracker -/

/-- R75: a passage that closes hands no sighting over. -/
theorem closePassage {k : Track} {reason : CloseReason} (h : p.NoNewJobs q) :
    p.NoNewJobs (q.closePassage k reason) := by
  refine h.same (q.closePassage_kept k reason).mode ?_
  have closed := q.closePassage_spec k reason
  unfold Part.ClosedAs at closed
  split at closed
  · rw [closed]
  · obtain ⟨final, -, eq⟩ := closed
    rw [eq]

theorem takeDeferred {k : Track} {d : Deferred} (h : p.NoNewJobs q) : p.NoNewJobs (Part.takeDeferred k q d) := by
  cases d with
  | report occupied =>
    show p.NoNewJobs (q.takeReport k occupied)
    unfold Part.takeReport
    split
    · exact h.closePassage
    · exact h
  | toService => exact h.closePassage
  | reset => exact h.setPassage

theorem reachTracker {k : Track} {d : Deferred} (h : p.NoNewJobs q) : p.NoNewJobs (q.reachTracker k d) := by
  unfold Part.reachTracker
  split
  · exact h.setTracker
  · exact h.takeDeferred

theorem updatePace {k : Track} {i : PairId} {t : Option Nat} (h : p.NoNewJobs q) :
    p.NoNewJobs (q.updatePace k i t) := by
  unfold Part.updatePace
  split
  · exact h
  · dsimp only
    split
    · exact h.setPassage
    · exact h.setPassage.moveCoupling.retimePassage

theorem entryAxle {k : Track} {e : AxleEvent} (h : p.NoNewJobs q) : p.NoNewJobs (q.entryAxle k e) := by
  unfold Part.entryAxle
  dsimp only
  split
  · exact h.setPassage.updatePace
  · exact h.setPassage.updatePace.handAxle

theorem backout {k : Track} (h : p.NoNewJobs q) : p.NoNewJobs (q.backout k) := h.setPassage.cancelJobs.setPassage

theorem conflict {k : Track} (h : p.NoNewJobs q) : p.NoNewJobs (q.conflict k) := h.setPassage.cancelJobs.setPassage

theorem classify {k : Track} {e : AxleEvent} (h : p.NoNewJobs q) : p.NoNewJobs (q.classify k e) := by
  unfold Part.classify
  split
  · split
    · exact h.backout
    · exact h.entryAxle
  · split
    · exact h.conflict
    · exact h.setPassage.updatePace

theorem handleEvent {k : Track} {e : AxleEvent} {m : Bool} (h : p.NoNewJobs q) : p.NoNewJobs (q.handleEvent k e m) :=
  h.setPassage.classify.setTracker

theorem takeEvent {k : Track} (h : p.NoNewJobs q) : p.NoNewJobs (q.takeEvent k) := by
  have taken : p.NoNewJobs (q.setFront k (q.front.get k).dequeue) := h.same rfl rfl
  unfold Part.takeEvent
  split
  · dsimp only
    split
    · exact h
    · split
      · split
        · exact taken.setTracker
        · exact taken.setPassage.handleEvent
      · exact taken.handleEvent
  · exact h

theorem couplingAtEnd {k : Track} (h : p.NoNewJobs q) : p.NoNewJobs (q.couplingAtEnd k) := by
  unfold Part.couplingAtEnd
  split
  · exact h.expireCoupling
  · exact h

theorem endHandling {k : Track} {first : Bool} (h : p.NoNewJobs q) : p.NoNewJobs (q.endHandling k first) := by
  cases handling : (q.trackers.get k).handling with
  | none =>
    unfold Part.endHandling
    rw [handling]
    exact h
  | some x =>
    rw [Part.endHandling_eq handling]
    have idle : p.NoNewJobs (q.idled k) := h.setTracker
    have expired : p.NoNewJobs (q.expiredFirst k first) := by
      cases first with
      | false => exact idle
      | true => exact idle.couplingAtEnd
    refine couplingAtEnd (foldl (fun _ _ h => h.takeDeferred) _ ?_)
    unfold Part.closedIfDue
    split
    · exact expired.closePassage
    · exact expired

theorem silenceExpiry {k : Track} (h : p.NoNewJobs q) : p.NoNewJobs (q.silenceExpiry k) := by
  unfold Part.silenceExpiry
  split
  · exact h.closePassage
  · exact h

theorem couplingExpiry {k : Track} (h : p.NoNewJobs q) : p.NoNewJobs (q.couplingExpiry k) := by
  unfold Part.couplingExpiry
  split
  · exact h.expireCoupling
  · exact h

theorem occupancyChange {k : Track} (h : p.NoNewJobs q) : p.NoNewJobs (q.occupancyChange k) := h.same rfl rfl

theorem settleExpiry {k : Track} (h : p.NoNewJobs q) : p.NoNewJobs (q.settleExpiry k) := by
  unfold Part.settleExpiry
  split
  · exact reachTracker (h.same rfl rfl)
  · exact h

/-- R5, R24: a record replaces that of its track. -/
theorem writeRecord {k : Track} {x : TrackRecord} (h : p.NoNewJobs q) : p.NoNewJobs (q.writeRecord k x) := by
  obtain ⟨_, _, eq, -, -, mode, -⟩ := q.writeRecord_frame k x
  rw [eq]
  exact h.same mode rfl

theorem loadRecords {l : Quad TrackRecord} (h : p.NoNewJobs q) : p.NoNewJobs (q.loadRecords l) :=
  foldl (fun _ _ h => h.writeRecord) _ h

/-! ### Sensor front end -/

theorem headInputActive {k : Track} {i : PairId} {d : HeadId} (h : p.NoNewJobs q) :
    p.NoNewJobs (q.headInputActive k i d) := by
  unfold Part.headInputActive
  dsimp only
  split
  · exact h
  · split
    · exact h.same rfl rfl
    · exact h.same rfl rfl

theorem headInputInactive {k : Track} {i : PairId} {d : HeadId} (h : p.NoNewJobs q) :
    p.NoNewJobs (q.headInputInactive k i d) := by
  unfold Part.headInputInactive
  dsimp only
  split
  · split
    · exact h.same rfl rfl
    · exact h.same rfl rfl
  · exact h

theorem firstSample {k : Track} {i : PairId} {d : HeadId} (h : p.NoNewJobs q) : p.NoNewJobs (q.firstSample k i d) := by
  unfold Part.firstSample
  dsimp only
  split
  · split
    · exact h.same rfl rfl
    · exact h
  · exact h

theorem secondSample {k : Track} {i : PairId} {d : HeadId} (h : p.NoNewJobs q) :
    p.NoNewJobs (q.secondSample k i d) := by
  unfold Part.secondSample
  dsimp only
  split
  · split
    · split
      · exact h.same rfl rfl
      · exact h.same rfl rfl
    · exact h
  · exact h

theorem stuckLimit {k : Track} {i : PairId} {d : HeadId} (h : p.NoNewJobs q) : p.NoNewJobs (q.stuckLimit k i d) := by
  unfold Part.stuckLimit
  split
  · exact notice (h.same rfl rfl)
  · exact h

theorem ceilingExpiry {k : Track} {i : PairId} (h : p.NoNewJobs q) : p.NoNewJobs (q.ceilingExpiry k i) := by
  unfold Part.ceilingExpiry
  split
  · exact h.same rfl rfl
  · exact h

/-! ### Recorder link -/

theorem acceptFrame {frame : List Byte} (h : p.NoNewJobs q) : p.NoNewJobs (q.acceptFrame frame) := by
  have offered : p.NoNewJobs (q.offerCommand (commandRecord frame)) := by
    unfold Part.offerCommand
    split
    · exact h.same rfl rfl
    · exact h.same rfl rfl
  unfold Part.acceptFrame
  split
  · exact h
  · split
    · split
      · exact offered
      · exact h.same rfl rfl
    · split
      · exact offered
      · exact h

theorem placeWaiting (h : p.NoNewJobs q) : p.NoNewJobs q.placeWaiting := by
  unfold Part.placeWaiting
  split
  · exact h
  · split
    · dsimp only
      split
      · exact h.same rfl rfl
      · exact h.same rfl rfl
    · exact h

theorem takeForSending (h : p.NoNewJobs q) : p.NoNewJobs q.takeForSending := by
  unfold Part.takeForSending
  split
  · split
    · exact placeWaiting (h.same rfl rfl)
    · split
      · refine placeKept ?_
        split
        · exact endDelivery (h.same rfl rfl)
        · exact h.same rfl rfl
      · exact h
  · exact h

theorem sendingEnd (h : p.NoNewJobs q) : p.NoNewJobs q.sendingEnd := by
  unfold Part.sendingEnd
  split
  · exact h.same rfl rfl
  · exact h

theorem linkLost (h : p.NoNewJobs q) : p.NoNewJobs q.linkLost := h.same rfl rfl

theorem linkFound (h : p.NoNewJobs q) : p.NoNewJobs q.linkFound := h.same rfl rfl

/-! ### Commands -/

theorem reply {x : CommandRecord} {st : Status} {n : Nat} {c : Reply} (h : p.NoNewJobs q) :
    p.NoNewJobs (q.reply x st n c) := h.same rfl rfl

theorem runTrackWrite (x : CommandRecord) (p : Part) : p.NoNewJobs (Part.runTrackWrite x p) := by
  have start := refl p
  unfold Part.runTrackWrite
  split
  · exact start.reply
  · dsimp only
    split
    · exact start.reply
    · split
      · exact start.reply
      · split
        · exact start.reply
        · exact start.reply.writeRecord

/-- R27: a change of the trim re-times jobs in ON_LINE only. -/
theorem setTrim {x : CommandRecord} {k : Track} {t : Int} : p.NoNewJobs (p.setTrim x k t) := by
  have written : p.NoNewJobs { p.reply x .ok 0 (.trim t) with
      records := (p.reply x .ok 0 (.trim t)).records.set k { p.record k with trim := t } } := (refl p).same rfl rfl
  unfold Part.setTrim
  dsimp only
  split
  · rename_i on
    exact written.trans (of_kept (Part.retime_kept _ k _) fun off => absurd on.1 off)
  · exact written

theorem runTrimSet (x : CommandRecord) (p : Part) : p.NoNewJobs (Part.runTrimSet x p) := by
  unfold Part.runTrimSet
  split
  · exact (refl p).reply
  · dsimp only
    split
    · exact setTrim
    · exact (refl p).reply

theorem runTrimStep (x : CommandRecord) (p : Part) : p.NoNewJobs (Part.runTrimStep x p) := by
  unfold Part.runTrimStep
  split
  · exact (refl p).reply
  · dsimp only
    split
    · exact setTrim
    · exact (refl p).reply

theorem runLampSet (x : CommandRecord) (p : Part) : p.NoNewJobs (Part.runLampSet x p) := by
  unfold Part.runLampSet
  split
  · exact (refl p).reply
  · split
    · exact (refl p).reply
    · exact (refl p).same rfl rfl

theorem runTypeWrite (x : CommandRecord) (p : Part) : p.NoNewJobs (Part.runTypeWrite x p) := by
  unfold Part.runTypeWrite
  dsimp only
  split
  · exact (refl p).reply
  · exact (refl p).same rfl rfl

theorem runTypeClear (x : CommandRecord) (p : Part) : p.NoNewJobs (Part.runTypeClear x p) := by
  unfold Part.runTypeClear
  dsimp only
  split
  · exact (refl p).same rfl rfl
  · split
    · exact (refl p).same rfl rfl
    · exact (refl p).reply

theorem runTypeRead (x : CommandRecord) (p : Part) : p.NoNewJobs (Part.runTypeRead x p) := by
  unfold Part.runTypeRead
  dsimp only
  split
  · exact (refl p).reply
  · exact (refl p).reply

theorem runTrackRead (x : CommandRecord) (p : Part) : p.NoNewJobs (Part.runTrackRead x p) := by
  unfold Part.runTrackRead
  split
  · exact (refl p).reply
  · exact (refl p).reply

theorem runPassageRead (x : CommandRecord) (p : Part) : p.NoNewJobs (Part.runPassageRead x p) := by
  unfold Part.runPassageRead
  split
  · exact (refl p).reply
  · exact (refl p).reply

theorem runHeadClear (x : CommandRecord) (p : Part) : p.NoNewJobs (Part.runHeadClear x p) := by
  unfold Part.runHeadClear
  split
  · split
    · split
      · exact (refl p).reply
      · exact (refl p).same rfl rfl
    · exact (refl p).reply
  · exact (refl p).reply

theorem runSlotRelease (x : CommandRecord) (p : Part) : p.NoNewJobs (Part.runSlotRelease x p) := by
  unfold Part.runSlotRelease
  split
  · exact (refl p).reply
  · split
    · exact (refl p).reply
    · exact (refl p).same rfl rfl

theorem runFetch (x : CommandRecord) (p : Part) : p.NoNewJobs (Part.runFetch x p) := by
  have start := refl p
  unfold Part.runFetch
  dsimp only
  split
  · exact start.reply
  · split
    · exact start.reply
    · split
      · exact start.reply
      · split
        · exact start.reply
        · exact kickEngine (start.same rfl rfl)

theorem cancelFetch {t : Tag} (h : p.NoNewJobs q) : p.NoNewJobs (q.cancelFetch t) := by
  unfold Part.cancelFetch
  split
  · exact h
  · split
    · exact h.finishFetch
    · exact h.same rfl rfl
    · exact h.same rfl rfl
    · exact h

theorem runFetchCancel (x : CommandRecord) (p : Part) : p.NoNewJobs (Part.runFetchCancel x p) := by
  unfold Part.runFetchCancel
  dsimp only
  split
  · exact (refl p).reply
  · refine cancelFetch ?_
    split
    · exact (refl p).reply.completeRead
    · exact (refl p).reply

theorem runCalStore (x : CommandRecord) (p : Part) : p.NoNewJobs (Part.runCalStore x p) := by
  unfold Part.runCalStore
  split
  · exact (refl p).reply
  · exact (refl p).same rfl rfl

theorem runCalAutoload (x : CommandRecord) (p : Part) : p.NoNewJobs (Part.runCalAutoload x p) := by
  unfold Part.runCalAutoload
  split
  · exact (refl p).reply
  · dsimp only
    split
    · exact (refl p).same rfl rfl
    · exact (refl p).same rfl rfl

theorem runCalLoad (x : CommandRecord) (p : Part) : p.NoNewJobs (Part.runCalLoad x p) := by
  unfold Part.runCalLoad
  dsimp only
  split
  · split
    · exact (refl p).same rfl rfl
    · exact loadRecords ((refl p).same rfl rfl)
  · exact (refl p).same rfl rfl

theorem endWrite {b : Bool} (h : p.NoNewJobs q) : p.NoNewJobs (q.endWrite b) := by
  unfold Part.endWrite
  split
  · exact h
  · exact placeOrWait (h.same rfl rfl)

/-- A block that takes a mode change makes no job (R112, R113, R126). -/
theorem blockTakesMode {old new : Mode} {b : ModeBlock} (h : p.NoNewJobs q) :
    p.NoNewJobs (Part.blockTakesMode old new q b) := by
  unfold Part.blockTakesMode
  split
  · split
    · exact h.same rfl rfl
    · exact h
  · split
    · exact foldl (fun _ _ h => h.ceaseJob) q.csc.jobs h
    · exact h.cancelJobs
    · exact h
  · split
    · exact h.same rfl rfl
    · exact h
  · split
    · exact h.reachTracker
    · exact h

theorem passMode {old new : Mode} {order : List ModeBlock} (h : p.NoNewJobs q) :
    p.NoNewJobs (q.passMode old new order) := foldl (fun _ _ h => h.blockTakesMode) _ h

end Part.NoNewJobs

/-! ### Every command and every step -/

/-- A job of `q` whose tag the schedule of `p` does not hold is there in ON_LINE. -/
def Part.MakesJobsOnLine (p q : Part) : Prop :=
  ∀ j ∈ q.csc.jobs, (∃ i ∈ p.csc.jobs, i.tag = j.tag) ∨ q.mode = .onLine

theorem Part.NoNewJobs.onLine {p q : Part} (h : p.NoNewJobs q) : p.MakesJobsOnLine q := fun j hj => by
  by_cases on : q.mode = .onLine
  · exact .inr on
  · exact .inl (h.tags (h.mode ▸ on) j hj)

/-- R175: the mode changes before any block takes the change. -/
theorem Part.runModeSet_onLine (order : List ModeBlock) (r : CommandRecord) (p : Part) :
    p.MakesJobsOnLine (Part.runModeSet order r p) := by
  have start := Part.NoNewJobs.refl p
  unfold Part.runModeSet
  split
  · exact start.reply.onLine
  · rename_i new _
    dsimp only
    split
    · exact (start.same rfl rfl : p.NoNewJobs _).onLine
    · split
      · exact start.reply.onLine
      · generalize changed : (p.setMgr { p.mgr with mode := new, recorder := some r.source }).reply r .ok 0 .empty = q
        have csc : q.csc = p.csc := by rw [← changed]; rfl
        have passed := (Part.NoNewJobs.passMode (.refl q) : q.NoNewJobs (q.passMode p.mode new order)).onLine
        unfold Part.MakesJobsOnLine at *
        rwa [csc] at passed

theorem Part.runResetPart_onLine (r : CommandRecord) (p : Part) : p.MakesJobsOnLine (Part.runResetPart r p) := by
  rw [Part.runResetPart_eq]
  exact fun j hj => absurd hj List.not_mem_nil

/-- R181: auto-load after a power-on reset finds no job and makes none. -/
theorem Part.powerOn_onLine (p : Part) : p.MakesJobsOnLine p.powerOn := by
  have loaded : p.powerOnState.NoNewJobs p.powerOn := by
    have start := Part.NoNewJobs.refl p.powerOnState
    unfold Part.powerOn Part.autoLoad
    dsimp only
    split
    · split
      · exact Part.NoNewJobs.loadRecords (start.same rfl rfl)
      · exact start.same rfl rfl
    · exact start.same rfl rfl
  intro j hj
  obtain ⟨i, hi, -⟩ := loaded.tags nofun j hj
  exact absurd hi List.not_mem_nil

theorem next_onLine {s t : State} {q : Part} (hq : s.part.MakesJobsOnLine q)
    (h : (.next (s.withPart q) : Host.Outcome State Fault Refusal) = .next t) : s.part.MakesJobsOnLine t.part := by
  cases h
  exact hq

/-- A row that is a chain of updates of the part. -/
theorem next_noNewJobs {s t : State} {q : Part} (hq : s.part.NoNewJobs q)
    (h : (.next (s.withPart q) : Host.Outcome State Fault Refusal) = .next t) : s.part.MakesJobsOnLine t.part :=
  next_onLine hq.onLine h

theorem command_onLine {s t : State} {c : Command} {run : CommandRecord → Part → Part}
    (h : s.onPart (fun p => p.runsCommand c run) = .next t)
    (hr : ∀ (r : CommandRecord) (q : Part), q.MakesJobsOnLine (run r q)) : s.part.MakesJobsOnLine t.part := by
  refine next_onLine (q := s.part.runsCommand c run) ?_ h
  have start := Part.NoNewJobs.refl s.part
  rcases s.part.runsCommand_cases c run with same | ⟨r, rest, ⟨st, refused⟩ | ⟨-, ran⟩⟩
  · rw [same]
    exact start.onLine
  · rw [refused]
    exact (start.same rfl rfl : s.part.NoNewJobs _).onLine
  · rw [ran]
    exact hr r (s.part.setMgr { s.part.mgr with intake := rest })

/-- A command whose run is a chain of updates of the part. -/
theorem command_noNewJobs {s t : State} {c : Command} {run : CommandRecord → Part → Part}
    (h : s.onPart (fun p => p.runsCommand c run) = .next t)
    (hr : ∀ (r : CommandRecord) (q : Part), q.NoNewJobs (run r q)) : s.part.MakesJobsOnLine t.part :=
  command_onLine h fun r q => (hr r q).onLine

/-- R170: the refusal of a record that is no command touches the responder alone. -/
theorem Part.runs_unknown_noNewJobs (p : Part) :
    p.NoNewJobs (p.runs none (fun r q => q.refuse r .badArgument)) := by
  unfold Part.runs Part.takes
  cases p.mgr.intake with
  | nil => exact .refl p
  | cons r rest =>
    dsimp only
    by_cases taken : p.freePlace = true ∧ r.command = none
    · rw [if_pos taken]
      exact (Part.NoNewJobs.refl p).same rfl rfl
    · rw [if_neg taken]
      exact .refl p

/-- R75, R113: no command makes a job but in ON_LINE. -/
theorem exec_onLine {c : Instr} {s t : State} (h : exec c s = .next t) : s.part.MakesJobsOnLine t.part := by
  have start := Part.NoNewJobs.refl s.part
  cases c with
  | powerOnReset => exact next_onLine s.part.powerOn_onLine h
  | modeSet order => exact command_onLine h (Part.runModeSet_onLine order)
  | resetPart => exact command_onLine h Part.runResetPart_onLine
  | frameAccept frame => exact next_noNewJobs start.acceptFrame h
  | unknownCommand => exact next_noNewJobs s.part.runs_unknown_noNewJobs h
  | ident => exact command_noNewJobs h fun _ q => (Part.NoNewJobs.refl q).reply
  | status => exact command_noNewJobs h fun _ q => (Part.NoNewJobs.refl q).reply
  | timeRead => exact command_noNewJobs h fun _ q => (Part.NoNewJobs.refl q).reply
  | trackWrite => exact command_noNewJobs h Part.NoNewJobs.runTrackWrite
  | trackRead => exact command_noNewJobs h Part.NoNewJobs.runTrackRead
  | trimSet => exact command_noNewJobs h Part.NoNewJobs.runTrimSet
  | trimStep => exact command_noNewJobs h Part.NoNewJobs.runTrimStep
  | lampSet => exact command_noNewJobs h Part.NoNewJobs.runLampSet
  | typeWrite => exact command_noNewJobs h Part.NoNewJobs.runTypeWrite
  | typeClear => exact command_noNewJobs h Part.NoNewJobs.runTypeClear
  | typeRead => exact command_noNewJobs h Part.NoNewJobs.runTypeRead
  | headClear => exact command_noNewJobs h Part.NoNewJobs.runHeadClear
  | scheduleRead => exact command_noNewJobs h fun _ q => (Part.NoNewJobs.refl q).reply
  | passageRead => exact command_noNewJobs h Part.NoNewJobs.runPassageRead
  | slotRead => exact command_noNewJobs h fun _ q => (Part.NoNewJobs.refl q).reply
  | fetch => exact command_noNewJobs h Part.NoNewJobs.runFetch
  | fetchCancel => exact command_noNewJobs h Part.NoNewJobs.runFetchCancel
  | slotRelease => exact command_noNewJobs h Part.NoNewJobs.runSlotRelease
  | calStore => exact command_noNewJobs h Part.NoNewJobs.runCalStore
  | calLoad => exact command_noNewJobs h Part.NoNewJobs.runCalLoad
  | calAutoload => exact command_noNewJobs h Part.NoNewJobs.runCalAutoload
  | pageWriteEnd verified => exact next_noNewJobs start.endWrite h
  | takeForSending => exact next_noNewJobs start.takeForSending h
  | ethernetLinkLost => exact next_noNewJobs start.linkLost h
  | ethernetLinkFound => exact next_noNewJobs start.linkFound h
  | headInputActive k i d => exact next_noNewJobs start.headInputActive h
  | headInputInactive k i d => exact next_noNewJobs start.headInputInactive h
  | candidateFirstSample k i d => exact next_noNewJobs start.firstSample h
  | candidateSecondSample k i d => exact next_noNewJobs start.secondSample h
  | headStuckLimit k i d => exact next_noNewJobs start.stuckLimit h
  | pairCeilingExpiry k i => exact next_noNewJobs start.ceilingExpiry h
  | occupancyInputChange k => exact next_noNewJobs start.occupancyChange h
  | occupancySettleExpiry k => exact next_noNewJobs start.settleExpiry h
  | eventTake k => exact next_noNewJobs start.takeEvent h
  | eventHandlingEnd k b => exact next_noNewJobs start.endHandling h
  | silenceTimerExpiry k => exact next_noNewJobs start.silenceExpiry h
  | couplingTimerExpiry k => exact next_noNewJobs start.couplingExpiry h
  | windowOpen tag => exact next_noNewJobs start.openIfDue h
  | trigger k => exact next_noNewJobs start.trigger h
  | windowEnd tag => exact next_noNewJobs start.windowEnd h
  | drainDeadline tag => exact next_noNewJobs start.drainDeadline h
  | lampRequestTime tag => exact next_noNewJobs (start.relit (s.part.requestTime_relit tag)) h
  | recoveryEnd => exact next_noNewJobs start.recoveryEnd h
  | cameraSyncLost k => exact next_noNewJobs start.syncLost h
  | cameraSyncFound k => exact next_noNewJobs start.syncFound h
  | linePacket k packet => exact next_noNewJobs start.linePacket h
  | storeTurnWrite k => exact next_noNewJobs start.writeTurn h
  | storeTurnRead => exact next_noNewJobs start.readTurn h
  | frameSendingEnd => exact next_noNewJobs start.sendingEnd h
  | triggerPulseEnd k => exact next_noNewJobs start.pulseEnd h

theorem Part.tick_noNewJobs (p : Part) : p.NoNewJobs p.tick := by
  have begun : p.NoNewJobs p.beginTurn := by
    unfold Part.beginTurn
    split
    · exact .refl p
    · split
      · exact .refl p
      · exact (Part.NoNewJobs.refl p).same rfl rfl
  exact begun.same rfl rfl

/-- Settles O11: a command at the front of the queue or a timed step by `exec_onLine`; a clock count makes no job. -/
theorem jobsMadeOnlyOnLine : Obligations.JobsMadeOnlyOnLine := by
  intro s t h
  unfold step at h
  split at h
  · rename_i rest _
    exact exec_onLine (s := { s with pending := rest }) h
  · split at h
    · exact exec_onLine (s := { s with part := s.part.bumpFree }) h
    · cases h
      exact s.part.tick_noNewJobs.onLine

end Sys2Proof.Machine
end

