-- ==== Sys2Proof/Proofs/CandidateRules.lean ====
section
/-! PROOFS. The candidate set of a pending axle list (O50). -/

namespace Sys2Proof.Machine

/-! ### Candidates (R62) -/

theorem VehicleType.oriented_length (v : VehicleType) (d : Facing) : (v.oriented d).length = v.gaps.length := by
  cases d with
  | forward => rfl
  | reversed => exact List.length_reverse

/-- A test of the pairs of two lists is a test at each place that both have. -/
theorem all_zip_iff {α β : Type} (f : α → β → Bool) (l : List α) (m : List β) :
    (l.zip m).all (fun x => f x.1 x.2) = true ↔
      ∀ (i : Nat) (x : α) (y : β), l[i]? = some x → m[i]? = some y → f x y = true := by
  rw [List.all_eq_true]
  constructor
  · intro h i x y hx hy
    exact h (x, y) (List.mem_of_getElem? (List.getElem?_zip_eq_some.mpr ⟨hx, hy⟩))
  · intro h z hz
    obtain ⟨i, hi⟩ := List.mem_iff_getElem?.mp hz
    obtain ⟨hx, hy⟩ := List.getElem?_zip_eq_some.mp hi
    exact h i z.1 z.2 hx hy

/-- R62: a type is alive in an orientation for no more gaps than it has, each of which agrees with the gap met there. -/
theorem VehicleType.alive_iff (v : VehicleType) (d : Facing) (gaps : List Nat) :
    v.alive d gaps = true ↔ gaps.length ≤ (v.oriented d).length ∧
      ∀ (i x y : Nat), gaps[i]? = some x → (v.oriented d)[i]? = some y → natDist x y ≤ v.tolerance := by
  unfold VehicleType.alive VehicleType.agrees
  rw [Bool.and_eq_true, decide_eq_true_eq, v.oriented_length,
    all_zip_iff (fun x y => decide (natDist x y ≤ v.tolerance))]
  simp only [decide_eq_true_eq]

theorem Part.mem_candidatesOf {p : Part} {gaps : List Nat} {i : Nat} {c : Candidate} :
    c ∈ p.candidatesOf gaps i ↔ c.index = i ∧ ∃ v : VehicleType, p.vehicleType i = some v ∧
      v.alive c.facing gaps = true ∧ (c.complete = true ↔ gaps.length = (v.oriented c.facing).length) := by
  unfold Part.candidatesOf
  cases p.vehicleType i with
  | none => simp
  | some v =>
    have both : ∀ d : Facing, d ∈ [Facing.forward, Facing.reversed] := fun d => by cases d <;> decide
    simp only [List.mem_map, List.mem_filter, both, true_and, Option.some.injEq, exists_eq_left',
      VehicleType.oriented_length]
    constructor
    · rintro ⟨d, alive, rfl⟩
      exact ⟨rfl, alive, decide_eq_true_iff.trans eq_comm⟩
    · rintro ⟨rfl, alive, complete⟩
      refine ⟨c.facing, alive, ?_⟩
      have same : decide (v.gaps.length = gaps.length) = c.complete :=
        Bool.eq_iff_iff.mpr (decide_eq_true_iff.trans (eq_comm.trans complete.symm))
      rw [same]

/-- R62: the set is the candidates of every index in turn, once an axle pends. -/
theorem Part.candidateSet_eq (p : Part) {l : List PendingAxle} (h : l ≠ []) :
    p.candidateSet l = (List.range 64).flatMap (p.candidatesOf (pendingGaps l)) := by
  unfold Part.candidateSet
  split
  · exact absurd rfl h
  · rfl

/-- The table order of R62: ascending type index, FORWARD before REVERSED. -/
def Candidate.precedes (a b : Candidate) : Prop :=
  a.index < b.index ∨ (a.index = b.index ∧ a.facing = .forward ∧ b.facing = .reversed)

theorem Part.candidatesOf_ordered (p : Part) (gaps : List Nat) (i : Nat) :
    (p.candidatesOf gaps i).Pairwise Candidate.precedes := by
  unfold Part.candidatesOf
  split
  · exact .nil
  · rw [List.pairwise_map]
    refine List.Pairwise.filter _ (List.pairwise_pair.mpr ?_)
    exact .inr ⟨rfl, rfl, rfl⟩

theorem Part.candidateSet_ordered (p : Part) (l : List PendingAxle) :
    (p.candidateSet l).Pairwise Candidate.precedes := by
  by_cases h : l = []
  · subst h
    exact .nil
  · rw [p.candidateSet_eq h, List.pairwise_flatMap]
    refine ⟨fun i _ => p.candidatesOf_ordered _ i, List.pairwise_lt_range.imp fun lt a ha b hb => .inl ?_⟩
    rw [(Part.mem_candidatesOf.mp ha).1, (Part.mem_candidatesOf.mp hb).1]
    exact lt

/-- Settles O50: the order by `candidateSet_ordered`, the members by `mem_candidatesOf` and `alive_iff`. -/
theorem candidateSetMembers : Obligations.CandidateSetMembers := by
  intro p l c measured
  refine ⟨p.candidateSet_ordered l, ?_⟩
  by_cases h : l = []
  · subst h
    exact ⟨fun mem => absurd mem List.not_mem_nil, fun mem => absurd rfl mem.1⟩
  · rw [p.candidateSet_eq h, List.mem_flatMap]
    constructor
    · rintro ⟨i, hi, mem⟩
      obtain ⟨rfl, v, valid, alive, complete⟩ := Part.mem_candidatesOf.mp mem
      obtain ⟨short, agree⟩ := (v.alive_iff _ _).mp alive
      exact ⟨h, List.mem_range.mp hi, v, valid, short, agree, complete⟩
    · rintro ⟨-, hi, v, valid, short, agree, complete⟩
      exact ⟨c.index, List.mem_range.mpr hi, Part.mem_candidatesOf.mpr
        ⟨rfl, v, valid, (v.alive_iff _ _).mpr ⟨short, agree⟩, complete⟩⟩

end Sys2Proof.Machine
end

