-- ==== Sys2Proof/Proofs/MatcherRules.lean ====
section
/-! PROOFS. The axle pattern matcher (O51): a declaration at the expiry of the coupling timer, the arrival rule, the
coupling timer, and how an axle is handed over. -/

namespace Sys2Proof.Machine

/-! ### A declaration (R71 to R75) -/

/-- R69: a coupling timer past its deadline declares the first complete candidate. -/
theorem Part.couplingAtEnd_declares {p : Part} {k : Track} {ct : CouplingTimer} {c : Candidate}
    (timer : (p.passage k).matcher.coupling = some ct) (past : reached p.now ct.deadline = true)
    (first : (p.passage k).matcher.firstComplete = some c) : p.couplingAtEnd k = p.declare k false c := by
  unfold Part.couplingAtEnd Part.couplingPast Part.expireCoupling
  rw [timer, first]
  exact if_pos past

/-- R72: the orientation declared, by the candidates of the set and by the candidate declared. -/
theorem orientationOf_spec (set : List Candidate) (c : Candidate) :
    let both := (∃ x ∈ set, x.index = c.index ∧ x.complete = true ∧ x.facing = .forward) ∧
      (∃ x ∈ set, x.index = c.index ∧ x.complete = true ∧ x.facing = .reversed)
    (both → orientationOf set c = .unknown) ∧ (¬ both → c.facing = .forward → orientationOf set c = .forward) ∧
    (¬ both → c.facing = .reversed → orientationOf set c = .reversed) := by
  obtain ⟨unknown, forward, reversed⟩ := orientationOf_cases set c
  refine ⟨unknown.mpr, fun single faces => ?_, fun single faces => ?_⟩
  · cases o : orientationOf set c with
    | forward => rfl
    | reversed => exact nomatch faces.symm.trans (reversed o)
    | unknown => exact absurd (unknown.mp o) single
  · cases o : orientationOf set c with
    | forward => exact nomatch faces.symm.trans (forward o)
    | reversed => rfl
    | unknown => exact absurd (unknown.mp o) single

/-- R71: the record with a vehicle counted, and entered in the list while that has a place. -/
theorem Passage.enterVehicle_eq (r : Passage) (v : VehicleEntry) : r.enterVehicle v = { r with
    vehicleCount := r.vehicleCount + 1
    flags := { r.flags with listFull := r.flags.listFull || decide (64 ≤ r.matcher.vehicles.length) }
    matcher := { r.matcher with
      vehicles := if r.matcher.vehicles.length < 64 then r.matcher.vehicles ++ [v] else r.matcher.vehicles } } := by
  unfold Passage.enterVehicle
  by_cases room : r.matcher.vehicles.length < 64
  · rw [if_pos room, if_pos room, decide_eq_false (Nat.not_le.mpr room), Bool.or_false]
  · rw [if_neg room, if_neg room, decide_eq_true (Nat.not_lt.mp room), Bool.or_true]

theorem indexed_eq (l : List Nat) : indexed l = l.zipIdx.map Prod.swap := by
  rw [List.zipIdx_eq_zip_range', List.zip_swap, ← List.range_eq_range']
  rfl

/-- R73, R74: the sightings of a declared vehicle, pantograph by pantograph. -/
theorem sightingsOf_eq (t : VehicleType) (index : Nat) (o : Orientation) (ordinal : Count16) (reference : Time)
    (approach : Nat) : sightingsOf t index o ordinal reference approach =
      t.pantographs.zipIdx.flatMap (fun f => (sightingOffsets o t.span f.1).map (fun x =>
        { vehicle := ordinal, index := index, pantograph := f.2, mark := x.2, reference := reference,
          distance := approach + x.1 })) := by
  unfold sightingsOf
  rw [indexed_eq, List.flatMap_map]
  rfl

/-- R71: a declaration from a pending list for a valid type. -/
theorem Part.declare_eq {p : Part} {k : Track} {c : Candidate} {a : PendingAxle} {l : List PendingAxle}
    {v : VehicleType} {i : PairId} (pending : (p.passage k).matcher.pending = a :: l)
    (valid : p.vehicleType c.index = some v) (entry : (p.passage k).entryPair = some i) :
    let r := p.passage k
    let o := orientationOf r.matcher.candidates c
    let listed := r.enterVehicle
      { index := c.index, orientation := o, firstAxle := a.ordinal, axles := l.length + 1 }
    let u := (sightingsOf v c.index o (r.vehicleCount + 1) a.time ((p.record k).approach i)).foldl
      (Part.handSighting k false) (p.setPassage k listed)
    p.declare k false c = u.setMatcher k (u.passage k).matcher.clear := by
  have counted (x : VehicleEntry) : ((p.passage k).enterVehicle x).vehicleCount = (p.passage k).vehicleCount + 1 := by
    rw [Passage.enterVehicle_eq]
  unfold Part.declare
  simp only [pending, valid, entry, counted, List.length_cons]
  rfl

/-! ### The reports of the sightings (R51, R75) -/

/-- R75: a sighting counted, and in the mode ON_LINE handed to the capture scheduler for a passage number. -/
def Part.reportSighting (mode : Mode) (k : Track) (number : Count16) (q : Part) (x : Sighting) : Part :=
  let q' := q.setPassage k { q.passage k with sightingCount := (q.passage k).sightingCount + 1 }
  if mode = .onLine then q'.takeSighting k number x else q'

theorem Part.handSighting_eq (k : Track) (q : Part) (x : Sighting) :
    Part.handSighting k false q x = Part.reportSighting q.mode k (q.passage k).number q x := by
  unfold Part.handSighting Part.reportSighting
  dsimp only
  rw [Part.passage_setPassage]
  exact if_congr (and_iff_left rfl) rfl rfl

/-- Neither the mode nor the passage number changes from one report to the next. -/
theorem Part.handSightings_eq (k : Track) : ∀ (l : List Sighting) (q : Part),
    l.foldl (Part.handSighting k false) q = l.foldl (Part.reportSighting q.mode k (q.passage k).number) q
  | [], _ => rfl
  | x :: l, q => by
    have matched := q.handSighting_matched k false x
    rw [List.foldl_cons, List.foldl_cons, Part.handSightings_eq k l, ← Part.handSighting_eq,
      show (Part.handSighting k false q x).mode = q.mode from matched.kept.mode,
      (Passage.sameAxles matched.axles).number]

/-- R51: a report counts the sighting, and the jobs that the scheduler makes of it. -/
theorem Part.handSighting_passage (k : Track) (closing : Bool) (q : Part) (x : Sighting) :
    ∃ n : Count16, (Part.handSighting k closing q x).passage k =
      { q.passage k with sightingCount := (q.passage k).sightingCount + 1, jobCount := n } := by
  unfold Part.handSighting
  dsimp only
  split
  · obtain ⟨-, n, trackers⟩ := Part.takeSighting_tracks
      (q.setPassage k { q.passage k with sightingCount := (q.passage k).sightingCount + 1 }) k _ x
    refine ⟨n, ?_⟩
    rw [Part.passage, trackers, Quad.get_set_self, Part.passage_setPassage]
  · exact ⟨_, Part.passage_setPassage q k _⟩

theorem Part.handSightings_passage (k : Track) (closing : Bool) : ∀ (l : List Sighting) (q : Part),
    ∃ n : Count16, (l.foldl (Part.handSighting k closing) q).passage k = { q.passage k with
      sightingCount := (q.passage k).sightingCount + BitVec.ofNat 16 l.length, jobCount := n }
  | [], q => ⟨(q.passage k).jobCount, by simp⟩
  | x :: l, q => by
    obtain ⟨m, first⟩ := Part.handSighting_passage k closing q x
    obtain ⟨n, rest⟩ := Part.handSightings_passage k closing l (Part.handSighting k closing q x)
    refine ⟨n, ?_⟩
    rw [List.foldl_cons, rest, first, List.length_cons, Nat.add_comm, BitVec.ofNat_add, ← BitVec.add_assoc]
    rfl

/-- R75: outside ON_LINE the sightings are counted and go nowhere else. -/
theorem Part.handSightings_offLine (k : Track) (l : List Sighting) {q : Part} (off : q.mode ≠ .onLine) :
    l.foldl (Part.handSighting k false) q = q.setPassage k { q.passage k with
      sightingCount := (q.passage k).sightingCount + BitVec.ofNat 16 l.length } := by
  have closing : ∀ (l : List Sighting) (q : Part), q.mode ≠ .onLine →
      l.foldl (Part.handSighting k false) q = l.foldl (Part.handSighting k true) q := by
    intro l
    induction l with
    | nil => exact fun _ _ => rfl
    | cons x l ih =>
      intro q off
      have step : Part.handSighting k false q x = Part.handSighting k true q x := by
        unfold Part.handSighting
        exact if_congr (iff_of_false (fun on => off on.1) fun on => off on.1) rfl rfl
      rw [List.foldl_cons, List.foldl_cons, step]
      exact ih _ fun on => off ((Part.handSighting_kept k true q x).mode.symm.trans on)
  rw [closing l q off, Part.handSightings_closing]

/-- R51, R75: what the reports of some sightings leave, from a part with the passage record `x` at the track. -/
theorem Part.handSightings_spec (p : Part) (k : Track) (x : Passage) (l : List Sighting) :
    let u := l.foldl (Part.handSighting k false) (p.setPassage k x)
    (u.passage k = { x with
      sightingCount := x.sightingCount + BitVec.ofNat 16 l.length, jobCount := (u.passage k).jobCount }) ∧
    (∀ j : Track, j ≠ k → u.trackers.get j = p.trackers.get j) ∧ u.front = p.front ∧ u.records = p.records ∧
    (p.mode ≠ .onLine → u = p.setPassage k (u.passage k) ∧ (u.passage k).jobCount = x.jobCount) := by
  intro u
  have matched : (p.setPassage k x).Matched k u := Part.handSightings_matched k false l _
  refine ⟨?_, fun j other => ?_, matched.front, matched.kept.records, fun off => ?_⟩
  · obtain ⟨n, passage⟩ := Part.handSightings_passage k false l (p.setPassage k x)
    rw [Part.passage_setPassage] at passage
    rw [show u.passage k = _ from passage]
  · rw [matched.trackers, Quad.get_set_other _ other]
    exact Quad.get_set_other _ other _
  · have away : u = _ := Part.handSightings_offLine k l (q := p.setPassage k x) off
    rw [Part.passage_setPassage, Part.setPassage_setPassage] at away
    rw [away, Part.passage_setPassage]
    exact ⟨rfl, rfl⟩

/-! ### The arrival rule (R63 to R66) -/

theorem Part.arrive_empty {p : Part} {k : Track} (h : (p.passage k).matcher.pending = []) (a : PendingAxle) (g : Nat) :
    p.arrive k a g = p.arriveEmpty k a := by
  unfold Part.arrive
  simp only [h]

section

variable {p : Part} {k : Track} {m : Matcher} (hm : (p.passage k).matcher = m) (pending : m.pending ≠ [])
  (a : PendingAxle) {g : Nat}

include hm pending

/-- R64: an axle whose gap some candidate survives joins the list. -/
theorem Part.arrive_joins (lives : p.survivors m.candidates m.pending.length g ≠ []) :
    p.arrive k a g = p.setMatcher k { m with
      pending := m.pending ++ [{ a with gap := some g }]
      candidates := p.survivors m.candidates m.pending.length g } := by
  subst hm
  unfold Part.arrive
  dsimp only
  split
  · exact absurd ‹_› pending
  · exact if_neg fun empty => lives (List.isEmpty_iff.mp empty)

/-- R65, R66: an axle whose gap no candidate survives declares the first complete candidate whose coupling gap it
reaches, or makes the oldest axles be dropped. -/
theorem Part.arrive_breaks (dies : p.survivors m.candidates m.pending.length g = []) (found : Option Candidate)
    (find : m.candidates.find? (fun c => c.complete && decide (p.couplingGapOf c ≤ g)) = found) :
    p.arrive k a g = found.elim (p.arriveDropping k { a with gap := some g })
      (fun c => (p.declare k false c).arriveEmpty k a) := by
  subst hm
  unfold Part.arrive
  dsimp only
  split
  · exact absurd ‹_› pending
  · rw [if_pos (List.isEmpty_iff.mpr dies), find]
    cases found with
    | none => rfl
    | some c => rfl

end

/-- The gap that a candidate meets next, with `n` axles pending. -/
def Part.nextGap (p : Part) (n : Nat) (c : Candidate) : Option Nat :=
  (p.vehicleType c.index).bind (fun v => (v.oriented c.facing)[n - 1]?)

/-- R64: what a gap leaves of a candidate, with `n` axles pending. -/
def Part.survivor (p : Part) (n g : Nat) (c : Candidate) : Option Candidate :=
  (p.vehicleType c.index).bind (fun v => (p.nextGap n c).bind (fun y =>
    if c.complete = false ∧ natDist g y ≤ v.tolerance then some { c with complete := decide (v.gaps.length = n) }
    else none))

/-- R64: the survivors of a gap, candidate by candidate. -/
theorem Part.survivors_eq (p : Part) (set : List Candidate) (n g : Nat) :
    p.survivors set n g = set.filterMap (p.survivor n g) := by
  unfold Part.survivors
  rw [← List.filterMap_eq_map', List.filterMap_filter]
  refine List.filterMap_congr fun c _ => ?_
  unfold Part.survivor Part.nextGap
  cases p.vehicleType c.index with
  | none => simp
  | some v =>
    cases next : (v.oriented c.facing)[n - 1]? with
    | none => simp [next]
    | some y => simp [next, VehicleType.agrees, VehicleType.axles]

/-- R66: the oldest axles are dropped, one by one, until a candidate is alive or the arriving axle stands alone. -/
theorem Part.dropOldest_spec (p : Part) (a : PendingAxle) : ∀ (l : List PendingAxle) (n : Nat), l ≠ [] →
    ∃ d : Nat, 1 ≤ d ∧ d ≤ l.length ∧ (∀ i : Nat, 1 ≤ i → i < d → p.candidateSet (l.drop i ++ [a]) = []) ∧
      (p.candidateSet (l.drop d ++ [a]) ≠ [] ∨ d = l.length) ∧
      p.dropOldest l a n = (l.drop d ++ [a], p.candidateSet (l.drop d ++ [a]), n + d)
  | [], _, h => absurd rfl h
  | x :: rest, n, _ => by
    unfold Part.dropOldest
    dsimp only
    split
    · rename_i goesOn
      rw [Bool.and_eq_true, List.isEmpty_iff, Bool.not_eq_true', List.isEmpty_eq_false_iff] at goesOn
      obtain ⟨dead, more⟩ := goesOn
      obtain ⟨d, least, most, before, stops, eq⟩ := Part.dropOldest_spec p a rest (n + 1) more
      refine ⟨d + 1, by omega, by rw [List.length_cons]; omega, fun i hi hd => ?_, ?_, ?_⟩
      · obtain ⟨j, rfl⟩ := Nat.exists_eq_add_of_le' hi
        by_cases first : j = 0
        · subst first
          exact dead
        · exact before j (by omega) (by omega)
      · rw [List.length_cons, Nat.succ_inj]
        exact stops
      · rw [eq, List.drop_succ_cons, Nat.add_right_comm, Nat.add_assoc]
    · rename_i stops
      refine ⟨1, le_rfl, by rw [List.length_cons]; omega, fun i hi hd => by omega, ?_, rfl⟩
      rw [Bool.and_eq_true, not_and_or, List.isEmpty_iff, Bool.not_eq_true', Bool.not_eq_false,
        List.isEmpty_iff] at stops
      exact stops.imp_right fun alone => by rw [alone]; rfl

/-- R66: an axle whose gap no candidate survives, and which none is declared for, makes the oldest axles be dropped. -/
theorem Part.arrive_drops {p : Part} {k : Track} {m : Matcher} (hm : (p.passage k).matcher = m)
    (pending : m.pending ≠ []) (a : PendingAxle) {g : Nat} (dies : p.survivors m.candidates m.pending.length g = [])
    (early : m.candidates.find? (fun c => c.complete && decide (p.couplingGapOf c ≤ g)) = none) :
    let new : PendingAxle := { a with gap := some g }
    ∃ d : Nat, 1 ≤ d ∧ d ≤ m.pending.length ∧
      (∀ i : Nat, 1 ≤ i → i < d → p.candidateSet (m.pending.drop i ++ [new]) = []) ∧
      (p.candidateSet (m.pending.drop d ++ [new]) ≠ [] ∨ d = m.pending.length) ∧
      p.arrive k a g = p.setPassage k { p.passage k with
        flags := { (p.passage k).flags with unmatched := true }
        matcher := { m with
          pending := m.pending.drop d ++ [new], candidates := p.candidateSet (m.pending.drop d ++ [new])
          unmatched := m.unmatched + BitVec.ofNat 16 d } } := by
  intro new
  obtain ⟨d, least, most, before, stops, dropped⟩ := p.dropOldest_spec new m.pending 0 pending
  refine ⟨d, least, most, before, stops, (Part.arrive_breaks hm pending a dies none early).trans ?_⟩
  show p.arriveDropping k new = _
  unfold Part.arriveDropping
  dsimp only
  rw [hm, dropped, Nat.zero_add]

/-! ### The coupling timer (R67) -/

/-- R60: a conversion at most flags NO_SPEED, which a passage without a pace does. -/
theorem Part.flagNoSpeed_eq (p : Part) (k : Track) : p.flagNoSpeed k = p.setPassage k { p.passage k with
    flags := { (p.passage k).flags with noSpeed := (p.passage k).flags.noSpeed || (p.passage k).pace.isNone } } := by
  unfold Part.flagNoSpeed
  cases pace : (p.passage k).pace with
  | none => rw [Option.isNone_none, Bool.or_true]
  | some x =>
    rw [Option.isNone_some, Bool.or_false]
    exact (p.setPassage_self k).symm

/-- R67: the distance that a candidate of the set asks for, with `n` axles pending. -/
def Part.couplingReach (p : Part) (n : Nat) (c : Candidate) : Nat :=
  if c.complete then p.couplingGapOf c
  else (p.nextGap n c).getD 0 + ((p.vehicleType c.index).map VehicleType.tolerance).getD 0

/-- The largest of some numbers is one of them. -/
theorem foldl_max_spec {l : List Nat} (h : l ≠ []) : l.foldl max 0 ∈ l ∧ ∀ x ∈ l, x ≤ l.foldl max 0 := by
  refine List.max?_eq_some_iff.mp ?_
  cases l with
  | nil => exact absurd rfl h
  | cons x l => rw [List.max?_cons', List.foldl_cons, Nat.zero_max]

/-- R67: the coupling distance is the largest that a candidate of the set asks for. -/
theorem Part.couplingDistance_spec (p : Part) {set : List Candidate} (h : set ≠ []) (n : Nat) :
    (∀ c ∈ set, p.couplingReach n c ≤ p.couplingDistance set n) ∧
    ∃ c ∈ set, p.couplingReach n c = p.couplingDistance set n := by
  have reach : p.couplingDistance set n = (set.map (p.couplingReach n)).foldl max 0 := by
    refine congrArg (List.foldl max 0) (List.map_congr_left fun c _ => ?_)
    unfold Part.couplingReach Part.orientedOf Part.nextGap
    cases p.vehicleType c.index with
    | none => simp
    | some v => rfl
  rw [reach]
  obtain ⟨largest, bound⟩ := foldl_max_spec (l := set.map (p.couplingReach n)) (by simpa using h)
  exact ⟨fun c hc => bound _ (List.mem_map_of_mem hc), List.mem_map.mp largest⟩

/-- R67: without a complete candidate the timer does not start. -/
theorem Part.startCoupling_partial {p : Part} {k : Track}
    (h : ∀ c ∈ (p.passage k).matcher.candidates, c.complete = false) : p.startCoupling k = p := by
  have none : (p.passage k).matcher.candidates.any Candidate.complete = false := by
    rw [List.any_eq_false]
    exact fun c hc => by rw [h c hc]; exact Bool.false_ne_true
  unfold Part.startCoupling
  dsimp only
  rw [none]
  split
  · exact nomatch ‹false = true›
  · rfl

/-- R67: with a complete candidate the timer starts from the time of the last pending axle. -/
theorem Part.startCoupling_complete {p : Part} {k : Track} {last : PendingAxle}
    (hl : (p.passage k).matcher.pending.getLast? = some last)
    (h : ∃ c ∈ (p.passage k).matcher.candidates, c.complete = true) :
    let r := p.passage k
    let d := p.couplingDistance r.matcher.candidates r.matcher.pending.length
    p.startCoupling k = p.setPassage k { r with
      flags := { r.flags with noSpeed := r.flags.noSpeed || r.pace.isNone }
      matcher := { r.matcher with
        coupling := some { distance := d, deadline := last.time + usTime (travelTime d (p.matchPace k)) } } } := by
  have some_complete : (p.passage k).matcher.candidates.any Candidate.complete = true := List.any_eq_true.mpr h
  unfold Part.startCoupling
  dsimp only
  rw [some_complete, hl]
  dsimp only
  rw [Part.flagNoSpeed_eq]
  simp only [Part.setMatcher, Part.matchPace, Part.passage_setPassage, Part.setPassage_setPassage]
  rfl

/-! ### How an axle is handed over (R58 to R61) -/

/-- R58, R60: the part with the coupling timer of a track stopped, and NO_SPEED flagged if a conversion is made without
a pace. -/
def Part.converting (p : Part) (k : Track) (converts : Bool) : Part :=
  p.matching k { (p.passage k).matcher with coupling := none }
    ((p.passage k).flags.noSpeed || ((p.passage k).pace.isNone && converts))

theorem Part.converting_flagNoSpeed (p : Part) (k : Track) (b : Bool) :
    (p.converting k b).flagNoSpeed k = p.converting k true := by
  have flag (x y : Bool) : (x || (y && b) || y) = (x || (y && true)) := by
    cases y <;> simp
  rw [Part.flagNoSpeed_eq]
  unfold Part.converting Part.matching
  simp only [Part.passage_setPassage, Part.setPassage_setPassage, flag]

theorem Part.converting_matchPace (p : Part) (k : Track) (b : Bool) :
    (p.converting k b).matchPace k = p.matchPace k := by
  unfold Part.converting Part.matching Part.matchPace
  rw [Part.passage_setPassage]
  rfl

/-- R59: the inner-equivalent time of an axle. -/
def Part.innerTimeOf (p : Part) (k : Track) (e : AxleEvent) : Time :=
  if e.position = .outer then e.time + usTime (travelTime ((p.record k).spacing e.pair) (p.matchPace k)) else e.time

/-- R59: an axle timed by its outer head is converted. -/
theorem Part.converting_innerTime (p : Part) (k : Track) (e : AxleEvent) :
    (p.converting k false).innerTime k e.pair e.position e.time =
      (p.converting k (decide (e.position = .outer)), p.innerTimeOf k e) := by
  unfold Part.innerTime Part.innerTimeOf
  cases e.position with
  | inner => rfl
  | outer =>
    dsimp only
    rw [Part.converting_flagNoSpeed, Part.converting_matchPace]
    rfl

/-- R58: an axle is handed with the timer stopped, converted by its head and then by its gap. -/
theorem Part.handAxle_eq (p : Part) (k : Track) (e : AxleEvent) (ordinal : Count16) :
    p.handAxle k e ordinal =
      let measured := (p.converting k (decide (e.position = .outer))).measureGap k (p.innerTimeOf k e)
      (measured.1.arrive k
        { ordinal := ordinal, position := e.position, time := p.innerTimeOf k e, gap := none }
        measured.2).startCoupling k := by
  have stopped : p.setMatcher k { (p.passage k).matcher with coupling := none } = p.converting k false := by
    unfold Part.converting
    rw [Bool.and_false, Bool.or_false]
    rfl
  unfold Part.handAxle
  rw [stopped]
  dsimp only
  rw [Part.converting_innerTime]

/-- R61: with no axle pending the gap is 0. -/
theorem Part.measureGap_first {p : Part} {k : Track} (h : (p.passage k).matcher.pending = []) (b : Bool) (t : Time) :
    (p.converting k b).measureGap k t = (p.converting k b, 0) := by
  unfold Part.measureGap Part.converting
  rw [Part.matching_matcher, h]
  rfl

/-- R61: the gap behind the last pending axle; a time that does not advance makes no conversion (log 22). -/
theorem Part.measureGap_last {p : Part} {k : Track} {last : PendingAxle}
    (h : (p.passage k).matcher.pending.getLast? = some last) (b : Bool) (t : Time) :
    (p.converting k b).measureGap k t =
      if (t - last.time).toInt ≤ 0 then (p.converting k b, 0)
      else (p.converting k true, roundDiv ((t - last.time).toInt.toNat * 256) (p.matchPace k)) := by
  have pending : ((p.converting k b).passage k).matcher.pending.getLast? = some last := by
    unfold Part.converting
    rw [Part.matching_matcher]
    exact h
  unfold Part.measureGap
  rw [pending]
  dsimp only [axleGap]
  split
  · rfl
  · rw [Part.converting_flagNoSpeed, Part.converting_matchPace]

/-- Settles O51: the declaration by `declare_eq`, the arrival rule by `arrive_empty`, `arrive_joins`,
`arrive_breaks` and `arrive_drops`, the timer by `couplingDistance_spec`, the hand-over by `handAxle_eq`. -/
theorem couplingExpiryDeclares : Obligations.CouplingExpiryDeclares := by
  refine ⟨?_, ?_, ?_, ?_⟩
  · intro s k ct c p idle timer past first
    exact State.next_withPart ((Part.couplingExpiry_idle idle).trans (Part.couplingAtEnd_declares timer past first))
  · intro p k a l c v i r m both pending valid entry
    obtain ⟨unknown, forward, reversed⟩ := orientationOf_spec m.candidates c
    refine ⟨orientationOf m.candidates c, unknown, forward, reversed, ?_⟩
    intro places sightings listed reported u cleared
    have made : sightings = sightingsOf v c.index (orientationOf m.candidates c) (r.vehicleCount + 1) a.time
        ((p.record k).approach i) := (sightingsOf_eq ..).symm
    have entered : listed = r.enterVehicle
        { index := c.index, orientation := orientationOf m.candidates c, firstAxle := a.ordinal,
          axles := l.length + 1 } := (r.enterVehicle_eq _).symm
    have handed : u = sightings.foldl (Part.handSighting k false) (p.setPassage k listed) := by
      rw [Part.handSightings_eq, Part.passage_setPassage]
      rfl
    have count : sightings.length = (v.pantographs.map (fun x =>
        if orientationOf m.candidates c = .unknown ∧ x ≠ v.span - x then 2 else 1)).sum := by
      rw [made]
      exact sightingsOf_length ..
    have left := Part.handSightings_spec p k listed sightings
    rw [← handed, count] at left
    refine ⟨?_, left⟩
    rw [handed, made, entered]
    exact Part.declare_eq pending valid entry
  · intro p k a g r m n q new enters next survive alive due
    have survivors : p.survivors m.candidates n g = alive := p.survivors_eq m.candidates n g
    refine ⟨fun first => Part.arrive_empty first a g, fun pending lives => ?_, fun pending dies c found => ?_,
      fun pending dies early => ?_, ?_⟩
    · rw [← survivors] at lives ⊢
      exact Part.arrive_joins rfl pending a lives
    · exact Part.arrive_breaks rfl pending a (survivors.trans dies) (some c) found
    · have noneDue : m.candidates.find? due = none := List.find?_eq_none.mpr fun c hc => by
        rw [early c hc]
        exact Bool.false_ne_true
      exact Part.arrive_drops rfl pending a (survivors.trans dies) noneDue
    · intro distance
      refine ⟨Part.startCoupling_partial, fun last hl complete => ?_⟩
      have some_candidate : m.candidates ≠ [] := by
        obtain ⟨c, hc, -⟩ := complete
        exact List.ne_nil_of_mem hc
      obtain ⟨bound, largest⟩ := p.couplingDistance_spec some_candidate n
      exact ⟨_, bound, largest, Part.startCoupling_complete hl complete⟩
  · intro p k e ordinal r m pace outer time handed
    have converted : p.innerTimeOf k e = time := by
      simp only [time, outer, decide_eq_true_eq]
      rfl
    have eq := p.handAxle_eq k e ordinal
    rw [converted] at eq
    refine ⟨fun first => ?_, fun last hl => ⟨fun advances => ?_, fun stays => ?_⟩⟩
    · rw [eq, Part.measureGap_first first]
      rfl
    · rw [eq, Part.measureGap_last hl, if_neg (Int.not_le.mpr advances)]
      rfl
    · rw [eq, Part.measureGap_last hl, if_pos stays]
      rfl

end Sys2Proof.Machine
end

