-- ==== Sys2Proof/Proofs/TimingRules.lean ====
section
/-! PROOFS. The capture timing arithmetic (05): times that lie near each other, the line period and the generator load
(O15), the line count (O14), the window of a computation and what it gives a job (O13). -/

namespace Sys2Proof.Machine

/-! ### Times that lie near each other (R79) -/

theorem liesAfter_iff {x y : Time} : liesAfter y x = true ↔ 1 ≤ (y - x).toNat ∧ (y - x).toNat ≤ 2 ^ 47 := by
  unfold liesAfter
  rw [Bool.and_eq_true, decide_eq_true_eq, decide_eq_true_eq]

/-- Times within 2^46 µs behind a base lie in the order of their distances from it. -/
theorem liesAfter_near {base x y : Time} (hx : (x - base).toNat ≤ 2 ^ 46) (hy : (y - base).toNat ≤ 2 ^ 46) :
    liesAfter y x = true ↔ (x - base).toNat < (y - base).toNat := by
  have shift : y - x = (y - base) - (x - base) := by bv_omega
  rw [liesAfter_iff, shift]
  generalize y - base = b at *
  generalize x - base = a at *
  bv_omega

theorem atOrBefore_near {base x y : Time} (hx : (x - base).toNat ≤ 2 ^ 46) (hy : (y - base).toNat ≤ 2 ^ 46) :
    atOrBefore x y = true ↔ (x - base).toNat ≤ (y - base).toNat := by
  have same : x = y ↔ (x - base).toNat = (y - base).toNat := by
    rw [BitVec.toNat_inj, sub_left_inj]
  unfold atOrBefore liesBefore
  rw [Bool.or_eq_true, beq_iff_eq, liesAfter_near hx hy, same]
  omega

/-! ### The line period and the generator load (R85, R86) -/

/-- R85: the clamps of the line period, by where the rounded quotient lies. -/
theorem periodFor_cases (pitch pace : Nat) :
    let c := roundDiv (pitch * pace) 2560
    (c < 500 ∧ periodFor pitch pace = { count := 500, stretched := false, compressed := true }) ∨
    (65536 < c ∧ periodFor pitch pace = { count := 65536, stretched := true, compressed := false }) ∨
    (500 ≤ c ∧ c ≤ 65536 ∧ periodFor pitch pace = { count := c, stretched := false, compressed := false }) := by
  intro c
  unfold periodFor
  dsimp only
  split
  · exact .inl ⟨‹_›, rfl⟩
  · split
    · exact .inr (.inl ⟨‹_›, rfl⟩)
    · exact .inr (.inr ⟨Nat.not_lt.mp ‹_›, Nat.not_lt.mp ‹_›, rfl⟩)

theorem periodFor_bounds (pitch pace : Nat) :
    500 ≤ (periodFor pitch pace).count ∧ (periodFor pitch pace).count ≤ 65536 := by
  rcases periodFor_cases pitch pace with ⟨-, eq⟩ | ⟨-, eq⟩ | ⟨least, most, eq⟩
  · rw [eq]; decide
  · rw [eq]; decide
  · rw [eq]; exact ⟨least, most⟩

/-- Settles O15: the three cases of the clamp, and the load that a port takes when it starts. -/
theorem linePeriodAndLoad : Obligations.LinePeriodAndLoad := by
  refine ⟨fun pitch pace => ?_, fun p k t slot c least most => ?_⟩
  · rcases periodFor_cases pitch pace with ⟨below, eq⟩ | ⟨above, eq⟩ | ⟨least, most, eq⟩
    · rw [eq]
      exact ⟨by decide, by decide, by simpa using below, by simp; omega, fun _ => rfl, by omega, by omega⟩
    · rw [eq]
      exact ⟨by decide, by decide, by simp; omega, by simpa using above, by omega, fun _ => rfl, by omega⟩
    · rw [eq]
      exact ⟨least, most, by simpa using least, by simpa using most, by omega, by omega, fun _ _ => rfl⟩
  · refine ⟨{ load := BitVec.ofNat 16 (c - 1), count := 0 }, ?_, ?_⟩
    · simp only [Part.startPort, Part.setPort_ports, Quad.get_set_self]
    · simp only [BitVec.toNat_ofNat]
      omega

/-! ### One computation (R84, R87, R88, R90) -/

/-- R84: the window that the sightings of a job span at a pace. -/
def sightedWindow (r : TrackRecord) (pace : Nat) (l : List Sighting) : Time × Time :=
  unionWindow l pace r.trim (usTime (travelTime r.windowHalfMm pace))

/-- R84: the centre of a window. -/
def windowCentre (u : Time × Time) : Time := u.1 + usTime ((u.2 - u.1).toNat / 2)

/-- R87, R88: the window of the sightings is kept, or narrowed about its centre when it asks for too many lines. -/
theorem computeTiming_cases (r : TrackRecord) (pace : Nat) (l : List Sighting) :
    let u := sightedWindow r pace l
    let period := periodFor r.pitchUm pace
    let n := countLines u.1 u.2 period.count
    let h := usTime (4096 * period.count / 200)
    (n ≤ 4096 ∧ computeTiming r pace l =
      { centre := windowCentre u, start := u.1, stop := u.2, lampRequest := lampRequestTime u.1, period := period
        lineCount := n, narrowed := false }) ∨
    (4096 < n ∧ computeTiming r pace l =
      { centre := windowCentre u, start := windowCentre u - h, stop := windowCentre u + h
        lampRequest := lampRequestTime (windowCentre u - h), period := period
        lineCount := countLines (windowCentre u - h) (windowCentre u + h) period.count, narrowed := true }) := by
  intro u period n h
  by_cases few : n ≤ 4096
  · exact .inl ⟨few, if_pos few⟩
  · exact .inr ⟨Nat.lt_of_not_le few, if_neg few⟩

theorem computeTiming_period (r : TrackRecord) (pace : Nat) (l : List Sighting) :
    (computeTiming r pace l).period = periodFor r.pitchUm pace := by
  rcases computeTiming_cases r pace l with ⟨-, eq⟩ | ⟨-, eq⟩
  · rw [eq]
  · rw [eq]

/-- R88: a window narrowed about its centre holds 4,096 lines. -/
theorem countLines_narrowed (centre : Time) {c : Nat} (least : 500 ≤ c) (most : c ≤ 65536) :
    countLines (centre - usTime (4096 * c / 200)) (centre + usTime (4096 * c / 200)) c = 4096 := by
  have span : (centre + usTime (4096 * c / 200) - (centre - usTime (4096 * c / 200))).toNat = 2 * (4096 * c / 200) := by
    have small : (usTime (4096 * c / 200)).toNat = 4096 * c / 200 := by
      unfold usTime
      rw [BitVec.toNat_ofNat]
      omega
    generalize usTime (4096 * c / 200) = h at *
    bv_omega
  unfold countLines ceilDiv
  rw [span]
  exact (Nat.div_eq_iff (by omega)).mpr ⟨by omega, by omega⟩

/-- Settles O14: a window kept asks for at most 4,096 lines, a narrowed one holds 4,096. -/
theorem lineCountAtMost4096 : Obligations.LineCountAtMost4096 := by
  intro r pace l
  obtain ⟨least, most⟩ := periodFor_bounds r.pitchUm pace
  rcases computeTiming_cases r pace l with ⟨few, eq⟩ | ⟨-, eq⟩
  · rw [eq]
    exact ⟨few, nofun⟩
  · have full := countLines_narrowed (windowCentre (sightedWindow r pace l)) least most
    rw [eq]
    exact ⟨full.le, fun _ => ⟨full, rfl, rfl⟩⟩

/-! ### The window of the sightings (R82 to R84) -/

/-- R83: half the window of one sighting at the widest setting and the greatest pace. -/
theorem travelTime_le {half pace : Nat} (wide : half ≤ 3000) (slow : pace ≤ 184320) : travelTime half pace ≤ 2160000 := by
  have product := Nat.mul_le_mul wide slow
  unfold travelTime roundDiv
  omega

/-- Of two times near each other `firstOf` is the one that lies first. -/
theorem firstOf_near {base a b : Time} (ha : (a - base).toNat ≤ 2 ^ 46) (hb : (b - base).toNat ≤ 2 ^ 46) :
    (firstOf a b = a ∧ (a - base).toNat ≤ (b - base).toNat) ∨
    (firstOf a b = b ∧ (b - base).toNat ≤ (a - base).toNat) := by
  have order : liesBefore b a = true ↔ _ := liesAfter_near hb ha
  unfold firstOf
  split
  · exact .inr ⟨rfl, (order.mp ‹_›).le⟩
  · exact .inl ⟨rfl, Nat.le_of_not_lt fun h => absurd (order.mpr h) ‹_›⟩

/-- Of two times near each other `lastOf` is the one that lies last. -/
theorem lastOf_near {base a b : Time} (ha : (a - base).toNat ≤ 2 ^ 46) (hb : (b - base).toNat ≤ 2 ^ 46) :
    (lastOf a b = a ∧ (b - base).toNat ≤ (a - base).toNat) ∨
    (lastOf a b = b ∧ (a - base).toNat ≤ (b - base).toNat) := by
  have order := liesAfter_near ha hb
  unfold lastOf
  split
  · exact .inr ⟨rfl, (order.mp ‹_›).le⟩
  · exact .inl ⟨rfl, Nat.le_of_not_lt fun h => absurd (order.mpr h) ‹_›⟩

/-- A fold with an operation that picks the lesser of two values ends at a least of all that it meets. -/
theorem foldl_picks_least {α β : Type} [Preorder β] (d : α → β) (near : α → Prop) {pick : α → α → α}
    (picks : ∀ a b, near a → near b → (pick a b = a ∧ d a ≤ d b) ∨ (pick a b = b ∧ d b ≤ d a)) :
    ∀ (l : List α) (a : α), (∀ x ∈ a :: l, near x) →
      l.foldl pick a ∈ a :: l ∧ ∀ x ∈ a :: l, d (l.foldl pick a) ≤ d x
  | [], a, _ => ⟨List.mem_singleton_self a, fun x hx => (List.mem_singleton.mp hx) ▸ le_rfl⟩
  | b :: l, a, near_all => by
    obtain ⟨near_a, near_rest⟩ := List.forall_mem_cons.mp near_all
    obtain ⟨near_b, near_l⟩ := List.forall_mem_cons.mp near_rest
    rw [List.foldl_cons]
    rcases picks a b near_a near_b with ⟨eq, le⟩ | ⟨eq, le⟩
    · obtain ⟨mem, least⟩ := foldl_picks_least d near picks l a (List.forall_mem_cons.mpr ⟨near_a, near_l⟩)
      obtain ⟨least_a, least_l⟩ := List.forall_mem_cons.mp least
      rw [eq]
      refine ⟨?_, List.forall_mem_cons.mpr ⟨least_a, List.forall_mem_cons.mpr ⟨least_a.trans le, least_l⟩⟩⟩
      rcases List.mem_cons.mp mem with self | mem
      · rw [self]; exact List.mem_cons_self
      · exact List.mem_cons_of_mem a (List.mem_cons_of_mem b mem)
    · obtain ⟨mem, least⟩ := foldl_picks_least d near picks l b near_rest
      obtain ⟨least_b, -⟩ := List.forall_mem_cons.mp least
      rw [eq]
      exact ⟨List.mem_cons_of_mem a mem, List.forall_mem_cons.mpr ⟨least_b.trans le, least⟩⟩

theorem foldl_pair {α β γ : Type} (f : β → β → β) (g : γ → γ → γ) (s : α → β) (e : α → γ) :
    ∀ (l : List α) (b : β) (c : γ), l.foldl (fun acc x => (f acc.1 (s x), g acc.2 (e x))) (b, c) =
      ((l.map s).foldl f b, (l.map e).foldl g c)
  | [], _, _ => rfl
  | _ :: l, _, _ => foldl_pair f g s e l _ _

/-- R84: windows that lie near each other span from the start that lies first to the end that lies last. -/
theorem sightedWindow_near {r : TrackRecord} {pace : Nat} {l : List Sighting} {base : Time} (some_ : l ≠ [])
    (near : ∀ x ∈ l,
      (centreTime x pace r.trim - usTime (travelTime r.windowHalfMm pace) - base).toNat ≤ 2 ^ 46 ∧
      (centreTime x pace r.trim + usTime (travelTime r.windowHalfMm pace) - base).toNat ≤ 2 ^ 46) :
    let start (x : Sighting) : Time := centreTime x pace r.trim - usTime (travelTime r.windowHalfMm pace)
    let stop (x : Sighting) : Time := centreTime x pace r.trim + usTime (travelTime r.windowHalfMm pace)
    ∃ first ∈ l, ∃ last ∈ l, sightedWindow r pace l = (start first, stop last) ∧
      ∀ x ∈ l, (start first - base).toNat ≤ (start x - base).toNat ∧ (stop x - base).toNat ≤ (stop last - base).toNat := by
  intro start stop
  cases l with
  | nil => exact absurd rfl some_
  | cons y l =>
    have spans : sightedWindow r pace (y :: l) =
        ((l.map start).foldl firstOf (start y), (l.map stop).foldl lastOf (stop y)) :=
      foldl_pair firstOf lastOf start stop l _ _
    obtain ⟨mem_first, least⟩ := foldl_picks_least (fun t : Time => (t - base).toNat)
      (fun t => (t - base).toNat ≤ 2 ^ 46) (fun _ _ => firstOf_near) (l.map start) (start y)
      (show ∀ t ∈ (y :: l).map start, _ from List.forall_mem_map.mpr fun x hx => (near x hx).1)
    obtain ⟨mem_last, greatest⟩ := foldl_picks_least (fun t : Time => OrderDual.toDual (t - base).toNat)
      (fun t => (t - base).toNat ≤ 2 ^ 46) (fun _ _ => lastOf_near) (l.map stop) (stop y)
      (show ∀ t ∈ (y :: l).map stop, _ from List.forall_mem_map.mpr fun x hx => (near x hx).2)
    obtain ⟨first, hf, eq_first⟩ := List.mem_map.mp (show _ ∈ (y :: l).map start from mem_first)
    obtain ⟨last, hl, eq_last⟩ := List.mem_map.mp (show _ ∈ (y :: l).map stop from mem_last)
    refine ⟨first, hf, last, hl, by rw [spans, eq_first, eq_last], fun x hx => ⟨?_, ?_⟩⟩
    · rw [eq_first]
      exact least _ (List.mem_map_of_mem (l := y :: l) hx)
    · rw [eq_last]
      exact greatest _ (List.mem_map_of_mem (l := y :: l) hx)

/-- R82, R83: a window of half the width `w` about a centre. -/
theorem windowCentre_about (c w : Time) (small : w.toNat < 2 ^ 46) :
    (c + w - (c - w)).toNat = 2 * w.toNat ∧ windowCentre (c - w, c + w) = c := by
  have span : (c + w - (c - w)).toNat = 2 * w.toNat := by bv_omega
  refine ⟨span, ?_⟩
  unfold windowCentre usTime
  dsimp only
  rw [span, Nat.mul_div_cancel_left _ (by decide), BitVec.ofNat_toNat, BitVec.setWidth_eq, BitVec.sub_add_cancel]

/-! ### What a computation gives a job (R81, R91) -/

/-- The passage of a track and number is open unless the record is vacant or carries another number. -/
theorem Part.passageOpen_iff {p : Part} {k : Track} {num : Count16} :
    p.passageOpen k num = true ↔ (p.passage k).state ≠ .vacant ∧ (p.passage k).number = num := by
  unfold Part.passageOpen
  rw [Bool.and_eq_true, decide_eq_true_eq, beq_iff_eq]

/-- R81, R91: while its passage is open a job takes the pace of the passage, or the default pace, and copies its
flags. -/
theorem Part.computeJob_open {p : Part} {j : Job} (is_open : p.passageOpen j.track j.passage = true) :
    p.jobPace j = (p.passage j.track).pace.getD (p.record j.track).defaultPace ∧
    p.copiedFlags j = ((p.passage j.track).flags.slow, (p.passage j.track).flags.fast,
      (p.passage j.track).flags.noSpeed || (p.passage j.track).pace.isNone) :=
  ⟨if_pos is_open, if_pos is_open⟩

/-- R81, R91: once its passage has closed a job keeps its pace and its copies. -/
theorem Part.computeJob_closed {p : Part} {j : Job} (closed : p.passageOpen j.track j.passage = false) :
    p.jobPace j = j.pace ∧ p.copiedFlags j = (j.flags.slow, j.flags.fast, j.flags.noSpeed) :=
  ⟨if_neg (Bool.eq_false_iff.mp closed), if_neg (Bool.eq_false_iff.mp closed)⟩

/-- Settles O13: one sighting by `windowCentre_about`, several by `sightedWindow_near`, a job by the passage that is open
or closed. -/
theorem singleSightingWindow : Obligations.SingleSightingWindow := by
  refine ⟨fun r pace x wide slow => ?_, fun r pace l base => ?_, fun p j => ?_⟩
  · intro w c g whole
    have width : w ≤ 2160000 := travelTime_le wide slow
    have exact_width : (usTime w).toNat = w := by
      unfold usTime
      rw [BitVec.toNat_ofNat]
      omega
    obtain ⟨span, centred⟩ := windowCentre_about c (usTime w) (by omega)
    have about : sightedWindow r pace [x] = (c - usTime w, c + usTime w) := rfl
    rcases computeTiming_cases r pace [x] with ⟨-, eq⟩ | ⟨-, eq⟩
    · rw [about] at eq
      rw [show g = _ from eq]
      refine ⟨centred, rfl, rfl, rfl, ?_⟩
      show ceilDiv ((c + usTime w - (c - usTime w)).toNat * 100) _ = _
      rw [span, exact_width]
    · rw [show g = _ from eq] at whole
      exact nomatch whole
  · intro w own g some_ near
    obtain ⟨first, hf, last, hl, spans, extreme⟩ := sightedWindow_near (r := r) (pace := pace) (base := base) some_
      fun x hx => ⟨(near x hx).1.le, (near x hx).2.le⟩
    refine ⟨first, hf, last, hl, extreme, ?_⟩
    intro start stop n
    have count : n = countLines start stop (periodFor r.pitchUm pace).count :=
      congrArg (fun x : LinePeriod => countLines start stop x.count) (computeTiming_period r pace l)
    rw [count]
    rcases computeTiming_cases r pace l with ⟨few, eq⟩ | ⟨many, eq⟩
    · rw [spans] at few eq
      rw [show g = _ from eq]
      exact ⟨rfl, rfl, rfl, (decide_eq_false (Nat.not_lt.mpr few)).symm, fun _ => ⟨rfl, rfl, rfl⟩⟩
    · rw [spans] at many eq
      rw [show g = _ from eq]
      exact ⟨rfl, rfl, rfl, (decide_eq_true many).symm, fun few => absurd many (Nat.not_lt.mpr few)⟩
  · intro r m g timed
    refine ⟨fun live same => ?_, fun ended => ?_⟩
    · obtain ⟨pace, flags⟩ := Part.computeJob_open (Part.passageOpen_iff.mpr ⟨live, same⟩)
      refine ⟨fun n hn => ?_, fun none_ => ?_, ?_⟩
      · exact pace.trans (by rw [show (p.passage j.track).pace = some n from hn]; rfl)
      · exact pace.trans (by rw [show (p.passage j.track).pace = none from none_]; rfl)
      · show p.computeJob j = _
        unfold Part.computeJob
        rw [flags]
        rfl
    · have closed : p.passageOpen j.track j.passage = false := by
        rw [← Bool.not_eq_true, Part.passageOpen_iff]
        exact fun live => ended.elim live.1 fun other => other live.2
      obtain ⟨pace, flags⟩ := Part.computeJob_closed closed
      refine ⟨pace, ?_⟩
      show p.computeJob j = _
      unfold Part.computeJob
      rw [flags]
      rfl

end Sys2Proof.Machine
end

