-- ==== Sys2Proof/Proofs/PortRules.lean ====
section
/-! PROOFS. Sync, triggers and trigger pulses of a camera port (O58), and one count of the line clock (O2). -/

namespace Sys2Proof.Machine

/-! ### Link state (R130) -/

/-- R130: a port that is UP goes DOWN, and on an enabled track the loss is told. -/
theorem Part.syncLost_up {p : Part} {k : Track} (up : (p.ports.get k).up = true) :
    p.syncLost k =
      let lost := p.setPort k { p.ports.get k with up := false, losses := (p.ports.get k).losses + 1 }
      if (p.record k).enabled then lost.notice (.linkDown k p.now) else lost :=
  if_pos up

theorem Part.syncLost_down {p : Part} {k : Track} (down : (p.ports.get k).up = false) : p.syncLost k = p :=
  if_neg (Bool.eq_false_iff.mp down)

/-- R172: whether a notice has a place, and the record that it makes, do not turn on the ports. -/
theorem Part.notice_setPort (p : Part) (k : Track) (c : Port) (n : Notice) :
    (p.freePlace = true → (p.setPort k c).notice n =
      (p.setPort k c).setMgr { p.mgr with control := p.mgr.control ++ [p.noticeRecord n] }) ∧
    (p.freePlace = false → (p.setPort k c).notice n =
      (p.setPort k c).setMgr { p.mgr with noticeDrops := p.mgr.noticeDrops + 1 }) := by
  rcases (p.setPort k c).notice_cases n with ⟨free, eq⟩ | ⟨full, eq⟩
  · exact ⟨fun _ => eq, fun full => absurd ((show p.freePlace = true from free).symm.trans full) (by decide)⟩
  · exact ⟨fun free => absurd ((show p.freePlace = false from full).symm.trans free) (by decide), fun _ => eq⟩

/-! ### Triggers (R132) -/

/-- R92, R132: the trigger of a port whose generator has run out before the end of the window of its job. -/
theorem Part.trigger_due {p : Part} {k : Track} {g : Generator} {j : Job} {n : Nat}
    (running : (p.ports.get k).generator = some g) (serves : (p.ports.get k).job = some { tag := j.tag, slot := n })
    (found : p.job j.tag = some j) (out : g.count = 0) (early : liesBefore p.now j.stop = true) :
    p.trigger k = { p with
      ports := p.ports.set k { p.ports.get k with
        pulse := some 100
        generator := some { g with count := p.countsTo j (j.triggered + 1) (g.load.toNat + 1) } }
      csc := { p.csc with jobs := p.csc.jobs.map (fun x =>
        if x.tag == j.tag then { x with triggered := x.triggered + 1 } else x) } } := by
  have job : p.portJob k = some j := by
    unfold Part.portJob
    rw [serves]
    exact found
  have due : p.triggerDue k = true := by
    unfold Part.triggerDue
    rw [running, job]
    dsimp only
    rw [out, early]
    rfl
  unfold Part.trigger
  rw [running, job]
  dsimp only
  rw [if_pos due]
  unfold Part.modPortJob
  rw [Part.setPort_ports, Quad.get_set_self, serves]
  rfl

/-- Settles O58: a loss of sync by `syncLost_up` and `syncLost_down`, a trigger by `trigger_due`. -/
theorem portSyncAndTriggers : Obligations.PortSyncAndTriggers := by
  intro s k p c lost
  have disabled (off : (p.record k).enabled = false) : (if (p.record k).enabled then lost.notice (.linkDown k p.now)
      else lost) = lost := if_neg (Bool.eq_false_iff.mp off)
  have enabled (on : (p.record k).enabled = true) : (if (p.record k).enabled then lost.notice (.linkDown k p.now)
      else lost) = lost.notice (.linkDown k p.now) := if_pos on
  obtain ⟨placed, dropped⟩ := p.notice_setPort k { c with up := false, losses := c.losses + 1 } (.linkDown k p.now)
  refine ⟨fun up off => State.next_withPart ((Part.syncLost_up up).trans (disabled off)),
    fun up on free => State.next_withPart (((Part.syncLost_up up).trans (enabled on)).trans (placed free)),
    fun up on full => State.next_withPart (((Part.syncLost_up up).trans (enabled on)).trans (dropped full)),
    fun down => State.next_withPart (Part.syncLost_down down), rfl,
    fun ended => State.next_withPart (if_pos (decide_eq_true ended)),
    fun runs => State.next_withPart (if_neg fun due => runs (of_decide_eq_true due)), ?_⟩
  intro g j n running serves found out ahead near elapsed triggers
  have triggered {count : Nat} (h : p.countsTo j (j.triggered + 1) (g.load.toNat + 1) = count) : triggers count := by
    rw [← h]
    exact State.next_withPart (Part.trigger_due running serves found out (liesAfter_iff.mpr ⟨ahead, near⟩))
  refine ⟨fun on_grid => triggered ?_, fun _ => triggered rfl⟩
  show (j.triggered + 1) * (g.load.toNat + 1) - elapsed = _
  rw [on_grid, Nat.succ_mul, Nat.add_sub_cancel_left]

/-! ### The turns of the store path (R140) -/

/-- R140: a port is ready that holds a line. -/
theorem Part.memberReady_port {p : Part} {k : Track} :
    p.memberReady (.port k) = true ↔ (p.ports.get k).fifo ≠ [] := by
  show (!(p.ports.get k).fifo.isEmpty) = true ↔ _
  rw [Bool.not_eq_true', List.isEmpty_eq_false_iff]

/-- R140: the read engine is ready whose frame under assembly needs another read. -/
theorem Part.memberReady_engine {p : Part} : p.memberReady .readEngine = true ↔
    ∃ g : ReadEngine, p.fsc.engine = some g ∧ g.kept = none ∧ (g.number = 0 ∨ g.next < g.stop) := by
  show (p.fsc.engine.map ReadEngine.ready).getD false = true ↔ _
  cases p.fsc.engine with
  | none => simp
  | some g => simp [ReadEngine.ready]

/-- The place of a member in the cycle of R140. -/
def StoreMember.place : StoreMember → Nat
  | .port k => k.number
  | .readEngine => 5

/-- How far a member stands behind the one after the member last served. -/
def StoreMember.behind (last m : StoreMember) : Nat := (m.place + 4 - last.place) % 5

/-- R140: the cycle from the one after a member goes through the members as they stand behind it. -/
theorem storeCycleAfter_pairwise (last : StoreMember) :
    (storeCycleAfter last).Pairwise (fun a b => last.behind a < last.behind b) := by
  rcases last with (_ | _ | _ | _) | _ <;> decide

theorem mem_storeCycleAfter (last m : StoreMember) : m ∈ storeCycleAfter last := by
  rcases last with (_ | _ | _ | _) | _ <;> rcases m with (_ | _ | _ | _) | _ <;> decide

/-- In a list whose values rise, the first element that meets a test is the one with the least value. -/
theorem find?_least {α : Type} (d : α → Nat) {test : α → Bool} {m : α} (meets : test m = true)
    (least : ∀ x, test x = true → d m ≤ d x) :
    ∀ {l : List α}, l.Pairwise (fun a b => d a < d b) → m ∈ l → l.find? test = some m
  | x :: l, rises, mem => by
    obtain ⟨first, rest⟩ := List.pairwise_cons.mp rises
    rcases List.mem_cons.mp mem with rfl | mem
    · exact List.find?_cons_of_pos meets
    · have fails : ¬ test x = true := fun hx => absurd (first m mem) (Nat.not_lt.mpr (least x hx))
      rw [List.find?_cons_of_neg fails]
      exact find?_least d meets least rest mem

/-- R140: the ready member that comes first behind the one last served is the first ready one of the cycle. -/
theorem Part.first_ready {p : Part} {m : StoreMember} (ready : p.memberReady m = true)
    (first : ∀ x, p.memberReady x = true → p.fsc.last.behind m ≤ p.fsc.last.behind x) :
    (storeCycleAfter p.fsc.last).find? p.memberReady = some m :=
  find?_least _ ready first (storeCycleAfter_pairwise _) (mem_storeCycleAfter _ _)

/-- R140: the path goes on with its turn, waits on, or gives a turn of 20 clock counts. -/
theorem Part.beginTurn_cases (p : Part) :
    (∀ u : StoreTurn, p.fsc.turn = some u → p.beginTurn = p) ∧
    (p.fsc.turn = none → (∀ m, ¬ p.memberReady m = true) → p.beginTurn = p) ∧
    (∀ m : StoreMember, p.fsc.turn = none → (storeCycleAfter p.fsc.last).find? p.memberReady = some m →
      p.beginTurn = p.setFsc { p.fsc with turn := some { member := m, left := 20 }, last := m }) := by
  unfold Part.beginTurn
  refine ⟨fun u turn => ?_, fun idle waits => ?_, fun m idle found => ?_⟩
  · rw [turn]
  · rw [idle, List.find?_eq_none.mpr fun m _ => waits m]
  · rw [idle, found]

/-- The beginning of a turn changes the frame store alone. -/
theorem Part.beginTurn_rest (p : Part) : p.beginTurn = { p with fsc := p.beginTurn.fsc } := by
  unfold Part.beginTurn
  split
  · rfl
  · split
    · rfl
    · rfl

/-! ### One count of the line clock (R92) -/

/-- The store path after one clock count. -/
def Part.storeTicked (p : Part) : Store :=
  { p.beginTurn.fsc with turn := p.beginTurn.fsc.turn.map (fun u => { u with left := u.left - 1 }) }

/-- What one clock count changes. -/
theorem Part.tick_eq (p : Part) : p.tick = { p with
    tb := p.tb.advance
    ports := p.ports.map Port.advance
    fsc := p.storeTicked
    mgr := { p.mgr with wire := p.mgr.wire.map (fun w => { w with left := w.left - 1 }) }
    lar := { p.lar with daylight := Config.daylightLevel p.free }
    free := p.free + 1 } := by
  have rest := p.beginTurn_rest
  unfold Part.tick Part.storeTicked
  generalize p.beginTurn = q at *
  rw [rest]

/-- With nothing queued and nothing due the line clock counts. -/
theorem step_idle {s : State} (empty : s.pending = []) (none_due : s.part.dueSteps = []) :
    step s = .next (s.withPart s.part.tick) := by
  unfold step Part.nextDue State.withPart
  rw [empty, none_due]

/-- Settles O2: the count by `tick_eq`, the store path by `beginTurn_cases`. -/
theorem idleStepCountsTheLineClock : Obligations.IdleStepCountsTheLineClock := by
  intro s empty none_due p ready place behind
  have ready_iff (m : StoreMember) : p.memberReady m = true ↔ ready m := by
    cases m with
    | port k => exact Part.memberReady_port
    | readEngine => exact Part.memberReady_engine
  have place_eq (m : StoreMember) : place m = m.place := by
    cases m with
    | port k => rfl
    | readEngine => rfl
  have behind_eq (m : StoreMember) : behind m = p.fsc.last.behind m := by
    show (place m + 4 - place p.fsc.last) % 5 = _
    rw [place_eq, place_eq]
    rfl
  obtain ⟨goes_on, waits_on, begins⟩ := p.beginTurn_cases
  refine ⟨p.storeTicked, Config.daylightLevel p.free,
    (step_idle empty none_due).trans (State.next_withPart p.tick_eq), fun u turn => ?_, fun idle none_ready => ?_,
    fun m idle is_ready first => ?_⟩
  · unfold Part.storeTicked
    rw [goes_on u turn, turn]
    rfl
  · unfold Part.storeTicked
    rw [waits_on idle fun m hm => none_ready m ((ready_iff m).mp hm), idle]
    exact congrArg (fun t => { p.fsc with turn := t }) idle.symm
  · have found := Part.first_ready ((ready_iff m).mpr is_ready) fun x hx => by
      rw [← behind_eq, ← behind_eq]
      exact first x ((ready_iff x).mp hx)
    unfold Part.storeTicked
    rw [begins m idle found]
    rfl

end Sys2Proof.Machine
end

