-- ==== Sys2Proof/Proofs/SightingRules.lean ====
section
/-! PROOFS. The allocation of tags, the separation of windows, and how the capture scheduler takes a sighting (O52). -/

namespace Sys2Proof.Machine

/-! ### Tags (R95) -/

/-- R95: a tag is in use by a job of the schedule or by a slot that is not FREE. -/
theorem Part.tagUsed_iff {p : Part} {t : Tag} : p.tagUsed t = true ↔
    (∃ j ∈ p.csc.jobs, j.tag = t) ∨ ∃ (i : Nat) (x : Slot), p.slot i = some x ∧ x.state ≠ .free ∧ x.tag = t := by
  have slots : (p.slotWithTag t).isSome = true ↔
      ∃ (i : Nat) (x : Slot), p.slot i = some x ∧ x.state ≠ .free ∧ x.tag = t := by
    unfold Part.slotWithTag
    rw [List.find?_isSome]
    constructor
    · rintro ⟨i, -, test⟩
      cases hx : p.slot i with
      | none => simp [hx] at test
      | some x => exact ⟨i, x, hx, by simpa [hx] using test⟩
    · rintro ⟨i, x, hx, used⟩
      exact ⟨i, List.mem_range.mpr (Part.slot_lt hx), by simpa [hx] using used⟩
  unfold Part.tagUsed
  rw [Bool.or_eq_true, slots, List.any_eq_true]
  simp only [beq_iff_eq]

/-- R95: at most 32 jobs and 64 slots cannot use the 255 tags of a cycle. -/
theorem Part.exists_unused_tag {p : Part} (few : p.csc.jobs.length ≤ 32) (counter : Tag) :
    ∃ i < 255, p.tagUsed (nextTag^[i + 1] counter) = false := by
  by_contra none_
  have all_used : (Finset.range 255).image (fun i => nextTag^[i + 1] counter) ⊆ p.tagsAbout.toFinset := by
    refine Finset.image_subset_iff.mpr fun i hi => List.mem_toFinset.mpr (Part.mem_tagsAbout ?_)
    exact Bool.of_not_eq_false fun free => none_ ⟨i, Finset.mem_range.mp hi, free⟩
  have distinct : ((Finset.range 255).image (fun i => nextTag^[i + 1] counter)).card = 255 := by
    refine (Finset.card_image_of_injOn fun i hi j hj same => ?_).trans (Finset.card_range 255)
    have same := congrArg BitVec.toNat same
    simp only [nextTag_iterate_toNat] at same
    simp only [Finset.coe_range, Set.mem_Iio] at hi hj
    omega
  have count := (Finset.card_le_card all_used).trans (List.toFinset_card_le _)
  rw [distinct, Part.tagsAbout, List.length_append, List.length_map, List.length_map, Vector.length_toList] at count
  omega

/-- R95: the counter stops at the first tag that is not in use. -/
theorem Part.allocateTag_first (p : Part) : ∀ (n : Nat) (t : Tag),
    (∃ i < n, p.tagUsed (nextTag^[i + 1] t) = false) →
    ∃ m < n, p.allocateTag n t = nextTag^[m + 1] t ∧ p.tagUsed (nextTag^[m + 1] t) = false ∧
      ∀ i < m, p.tagUsed (nextTag^[i + 1] t) = true
  | 0, _, ⟨_, hi, _⟩ => absurd hi (Nat.not_lt_zero _)
  | n + 1, t, ⟨i, hi, unused⟩ => by
    unfold Part.allocateTag
    cases next : p.tagUsed (nextTag t) with
    | false => exact ⟨0, Nat.zero_lt_succ n, rfl, next, fun _ h => absurd h (Nat.not_lt_zero _)⟩
    | true =>
      cases i with
      | zero => exact absurd (next.symm.trans unused) (by decide)
      | succ i =>
        obtain ⟨m, hm, found, free, before⟩ :=
          p.allocateTag_first n (nextTag t) ⟨i, Nat.lt_of_succ_lt_succ hi, unused⟩
        refine ⟨m + 1, Nat.succ_lt_succ hm, found, free, fun a ha => ?_⟩
        cases a with
        | zero => exact next
        | succ a => exact before a (Nat.lt_of_succ_lt_succ ha)

/-! ### Separation (R98) -/

/-- R89, R98: a window moved behind the end of another, with the line count given. -/
def Job.movedBehind (w o : Job) (lines : Nat) : Job :=
  { w with
    start := o.stop + usTime 1, lineCount := lines, lampRequest := lampRequestTime (o.stop + usTime 1)
    flags := { w.flags with clipped := true } }

/-- R98: what a separation leaves: a window that overlaps no job, the first or one moved behind a job, or an empty
one. -/
inductive Separates (js : List Job) (w : Job) : Separation → Prop where
  | stays (apart : ∀ o ∈ js, w.overlaps o = false) : Separates js w (.kept w)
  | moved (o : Job) (mem : o ∈ js)
      (apart : ∀ x ∈ js, (w.movedBehind o (countLines (o.stop + usTime 1) w.stop w.linePeriod)).overlaps x = false) :
      Separates js w (.kept (w.movedBehind o (countLines (o.stop + usTime 1) w.stop w.linePeriod)))
  | empty (o : Job) (mem : o ∈ js) (lines : Nat) (past : atOrBefore w.stop (o.stop + usTime 1) = true) :
      Separates js w (.empty (w.movedBehind o lines))

/-- A window moved behind one job and then separated is the window separated. -/
theorem Separates.of_moved {js : List Job} {w o : Job} {r : Separation} (mem : o ∈ js)
    (h : Separates js (w.movedBehind o (countLines (o.stop + usTime 1) w.stop w.linePeriod)) r) :
    Separates js w r := by
  cases h with
  | stays apart => exact .moved o mem apart
  | moved o' mem' apart => exact .moved o' mem' apart
  | empty o' mem' lines past => exact .empty o' mem' lines past

/-- The jobs whose ends do not lie before a time that lies near them. -/
def endingFrom (base start : Time) (js : List Job) : List Job :=
  js.filter (fun o => decide ((start - base).toNat ≤ (o.stop - base).toNat))

/-- A window moved behind a job that it overlapped meets fewer jobs. -/
theorem endingFrom_lt {base start start' : Time} {js : List Job} {o : Job} (mem : o ∈ js)
    (before : (start - base).toNat ≤ (o.stop - base).toNat) (behind : (o.stop - base).toNat < (start' - base).toNat) :
    (endingFrom base start' js).length < (endingFrom base start js).length := by
  have sub : (endingFrom base start' js).Sublist (endingFrom base start js) :=
    List.monotone_filter_right js fun x hx => by
      simp only [decide_eq_true_eq] at hx ⊢
      omega
  refine lt_of_le_of_ne sub.length_le fun same => ?_
  have mem : o ∈ endingFrom base start' js := by
    rw [sub.eq_of_length same]
    exact List.mem_filter.mpr ⟨mem, decide_eq_true before⟩
  exact absurd (of_decide_eq_true (List.mem_filter.mp mem).2) (Nat.not_le.mpr behind)

/-- R98: among jobs that lie near each other the moves of a separation come to an end. -/
theorem separate_separates {js : List Job} {base : Time}
    (near : ∀ o ∈ js, (o.start - base).toNat < 2 ^ 46 ∧ (o.stop - base).toNat < 2 ^ 46) :
    ∀ (n : Nat) (w : Job), (w.start - base).toNat ≤ 2 ^ 46 → (endingFrom base w.start js).length < n →
      Separates js w (separate n js w)
  | 0, _, _, more => absurd more (Nat.not_lt_zero _)
  | n + 1, w, near_w, more => by
    rcases separate_succ n js w with ⟨apart, eq⟩ | ⟨o, found, moves⟩
    · rw [eq]
      exact .stays apart
    · have mem := List.mem_of_find?_eq_some found
      rcases w.clip_cases (o.stop + usTime 1) with ⟨used, clipped⟩ | ⟨-, clipped⟩
      · rcases moves with ⟨w', clip, eq⟩ | ⟨w', clip, -⟩
        · cases clipped.symm.trans clip
          rw [eq]
          exact .empty o mem w.lineCount used
        · exact nomatch clipped.symm.trans clip
      · rcases moves with ⟨w', clip, -⟩ | ⟨w', clip, eq⟩
        · exact nomatch clipped.symm.trans clip
        · cases clipped.symm.trans clip
          obtain ⟨-, near_o⟩ := near o mem
          have overlap : atOrBefore w.start o.stop = true := by
            have both : w.overlaps o = true := List.find?_some found
            exact (Bool.and_eq_true_iff.mp both).1
          have before := (atOrBefore_near near_w near_o.le).mp overlap
          have start : (o.stop + usTime 1 - base).toNat = (o.stop - base).toNat + 1 := by
            unfold usTime
            bv_omega
          have fewer := endingFrom_lt mem before (start' := o.stop + usTime 1) (by omega)
          rw [eq]
          exact .of_moved mem (separate_separates near n _ (by show (o.stop + usTime 1 - base).toNat ≤ _; omega)
            (by show (endingFrom base (o.stop + usTime 1) js).length < n; omega))

/-! ### A job that enters the schedule (R99) -/

/-- A job of which no namesake's start has been reached is not opened (R104). -/
theorem Part.openIfDue_early {p : Part} {t : Tag}
    (early : ∀ j ∈ p.csc.jobs, j.tag = t → reached p.now j.start = false) : p.openIfDue t = p := by
  refine if_neg fun due => ?_
  unfold Part.openDue at due
  split at due
  · rename_i j found
    obtain ⟨tag, mem⟩ := Part.job_some found
    rw [early j mem tag, Bool.and_false] at due
    exact nomatch due
  · exact nomatch due

/-- R120: an entry that is decided, or whose request time has not come, is left alone. -/
theorem Part.requestTime_early {p : Part} {t : Tag} {e : LampEntry} (found : p.lar.entry t = some e)
    (early : e.phase ≠ .awaiting ∨ reached p.now e.request = false) : p.requestTime t = p := by
  refine if_neg fun due => ?_
  unfold Part.requestDue at due
  rw [found] at due
  obtain ⟨awaiting, passed⟩ := Bool.and_eq_true_iff.mp due
  exact early.elim (fun h => h (of_decide_eq_true awaiting)) fun h => Bool.false_ne_true (h.symm.trans passed)

theorem Part.Relit.tb {p q : Part} (h : p.Relit q) : q.tb = p.tb := by rw [h.rest]

theorem Part.Relit.now {p q : Part} (h : p.Relit q) : q.now = p.now := congrArg Timebase.time h.tb

theorem Part.Relit.records {p q : Part} (h : p.Relit q) : q.records = p.records := by rw [h.rest]

theorem Part.Relit.trackers {p q : Part} (h : p.Relit q) : q.trackers = p.trackers := by rw [h.rest]

theorem Part.Relit.tagCounter {p q : Part} (h : p.Relit q) : q.csc.tagCounter = p.csc.tagCounter := by rw [h.rest]

/-- Where no namesake's start has been reached, none is opened after the arbiter has gone on. -/
theorem Part.Relit.openIfDue_early {p q : Part} (h : p.Relit q) {t : Tag}
    (early : ∀ j ∈ p.csc.jobs, j.tag = t → reached p.now j.start = false) : q.openIfDue t = q := by
  refine Part.openIfDue_early fun y hy tag => ?_
  obtain ⟨x, hx, same⟩ := h.mem_of hy
  have tags : x.unlit.tag = y.unlit.tag := congrArg Job.tag same
  have starts : x.unlit.start = y.unlit.start := congrArg Job.start same
  rw [h.now, show y.start = x.start from starts.symm]
  exact early x hx (tags.trans tag)

/-- R51, R99, R118: the part with a job entered in the schedule, counted by the passage and entered with the arbiter. -/
def Part.enterJob (p : Part) (j : Job) : Part :=
  { p with
    csc := { jobs := insertJob p.now j p.csc.jobs, tagCounter := j.tag, nextEntry := p.csc.nextEntry + 1 }
    trackers := p.trackers.set j.track { p.trackers.get j.track with
      passage := { p.passage j.track with jobCount := (p.passage j.track).jobCount + 1 } }
    lar := { p.lar with entries := p.lar.entries ++
      [{ tag := j.tag, track := j.track, start := j.start, stop := j.stop, request := j.lampRequest
         phase := .awaiting }] } }

/-- R99: a job with its newly allocated tag and its place in the order of entry. -/
def Part.tagged (p : Part) (j : Job) : Job :=
  { j with tag := p.allocateTag 255 p.csc.tagCounter, entryOrder := p.csc.nextEntry }

/-- R99: a full schedule drops the sighting with its own window. -/
theorem Part.placeJob_full {p : Part} (full : 32 ≤ p.csc.jobs.length) (own j : Job) (s : Sighting) :
    p.placeJob own j s = p.dropSighting own s .scheduleFull := if_pos full

/-- R99, R104, R120: a job that is placed enters, and its request time and its start may have come. -/
theorem Part.placeJob_room {p : Part} (room : p.csc.jobs.length < 32) (own j : Job) (s : Sighting) :
    p.placeJob own j s =
      ((p.enterJob (p.tagged j)).requestTime (p.tagged j).tag).openIfDue (p.tagged j).tag :=
  if_neg (Nat.not_le.mpr room)

/-- R118: the entry of a tag that no other entry carries. -/
theorem Part.enterJob_entry {p : Part} {j : Job} (unused : ∀ e ∈ p.lar.entries, e.tag ≠ j.tag) :
    (p.enterJob j).lar.entry j.tag = some
      { tag := j.tag, track := j.track, start := j.start, stop := j.stop, request := j.lampRequest
        phase := .awaiting } := by
  have others : p.lar.entries.find? (fun e => e.tag == j.tag) = none :=
    List.find?_eq_none.mpr fun e he => by
      rw [beq_iff_eq]
      exact unused e he
  show (p.lar.entries ++ _).find? _ = _
  rw [List.find?_append, others, Option.none_or]
  exact List.find?_cons_of_pos (beq_self_eq_true j.tag)

/-- R99, R104, R120: what placing a job comes to, each later step as by its own command. -/
theorem Part.placeJob_steps {p : Part} (room : p.csc.jobs.length < 32) (own j : Job) (s : Sighting)
    (unused : ∀ e ∈ p.lar.entries, e.tag ≠ (p.tagged j).tag) :
    let entered := p.enterJob (p.tagged j)
    let d := entered.requestTime (p.tagged j).tag
    (reached p.now j.lampRequest = false → d = entered) ∧
    (reached p.now j.start = false → p.placeJob own j s = d) := by
  intro entered d
  refine ⟨fun early => Part.requestTime_early (Part.enterJob_entry unused) (.inr early), fun early => ?_⟩
  rw [Part.placeJob_room room]
  refine (entered.requestTime_relit _).openIfDue_early fun x hx tag => ?_
  rcases mem_insertJob.mp hx with rfl | hx
  · exact early
  · obtain ⟨fresh, -⟩ := Part.allocateTag_fresh room p.csc.tagCounter
    have taken := Part.tagUsed_iff.mpr (.inl ⟨x, hx, tag⟩)
    exact absurd (fresh.symm.trans taken) (by decide)

/-! ### A sighting taken (R96, R97) -/

/-- R96 to R98: how a sighting is taken, by its window and by what it overlaps. -/
theorem Part.takeSighting_spec (p : Part) (k : Track) (num : Count16) (s : Sighting) :
    let own := p.computeJob (Job.ofSighting k num s)
    let w := own.lateIfPassed p.now
    let js := p.trackJobs k
    (reached p.now own.stop = true → p.takeSighting k num s = p.dropSighting own s .tooLate) ∧
    (reached p.now own.stop = false →
      (js.find? (fun x => w.overlaps x) = none → p.takeSighting k num s = p.placeJob w w s) ∧
      ∀ o : Job, js.find? (fun x => w.overlaps x) = some o →
        (∀ m : Job, p.mergeInto o num s = some m →
          p.takeSighting k num s = ((p.replaceJob m).giveTimes m).openIfDue m.tag) ∧
        (p.mergeInto o num s = none → ∀ x : Job,
          (separate (js.length + 1) js w = .empty x → p.takeSighting k num s = p.dropSighting w s .overlap) ∧
          (separate (js.length + 1) js w = .kept x → p.takeSighting k num s = p.placeJob w x s))) := by
  intro own w js
  unfold Part.takeSighting
  dsimp only
  refine ⟨fun passed => if_pos passed, fun ahead => ?_⟩
  rw [if_neg (Bool.eq_false_iff.mp ahead)]
  refine ⟨fun apart => ?_, fun o found => ⟨fun m merged => ?_, fun parts x => ⟨fun used => ?_, fun kept => ?_⟩⟩⟩
  · rw [apart]
  · rw [found]
    dsimp only
    rw [merged]
  · rw [found]
    dsimp only
    rw [parts]
    dsimp only
    rw [used]
  · rw [found]
    dsimp only
    rw [parts]
    dsimp only
    rw [kept]

/-- R97: the job computed anew with one more sighting. -/
def Part.mergedJob (p : Part) (o : Job) (s : Sighting) : Job :=
  p.computeJob { o with
    sightings := o.sightings ++ [s]
    flags := { o.flags with orientationUnknown := o.flags.orientationUnknown || s.mark.isUnknown } }

/-- R97: the conditions of a merge. -/
def Part.Merges (p : Part) (o : Job) (num : Count16) (s : Sighting) : Prop :=
  o.state = .waiting ∧ o.passage = num ∧ o.sightings.length < 4 ∧ (p.mergedJob o s).flags.narrowed = false ∧
  ∀ x ∈ p.trackJobs o.track, x.tag ≠ o.tag → ((p.mergedJob o s).lateIfPassed p.now).overlaps x = false

/-- R97: a job is merged with a sighting when every condition holds. -/
theorem Part.mergeInto_cases (p : Part) (o : Job) (num : Count16) (s : Sighting) :
    (p.Merges o num s → p.mergeInto o num s = some ((p.mergedJob o s).lateIfPassed p.now)) ∧
    (¬ p.Merges o num s → p.mergeInto o num s = none) := by
  have apart : ((p.trackJobs o.track).filter (fun x => x.tag != o.tag)).all
      (fun x => !((p.mergedJob o s).lateIfPassed p.now).overlaps x) = true ↔
      ∀ x ∈ p.trackJobs o.track, x.tag ≠ o.tag → ((p.mergedJob o s).lateIfPassed p.now).overlaps x = false := by
    simp only [List.all_eq_true, List.mem_filter, bne_iff_ne, Bool.not_eq_true', and_imp]
  refine ⟨fun ⟨waiting, passage, few, whole, free⟩ => if_pos ⟨waiting, passage, few, whole, apart.mpr free⟩,
    fun fails => if_neg fun ⟨waiting, passage, few, whole, free⟩ =>
      fails ⟨waiting, passage, few, whole, apart.mp free⟩⟩

/-- R119: an entry whose request time has not come, or that is decided, takes the new times. -/
theorem Part.giveTimes_entry_undecided {p : Part} {j : Job} {e : LampEntry} (found : p.lar.entry j.tag = some e)
    (early : e.phase ≠ .awaiting ∨ reached p.now j.lampRequest = false) :
    (p.giveTimes j).lar.entry j.tag = some { e with start := j.start, stop := j.stop, request := j.lampRequest } := by
  unfold Part.giveTimes
  rw [found]
  dsimp only
  split
  · rename_i same
    obtain ⟨start, stop, request⟩ := same
    rw [found, ← start, ← stop, ← request]
  · have given : (p.lar.modEntry j.tag fun e =>
        { e with start := j.start, stop := j.stop, request := j.lampRequest }).entry j.tag =
        some { e with start := j.start, stop := j.stop, request := j.lampRequest } :=
      (p.lar.entry_modEntry j.tag (f := fun e => { e with start := j.start, stop := j.stop, request := j.lampRequest })
        fun _ => rfl).trans (by rw [found]; rfl)
    generalize (p.lar.modEntry j.tag fun e =>
      { e with start := j.start, stop := j.stop, request := j.lampRequest }) = a at given ⊢
    rw [Part.requestTime_early (p := p.setLar a) given early]
    exact given

/-- R97, R119: the schedule and the arbiter after a merge, before the job may open. -/
theorem Part.merge_spec (p : Part) (m : Job) :
    let d := (p.replaceJob m).giveTimes m
    (d.csc.jobs.map Job.unlit).Perm ((p.csc.jobs.map (fun x => if x.tag == m.tag then m else x)).map Job.unlit) ∧
    d.csc.jobs.Pairwise (Job.inOrder p.now) ∧
    (reached p.now m.start = false → d.openIfDue m.tag = d) := by
  intro d
  have relit : (p.replaceJob m).Relit d := (p.replaceJob m).giveTimes_relit m
  refine ⟨(List.Perm.of_eq relit.jobs).trans ((sortJobs_perm _ _).map _), relit.pairwise (sortJobs_pairwise p.now _),
    fun early => relit.openIfDue_early fun x hx tag => ?_⟩
  rcases Part.mem_replaceJob hx with rfl | ⟨-, other⟩
  · exact early
  · exact absurd tag other

/-- R96: the sighting's mark is of an unknown orientation. -/
theorem Mark.isUnknown_eq (x : Mark) : x.isUnknown = decide (x = .unknownA ∨ x = .unknownB) := by cases x <;> rfl

/-- A start that may have been moved to the present leaves what names the job. -/
theorem Job.lateIfPassed_names (j : Job) (now : Time) : (j.lateIfPassed now).tag = j.tag ∧
    (j.lateIfPassed now).track = j.track ∧ (j.lateIfPassed now).passage = j.passage := by
  unfold Job.lateIfPassed
  split
  · exact ⟨rfl, rfl, rfl⟩
  · exact ⟨rfl, rfl, rfl⟩

/-- Settles O52: the tag by `allocateTag_first`, the taking of a sighting by `takeSighting_spec`, `placeJob_steps` and
`merge_spec`, the separation by `separate_separates`. -/
theorem tagAllocationFindsUnusedTag : Obligations.TagAllocationFindsUnusedTag := by
  refine ⟨fun p counter few => ?_, fun p k num s => ?_, fun js w x base near => ?_,
    fun now j l => ⟨insertJob_perm now j l, insertJob_pairwise j⟩⟩
  · obtain ⟨m, hm, found, free, before⟩ := p.allocateTag_first 255 counter (Part.exists_unused_tag few counter)
    have unused {t : Tag} (ht : t = nextTag^[m + 1] counter) : ¬ p.tagUsed t = true := by
      rw [ht, free]
      exact Bool.false_ne_true
    intro t
    refine ⟨?_, fun j hj tag => unused found (Part.tagUsed_iff.mpr (.inl ⟨j, hj, tag⟩)),
      fun i x hx state tag => unused found (Part.tagUsed_iff.mpr (.inr ⟨i, x, hx, state, tag⟩)),
      m, hm, found, fun i hi => Part.tagUsed_iff.mp (before i hi)⟩
    show p.allocateTag 255 counter ≠ 0
    rw [found, Function.iterate_succ_apply']
    exact nextTag_ne_zero _
  · intro t unknown late own w js drops places
    have made : own = p.computeJob (Job.ofSighting k num s) := by
      unfold Job.ofSighting
      rw [Mark.isUnknown_eq]
    obtain ⟨passed, taken⟩ := p.takeSighting_spec k num s
    rw [← made] at passed taken
    obtain ⟨-, track, passage⟩ : _ ∧ w.track = k ∧ w.passage = num := own.lateIfPassed_names p.now
    have dropped {reason : DropReason} {y : Job} (h : t = p.dropSighting y s reason) (track : y.track = k)
        (passage : y.passage = num) : drops reason y := by
      rw [Part.dropSighting, track, passage] at h
      exact h
    have own_dropped {reason : DropReason} (h : t = p.dropSighting w s reason) : drops reason w :=
      dropped h track passage
    have placed {y : Job} (h : t = p.placeJob w y s) (at_ : y.track = k) : places y := by
      subst at_
      refine ⟨fun full => own_dropped (h.trans (Part.placeJob_full full w y s)), ?_⟩
      intro tag entered room unused
      obtain ⟨decides, opens⟩ := Part.placeJob_steps room w y s unused
      refine ⟨_, decides, fun _ => rfl, fun early => h.trans (opens early), fun _ => ?_⟩
      rw [h, Part.placeJob_room room]
      rfl
    refine ⟨fun late => dropped (passed late) rfl rfl, fun ahead => ?_⟩
    obtain ⟨apart, overlaps⟩ := taken ahead
    refine ⟨fun none_ => placed (apart (List.find?_eq_none.mpr fun o ho => by
      rw [show (own.lateIfPassed p.now).overlaps o = false from none_ o ho]
      exact Bool.false_ne_true)) track, fun o found => ?_⟩
    obtain ⟨merged, separated⟩ := overlaps o found
    obtain ⟨merges_some, merges_none⟩ := p.mergeInto_cases o num s
    intro m merges
    have computed : m = p.mergedJob o s := by
      unfold Part.mergedJob
      rw [Mark.isUnknown_eq]
    have conditions : p.Merges o num s ↔ merges := by
      have at_ : o.track = k := beq_iff_eq.mp (List.mem_filter.mp (List.mem_of_find?_eq_some found)).2
      unfold Part.Merges
      rw [at_, ← computed]
      rfl
    refine ⟨fun holds => ?_, fun fails y => ?_⟩
    · obtain ⟨tag, -⟩ : (late m).tag = o.tag ∧ _ := m.lateIfPassed_names p.now
      have opens : t = _ := merged (late m) (by rw [merges_some (conditions.mpr holds), ← computed]; rfl)
      obtain ⟨jobs, order, stays⟩ := p.merge_spec (late m)
      have relit := (p.replaceJob (late m)).giveTimes_relit (late m)
      have entry (e : LampEntry) := Part.giveTimes_entry_undecided (p := p.replaceJob (late m)) (j := late m) (e := e)
      rw [tag] at opens jobs stays entry
      exact ⟨(p.replaceJob (late m)).giveTimes (late m), jobs, order, relit.tagCounter, relit.trackers, relit.mgr,
        relit.ports, relit.fsc, relit.records, relit.tb, fun e found early => entry e found early,
        fun early => opens.trans (stays early), fun _ => by rw [opens]; rfl⟩
    · obtain ⟨empties, keeps⟩ := separated (merges_none (mt conditions.mp fails)) y
      exact ⟨fun used => own_dropped (empties used),
        fun kept => placed (keeps kept) ((separate_track kept).trans track)⟩
  · obtain ⟨near_w, near_js⟩ := List.forall_mem_cons.mp near
    have outcome := separate_separates near_js (js.length + 1) w near_w.1.le
      (Nat.lt_succ_of_le (List.length_filter_le _ _))
    intro moves
    refine ⟨separate_free, fun kept => ?_, fun used => ?_⟩
    · rw [kept] at outcome
      cases outcome with
      | stays apart => exact ⟨apart, .inl rfl⟩
      | moved o mem apart => exact ⟨apart, .inr ⟨o, mem, rfl⟩⟩
    · rw [used] at outcome
      cases outcome with
      | empty o mem lines past => exact ⟨past, o, mem, rfl⟩

end Sys2Proof.Machine
end

