-- ==== Sys2Proof/Proofs/WindowRules.lean ====
section
/-! PROOFS. How a window opens and ends, and how a drain ends at its deadline (O54, O55). -/

namespace Sys2Proof.Machine

/-! ### Lamp statuses at a window end (R121, R122, R125) -/

/-- What is chosen by passing through a list is one of those met. -/
theorem foldl_choice_mem {α : Type} (better : α → α → Bool) :
    ∀ (l : List α) (e : α), l.foldl (fun b x => if better x b then x else b) e ∈ e :: l
  | [], _ => List.mem_cons_self
  | x :: l, e => by
    rcases List.mem_cons.mp (foldl_choice_mem better l (if better x e then x else e)) with now | later
    · rw [List.foldl_cons, now]
      split
      · exact List.mem_cons_of_mem _ List.mem_cons_self
      · exact List.mem_cons_self
    · exact List.mem_cons_of_mem _ (List.mem_cons_of_mem _ later)

/-- R122: the winner is one of the requests. -/
theorem Arbiter.winner_mem {a : Arbiter} {r : Quad TrackRecord} {w : LampEntry} (wins : a.winner r = some w) :
    w ∈ a.requests := by
  unfold Arbiter.winner at wins
  split at wins
  · exact nomatch wins
  · rename_i e l requests
    rw [requests, ← Option.some.inj wins]
    exact foldl_choice_mem (fun x b => x.goesBefore r b) l e

theorem Arbiter.mem_entries_of_request {a : Arbiter} {w : LampEntry} (h : w ∈ a.requests) : w ∈ a.entries := by
  obtain ⟨k, -, request⟩ := List.mem_filterMap.mp h
  obtain ⟨t, -, entry⟩ := Option.bind_eq_some_iff.mp request
  exact List.mem_of_find?_eq_some entry

theorem Part.setLamp_job_other {p : Part} {t u : Tag} (other : t ≠ u) (st : LampStatus) :
    (p.setLamp u st).job t = p.job t :=
  find_mapped_ne other (fun j => { j with lamp := st }) (fun _ => rfl) p.csc.jobs

/-- R122: a grant leaves a job that has no lamp entry alone. -/
theorem Part.grant_job {p : Part} {t : Tag} (gone : p.lar.entry t = none) : p.grant.job t = p.job t := by
  rcases p.grant_cases with same | ⟨w, -, -, wins, granted⟩
  · rw [same]
  · have other : t ≠ w.tag := fun same =>
      List.find?_eq_none.mp gone w (Arbiter.mem_entries_of_request (Arbiter.winner_mem wins)) (beq_iff_eq.mpr same.symm)
    rw [granted]
    exact Part.setLamp_job_other (p := p.setLar _) other _

theorem Part.setLamp_job {p : Part} {t : Tag} {j : Job} (found : p.job t = some j) (st : LampStatus) :
    (p.setLamp t st).job t = some { j with lamp := st } :=
  (find_mapped t (fun j => { j with lamp := st }) (fun _ => rfl) p.csc.jobs).trans (congrArg (Option.map _) found)

theorem Part.lampWindowEnd_none {p : Part} {t : Tag} (absent : p.lar.entry t = none) : p.lampWindowEnd t = p := by
  unfold Part.lampWindowEnd
  rw [absent]

/-- R121, R125: a window end leaves the job the status it has, or UNLIT where its entry still waited for the bank or
had been cleared. -/
theorem Part.lampWindowEnd_job {p : Part} {j : Job} {e : LampEntry} (entry : p.lar.entry j.tag = some e)
    (found : p.job j.tag = some j) : (p.lampWindowEnd j.tag).job j.tag = some { j with
      lamp := if e.phase = .awaiting ∨ e.phase = .serving then j.lamp else .unlit } := by
  have removed (a : Arbiter) : (a.removeEntry j.tag).entry j.tag = none := a.entry_removeEntry _
  have withdrawn (a : Arbiter) : (((p.setLar (a.removeEntry j.tag)).setLamp j.tag .unlit).grant).job j.tag =
      some { j with lamp := .unlit } :=
    (Part.grant_job (removed a)).trans (Part.setLamp_job (p := p.setLar _) found _)
  unfold Part.lampWindowEnd
  rw [entry]
  dsimp only
  cases e.phase with
  | awaiting => exact found
  | serving =>
    let rested : Arbiter := { p.lar.removeEntry j.tag with bank := p.restedBank e.track }
    exact (Part.grant_job (p := p.setLar rested) (removed p.lar)).trans found
  | cleared => exact Part.setLamp_job (p := p.setLar _) found _
  | requested => exact withdrawn _
  | deferred => exact withdrawn _

theorem Part.lampWindowEnd_relit (p : Part) (t : Tag) : p.Relit (p.lampWindowEnd t) := by
  unfold Part.lampWindowEnd
  split
  · exact .refl p
  · split
    · exact (p.setLar_relit _).trans (Part.grant_relit _)
    · exact p.setLar_relit _
    · exact (p.setLar_relit _).trans (Part.setLamp_relit _ _ _)
    all_goals exact ((p.setLar_relit _).trans (Part.setLamp_relit _ _ _)).trans (Part.grant_relit _)

/-! ### The end of a window before the counts are compared (R106) -/

/-- R121, R123, R125: `a` and `lamp` are what the arbiter of `p` and the lamp status of the job become at the end of its
window. -/
def Part.WindowFreed (p : Part) (j : Job) (a : Arbiter) (lamp : LampStatus) : Prop :=
  (p.lar.entry j.tag = none → a = p.lar ∧ lamp = j.lamp) ∧
  (∀ e : LampEntry, p.lar.entry j.tag = some e → p.LampFreed e a ∧
    lamp = if e.phase = .awaiting ∨ e.phase = .serving then j.lamp else .unlit)

theorem Part.lampWindowEnd_windowFreed {p : Part} {j : Job} (found : p.job j.tag = some j) :
    ∃ lamp : LampStatus, (p.lampWindowEnd j.tag).job j.tag = some { j with lamp := lamp } ∧
      p.WindowFreed j (p.lampWindowEnd j.tag).lar lamp := by
  cases entry : p.lar.entry j.tag with
  | none =>
    rw [Part.lampWindowEnd_none entry]
    exact ⟨j.lamp, found, fun _ => ⟨rfl, rfl⟩, fun e he => nomatch entry.symm.trans he⟩
  | some e =>
    refine ⟨_, Part.lampWindowEnd_job entry found, fun absent => (nomatch entry.symm.trans absent), fun y hy => ?_⟩
    cases entry.symm.trans hy
    exact ⟨Part.lampWindowEnd_freed entry, rfl⟩

/-- The camera ports matter to no lamp entry. -/
theorem Part.WindowFreed.of_setPort {p : Part} {k : Track} {c : Port} {j : Job} {a : Arbiter} {lamp : LampStatus}
    (h : (p.setPort k c).WindowFreed j a lamp) : p.WindowFreed j a lamp := by
  refine ⟨h.1, fun e he => ?_⟩
  obtain ⟨freed, status⟩ := h.2 e he
  exact ⟨⟨freed.gone, freed.unheld, freed.rests, freed.idle, freed.regranted, freed.withdrawn, freed.promoted,
    freed.dropped⟩, status⟩

/-- R106, R133: `q` is the part `p` with the window of an OPEN job at its end: its triggers are stopped, the arbiter is
told, and the job drains. -/
structure Part.WindowClosed (p : Part) (j : Job) (lamp : LampStatus) (q : Part) : Prop where
  ports    : q.ports = p.ports.set j.track { p.ports.get j.track with activity := .draining, generator := none }
  job      : q.job j.tag = some { j.beginDrain j.stop with lamp := lamp }
  csc      : q.csc = { p.csc with jobs := q.csc.jobs }
  jobs     : q.csc.jobs.map Job.unlit =
    (p.csc.jobs.map (fun y => if y.tag == j.tag then y.beginDrain j.stop else y)).map Job.unlit
  untold   : p.lar.entry j.tag = none →
    q.csc.jobs = p.csc.jobs.map (fun y => if y.tag == j.tag then y.beginDrain j.stop else y)
  freed    : p.WindowFreed j q.lar lamp
  fsc      : q.fsc = p.fsc
  mgr      : q.mgr = p.mgr
  tb       : q.tb = p.tb
  records  : q.records = p.records
  trackers : q.trackers = p.trackers

/-- A change to a job that reads no lamp status is made alike with the lamp statuses left out. -/
theorem map_unlit_changed {f : Job → Job} (tag : Tag) (blind : ∀ x : Job, (f x).unlit = f x.unlit) (l : List Job) :
    (l.map (fun y => if y.tag == tag then f y else y)).map Job.unlit =
      (l.map Job.unlit).map (fun y => if y.tag == tag then f y else y) := by
  rw [List.map_map, List.map_map]
  refine List.map_congr_left fun x _ => ?_
  simp only [Function.comp_apply]
  rw [show x.unlit.tag = x.tag from rfl]
  split
  · exact blind x
  · rfl

/-- R106: gantry time reaches the end of an OPEN job: its window is closed, and then the counts are compared. -/
theorem Part.windowEnd_closes {p : Part} {j : Job} (found : p.job j.tag = some j) (opened : j.state = .opened)
    (past : reached p.now j.stop = true) : ∃ (q : Part) (lamp : LampStatus),
      p.WindowClosed j lamp q ∧ p.windowEnd j.tag = q.checkDrain j.track := by
  have due : p.endDue j.tag = true := by
    unfold Part.endDue
    rw [found]
    exact Bool.and_eq_true_iff.mpr ⟨decide_eq_true opened, past⟩
  obtain ⟨lamp, job, freed⟩ := Part.lampWindowEnd_windowFreed (p := p.stopTriggers j.track) found
  have relit := (p.stopTriggers j.track).lampWindowEnd_relit j.tag
  refine ⟨((p.stopTriggers j.track).lampWindowEnd j.tag).modJob j.tag (Job.beginDrain j.stop), lamp,
    ⟨relit.ports, ?_, ?_, ?_, ?_, freed.of_setPort, relit.fsc, relit.mgr, ?_, ?_, ?_⟩, ?_⟩
  · exact (find_mapped j.tag (Job.beginDrain j.stop) (fun _ => rfl) _).trans (congrArg (Option.map _) job)
  · rw [Part.modJob_csc, relit.rest]
    rfl
  · rw [Part.modJob_csc]
    refine (map_unlit_changed (f := Job.beginDrain j.stop) j.tag (fun _ => rfl) _).trans ?_
    rw [relit.jobs]
    exact (map_unlit_changed (f := Job.beginDrain j.stop) j.tag (fun _ => rfl) _).symm
  · intro absent
    rw [Part.lampWindowEnd_none (p := p.stopTriggers j.track) absent]
    rfl
  · rw [Part.modJob_tb, relit.rest]
    rfl
  · rw [Part.modJob_records, relit.rest]
    rfl
  · rw [Part.modJob_trackers, relit.rest]
    rfl
  · unfold Part.windowEnd
    rw [found]
    dsimp only
    rw [if_pos due]
    unfold Part.endWindow
    rw [found]
    rfl

/-- R107: gantry time reaches the deadline of a DRAINING job. -/
theorem Part.drainDeadline_due {p : Part} {j : Job} {d : Time} (found : p.job j.tag = some j)
    (drains : j.state = .draining) (deadline : j.drainDeadline = some d) (past : reached p.now d = true) :
    p.drainDeadline j.tag = p.forceDrain j.track .deadline := by
  have due : p.deadlineDue j.tag = true := by
    unfold Part.deadlineDue
    rw [found]
    dsimp only
    rw [deadline]
    exact Bool.and_eq_true_iff.mpr ⟨decide_eq_true drains, past⟩
  unfold Part.drainDeadline
  rw [found]
  exact if_pos due

/-- The jobs left when the job of a closed window leaves the schedule. -/
theorem Part.WindowClosed.others {p q : Part} {j : Job} {lamp : LampStatus} (h : p.WindowClosed j lamp q) :
    (q.csc.jobs.filter (fun y => y.tag != j.tag)).map Job.unlit =
      (p.csc.jobs.filter (fun y => y.tag != j.tag)).map Job.unlit ∧
    (p.lar.entry j.tag = none →
      q.csc.jobs.filter (fun y => y.tag != j.tag) = p.csc.jobs.filter (fun y => y.tag != j.tag)) := by
  have same := filter_mapped j.tag (Job.beginDrain j.stop) (fun _ => rfl) p.csc.jobs
  refine ⟨?_, fun absent => by rw [h.untold absent, same]⟩
  rw [map_unlit_filter fun _ => rfl, h.jobs, ← map_unlit_filter fun _ => rfl, same]

/-- A port still serves the job whose window has closed. -/
theorem Part.WindowClosed.portJob {p q : Part} {j : Job} {lamp : LampStatus} {n : Nat} (h : p.WindowClosed j lamp q)
    (serves : (p.ports.get j.track).job = some { tag := j.tag, slot := n }) :
    q.portJob j.track = some { j.beginDrain j.stop with lamp := lamp } := by
  unfold Part.portJob
  rw [h.ports, Quad.get_set_self]
  dsimp only
  rw [serves]
  exact h.job

/-- R108, R142: a window that closes with every line accounted for, at a port whose FIFO is empty, ends its drain at
once. -/
theorem Part.WindowClosed.drained {p q : Part} {j : Job} {lamp : LampStatus} {n : Nat} {x : Slot}
    (h : p.WindowClosed j lamp q) (serves : (p.ports.get j.track).job = some { tag := j.tag, slot := n })
    (slot : p.slot n = some x) (counted : j.received + j.lost = j.triggered) :
    p.DrainEnded (q.checkDrain j.track) { j.beginDrain j.stop with lamp := lamp } n x x.lines .complete
      (q.csc.jobs.filter (fun y => y.tag != j.tag)) ∧
    (∀ m : Nat, m ≠ n → (q.checkDrain j.track).slot m = p.slot m) ∧
    (q.checkDrain j.track).ports = p.ports.set j.track { p.ports.get j.track with
      activity := .idle, job := none, generator := none, fence := none } ∧
    (q.checkDrain j.track).lar = q.lar ∧ (q.checkDrain j.track).records = p.records ∧
    (q.checkDrain j.track).trackers = p.trackers := by
  have port : q.ports.get j.track = { p.ports.get j.track with activity := .draining, generator := none } := by
    rw [h.ports, Quad.get_set_self]
  have serves' : (q.ports.get j.track).job = some { tag := j.tag, slot := n } := by rw [port]; exact serves
  have slots (m : Nat) : q.slot m = p.slot m := by unfold Part.slot; rw [h.fsc]
  have drains : (q.ports.get j.track).activity = .draining := by rw [port]
  rcases Part.checkDrain_cases (h.portJob serves) with ⟨-, -, ends⟩ | ⟨apart, -⟩
  · obtain ⟨ended, others, -, ports, -, lar, trackers, records⟩ := Part.finishDrain_spec (p := p) (kind := .complete)
      (added := 0) (j := { j.beginDrain j.stop with lamp := lamp }) serves' h.job ((slots n).trans slot) h.mgr h.tb
      (by rw [h.csc]; exact ⟨rfl, rfl⟩) (by rw [h.fsc]) (by rw [h.fsc])
    have unfenced : fenceAfter (p.ports.get j.track).expected 0 = none := by
      cases (p.ports.get j.track).expected <;> rfl
    rw [ends]
    refine ⟨ended, fun m hm => (others m hm).trans (slots m), ?_, lar, records.trans h.records,
      trackers.trans h.trackers⟩
    rw [ports, port, h.ports, Quad.set_set]
    dsimp only
    rw [unfenced]
  · exact absurd ⟨drains, counted⟩ apart

/-- Settles O55: a window that closes by `windowEnd_closes` and `checkDrain`, the deadline by `forceDrain_spec`. -/
theorem windowEndAndDrainEnd : Obligations.WindowEndAndDrainEnd := by
  intro s j n x p k c left freed unlit others drained found serves slot
  refine ⟨?_, ?_⟩
  · intro opened past closing
    obtain ⟨q, lamp, closed, ends⟩ := Part.windowEnd_closes found opened past
    refine ⟨fun outstanding => ?_, fun counted empty => ?_⟩
    · rcases Part.checkDrain_cases (closed.portJob serves) with ⟨-, counted, -⟩ | ⟨-, same⟩
      · exact absurd counted outstanding
      · exact ⟨s.withPart q, lamp, State.next_withPart (ends.trans same), closed.ports, closed.job, closed.csc,
          closed.jobs, closed.freed, closed.fsc, closed.mgr, closed.records, closed.trackers⟩
    · obtain ⟨ended, slots, ports, lar, records, trackers⟩ := closed.drained serves slot counted
      obtain ⟨spared, kept⟩ := closed.others
      have none_left : left = 0 := by
        show j.triggered - (j.received + c.fifo.length + j.lost) = 0
        rw [empty, List.length_nil]
        omega
      have unfenced : c.expected.bind (fun e => if left = 0 then none else some { first := e, length := left }) =
          (none : Option Fence) := by
        rw [none_left]
        cases c.expected <;> rfl
      have freed' : freed (q.checkDrain k).lar lamp := by
        rw [lar]
        exact closed.freed
      refine ⟨s.withPart (q.checkDrain k), lamp, _, ⟨State.next_withPart ends, ?_, slots, ?_, records, trackers⟩,
        freed', spared, kept⟩
      · rw [none_left, empty, List.append_nil, List.any_nil, Bool.or_false]
        exact ended
      · refine ports.trans ?_
        rw [unfenced, ← empty]
  · intro d drains deadline past within last
    obtain ⟨⟨kind, complete, late, ended⟩, slots, ports, -, lar, trackers, records⟩ :=
      Part.forceDrain_spec (kind := .deadline) serves found slot within
    exact ⟨_, kind, ⟨State.next_withPart (Part.drainDeadline_due found drains deadline past), ended, slots, ports,
      records, trackers⟩, lar, complete, late⟩

/-! ### A WAITING job at its start (R104, R105) -/

/-- R105: the part with the job OPEN in the slot found, on its port. -/
def Part.opened (p : Part) (j : Job) (n : Nat) : Part :=
  ((p.claimSlot n j.tag).startPort j.track j.tag n j.linePeriod).modJob j.tag
    (fun x => { x with state := .opened, slot := some n })

theorem Part.openIfDue_due {p : Part} {j : Job} (found : p.job j.tag = some j) (waits : j.state = .waiting)
    (past : reached p.now j.start = true) : p.openIfDue j.tag = p.openJob j.tag := by
  have due : p.openDue j.tag = true := by
    unfold Part.openDue
    rw [found]
    exact Bool.and_eq_true_iff.mpr ⟨decide_eq_true waits, past⟩
  exact if_pos due

/-- R104: what becomes of a WAITING job that opens, in the order of the checks. -/
theorem Part.openJob_cases {p : Part} {j : Job} (found : p.job j.tag = some j) :
    (p.freeSlot j.track = none → p.openJob j.tag = p.endJob j.tag .noSlot .none) ∧
    ∀ n : Nat, p.freeSlot j.track = some n →
      ((p.ports.get j.track).up = false → p.openJob j.tag = p.endJob j.tag .cameraDown .none) ∧
      ((p.ports.get j.track).up = true → (p.ports.get j.track).activity = .draining →
        p.openJob j.tag = (p.forceDrain j.track .cut).opened j n) ∧
      ((p.ports.get j.track).up = true → (p.ports.get j.track).activity ≠ .draining →
        p.openJob j.tag = p.opened j n) := by
  unfold Part.openJob
  rw [found]
  dsimp only
  refine ⟨fun full => by rw [full], fun n free => ?_⟩
  rw [free]
  refine ⟨fun down => if_neg (Bool.eq_false_iff.mp down), fun up draining => ?_, fun up quiet => ?_⟩
  · dsimp only
    rw [if_pos up, if_pos draining]
    rfl
  · dsimp only
    rw [if_pos up, if_neg quiet]
    rfl

/-! ### A missed job (R110) -/

theorem Part.lampJobEnd_none {p : Part} {t : Tag} (absent : p.lar.entry t = none) : p.lampJobEnd t = p := by
  unfold Part.lampJobEnd
  rw [absent]

/-- R110, R172: a job that the arbiter does not know ends with its JOB_ENDED and leaves the schedule. -/
theorem Part.endJob_untold {p : Part} {j : Job} (found : p.job j.tag = some j) (free : p.freePlace = true)
    (absent : p.lar.entry j.tag = none) (reason : EndReason) (cause : CancelCause) :
    p.endJob j.tag reason cause = { p with
      csc := { p.csc with jobs := p.csc.jobs.filter (fun x => x.tag != j.tag) }
      mgr := { p.mgr with control := p.mgr.control ++ [p.noticeRecord (.jobEnded j p.now reason cause)] } } := by
  unfold Part.endJob
  rw [found, Part.lampJobEnd_none absent]
  exact if_pos free

/-- R123, R125: what the arbiter is when a job has ended. -/
theorem Part.endJob_lar {p : Part} {j : Job} (found : p.job j.tag = some j) (reason : EndReason)
    (cause : CancelCause) : (p.endJob j.tag reason cause).lar = (p.lampJobEnd j.tag).lar := by
  unfold Part.endJob
  rw [found]
  obtain ⟨-, -, -, lar, -⟩ := ((p.lampJobEnd j.tag).removeJob j.tag).notice_frame (.jobEnded j p.now reason cause)
  exact lar

/-- R123, R125: the arbiter has no entry of a job that has ended, and is freed of the one it had. -/
theorem Part.endJob_freed {p : Part} {j : Job} (found : p.job j.tag = some j) (reason : EndReason)
    (cause : CancelCause) : (p.endJob j.tag reason cause).lar.entry j.tag = none ∧
      ∀ e : LampEntry, p.lar.entry j.tag = some e → p.LampFreed e (p.endJob j.tag reason cause).lar := by
  rw [Part.endJob_lar found]
  refine ⟨?_, fun e entry => Part.lampJobEnd_freed entry⟩
  cases entry : p.lar.entry j.tag with
  | none => rw [Part.lampJobEnd_none entry, entry]
  | some e =>
    have gone := (Part.lampJobEnd_freed entry).gone
    rwa [Arbiter.entry_tag entry] at gone

/-- R110: the end of a job leaves the store, the ports, the trackers and the records, and of the scheduler all but its
jobs. -/
theorem Part.endJob_frame {p : Part} {j : Job} (found : p.job j.tag = some j) (reason : EndReason)
    (cause : CancelCause) :
    let t := p.endJob j.tag reason cause
    t.csc = { p.csc with jobs := t.csc.jobs } ∧ t.fsc = p.fsc ∧ t.ports = p.ports ∧ t.trackers = p.trackers ∧
    t.records = p.records := by
  intro t
  have relit := p.lampJobEnd_relit j.tag
  have ended : t = ((p.lampJobEnd j.tag).removeJob j.tag).notice (.jobEnded j p.now reason cause) := by
    show p.endJob j.tag reason cause = _
    unfold Part.endJob
    rw [found]
  obtain ⟨csc, fsc, ports, -, trackers, records, -⟩ :=
    ((p.lampJobEnd j.tag).removeJob j.tag).notice_frame (.jobEnded j p.now reason cause)
  rw [ended]
  refine ⟨?_, fsc.trans relit.fsc, ports.trans relit.ports, trackers.trans ?_, records.trans ?_⟩
  · rw [csc, Part.removeJob_csc, relit.rest]
  · rw [Part.removeJob_trackers, relit.rest]
  · rw [Part.removeJob_records, relit.rest]

/-! ### A job that opens on a port that drains (R109) -/

/-- A job of another tag is found among the jobs without one tag as among all. -/
theorem find_other_of_filter {t tag : Tag} (other : t ≠ tag) (l : List Job) :
    (l.filter (fun y => y.tag != tag)).find? (fun y => y.tag == t) = l.find? (fun y => y.tag == t) := by
  rw [List.find?_filter]
  congr 1
  funext y
  by_cases ht : y.tag = t
  · simp [ht, other]
  · simp [ht]

/-- R156, R157: a delivery has started alike where the same slots are HELD, with the same content. -/
theorem Part.DeliveryStarted.of_held {t u : Part} {l : List FetchEntry} (h : t.DeliveryStarted l)
    (held : ∀ (m : Nat) (x : Slot), x.state = .held → (u.slot m = some x ↔ t.slot m = some x))
    (engine : u.fsc.engine = t.fsc.engine) (fetches : u.fsc.fetches = t.fsc.fetches) : u.DeliveryStarted l := by
  have unheld (m : Nat) (absent : ∀ x : Slot, u.slot m = some x → x.state ≠ .held) (x : Slot)
      (hx : t.slot m = some x) : x.state ≠ .held := fun state => absent x ((held m x state).mpr hx) state
  constructor
  · intro waits
    rw [engine, fetches]
    exact h.idle fun e he phase => unheld e.slot (waits e he phase)
  · intro before e after x split earlier phase slot state
    rw [engine, fetches]
    exact h.starts before e after x split (fun y hy waits => unheld y.slot (earlier y hy waits)) phase
      ((held e.slot x state).mp slot) state

/-- What a slot reads as when a job has opened. -/
theorem Part.slot_opened (p : Part) (j : Job) (n m : Nat) : (p.opened j n).slot m =
    if n = m ∧ m < 64 then some { state := .filling, tag := j.tag, lines := [], header := none } else p.slot m :=
  p.slot_setSlot n m _

/-- R105, R108: a job that opens in a FREE slot leaves what the end of a drain in another slot has left. -/
theorem Part.DrainEnded.opened {p t : Part} {d j : Job} {m n : Nat} {x y : Slot} {lines : List Line} {kind : DrainEnd}
    {jobs : List Job} (h : p.DrainEnded t d m x lines kind jobs) (apart : n ≠ m) (slot : t.slot n = some y)
    (free : y.state = .free) : p.DrainEnded (t.opened j n) d m x lines kind
      (jobs.map (fun z => if z.tag == j.tag then { z with state := .opened, slot := some n } else z)) := by
  refine ⟨?_, ?_, fun idle => (h.idle idle).of_held (fun i z state => ?_) rfl rfl, h.busy, h.notice⟩
  · rw [t.slot_opened, if_neg fun both => apart both.1]
    exact h.slot
  · show ({ t.csc with jobs := t.csc.jobs.map _ } : Scheduler) = _
    rw [h.jobs]
  · rw [t.slot_opened]
    by_cases here : n = i
    · subst here
      rw [if_pos ⟨rfl, Part.slot_lt slot⟩, slot]
      constructor
      · rintro ⟨⟩
        exact nomatch state
      · rintro ⟨⟩
        exact nomatch free.symm.trans state
    · rw [if_neg fun both => here both.1]

/-- Settles O54: the checks by `openJob_cases`, a missed job by the rules of `endJob`, the cut drain by
`forceDrain_spec` and `DrainEnded.opened`. -/
theorem windowOpensJob : Obligations.WindowOpensJob := by
  intro s j p k c unlit ended ends started found waits past
  have opens {q : Part} (h : p.openJob j.tag = q) : exec (.windowOpen j.tag) s = .next (s.withPart q) :=
    State.next_withPart ((Part.openIfDue_due found waits past).trans h)
  have misses {reason : EndReason} (free : p.freePlace = true)
      (h : p.openJob j.tag = p.endJob j.tag reason .none) : ends reason := by
    obtain ⟨csc, fsc, ports, trackers, records⟩ := Part.endJob_frame found reason .none
    obtain ⟨gone, freed⟩ := Part.endJob_freed found reason .none
    exact ⟨fun absent => opens (h.trans (Part.endJob_untold found free absent reason .none)),
      _, opens h, Part.endJob_mgr found free reason .none, csc, p.endJob_unlit j.tag reason .none, gone, freed, fsc,
      ports, trackers, records⟩
  obtain ⟨full, placed⟩ := Part.openJob_cases found
  refine ⟨fun absent place => misses place (full absent), fun n free => ?_⟩
  obtain ⟨down, cuts, starts⟩ := placed n free
  refine ⟨fun off place => misses place (down off),
    fun up idle => opens (starts up (by rw [show (p.ports.get j.track).activity = .idle from idle]; decide)), ?_⟩
  intro d m x up draining serves job other slot used within left d' last
  obtain ⟨-, lowest, -⟩ := freeSlotIsLowestOfRegion p k
  obtain ⟨-, ⟨y, unused, state⟩, -⟩ := lowest n free
  have apart : n ≠ m := by
    rintro rfl
    cases unused.symm.trans slot
    exact used state
  obtain ⟨⟨kind, complete, cut, drained⟩, slots, ports, csc, lar, trackers, records⟩ :=
    Part.forceDrain_spec (kind := .cut) serves job slot within
  have still : (p.forceDrain k .cut).job j.tag = some j := by
    unfold Part.job
    rw [csc]
    exact (find_other_of_filter other.symm p.csc.jobs).trans found
  refine ⟨_, kind, opens (cuts up draining), fun ⟨turn, rest⟩ => complete ⟨turn, draining, rest⟩,
    fun fails => cut fun ⟨turn, _, rest⟩ => fails ⟨turn, rest⟩,
    drained.opened apart ((slots n apart).trans unused) state, ?_, fun i hn hm => ?_, ?_, ?_, lar, trackers, records⟩
  · exact (Part.slot_opened _ _ _ _).trans (if_pos ⟨rfl, Part.slot_lt unused⟩)
  · exact ((Part.slot_opened _ _ _ _).trans (if_neg fun both => hn both.1.symm)).trans (slots i hm)
  · exact (find_mapped j.tag (fun x => { x with state := .opened, slot := some n }) (fun _ => rfl) _).trans
      (congrArg (Option.map _) still)
  · show (p.forceDrain k .cut).ports.set k { (p.forceDrain k .cut).ports.get k with
      activity := .triggering, job := some { tag := j.tag, slot := n }, expected := none
      generator := some { load := BitVec.ofNat 16 (j.linePeriod - 1), count := 0 } } = _
    rw [ports, Quad.get_set_self, Quad.set_set]

end Sys2Proof.Machine
end

