-- ==== Sys2Proof/Proofs/LampFrame.lean ====
section
/-! PROOFS. What no operation of the retrieval, the camera ports, the front ends, the link and most commands changes:
the lamp arbiter. One equation for each, by the branches of its definition. -/

namespace Sys2Proof.Machine

/-! ### Notices and image retrieval -/

@[simp] theorem Part.notice_lar (p : Part) (n : Notice) : (p.notice n).lar = p.lar := by
  obtain ⟨-, -, -, lar, -⟩ := p.notice_frame n
  exact lar

@[simp] theorem Part.kickEngine_lar (p : Part) : p.kickEngine.lar = p.lar := by
  obtain ⟨-, -, -, lar, -⟩ := p.kickEngine_frame
  exact lar

@[simp] theorem Part.placeOrWait_lar (p : Part) (r : ControlRecord) : (p.placeOrWait r).lar = p.lar := by
  rcases p.placeOrWait_cases r with ⟨-, eq⟩ | ⟨-, eq⟩ <;> rw [eq] <;> rfl

@[simp] theorem Part.modFetch_lar (p : Part) (t : Tag) (f : FetchEntry → FetchEntry) :
    (p.modFetch t f).lar = p.lar := rfl

@[simp] theorem Part.removeFetch_lar (p : Part) (t : Tag) : (p.removeFetch t).lar = p.lar := rfl

@[simp] theorem Part.finishFetch_lar (p : Part) (e : FetchEntry) : (p.finishFetch e).lar = p.lar := by
  unfold Part.finishFetch
  dsimp only
  split <;> simp

@[simp] theorem Part.placeFrame_lar (p : Part) (f : ImageFrame) : (p.placeFrame f).lar = p.lar := by
  unfold Part.placeFrame
  dsimp only
  split <;> simp

@[simp] theorem Part.completeFrame_lar (p : Part) (f : ImageFrame) : (p.completeFrame f).lar = p.lar := by
  unfold Part.completeFrame
  split <;> simp

@[simp] theorem Part.engineRead_lar (p : Part) (g : ReadEngine) : (p.engineRead g).lar = p.lar := by
  unfold Part.engineRead
  split
  · simp
  · split
    · rfl
    · dsimp only
      split <;> simp

@[simp] theorem Part.completeRead_lar (p : Part) : p.completeRead.lar = p.lar := by
  unfold Part.completeRead
  split
  · dsimp only
    split <;> simp
  · rfl

theorem Part.readTurn_lar (p : Part) : p.readTurn.lar = p.lar := by
  unfold Part.readTurn
  split <;> simp

@[simp] theorem Part.placeKept_lar (p : Part) : p.placeKept.lar = p.lar := by
  unfold Part.placeKept
  split
  · split
    · split <;> simp
    · rfl
  · rfl

@[simp] theorem Part.endDelivery_lar (p : Part) (t : Tag) : (p.endDelivery t).lar = p.lar := by
  unfold Part.endDelivery
  split <;> simp

/-! ### Camera ports -/

@[simp] theorem Part.modPortJob_lar (p : Part) (k : Track) (f : Job → Job) : (p.modPortJob k f).lar = p.lar := by
  unfold Part.modPortJob
  split <;> simp

theorem Part.syncLost_lar (p : Part) (k : Track) : (p.syncLost k).lar = p.lar := by
  unfold Part.syncLost
  dsimp only
  split
  · split <;> simp
  · rfl

@[simp] theorem Part.writeLine_lar (p : Part) (k : Track) (l : Line) : (p.writeLine k l).lar = p.lar := by
  unfold Part.writeLine
  split
  · rfl
  · dsimp only
    split <;> simp

@[simp] theorem Part.flushFifo_lar (p : Part) (k : Track) : (p.flushFifo k).lar = p.lar := by
  have written : ∀ (l : List Line) (q : Part), (l.foldl (fun q x => q.writeLine k x) q).lar = q.lar := by
    intro l
    induction l with
    | nil => exact fun _ => rfl
    | cons x l ih => exact fun q => (ih _).trans (q.writeLine_lar k x)
  exact written _ p

@[simp] theorem Part.finishDrain_lar (p : Part) (k : Track) (kind : DrainEnd) (n : Nat) :
    (p.finishDrain k kind n).lar = p.lar := by
  unfold Part.finishDrain
  split
  · rfl
  · split
    · rfl
    · dsimp only
      split <;> simp

@[simp] theorem Part.checkDrain_lar (p : Part) (k : Track) : (p.checkDrain k).lar = p.lar := by
  unfold Part.checkDrain
  split
  · split <;> simp
  · rfl

@[simp] theorem Part.finishTurn_lar (p : Part) (k : Track) : (p.finishTurn k).lar = p.lar := by
  unfold Part.finishTurn
  dsimp only
  split <;> simp

theorem Part.writeTurn_lar (p : Part) (k : Track) : (p.writeTurn k).lar = p.lar := by
  unfold Part.writeTurn
  split <;> simp

@[simp] theorem Part.completeTurn_lar (p : Part) (k : Track) : (p.completeTurn k).lar = p.lar := by
  unfold Part.completeTurn
  split
  · split <;> simp
  · rfl

@[simp] theorem Part.forceDrain_lar (p : Part) (k : Track) (kind : DrainEnd) : (p.forceDrain k kind).lar = p.lar := by
  unfold Part.forceDrain Part.flushDrain
  dsimp only
  split
  · split <;> simp
  · simp

theorem Part.drainDeadline_lar (p : Part) (t : Tag) : (p.drainDeadline t).lar = p.lar := by
  unfold Part.drainDeadline
  split
  · split <;> simp
  · rfl

theorem Part.trigger_lar (p : Part) (k : Track) : (p.trigger k).lar = p.lar := by
  unfold Part.trigger
  split
  · split <;> simp
  · rfl

theorem Part.pulseEnd_lar (p : Part) (k : Track) : (p.pulseEnd k).lar = p.lar := by
  unfold Part.pulseEnd
  split <;> simp

@[simp] theorem Part.strayLine_lar (p : Part) (k : Track) : (p.strayLine k).lar = p.lar := rfl

@[simp] theorem Part.takeLine_lar (p : Part) (k : Track) (pk : LinePacket) (g : Bool) :
    (p.takeLine k pk g).lar = p.lar := by
  unfold Part.takeLine Part.offerLine
  split
  · dsimp only
    split <;> simp
  · simp

theorem Part.linePacket_lar (p : Part) (k : Track) (pk : LinePacket) : (p.linePacket k pk).lar = p.lar := by
  unfold Part.linePacket
  dsimp only
  split
  · split
    · simp
    · simp
    · split
      · simp
      · split
        · simp
        · split
          · simp
          · split <;> simp
  · rfl

/-! ### Front ends, and what reaches a tracker -/

theorem Part.headInputActive_lar (p : Part) (k : Track) (i : PairId) (h : HeadId) :
    (p.headInputActive k i h).lar = p.lar := by
  unfold Part.headInputActive
  dsimp only
  split
  · rfl
  · split <;> rfl

theorem Part.headInputInactive_lar (p : Part) (k : Track) (i : PairId) (h : HeadId) :
    (p.headInputInactive k i h).lar = p.lar := by
  unfold Part.headInputInactive
  dsimp only
  split
  · split <;> rfl
  · rfl

theorem Part.firstSample_lar (p : Part) (k : Track) (i : PairId) (h : HeadId) : (p.firstSample k i h).lar = p.lar := by
  unfold Part.firstSample
  dsimp only
  split
  · split <;> rfl
  · rfl

theorem Part.secondSample_lar (p : Part) (k : Track) (i : PairId) (h : HeadId) :
    (p.secondSample k i h).lar = p.lar := by
  unfold Part.secondSample
  dsimp only
  split
  · split
    · split <;> rfl
    · rfl
  · rfl

theorem Part.stuckLimit_lar (p : Part) (k : Track) (i : PairId) (h : HeadId) : (p.stuckLimit k i h).lar = p.lar := by
  unfold Part.stuckLimit
  split <;> simp

theorem Part.ceilingExpiry_lar (p : Part) (k : Track) (i : PairId) : (p.ceilingExpiry k i).lar = p.lar := by
  unfold Part.ceilingExpiry
  split <;> rfl

@[simp] theorem Part.closePassage_lar (p : Part) (k : Track) (reason : CloseReason) :
    (p.closePassage k reason).lar = p.lar := by
  obtain ⟨_, _, eq, -⟩ := p.closePassage_frame k reason
  rw [eq]

theorem Part.silenceExpiry_lar (p : Part) (k : Track) : (p.silenceExpiry k).lar = p.lar := by
  unfold Part.silenceExpiry
  split <;> simp

@[simp] theorem Part.takeDeferred_lar (k : Track) (p : Part) (d : Deferred) :
    (Part.takeDeferred k p d).lar = p.lar := by
  cases d with
  | report occupied =>
    show (p.takeReport k occupied).lar = p.lar
    unfold Part.takeReport
    split <;> simp
  | toService => exact p.closePassage_lar k .aborted
  | reset => rfl

@[simp] theorem Part.reachTracker_lar (p : Part) (k : Track) (d : Deferred) : (p.reachTracker k d).lar = p.lar := by
  unfold Part.reachTracker
  split <;> simp

theorem Part.settleExpiry_lar (p : Part) (k : Track) : (p.settleExpiry k).lar = p.lar := by
  unfold Part.settleExpiry
  split <;> simp

@[simp] theorem Part.writeRecord_lar (p : Part) (k : Track) (r : TrackRecord) : (p.writeRecord k r).lar = p.lar := by
  obtain ⟨_, _, eq, -⟩ := p.writeRecord_frame k r
  rw [eq]

@[simp] theorem Part.loadRecords_lar (p : Part) (l : Quad TrackRecord) : (p.loadRecords l).lar = p.lar := by
  simp [Part.loadRecords, Track.all]

/-! ### Recorder link -/

theorem Part.acceptFrame_lar (p : Part) (frame : List Byte) : (p.acceptFrame frame).lar = p.lar := by
  have offered : (p.offerCommand (commandRecord frame)).lar = p.lar := by
    unfold Part.offerCommand
    split <;> rfl
  unfold Part.acceptFrame
  split
  · rfl
  · split
    · split
      · exact offered
      · rfl
    · split
      · exact offered
      · rfl

@[simp] theorem Part.placeWaiting_lar (p : Part) : p.placeWaiting.lar = p.lar := by
  unfold Part.placeWaiting
  split
  · rfl
  · split
    · dsimp only
      split <;> rfl
    · rfl

@[simp] theorem Part.startWire_lar (p : Part) (f : Frame) : (p.startWire f).lar = p.lar := rfl

theorem Part.takeForSending_lar (p : Part) : p.takeForSending.lar = p.lar := by
  unfold Part.takeForSending
  split
  · split
    · simp
    · split
      · dsimp only
        split <;> simp
      · rfl
  · rfl

theorem Part.sendingEnd_lar (p : Part) : p.sendingEnd.lar = p.lar := by
  unfold Part.sendingEnd
  split <;> rfl

/-! ### Commands that leave the arbiter alone -/

@[simp] theorem Part.refuse_lar (p : Part) (r : CommandRecord) (st : Status) : (p.refuse r st).lar = p.lar := rfl

theorem Part.runs_unknown_lar (p : Part) : (p.runs none (fun r q => q.refuse r .badArgument)).lar = p.lar := by
  unfold Part.runs Part.takes
  cases p.mgr.intake with
  | nil => rfl
  | cons r rest =>
    dsimp only
    by_cases taken : p.freePlace = true ∧ r.command = none
    · rw [if_pos taken]
      rfl
    · rw [if_neg taken]

theorem Part.runTrackWrite_lar (r : CommandRecord) (p : Part) : (Part.runTrackWrite r p).lar = p.lar := by
  unfold Part.runTrackWrite
  split
  · rfl
  · dsimp only
    split
    · rfl
    · split
      · rfl
      · split <;> simp

theorem Part.runTrackRead_lar (r : CommandRecord) (p : Part) : (Part.runTrackRead r p).lar = p.lar := by
  unfold Part.runTrackRead
  split <;> rfl

theorem Part.runLampSet_lar (r : CommandRecord) (p : Part) : (Part.runLampSet r p).lar = p.lar := by
  unfold Part.runLampSet
  split
  · rfl
  · split <;> rfl

theorem Part.runTypeWrite_lar (r : CommandRecord) (p : Part) : (Part.runTypeWrite r p).lar = p.lar := by
  unfold Part.runTypeWrite
  dsimp only
  split <;> rfl

theorem Part.runTypeClear_lar (r : CommandRecord) (p : Part) : (Part.runTypeClear r p).lar = p.lar := by
  unfold Part.runTypeClear
  dsimp only
  split
  · rfl
  · split <;> rfl

theorem Part.runTypeRead_lar (r : CommandRecord) (p : Part) : (Part.runTypeRead r p).lar = p.lar := by
  unfold Part.runTypeRead
  dsimp only
  split <;> rfl

theorem Part.runPassageRead_lar (r : CommandRecord) (p : Part) : (Part.runPassageRead r p).lar = p.lar := by
  unfold Part.runPassageRead
  split <;> rfl

theorem Part.runHeadClear_lar (r : CommandRecord) (p : Part) : (Part.runHeadClear r p).lar = p.lar := by
  unfold Part.runHeadClear
  split
  · split
    · split <;> rfl
    · rfl
  · rfl

theorem Part.runSlotRelease_lar (r : CommandRecord) (p : Part) : (Part.runSlotRelease r p).lar = p.lar := by
  unfold Part.runSlotRelease
  split
  · rfl
  · split <;> rfl

theorem Part.runFetch_lar (r : CommandRecord) (p : Part) : (Part.runFetch r p).lar = p.lar := by
  unfold Part.runFetch
  dsimp only
  split
  · rfl
  · split
    · rfl
    · split
      · rfl
      · split <;> simp

@[simp] theorem Part.cancelFetch_lar (p : Part) (t : Tag) : (p.cancelFetch t).lar = p.lar := by
  unfold Part.cancelFetch Part.cancelDelivery
  split
  · rfl
  · split <;> simp

theorem Part.runFetchCancel_lar (r : CommandRecord) (p : Part) : (Part.runFetchCancel r p).lar = p.lar := by
  unfold Part.runFetchCancel
  dsimp only
  split
  · rfl
  · split <;> simp

theorem Part.runCalStore_lar (r : CommandRecord) (p : Part) : (Part.runCalStore r p).lar = p.lar := by
  unfold Part.runCalStore
  split <;> rfl

theorem Part.runCalAutoload_lar (r : CommandRecord) (p : Part) : (Part.runCalAutoload r p).lar = p.lar := by
  unfold Part.runCalAutoload
  split
  · rfl
  · dsimp only
    split <;> rfl

theorem Part.runCalLoad_lar (r : CommandRecord) (p : Part) : (Part.runCalLoad r p).lar = p.lar := by
  unfold Part.runCalLoad
  dsimp only
  split
  · split <;> simp
  · rfl

theorem Part.endWrite_lar (p : Part) (verified : Bool) : (p.endWrite verified).lar = p.lar := by
  unfold Part.endWrite
  split <;> simp

theorem Part.autoLoad_lar (p : Part) : p.autoLoad.lar = p.lar := by
  unfold Part.autoLoad
  dsimp only
  split
  · split <;> simp
  · rfl

end Sys2Proof.Machine
end

