-- ==== Sys2Proof/Proofs/GrantRules.lean ====
section
/-! PROOFS. Where the lamp bank can enter a service (O10). `p.BankGated b` says that outside ON_LINE the bank of `p` is
`b` or is in no service; every operation keeps it, since a grant is made in ON_LINE alone (R122, R126). -/

namespace Sys2Proof.Machine

/-! ### The bank outside ON_LINE (R122 to R126) -/

/-- R121: a request that joins the pending set or a deferral list leaves the bank alone. -/
theorem Arbiter.join_bank (a : Arbiter) (k : Track) (t : Tag) : (a.join k t).bank = a.bank := by
  unfold Arbiter.join
  split <;> rfl

/-- R122: outside ON_LINE nothing is granted. -/
theorem Part.grant_bank_offLine {p : Part} (off : p.mode ≠ .onLine) : p.grant.lar.bank = p.lar.bank := by
  rw [Part.grant_held (.inr off)]

/-- R123, R125: outside ON_LINE the end of a window or of a job starts no service. -/
theorem Part.LampFreed.bank_offLine {p : Part} {e : LampEntry} {a : Arbiter} (h : p.LampFreed e a)
    (off : p.mode ≠ .onLine) : a.bank = p.lar.bank ∨ a.bank.serving = false := by
  have withdrawn (request : e.phase = .requested ∨ e.phase = .deferred) : a.bank = p.lar.bank := by
    by_cases pending : p.lar.pendingSet.get e.track = some e.tag
    · cases deferred : p.lar.deferral.get e.track with
      | nil => rw [h.withdrawn request (.inr off) pending deferred]; rfl
      | cons d l => rw [h.promoted request (.inr off) pending d l deferred]; rfl
    · rw [h.dropped request (.inr off) pending]
      rfl
  cases phase : e.phase with
  | awaiting => rw [h.unheld (.inl phase)]; exact .inl rfl
  | cleared => rw [h.unheld (.inr phase)]; exact .inl rfl
  | requested => exact .inl (withdrawn (.inl phase))
  | deferred => exact .inl (withdrawn (.inr phase))
  | serving =>
    by_cases code : recoveryMs (p.record e.track).recoveryCode = 0
    · rw [h.idle phase code (.inl off)]
      exact .inr rfl
    · rw [h.rests phase code]
      exact .inr rfl

/-- R120: outside ON_LINE a request time leaves the bank alone. -/
theorem Part.requestTime_bank {p : Part} (off : p.mode ≠ .onLine) (t : Tag) :
    (p.requestTime t).lar.bank = p.lar.bank := by
  unfold Part.requestTime Part.decideRequest
  split
  · split
    · rfl
    · dsimp only
      split
      · rfl
      · split
        · rfl
        · refine (Part.grant_bank_offLine ?_).trans (p.lar.join_bank _ _)
          exact off
  · rfl

/-- R124: outside ON_LINE the end of a recovery starts no service. -/
theorem Part.recoveryEnd_bank {p : Part} (off : p.mode ≠ .onLine) :
    p.recoveryEnd.lar.bank = p.lar.bank ∨ p.recoveryEnd.lar.bank.serving = false := by
  unfold Part.recoveryEnd
  split
  · refine .inr ((congrArg Bank.serving (Part.grant_bank_offLine ?_)).trans rfl)
    exact off
  · exact .inl rfl

/-- R128: RESET_PART leaves the bank in no service. -/
theorem Part.lampReset_bank (p : Part) : p.lampReset.lar.bank.serving = false := by
  have rested (k : Track) : (p.restedBank k).serving = false := by
    unfold Part.restedBank
    dsimp only
    split <;> rfl
  cases bank : p.lar.bank with
  | idle => rw [Part.lampReset_resting (by rw [bank]; rfl), bank]; rfl
  | recovery k t => rw [Part.lampReset_resting (by rw [bank]; rfl), bank]; rfl
  | inService tag k granted => rw [Part.lampReset_serving bank]; exact rested k

/-! ### The gate -/

/-- The part is in ON_LINE, or its bank is `b` or in no service. -/
def Part.BankGated (b : Bank) (p : Part) : Prop := p.mode = .onLine ∨ p.lar.bank = b ∨ p.lar.bank.serving = false

namespace Part.BankGated

variable {b : Bank} {p q : Part}

/-- An operation of a block keeps the gate, if outside ON_LINE it starts no service. -/
theorem of_kept (h : p.BankGated b) (kept : p.Kept q)
    (bank : p.mode ≠ .onLine → q.lar.bank = p.lar.bank ∨ q.lar.bank.serving = false) : q.BankGated b := by
  by_cases on : p.mode = .onLine
  · exact .inl (kept.mode.trans on)
  · rcases bank on with same | idle
    · rcases h with mode | gate
      · exact absurd mode on
      · exact .inr (same ▸ gate)
    · exact .inr (.inr idle)

/-- An operation of a block that leaves the arbiter alone keeps the gate. -/
theorem same (h : p.BankGated b) (kept : p.Kept q) (lar : q.lar = p.lar) : q.BankGated b :=
  h.of_kept kept fun _ => .inl (by rw [lar])

theorem setPassage {k : Track} {x : Passage} (h : p.BankGated b) : (p.setPassage k x).BankGated b :=
  h.same (p.setPassage_kept k x) rfl

theorem setMatcher {k : Track} {x : Matcher} (h : p.BankGated b) : (p.setMatcher k x).BankGated b :=
  h.same (p.setMatcher_kept k x) rfl

theorem modJob {t : Tag} {f : Job → Job} (h : p.BankGated b) : (p.modJob t f).BankGated b :=
  h.same (p.modJob_kept t f) rfl

theorem foldl {α : Type} {f : Part → α → Part} (hf : ∀ (q : Part) (a : α), q.BankGated b → (f q a).BankGated b) :
    ∀ (l : List α) {q : Part}, q.BankGated b → (l.foldl f q).BankGated b
  | [], _, h => h
  | a :: l, _, h => foldl hf l (hf _ a h)

/-! ### Capture scheduler -/

theorem lampWindowEnd {t : Tag} (h : p.BankGated b) : (p.lampWindowEnd t).BankGated b :=
  h.of_kept (p.lampWindowEnd_kept t) fun off => by
    cases entry : p.lar.entry t with
    | none => rw [Part.lampWindowEnd_none entry]; exact .inl rfl
    | some e => exact (Part.lampWindowEnd_freed entry).bank_offLine off

theorem endJob {t : Tag} {reason : EndReason} {c : CancelCause} (h : p.BankGated b) :
    (p.endJob t reason c).BankGated b :=
  h.of_kept (p.endJob_kept t reason c) fun off => by
    rcases p.endJob_cases t reason c with ⟨-, eq⟩ | ⟨j, -, eq⟩
    · rw [eq]
      exact .inl rfl
    · rw [eq, Part.notice_lar, Part.removeJob_lar]
      cases entry : p.lar.entry t with
      | none => rw [Part.lampJobEnd_none entry]; exact .inl rfl
      | some e => exact (Part.lampJobEnd_freed entry).bank_offLine off

theorem cancelJobs {f : Job → Bool} {c : CancelCause} (h : p.BankGated b) : (p.cancelJobs f c).BankGated b :=
  foldl (fun _ _ h => h.endJob) _ h

theorem openJob {t : Tag} (h : p.BankGated b) : (p.openJob t).BankGated b := by
  have opened {q : Part} {k : Track} {n c : Nat} {f : Job → Job} (g : q.BankGated b) :
      (((q.claimSlot n t).startPort k t n c).modJob t f).BankGated b :=
    modJob (g.same ((q.claimSlot_kept n t).trans (Part.startPort_kept _ _ _ _ _)) rfl)
  unfold Part.openJob
  split
  · exact h
  · split
    · exact h.endJob
    · split
      · dsimp only
        split
        · exact opened (h.same (p.forceDrain_kept _ _) (p.forceDrain_lar _ _))
        · exact opened h
      · exact h.endJob

theorem openIfDue {t : Tag} (h : p.BankGated b) : (p.openIfDue t).BankGated b := by
  unfold Part.openIfDue
  split
  · exact h.openJob
  · exact h

theorem endWindow {t : Tag} {base : Time} (h : p.BankGated b) : (p.endWindow t base).BankGated b := by
  unfold Part.endWindow
  split
  · exact h
  · rename_i j _
    have stopped : (p.stopTriggers j.track).BankGated b := h.same (p.stopTriggers_kept _) rfl
    exact stopped.lampWindowEnd.modJob.same (Part.checkDrain_kept _ _) (Part.checkDrain_lar _ _)

theorem windowEnd {t : Tag} (h : p.BankGated b) : (p.windowEnd t).BankGated b := by
  unfold Part.windowEnd
  split
  · split
    · exact h.endWindow
    · exact h
  · exact h

theorem ceaseJob {j : Job} (h : p.BankGated b) : (p.ceaseJob j).BankGated b := by
  unfold Part.ceaseJob
  split
  · exact h.endJob
  · exact h.modJob.endWindow
  · exact h

/-- R48, R101: a pace change re-times jobs in ON_LINE only. -/
theorem retimePassage {k : Track} {n : Count16} (h : p.BankGated b) : (p.retimePassage k n).BankGated b :=
  h.of_kept (p.retimePassage_kept k n) fun off => by
    rw [Part.retimePassage, if_neg off]
    exact .inl rfl

/-! ### Axle pattern matcher -/

theorem flagNoSpeed {k : Track} (h : p.BankGated b) : (p.flagNoSpeed k).BankGated b := by
  unfold Part.flagNoSpeed
  split
  · exact h
  · exact h.setPassage

/-- R75: a sighting is handed to the capture scheduler in ON_LINE only. -/
theorem handSighting {k : Track} {c : Bool} {s : Sighting} (h : p.BankGated b) :
    (Part.handSighting k c p s).BankGated b :=
  h.of_kept (Part.handSighting_kept k c p s) fun off => by
    unfold Part.handSighting
    dsimp only
    rw [if_neg fun on => off on.1]
    exact .inl rfl

theorem declare {k : Track} {c : Bool} {x : Candidate} (h : p.BankGated b) : (p.declare k c x).BankGated b := by
  unfold Part.declare
  dsimp only
  split
  · exact setMatcher (foldl (fun _ _ h => h.handSighting) _ h.setPassage)
  · exact h.setMatcher

theorem arrive {k : Track} {a : PendingAxle} {g : Nat} (h : p.BankGated b) : (p.arrive k a g).BankGated b := by
  unfold Part.arrive
  dsimp only
  split
  · exact h.setMatcher
  · split
    · split
      · exact h.declare.setMatcher
      · exact h.setPassage
    · exact h.setMatcher

theorem startCoupling {k : Track} (h : p.BankGated b) : (p.startCoupling k).BankGated b := by
  unfold Part.startCoupling
  dsimp only
  split
  · exact h.flagNoSpeed.setMatcher
  · exact h

theorem innerTime {k : Track} {i : PairId} {d : HeadId} {t : Time} (h : p.BankGated b) :
    (p.innerTime k i d t).1.BankGated b := by
  cases d with
  | inner => exact h
  | outer => exact h.flagNoSpeed

theorem measureGap {k : Track} {t : Time} (h : p.BankGated b) : (p.measureGap k t).1.BankGated b := by
  unfold Part.measureGap
  split
  · exact h
  · dsimp only
    split
    · exact h
    · exact h.flagNoSpeed

theorem handAxle {k : Track} {e : AxleEvent} {n : Count16} (h : p.BankGated b) : (p.handAxle k e n).BankGated b :=
  h.setMatcher.innerTime.measureGap.arrive.startCoupling

theorem moveCoupling {k : Track} (h : p.BankGated b) : (p.moveCoupling k).BankGated b := by
  unfold Part.moveCoupling
  dsimp only
  split
  · exact h.setMatcher
  · exact h

theorem expireCoupling {k : Track} (h : p.BankGated b) : (p.expireCoupling k).BankGated b := by
  unfold Part.expireCoupling
  split
  · exact h.declare
  · exact h.setMatcher

theorem couplingExpiry {k : Track} (h : p.BankGated b) : (p.couplingExpiry k).BankGated b := by
  unfold Part.couplingExpiry
  split
  · exact h.expireCoupling
  · exact h

/-! ### Passage tracker -/

theorem updatePace {k : Track} {i : PairId} {t : Option Nat} (h : p.BankGated b) :
    (p.updatePace k i t).BankGated b := by
  cases t with
  | none => exact h
  | some d =>
    unfold Part.updatePace
    dsimp only
    split
    · exact h.setPassage
    · exact h.setPassage.moveCoupling.retimePassage

theorem entryAxle {k : Track} {e : AxleEvent} (h : p.BankGated b) : (p.entryAxle k e).BankGated b := by
  unfold Part.entryAxle
  dsimp only
  split
  · exact h.setPassage.updatePace
  · exact h.setPassage.updatePace.handAxle

theorem backout {k : Track} (h : p.BankGated b) : (p.backout k).BankGated b := h.setPassage.cancelJobs.setPassage

theorem conflict {k : Track} (h : p.BankGated b) : (p.conflict k).BankGated b := h.setPassage.cancelJobs.setPassage

theorem classify {k : Track} {e : AxleEvent} (h : p.BankGated b) : (p.classify k e).BankGated b := by
  unfold Part.classify
  split
  · split
    · exact h.backout
    · exact h.entryAxle
  · split
    · exact h.conflict
    · exact h.setPassage.updatePace

theorem handleEvent {k : Track} {e : AxleEvent} {m : Bool} (h : p.BankGated b) : (p.handleEvent k e m).BankGated b :=
  h.setPassage.classify.same (Part.examineInside_kept _ k) rfl

theorem takeEvent {k : Track} (h : p.BankGated b) : (p.takeEvent k).BankGated b := by
  have taken : (p.setFront k (p.front.get k).dequeue).BankGated b := h.same (p.setFront_kept k _) rfl
  unfold Part.takeEvent
  split
  · dsimp only
    split
    · exact h
    · split
      · split
        · exact taken.same (Part.setTracker_kept _ k _) rfl
        · exact taken.setPassage.handleEvent
      · exact taken.handleEvent
  · exact h

theorem couplingAtEnd {k : Track} (h : p.BankGated b) : (p.couplingAtEnd k).BankGated b := by
  unfold Part.couplingAtEnd
  split
  · exact h.expireCoupling
  · exact h

theorem closePassage {k : Track} {reason : CloseReason} (h : p.BankGated b) : (p.closePassage k reason).BankGated b :=
  h.same (p.closePassage_kept k reason) (p.closePassage_lar k reason)

theorem takeDeferred {k : Track} {d : Deferred} (h : p.BankGated b) : (Part.takeDeferred k p d).BankGated b :=
  h.same (Part.takeDeferred_kept k p d) (Part.takeDeferred_lar k p d)

theorem endHandling {k : Track} {first : Bool} (h : p.BankGated b) : (p.endHandling k first).BankGated b := by
  cases handling : (p.trackers.get k).handling with
  | none =>
    unfold Part.endHandling
    rw [handling]
    exact h
  | some x =>
    rw [Part.endHandling_eq handling]
    have idle : (p.idled k).BankGated b := h.same (p.setTracker_kept k _) rfl
    have expired : (p.expiredFirst k first).BankGated b := by
      cases first with
      | false => exact idle
      | true => exact idle.couplingAtEnd
    refine couplingAtEnd (foldl (fun _ _ h => h.takeDeferred) _ ?_)
    unfold Part.closedIfDue
    split
    · exact expired.closePassage
    · exact expired

/-! ### Trims and mode changes -/

/-- R27: a change of the trim re-times jobs in ON_LINE only. -/
theorem setTrim {r : CommandRecord} {k : Track} {t : Int} (h : p.BankGated b) : (p.setTrim r k t).BankGated b := by
  unfold Part.setTrim
  dsimp only
  split
  · rename_i on
    exact .inl ((Part.retime_kept _ k _).mode.trans on.1)
  · exact h

theorem runTrimSet {r : CommandRecord} (h : p.BankGated b) : (Part.runTrimSet r p).BankGated b := by
  unfold Part.runTrimSet
  split
  · exact h
  · dsimp only
    split
    · exact h.setTrim
    · exact h

theorem runTrimStep {r : CommandRecord} (h : p.BankGated b) : (Part.runTrimStep r p).BankGated b := by
  unfold Part.runTrimStep
  split
  · exact h
  · dsimp only
    split
    · exact h.setTrim
    · exact h

/-- R112, R113, R126: a block that takes a mode change. -/
theorem blockTakesMode {old new : Mode} {x : ModeBlock} (h : p.BankGated b) :
    (Part.blockTakesMode old new p x).BankGated b := by
  unfold Part.blockTakesMode
  split
  · split
    · exact h
    · exact h
  · split
    · exact foldl (fun _ _ h => h.ceaseJob) p.csc.jobs h
    · exact h.cancelJobs
    · exact h
  · split
    · exact h
    · exact h
  · split
    · exact h.same (p.reachTracker_kept _ _) (p.reachTracker_lar _ _)
    · exact h

/-- R175: the mode changes before any block takes the change, with the bank as it is. -/
theorem runModeSet {order : List ModeBlock} {r : CommandRecord} (h : p.lar.bank = b) :
    (Part.runModeSet order r p).BankGated b := by
  unfold Part.runModeSet
  split
  · exact .inr (.inl h)
  · dsimp only
    split
    · exact .inr (.inl h)
    · split
      · exact .inr (.inl h)
      · exact foldl (fun _ _ h => h.blockTakesMode) _ (.inr (.inl h))

end Part.BankGated

/-! ### Every command and every step -/

/-- A bank of `q` that is in a service in which the bank of `p` is not is there in ON_LINE. -/
def Part.GrantsOnLine (p q : Part) : Prop :=
  q.lar.bank.serving = true → q.lar.bank ≠ p.lar.bank → q.mode = .onLine

theorem Part.grantsOnLine_of_lar {p q : Part} (lar : q.lar = p.lar) : p.GrantsOnLine q :=
  fun _ changed => absurd (by rw [lar]) changed

theorem Part.grantsOnLine_of_idle {p q : Part} (idle : q.lar.bank.serving = false) : p.GrantsOnLine q :=
  fun serving => absurd serving (by rw [idle]; exact nofun)

theorem Part.BankGated.onLine {p q : Part} (h : q.BankGated p.lar.bank) : p.GrantsOnLine q := by
  intro serving changed
  rcases h with on | same | idle
  · exact on
  · exact absurd same changed
  · exact Part.grantsOnLine_of_idle idle serving changed

theorem next_grantsOnLine {s t : State} {q : Part}
    (h : (.next (s.withPart q) : Host.Outcome State Fault Refusal) = .next t) (hq : s.part.GrantsOnLine q) :
    s.part.GrantsOnLine t.part := by
  cases h
  exact hq

/-- A row that leaves the arbiter alone. -/
theorem next_lar {s t : State} {q : Part} (h : (.next (s.withPart q) : Host.Outcome State Fault Refusal) = .next t)
    (lar : q.lar = s.part.lar) : s.part.GrantsOnLine t.part :=
  next_grantsOnLine h (Part.grantsOnLine_of_lar lar)

/-- A row that keeps the gate of the bank. -/
theorem next_gated {s t : State} {q : Part} (h : (.next (s.withPart q) : Host.Outcome State Fault Refusal) = .next t)
    (gated : s.part.BankGated s.part.lar.bank → q.BankGated s.part.lar.bank) : s.part.GrantsOnLine t.part :=
  next_grantsOnLine h (gated (.inr (.inl rfl))).onLine

theorem command_grantsOnLine {s t : State} {c : Command} {run : CommandRecord → Part → Part}
    (h : s.onPart (fun p => p.runsCommand c run) = .next t)
    (hr : ∀ (r : CommandRecord) (q : Part), q.GrantsOnLine (run r q)) : s.part.GrantsOnLine t.part := by
  refine next_grantsOnLine (q := s.part.runsCommand c run) h ?_
  rcases s.part.runsCommand_cases c run with same | ⟨r, rest, ⟨st, refused⟩ | ⟨-, ran⟩⟩
  · rw [same]
    exact Part.grantsOnLine_of_lar rfl
  · rw [refused]
    exact Part.grantsOnLine_of_lar rfl
  · rw [ran]
    exact hr r (s.part.setMgr { s.part.mgr with intake := rest })

/-- A command whose run leaves the arbiter alone. -/
theorem command_lar {s t : State} {c : Command} {run : CommandRecord → Part → Part}
    (h : s.onPart (fun p => p.runsCommand c run) = .next t)
    (lar : ∀ (r : CommandRecord) (q : Part), (run r q).lar = q.lar) : s.part.GrantsOnLine t.part :=
  command_grantsOnLine h fun r q => Part.grantsOnLine_of_lar (lar r q)

/-- A command whose run keeps the gate of the bank. -/
theorem command_gated {s t : State} {c : Command} {run : CommandRecord → Part → Part}
    (h : s.onPart (fun p => p.runsCommand c run) = .next t)
    (gated : ∀ (r : CommandRecord) (q : Part), q.BankGated q.lar.bank → (run r q).BankGated q.lar.bank) :
    s.part.GrantsOnLine t.part :=
  command_grantsOnLine h fun r q => (gated r q (.inr (.inl rfl))).onLine

/-- R122, R126: no command starts a service of the bank but in ON_LINE. -/
theorem exec_grantsOnLine {c : Instr} {s t : State} (h : exec c s = .next t) : s.part.GrantsOnLine t.part := by
  cases c with
  | powerOnReset =>
    exact next_grantsOnLine h (Part.grantsOnLine_of_idle (congrArg (·.bank.serving) s.part.powerOnState.autoLoad_lar))
  | resetPart =>
    refine command_grantsOnLine h fun r q => Part.grantsOnLine_of_idle ?_
    rw [Part.runResetPart_eq]
    exact q.lampReset_bank
  | modeSet order => exact command_gated h fun _ _ _ => Part.BankGated.runModeSet rfl
  | trimSet => exact command_gated h fun _ _ gate => gate.runTrimSet
  | trimStep => exact command_gated h fun _ _ gate => gate.runTrimStep
  | eventTake k => exact next_gated h fun gate => gate.takeEvent
  | eventHandlingEnd k first => exact next_gated h fun gate => gate.endHandling
  | couplingTimerExpiry k => exact next_gated h fun gate => gate.couplingExpiry
  | windowOpen tag => exact next_gated h fun gate => gate.openIfDue
  | windowEnd tag => exact next_gated h fun gate => gate.windowEnd
  | lampRequestTime tag =>
    exact next_gated h fun gate => gate.of_kept (s.part.requestTime_kept tag) fun off =>
      .inl (Part.requestTime_bank off tag)
  | recoveryEnd =>
    exact next_gated h fun gate => gate.of_kept s.part.recoveryEnd_kept Part.recoveryEnd_bank
  | frameAccept frame => exact next_lar h (s.part.acceptFrame_lar frame)
  | unknownCommand => exact next_lar h s.part.runs_unknown_lar
  | ident => exact command_lar h fun _ _ => rfl
  | status => exact command_lar h fun _ _ => rfl
  | timeRead => exact command_lar h fun _ _ => rfl
  | trackWrite => exact command_lar h Part.runTrackWrite_lar
  | trackRead => exact command_lar h Part.runTrackRead_lar
  | lampSet => exact command_lar h Part.runLampSet_lar
  | typeWrite => exact command_lar h Part.runTypeWrite_lar
  | typeClear => exact command_lar h Part.runTypeClear_lar
  | typeRead => exact command_lar h Part.runTypeRead_lar
  | headClear => exact command_lar h Part.runHeadClear_lar
  | scheduleRead => exact command_lar h fun _ _ => rfl
  | passageRead => exact command_lar h Part.runPassageRead_lar
  | slotRead => exact command_lar h fun _ _ => rfl
  | fetch => exact command_lar h Part.runFetch_lar
  | fetchCancel => exact command_lar h Part.runFetchCancel_lar
  | slotRelease => exact command_lar h Part.runSlotRelease_lar
  | calStore => exact command_lar h Part.runCalStore_lar
  | calLoad => exact command_lar h Part.runCalLoad_lar
  | calAutoload => exact command_lar h Part.runCalAutoload_lar
  | pageWriteEnd verified => exact next_lar h (s.part.endWrite_lar verified)
  | takeForSending => exact next_lar h s.part.takeForSending_lar
  | ethernetLinkLost => exact next_lar (q := s.part.linkLost) h rfl
  | ethernetLinkFound => exact next_lar (q := s.part.linkFound) h rfl
  | headInputActive k i d => exact next_lar h (s.part.headInputActive_lar k i d)
  | headInputInactive k i d => exact next_lar h (s.part.headInputInactive_lar k i d)
  | candidateFirstSample k i d => exact next_lar h (s.part.firstSample_lar k i d)
  | candidateSecondSample k i d => exact next_lar h (s.part.secondSample_lar k i d)
  | headStuckLimit k i d => exact next_lar h (s.part.stuckLimit_lar k i d)
  | pairCeilingExpiry k i => exact next_lar h (s.part.ceilingExpiry_lar k i)
  | occupancyInputChange k => exact next_lar (q := s.part.occupancyChange k) h rfl
  | occupancySettleExpiry k => exact next_lar h (s.part.settleExpiry_lar k)
  | silenceTimerExpiry k => exact next_lar h (s.part.silenceExpiry_lar k)
  | trigger k => exact next_lar h (s.part.trigger_lar k)
  | drainDeadline tag => exact next_lar h (s.part.drainDeadline_lar tag)
  | cameraSyncLost k => exact next_lar h (s.part.syncLost_lar k)
  | cameraSyncFound k => exact next_lar (q := s.part.syncFound k) h rfl
  | linePacket k packet => exact next_lar h (s.part.linePacket_lar k packet)
  | storeTurnWrite k => exact next_lar h (s.part.writeTurn_lar k)
  | storeTurnRead => exact next_lar h s.part.readTurn_lar
  | frameSendingEnd => exact next_lar h s.part.sendingEnd_lar
  | triggerPulseEnd k => exact next_lar h (s.part.pulseEnd_lar k)

/-- R92: a clock count moves the daylight level of the arbiter, and leaves the bank. -/
theorem Part.tick_bank (p : Part) : p.tick.lar.bank = p.lar.bank := by rw [Part.tick_eq]

/-- Settles O10: a command at the front of the queue or a timed step by `exec_grantsOnLine`; a clock count leaves the
bank as it is. -/
theorem grantsOnlyOnLine : Obligations.GrantsOnlyOnLine := by
  intro s t h
  unfold step at h
  split at h
  · rename_i rest _
    exact exec_grantsOnLine (s := { s with pending := rest }) h
  · split at h
    · exact exec_grantsOnLine (s := { s with part := s.part.bumpFree }) h
    · cases h
      exact fun _ changed => absurd s.part.tick_bank changed

end Sys2Proof.Machine
end

