-- ==== Sys2Proof/Proofs/LampRules.lean ====
section
/-! PROOFS. A lamp request time (O56), and the winner to which the end of a recovery grants the bank (O57). -/

namespace Sys2Proof.Machine

/-! ### The winner among the requests (R122) -/

/-- Times less than 2^47 µs behind a base lie in the order of their distances from it (R79). -/
theorem liesBefore_near {base x y : Time} (hx : (x - base).toNat < 2 ^ 47) (hy : (y - base).toNat < 2 ^ 47) :
    liesBefore x y = true ↔ (x - base).toNat < (y - base).toNat := by
  have shift : y - x = (y - base) - (x - base) := by bv_omega
  unfold liesBefore
  rw [liesAfter_iff, shift]
  generalize y - base = b at *
  generalize x - base = a at *
  bv_omega

/-- A choice that runs through a list and takes the later value where it goes before the one held ends with a value of
the list of the least key, if the choice between an earlier and a later value of the list falls by the key. -/
theorem foldl_least {α β : Type} [Preorder β] (key : α → β) (before : α → α → Bool) : ∀ (l : List α) (e w : α),
    (e :: l).Pairwise (fun b x => if before x b = true then key x ≤ key b else key b ≤ key x) →
    l.foldl (fun b x => if before x b then x else b) e = w → w ∈ e :: l ∧ ∀ y ∈ e :: l, key w ≤ key y
  | [], e, w, _, chosen => by
    subst chosen
    exact ⟨List.mem_cons_self, fun y hy => by rw [List.mem_singleton.mp hy]; exact le_rfl⟩
  | x :: l, e, w, ordered, chosen => by
    rw [List.foldl_cons] at chosen
    obtain ⟨first, rest⟩ := List.pairwise_cons.mp ordered
    have choice := first x List.mem_cons_self
    cases later : before x e with
    | true =>
      rw [later, if_pos rfl] at chosen choice
      obtain ⟨mem, least⟩ := foldl_least key before l x w rest chosen
      exact ⟨List.mem_cons_of_mem e mem, List.forall_mem_cons.mpr ⟨(least x List.mem_cons_self).trans choice, least⟩⟩
    | false =>
      rw [later, if_neg nofun] at chosen choice
      have skipped : (e :: l).Sublist (e :: x :: l) := (List.sublist_cons_self x l).cons_cons e
      obtain ⟨mem, least⟩ := foldl_least key before l e w (ordered.sublist skipped) chosen
      obtain ⟨held, others⟩ := List.forall_mem_cons.mp least
      exact ⟨skipped.subset mem, List.forall_mem_cons.mpr ⟨held, List.forall_mem_cons.mpr ⟨held.trans choice, others⟩⟩⟩

/-- The winner is a request of the least key, for a key by which the choice between two requests falls. -/
theorem Arbiter.winner_least {β : Type} [Preorder β] (key : LampEntry → β) {a : Arbiter} {r : Quad TrackRecord}
    {e : LampEntry} (h : a.winner r = some e) (ordered : a.requests.Pairwise fun b x =>
      if x.goesBefore r b = true then key x ≤ key b else key b ≤ key x) :
    e ∈ a.requests ∧ ∀ x ∈ a.requests, key e ≤ key x := by
  unfold Arbiter.winner at h
  cases requests : a.requests with
  | nil => rw [requests] at h; exact nomatch h
  | cons x l =>
    rw [requests] at h ordered
    exact foldl_least key (LampEntry.goesBefore r) l x e ordered (Option.some.inj h)

theorem LampEntry.goesBefore_iff (r : Quad TrackRecord) (e b : LampEntry) : e.goesBefore r b = true ↔
    (r.get e.track).lampPriority < (r.get b.track).lampPriority ∨
    ((r.get e.track).lampPriority = (r.get b.track).lampPriority ∧ liesBefore e.start b.start = true) := by
  simp [LampEntry.goesBefore]

/-- R122: no request has a lower priority number than the winner. -/
theorem Arbiter.winner_priority {a : Arbiter} {r : Quad TrackRecord} {e : LampEntry} (h : a.winner r = some e) :
    e ∈ a.requests ∧ ∀ x ∈ a.requests, (r.get e.track).lampPriority ≤ (r.get x.track).lampPriority := by
  refine Arbiter.winner_least (fun x => (r.get x.track).lampPriority) h (List.pairwise_of_forall fun b x => ?_)
  split
  · rename_i before
    rcases (x.goesBefore_iff r b).mp before with lower | ⟨same, -⟩
    · exact lower.le
    · exact same.le
  · rename_i stays
    exact Nat.le_of_not_lt fun lower => stays ((x.goesBefore_iff r b).mpr (.inl lower))

/-- The priority number, the distance of the start behind a base and the track number of a request, in the order in
which R122 compares them. -/
def LampEntry.rank (r : Quad TrackRecord) (base : Time) (e : LampEntry) : ℕ ×ₗ ℕ ×ₗ ℕ :=
  toLex ((r.get e.track).lampPriority, toLex ((e.start - base).toNat, e.track.number))

theorem LampEntry.rank_le_iff {r : Quad TrackRecord} {base : Time} {e x : LampEntry} : e.rank r base ≤ x.rank r base ↔
    (r.get e.track).lampPriority < (r.get x.track).lampPriority ∨
    ((r.get e.track).lampPriority = (r.get x.track).lampPriority ∧
      ((e.start - base).toNat < (x.start - base).toNat ∨
        ((e.start - base).toNat = (x.start - base).toNat ∧ e.track.number ≤ x.track.number))) := by
  simp only [LampEntry.rank, Prod.Lex.toLex_le_toLex]

/-- The requests stand in the order of their tracks. -/
theorem Arbiter.requests_ordered {a : Arbiter} (own : ∀ (j : Track) (t : Tag) (x : LampEntry),
    a.pendingSet.get j = some t → a.entry t = some x → x.track = j) :
    a.requests.Pairwise fun b x => b.track.number < x.track.number := by
  have tracks : Track.all.Pairwise fun i j => i.number < j.number := by decide
  refine List.pairwise_filterMap.mpr (tracks.imp fun {i j} earlier b hb x hx => ?_)
  obtain ⟨t, pending, entry⟩ := Option.bind_eq_some_iff.mp hb
  obtain ⟨u, pending', entry'⟩ := Option.bind_eq_some_iff.mp hx
  rwa [own i t b pending entry, own j u x pending' entry']

/-- R122: among requests whose starts lie near each other, the winner has the least rank. -/
theorem Arbiter.winner_rank {a : Arbiter} {r : Quad TrackRecord} {e : LampEntry} {base : Time}
    (h : a.winner r = some e) (own : ∀ (j : Track) (t : Tag) (x : LampEntry),
      a.pendingSet.get j = some t → a.entry t = some x → x.track = j)
    (near : ∀ x ∈ a.requests, (x.start - base).toNat < 2 ^ 47) :
    ∀ x ∈ a.requests, e.rank r base ≤ x.rank r base := by
  have tracks := Arbiter.requests_ordered own
  refine (Arbiter.winner_least (LampEntry.rank r base) h (tracks.imp_of_mem fun {b x} hb hx earlier => ?_)).2
  have starts := liesBefore_near (near x hx) (near b hb)
  have before := x.goesBefore_iff r b
  rw [starts] at before
  split
  · rename_i goes
    rw [before] at goes
    rw [LampEntry.rank_le_iff]
    omega
  · rename_i stays
    rw [before] at stays
    rw [LampEntry.rank_le_iff]
    omega

/-- R122: of the requests of the winner's priority number none starts earlier, and of those with its start none has a
lower track number. -/
theorem Arbiter.winner_start {a : Arbiter} {r : Quad TrackRecord} {e x : LampEntry} (h : a.winner r = some e)
    (own : ∀ (j : Track) (t : Tag) (x : LampEntry), a.pendingSet.get j = some t → a.entry t = some x → x.track = j)
    (near : ∃ base : Time, ∀ x ∈ a.requests, (x.start - base).toNat < 2 ^ 47) (hx : x ∈ a.requests)
    (priority : (r.get x.track).lampPriority = (r.get e.track).lampPriority) :
    liesBefore x.start e.start = false ∧ (x.start = e.start → e.track.number ≤ x.track.number) := by
  obtain ⟨base, near⟩ := near
  have starts := liesBefore_near (near x hx) (near e (Arbiter.winner_priority h).1)
  have least := LampEntry.rank_le_iff.mp (Arbiter.winner_rank h own near x hx)
  refine ⟨Bool.eq_false_iff.mpr fun earlier => ?_, fun same => ?_⟩
  · rw [starts] at earlier
    omega
  · rw [same] at least
    omega

/-! ### A grant (R122) -/

theorem Part.grant_winner {p : Part} {e : LampEntry} (idle : p.lar.bank = .idle) (on : p.mode = .onLine)
    (winner : p.lar.winner p.records = some e) :
    p.grant = (p.setLar (({ p.lar.withdraw e.track e.tag with
      bank := .inService e.tag e.track p.now } : Arbiter).setPhase e.tag .serving)).setLamp e.tag
        (if atOrBefore p.now e.start then .lit else .partlyLit) := by
  unfold Part.grant
  rw [idle, on, winner]

/-- A job whose lamp status is written has it. -/
theorem Part.setLamp_status {p : Part} {t : Tag} {st : LampStatus} {j : Job} (hj : j ∈ (p.setLamp t st).csc.jobs)
    (tag : j.tag = t) : j.lamp = st := by
  obtain ⟨x, -, rfl⟩ := List.mem_map.mp hj
  dsimp only at tag ⊢
  split
  · rfl
  · rename_i other
    rw [if_neg other] at tag
    exact absurd (beq_iff_eq.mpr tag) other

/-- R118, R122: what the grant to the winner leaves. -/
theorem Part.grant_granted {p : Part} {e : LampEntry} (idle : p.lar.bank = .idle) (on : p.mode = .onLine)
    (winner : p.lar.winner p.records = some e) :
    (∀ j ∈ p.grant.csc.jobs, j.tag = e.tag → j.lamp = (if atOrBefore p.now e.start then .lit else .partlyLit)) ∧
    ∀ j : Track, p.grant.lar.lampOutput j = decide (j = e.track) := by
  refine ⟨?_, fun j => ?_⟩
  · rw [Part.grant_winner idle on winner]
    exact fun j hj tag => Part.setLamp_status hj tag
  · unfold Arbiter.lampOutput
    rw [Part.grant_bank idle on winner]
    exact decide_eq_decide.mpr eq_comm

/-! ### The end of a recovery (R124) -/

theorem Part.recoveryEnd_due {p : Part} {k : Track} (h : p.lar.bank = .recovery k p.now) :
    p.recoveryEnd = (p.setLar { p.lar with bank := .idle }).grant := by
  refine if_pos ?_
  unfold Part.recoveryDue
  rw [h]
  exact reached_self _

/-- Settles O57: the order of the requests by `Arbiter.winner_priority` and `Arbiter.winner_start`, the recovery's end
by the grant that follows it. -/
theorem recoveryEndGrantsWinner : Obligations.RecoveryEndGrantsWinner := by
  intro s k p a
  refine ⟨fun e winner => ⟨(Arbiter.winner_priority winner).1, (Arbiter.winner_priority winner).2,
    fun own near x hx => Arbiter.winner_start winner own near hx⟩, fun recovers => ?_⟩
  have ended : exec .recoveryEnd s = .next (s.withPart (p.setLar a).grant) :=
    State.next_withPart (Part.recoveryEnd_due recovers)
  refine ⟨fun held => ended.trans (State.next_withPart ?_), fun on e winner => ⟨_, ended, ?_⟩⟩
  · rcases held with off | none
    · exact Part.grant_held (p := p.setLar a) (.inr off)
    · exact Part.grant_no_request (p := p.setLar a) none
  · have same := (p.setLar_relit a).trans (Part.grant_relit _)
    obtain ⟨lamps, outputs⟩ := Part.grant_granted (p := p.setLar a) rfl on winner
    exact ⟨Part.grant_bank (p := p.setLar a) rfl on winner, lamps, outputs, same.ports, same.fsc, same.mgr,
      ((p.setLar_kept a).trans (Part.grant_kept _)).records⟩

/-! ### A request joins (R121) -/

/-- A change made twice to the chosen values of a list is the later one alone, where it overwrites the earlier. -/
theorem map_overwrite {α : Type} {c : α → Bool} {f g : α → α} (chosen : ∀ x, c (f x) = c x)
    (overwrites : ∀ x, g (f x) = g x) (l : List α) :
    (l.map fun x => if c x then f x else x).map (fun x => if c x then g x else x) =
      l.map fun x => if c x then g x else x := by
  rw [List.map_map]
  refine List.map_congr_left fun x _ => ?_
  rw [Function.comp_apply]
  cases choice : c x with
  | true => simp only [if_true, chosen, choice, overwrites]
  | false => simp [choice]

theorem Arbiter.setPhase_setPhase (a : Arbiter) (t : Tag) (x y : LampPhase) :
    (a.setPhase t x).setPhase t y = a.setPhase t y :=
  congrArg (fun l => ({ a with entries := l } : Arbiter)) (map_overwrite (c := fun e => e.tag == t)
    (f := fun e => { e with phase := x }) (g := fun e => { e with phase := y }) (fun _ => rfl) (fun _ => rfl) a.entries)

theorem Part.setLamp_setLamp (p : Part) (t : Tag) (x y : LampStatus) :
    (p.setLamp t x).setLamp t y = p.setLamp t y :=
  congrArg p.setJobs (map_overwrite (c := fun j => j.tag == t) (f := fun j => { j with lamp := x })
    (g := fun j => { j with lamp := y }) (fun _ => rfl) (fun _ => rfl) p.csc.jobs)

theorem Arbiter.join_free {a : Arbiter} {k : Track} (h : a.pendingSet.get k = none) (t : Tag) :
    a.join k t = { a.setPhase t .requested with pendingSet := a.pendingSet.set k (some t) } := by
  unfold Arbiter.join
  rw [h]

theorem Arbiter.join_behind {a : Arbiter} {k : Track} {u : Tag} (h : a.pendingSet.get k = some u) (t : Tag) :
    a.join k t = { a.setPhase t .deferred with deferral := a.deferral.set k (a.deferral.get k ++ [t]) } := by
  unfold Arbiter.join
  rw [h]

/-- A request withdrawn from a track on which none is deferred leaves the track's place in the pending set free. -/
theorem Arbiter.withdraw_alone {a : Arbiter} {k : Track} {t : Tag} (pending : a.pendingSet.get k = some t)
    (alone : a.deferral.get k = []) : a.withdraw k t = { a with pendingSet := a.pendingSet.set k none } := by
  unfold Arbiter.withdraw Arbiter.promote
  rw [if_pos pending]
  dsimp only
  rw [Quad.get_set_self, alone]

/-- A request alone in the pending set wins. -/
theorem Arbiter.winner_alone {a : Arbiter} {k : Track} {t : Tag} {e : LampEntry}
    (pending : a.pendingSet = (Quad.all none).set k (some t)) (entry : a.entry t = some e) (r : Quad TrackRecord) :
    a.winner r = some e := by
  have alone : a.requests = [e] := by
    unfold Arbiter.requests
    rw [pending]
    cases k <;> simp [Track.all, Quad.set, Quad.get, Quad.all, entry]
  unfold Arbiter.winner
  rw [alone]
  rfl

/-- R121, R122: a request that joins an idle bank's empty pending set in ON_LINE is granted, as `e` starts. -/
theorem Part.grant_alone {p : Part} {e : LampEntry} (entry : p.lar.entry e.tag = some e) (idle : p.lar.bank = .idle)
    (on : p.mode = .onLine) (pending : p.lar.pendingSet = .all none) (deferral : p.lar.deferral = .all []) :
    ((p.setLar (p.lar.join e.track e.tag)).setLamp e.tag .pending).grant =
      (p.setLar { p.lar.setPhase e.tag .serving with bank := .inService e.tag e.track p.now }).setLamp e.tag
        (if atOrBefore p.now e.start then .lit else .partlyLit) := by
  have joined := Arbiter.join_free (a := p.lar) (k := e.track) (by rw [pending, Quad.get_all]) e.tag
  generalize p.lar.join e.track e.tag = a at joined
  have known : a.entry e.tag = some { e with phase := .requested } := by
    rw [joined]
    refine (Arbiter.entry_modEntry p.lar e.tag (f := fun x => { x with phase := .requested }) fun _ => rfl).trans ?_
    rw [entry]
    rfl
  have sole : a.pendingSet = (Quad.all none).set e.track (some e.tag) := by rw [joined, ← pending]
  have withdrawn : a.withdraw e.track e.tag = p.lar.setPhase e.tag .requested := by
    have held : a.pendingSet.get e.track = some e.tag := by rw [sole, Quad.get_set_self]
    have behind : a.deferral.get e.track = [] := by rw [joined]; exact deferral ▸ Quad.get_all _ _
    have free : (p.lar.pendingSet.set e.track (some e.tag)).set e.track none = p.lar.pendingSet := by
      rw [Quad.set_set, pending]
      cases e.track <;> rfl
    rw [Arbiter.withdraw_alone held behind, joined]
    dsimp only
    rw [free]
    rfl
  have granted := Part.grant_winner (p := (p.setLar a).setLamp e.tag .pending)
    (e := { e with phase := .requested }) (by rw [← idle]; show a.bank = _; rw [joined]; rfl) on
    (Arbiter.winner_alone sole known _)
  rw [show ((p.setLar a).setLamp e.tag .pending).lar = a from rfl, withdrawn] at granted
  have phases := Arbiter.setPhase_setPhase { p.lar with bank := .inService e.tag e.track p.now } e.tag
    .requested .serving
  exact granted.trans ((congrArg (fun x => ((p.setLar x).setLamp e.tag .pending).setLamp e.tag _) phases).trans
    (Part.setLamp_setLamp _ e.tag .pending _))

/-! ### A request time (R120) -/

/-- R120, R121: at its request time a job of a masked track is decided MASKED, one that uses daylight in daylight is
decided DAYLIGHT, and any other joins the requests, after which the bank is granted if it can be. -/
theorem Part.requestTime_due {p : Part} {e : LampEntry} (entry : p.lar.entry e.tag = some e)
    (awaiting : e.phase = .awaiting) (due : reached p.now e.request = true) : p.requestTime e.tag =
      if (p.record e.track).lampMask = true then (p.setLar (p.lar.removeEntry e.tag)).setLamp e.tag .masked
      else if (p.record e.track).daylightUse = true ∧ p.lar.daylight = true then
        (p.setLar (p.lar.removeEntry e.tag)).setLamp e.tag .daylight
      else ((p.setLar (p.lar.join e.track e.tag)).setLamp e.tag .pending).grant := by
  have reaches : p.requestDue e.tag = true := by simp [Part.requestDue, entry, awaiting, due]
  simp [Part.requestTime, reaches, Part.decideRequest, entry]

/-- Settles O56: the branches of `Part.requestTime_due`; a request finds its track's place in the pending set free or
taken (`Arbiter.join_free`, `Arbiter.join_behind`), and a bank that grants nothing or is granted (`Part.grant_held`,
`Part.grant_alone`). -/
theorem lampRequestDecided : Obligations.LampRequestDecided := by
  intro s e p k r status phase becomes removed requests found awaiting due
  have decided := Part.requestTime_due found awaiting due
  have becomes_of {a : Arbiter} {x : LampStatus} (eq : p.requestTime e.tag = (p.setLar a).setLamp e.tag x) :
      becomes a x := State.next_withPart eq
  have requested (req : requests) :
      p.requestTime e.tag = ((p.setLar (p.lar.join k e.tag)).setLamp e.tag .pending).grant := by
    have unlit : ¬ (r.daylightUse = true ∧ p.lar.daylight = true) := by
      rintro ⟨uses, light⟩
      rcases req.2 with unused | dark
      · exact nomatch unused.symm.trans uses
      · exact nomatch dark.symm.trans light
    exact decided.trans ((if_neg (ne_true_of_eq_false req.1)).trans (if_neg unlit))
  refine ⟨fun masked => becomes_of (decided.trans (if_pos masked)), fun unmasked uses light => becomes_of ?_,
    fun req held => ?_, fun req idle on pending deferral => becomes_of ?_⟩
  · exact decided.trans ((if_neg (ne_true_of_eq_false unmasked)).trans (if_pos ⟨uses, light⟩))
  · have joined : p.requestTime e.tag = (p.setLar (p.lar.join k e.tag)).setLamp e.tag .pending := by
      refine (requested req).trans (Part.grant_held ?_)
      show (p.lar.join k e.tag).bank ≠ .idle ∨ p.mode ≠ .onLine
      rwa [Arbiter.join_bank]
    refine ⟨fun free => becomes_of ?_, fun t taken => becomes_of ?_⟩
    · rw [joined, Arbiter.join_free free]
      rfl
    · rw [joined, Arbiter.join_behind taken]
      rfl
  · exact (requested req).trans (Part.grant_alone found idle on pending deferral)

end Sys2Proof.Machine
end

