-- ==== Sys2Proof/Proofs/LineRules.lean ====
section
/-! PROOFS. How a line packet (O59) and a store turn of a port (O60) account for a line, and that every command answers
a next state (O3). -/

namespace Sys2Proof.Machine

/-! ### Every command acts on the part alone -/

/-- Each arm of the dispatch answers the machine with its part changed. -/
theorem exec_answers (c : Instr) (s : State) : ∃ q : Part, exec c s = .next (s.withPart q) := by
  cases c <;> exact ⟨_, rfl⟩

/-- Settles O3: a change of the part leaves the queue as it was. -/
theorem everyCommandAnswersNext : Obligations.EveryCommandAnswersNext := by
  intro c s
  obtain ⟨q, next⟩ := exec_answers c s
  exact ⟨s.withPart q, next, rfl⟩

/-! ### The part after a line of a job -/

/-- The part with a port, the job of a tag and the frame store changed: all that a line of the job reaches until the
counts are compared (R142). -/
def Part.captured (p : Part) (k : Track) (tag : Tag) (c : Port) (f : Job → Job) (store : Store) : Part :=
  { p with
    ports := p.ports.set k c
    fsc := store
    csc := { p.csc with jobs := p.csc.jobs.map (fun y => if y.tag == tag then f y else y) } }

section
variable {p : Part} {k : Track} {tag : Tag} {n : Nat} {c : Port} {f : Job → Job} {store : Store}

theorem Part.captured_port : (p.captured k tag c f store).ports.get k = c := Quad.get_set_self _ _ _

/-- Nothing is changed by the port as it stands, the jobs as they stand and the store as it stands. -/
theorem Part.captured_self : p.captured k tag (p.ports.get k) (fun y => y) p.fsc = p := by
  simp [Part.captured]

theorem Part.captured_setPort (c' : Port) :
    (p.captured k tag c f store).setPort k c' = p.captured k tag c' f store := by
  unfold Part.captured Part.setPort
  rw [Quad.set_set]

/-- A change to the job that the port serves is made after the change before it. -/
theorem Part.captured_modPortJob (serves : c.job = some { tag := tag, slot := n }) (keeps : ∀ y, (f y).tag = y.tag)
    (g : Job → Job) :
    (p.captured k tag c f store).modPortJob k g = p.captured k tag c (fun y => g (f y)) store := by
  have both (y : Job) : (if (if y.tag == tag then f y else y).tag == tag then g (if y.tag == tag then f y else y)
      else (if y.tag == tag then f y else y)) = if y.tag == tag then g (f y) else y := by
    by_cases h : (y.tag == tag) = true
    · rw [if_pos h, if_pos h, keeps, if_pos h]
    · rw [if_neg h, if_neg h, if_neg h]
  unfold Part.modPortJob
  rw [Part.captured_port, serves]
  simp only [Part.captured, Part.modJob, Part.setJobs, List.map_map]
  congr 2
  exact List.map_congr_left fun y _ => both y

/-- The port serves the changed job. -/
theorem Part.captured_portJob (serves : c.job = some { tag := tag, slot := n }) (keeps : ∀ y, (f y).tag = y.tag) :
    (p.captured k tag c f store).portJob k = (p.job tag).map f := by
  unfold Part.portJob
  rw [Part.captured_port, serves]
  exact find_mapped tag f keeps _

/-! ### The counts compared (R142) -/

/-- R142: at a port that does not drain, or whose job has a line outstanding, or has gone, nothing ends. -/
theorem Part.checkDrain_captured_waits (serves : c.job = some { tag := tag, slot := n })
    (keeps : ∀ y, (f y).tag = y.tag)
    (outstanding : ∀ j : Job, p.job tag = some j →
      ¬ (c.activity = .draining ∧ (f j).received + (f j).lost = (f j).triggered)) :
    (p.captured k tag c f store).checkDrain k = p.captured k tag c f store := by
  have served := Part.captured_portJob (p := p) (k := k) (store := store) serves keeps
  cases found : p.job tag with
  | none =>
    unfold Part.checkDrain
    rw [served, found, Part.captured_port]
    cases c.activity <;> rfl
  | some j =>
    rw [found] at served
    rcases Part.checkDrain_cases served with ⟨draining, accounted, -⟩ | ⟨-, waits⟩
    · rw [Part.captured_port] at draining
      exact absurd ⟨draining, accounted⟩ (outstanding j found)
    · exact waits

/-- R142: the end of a complete drain leaves no fence. -/
theorem fenceAfter_zero (e : Option Word16) : fenceAfter e 0 = none := by
  cases e <;> rfl

/-- R142: the line that accounts for the last one triggered ends the drain of the job. -/
theorem Part.checkDrain_captured_ends {j : Job} {x : Slot} (found : p.job j.tag = some j)
    (serves : c.job = some { tag := j.tag, slot := n }) (keeps : ∀ y, (f y).tag = y.tag)
    (slot : store.slots[n]? = some x) (engine : store.engine = p.fsc.engine) (fetches : store.fetches = p.fsc.fetches)
    (draining : c.activity = .draining) (accounted : (f j).received + (f j).lost = (f j).triggered) :
    let t := (p.captured k j.tag c f store).checkDrain k
    p.DrainEnded t (f j) n x x.lines .complete (p.csc.jobs.filter (fun y => y.tag != j.tag)) ∧
    (∀ m : Nat, m ≠ n → t.slot m = store.slots[m]?) ∧ t.fsc.turn = store.turn ∧
    t.ports = p.ports.set k { c with activity := .idle, job := none, generator := none, fence := none } ∧
    t.lar = p.lar ∧ t.trackers = p.trackers ∧ t.records = p.records := by
  intro t
  let q := p.captured k j.tag c f store
  have port : q.ports.get k = c := Part.captured_port
  have changed : q.job j.tag = some (f j) :=
    (find_mapped j.tag f keeps p.csc.jobs).trans (congrArg (Option.map f) found)
  have served : q.portJob k = some (f j) :=
    (Part.captured_portJob serves keeps).trans (congrArg (Option.map f) found)
  have ends : t = q.finishDrain k .complete 0 := by
    rcases Part.checkDrain_cases served with ⟨-, -, eq⟩ | ⟨waits, -⟩
    · exact eq
    · exact absurd ⟨(congrArg Port.activity port).trans draining, accounted⟩ waits
  have others : q.csc.jobs.filter (fun y => y.tag != (f j).tag) = p.csc.jobs.filter (fun y => y.tag != j.tag) := by
    rw [keeps]
    exact filter_mapped j.tag f keeps _
  obtain ⟨ended, slots, turn, ports, -, lar, trackers, records⟩ := Part.finishDrain_spec (q := q) (p := p) (k := k)
    (j := f j) (n := n) (x := x) (kind := .complete) (added := 0) (by rw [port, keeps, serves])
    (by rw [keeps, changed]) slot rfl rfl ⟨rfl, rfl⟩ engine fetches
  rw [others] at ended
  rw [port, fenceAfter_zero] at ports
  rw [ends]
  exact ⟨ended, slots, turn, ports.trans (Quad.set_set _ _ _ _), lar, trackers, records⟩

end

/-! ### A line packet at its port (R134 to R138) -/

/-- R137: the weighted sum of the pixels from a place on. -/
theorem pixelSum_eq (pixels : List Byte) : ∀ total place : Nat,
    (pixels.foldl (fun (acc : Nat × Nat) px => (acc.1 + acc.2 * px.toNat, acc.2 + 1)) (total, place + 1)).1 =
      total + ((pixels.zipIdx place).map (fun x => (x.2 + 1) * x.1.toNat)).sum := by
  induction pixels with
  | nil => exact fun _ _ => rfl
  | cons px pixels ih =>
    intro total place
    rw [List.foldl_cons, ih, List.zipIdx_cons, List.map_cons, List.sum_cons, Nat.add_assoc]

/-- R137: the check value of a packet. -/
theorem lineCheck_eq (sequence pixelCount : Word16) (pixels : List Byte) : lineCheck sequence pixelCount pixels =
    BitVec.ofNat 32
      (sequence.toNat + pixelCount.toNat + (pixels.zipIdx.map (fun x => (x.2 + 1) * x.1.toNat)).sum) := by
  unfold lineCheck
  rw [pixelSum_eq pixels 0 0, Nat.zero_add]

/-- R144: a packet's sequence number lies within the fence of a port. -/
def Port.fenced (c : Port) (sequence : Word16) : Prop :=
  ∃ f : Fence, c.fence = some f ∧ (sequence - f.first).toNat < f.length

theorem Port.fenced_iff (c : Port) (sequence : Word16) :
    (c.fence.map (fun f => f.covers sequence)).getD false = true ↔ c.fenced sequence := by
  unfold Port.fenced
  cases c.fence <;> simp [Fence.covers]

section
variable {p : Part} {k : Track} {pk : LinePacket}

/-- R134: a packet at a port that is DOWN changes nothing. -/
theorem Part.linePacket_down (down : (p.ports.get k).up = false) : p.linePacket k pk = p :=
  if_neg (Bool.eq_false_iff.mp down)

/-- R134: a packet at an idle port is stray. -/
theorem Part.linePacket_idle (up : (p.ports.get k).up = true) (idle : (p.ports.get k).activity = .idle) :
    p.linePacket k pk = p.strayLine k := by
  unfold Part.linePacket
  dsimp only
  rw [if_pos up, idle]

variable {j : Job} (up : (p.ports.get k).up = true) (served : p.portJob k = some j)
include up served

/-- R134, R144: at a port that serves a job, a packet inside the fence or at no room is stray. -/
theorem Part.linePacket_refused
    (refused : lineRoom j (p.ports.get k) = 0 ∨ (p.ports.get k).fenced pk.sequence) :
    p.linePacket k pk = p.strayLine k := by
  have blocked := (refused.imp_right ((p.ports.get k).fenced_iff pk.sequence).mpr).symm
  unfold Part.linePacket
  dsimp only
  rw [if_pos up, served]
  cases activity : (p.ports.get k).activity with
  | idle => rfl
  | triggering | draining => exact if_pos blocked

/-- R135: a packet behind the number expected, or as far ahead of it as the room or farther, is stray. -/
theorem Part.linePacket_astray {e : Word16} (expects : (p.ports.get k).expected = some e)
    (astray : 32768 ≤ (pk.sequence - e).toNat ∨ lineRoom j (p.ports.get k) ≤ (pk.sequence - e).toNat) :
    p.linePacket k pk = p.strayLine k := by
  unfold Part.linePacket
  dsimp only
  rw [if_pos up, served, expects]
  cases activity : (p.ports.get k).activity with
  | idle => rfl
  | triggering | draining => exact (congrArg (ite _ _) (if_pos astray)).trans (ite_self _)

/-- R135, R136: a job with lines counted lost. -/
def Job.losing (d : Nat) (j : Job) : Job := { j with lost := j.lost + d }

/-- R134, R135: a packet that belongs to the job, `d` lines ahead of the one expected, has the lines skipped counted
lost and is then tested for length and check; then the counts are compared. -/
theorem Part.linePacket_taken {n d : Nat} (busy : (p.ports.get k).activity ≠ .idle)
    (serves : (p.ports.get k).job = some { tag := j.tag, slot := n })
    (unfenced : ¬ (p.ports.get k).fenced pk.sequence) (within : d < lineRoom j (p.ports.get k))
    (ahead : ((p.ports.get k).expected = none ∧ d = 0) ∨
      ∃ e : Word16, (p.ports.get k).expected = some e ∧ (pk.sequence - e).toNat = d ∧ d < 32768) :
    p.linePacket k pk = ((p.captured k j.tag (p.ports.get k) (Job.losing d) p.fsc).takeLine k pk
      (decide (0 < d))).checkDrain k := by
  have belongs : ¬ (((p.ports.get k).fence.map (fun f => f.covers pk.sequence)).getD false = true ∨
      lineRoom j (p.ports.get k) = 0) := by
    rintro (fenced | full)
    · exact unfenced (((p.ports.get k).fenced_iff _).mp fenced)
    · exact absurd (full ▸ within) (Nat.not_lt_zero d)
  have skips : p.modPortJob k (Job.losing d) = p.captured k j.tag (p.ports.get k) (Job.losing d) p.fsc := by
    conv_lhs => rw [← Part.captured_self (p := p) (k := k) (tag := j.tag)]
    exact Part.captured_modPortJob serves (fun _ => rfl) _
  have next : d = 0 → p.captured k j.tag (p.ports.get k) (Job.losing d) p.fsc = p := by
    rintro rfl
    exact Part.captured_self
  unfold Part.linePacket
  dsimp only
  rw [if_pos up, served]
  cases activity : (p.ports.get k).activity with
  | idle => exact absurd activity busy
  | triggering | draining =>
    refine (if_neg belongs).trans ?_
    rcases ahead with ⟨expects, rfl⟩ | ⟨e, expects, rfl, small⟩
    · rw [expects, next rfl]
      rfl
    · have near : ¬ (32768 ≤ (pk.sequence - e).toNat ∨ lineRoom j (p.ports.get k) ≤ (pk.sequence - e).toNat) :=
        not_or.mpr ⟨Nat.not_le.mpr small, Nat.not_le.mpr within⟩
      rw [expects]
      refine (if_neg near).trans ?_
      by_cases zero : (pk.sequence - e).toNat = 0
      · refine (if_pos zero).trans ?_
        rw [next zero, zero]
        rfl
      · refine (if_neg zero).trans ?_
        rw [← skips, decide_eq_true (Nat.pos_of_ne_zero zero)]
        rfl

end

/-! ### Length, check and the FIFO (R136 to R138) -/

/-- R136, R137: the line of a packet, with its marks. -/
def packetLine (pk : LinePacket) (gap : Bool) : Line :=
  { sequence := pk.sequence, badCheck := lineCheck pk.sequence pk.pixelCount pk.pixels != pk.check, gap := gap,
    pixels := pk.pixels }

section
variable {p : Part} {k : Track} {pk : LinePacket} {tag : Tag} {n : Nat} {c : Port} {f : Job → Job} {store : Store}
  {gap : Bool}

/-- R138: a whole line enters a FIFO that has room and no latch set. -/
theorem Part.takeLine_enters (whole : pk.pixelCount = 2048 ∧ pk.pixels.length = 2048)
    (room : c.fifo.length < 8 ∧ c.overrun = false) :
    (p.captured k tag c f store).takeLine k pk gap = p.captured k tag
      { c with fifo := c.fifo ++ [packetLine pk gap], expected := some (pk.sequence + 1) } f store := by
  unfold Part.takeLine Part.offerLine
  dsimp only
  rw [if_pos whole, Part.captured_port, if_pos room]
  exact Part.captured_setPort _

/-- R138: at a full FIFO or a set latch a whole line is discarded, the latch is set and the job is OVERRUN. -/
theorem Part.takeLine_overruns (serves : c.job = some { tag := tag, slot := n }) (keeps : ∀ y, (f y).tag = y.tag)
    (whole : pk.pixelCount = 2048 ∧ pk.pixels.length = 2048) (full : ¬ (c.fifo.length < 8 ∧ c.overrun = false)) :
    (p.captured k tag c f store).takeLine k pk gap = p.captured k tag
      { c with overrun := true, discarded := c.discarded + 1, expected := some pk.sequence }
      (fun y => { f y with flags := { (f y).flags with overrun := true } }) store := by
  unfold Part.takeLine Part.offerLine
  dsimp only
  rw [if_pos whole, Part.captured_port, if_neg full, Part.captured_setPort]
  exact Part.captured_modPortJob (by exact serves) keeps _

/-- R136: a line of a wrong length is lost. -/
theorem Part.takeLine_loses (serves : c.job = some { tag := tag, slot := n }) (keeps : ∀ y, (f y).tag = y.tag)
    (short : ¬ (pk.pixelCount = 2048 ∧ pk.pixels.length = 2048)) :
    (p.captured k tag c f store).takeLine k pk gap = p.captured k tag
      { c with expected := some (pk.sequence + 1) } (fun y => (f y).losing 1) store := by
  unfold Part.takeLine
  rw [if_neg short, Part.captured_port, Part.captured_setPort]
  exact Part.captured_modPortJob (by exact serves) keeps _

end

/-- Settles O59: the tests by `linePacket_refused`, `linePacket_astray` and `linePacket_taken`, the line by the three
rules of `takeLine`, and the counts by `checkDrain_captured_waits` and `checkDrain_captured_ends`. -/
theorem linePacketTested : Obligations.LinePacketTested := by
  refine ⟨lineCheck_eq, fun s k pk => ?_⟩
  intro p c stray whole
  refine ⟨fun down => State.next_withPart (Part.linePacket_down down),
    fun up idle => State.next_withPart (Part.linePacket_idle up idle), ?_⟩
  intro j n up busy serves found room fenced
  have served : p.portJob k = some j := by
    unfold Part.portJob
    rw [serves]
    exact found
  refine ⟨fun refused => State.next_withPart (Part.linePacket_refused up served refused),
    fun e expects astray => State.next_withPart (Part.linePacket_astray up served expects astray), ?_⟩
  intro d unfenced within ahead line becomes last
  have taken := Part.linePacket_taken up served busy serves unfenced within ahead
  have left : j.received + (j.lost + d) < j.triggered := by omega
  have last_iff (count : Nat) : j.received + (j.lost + d + 1) = count ↔ j.received + j.lost + d + 1 = count := by
    rw [← Nat.add_assoc, ← Nat.add_assoc]
  have keeps (y : Job) : (y.losing d).tag = y.tag := rfl
  have becomes_of {c' : Port} {f : Job → Job} (serves' : c'.job = some { tag := j.tag, slot := n })
      (keeps' : ∀ y, (f y).tag = y.tag)
      (taking : (p.captured k j.tag c (Job.losing d) p.fsc).takeLine k pk (decide (0 < d)) =
        p.captured k j.tag c' f p.fsc)
      (outstanding : ¬ (c'.activity = .draining ∧ (f j).received + (f j).lost = (f j).triggered)) : becomes c' f := by
    have waits := Part.checkDrain_captured_waits (p := p) (k := k) (store := p.fsc) serves' keeps'
      fun x hx => Option.some.inj (found.symm.trans hx) ▸ outstanding
    exact State.next_withPart (taken.trans ((congrArg (·.checkDrain k) taking).trans waits))
  refine ⟨fun is_whole fits clear => ?_, fun is_whole full => ?_, fun short goes_on => ?_,
    fun x short is_last slot => ?_⟩
  · exact becomes_of serves keeps (Part.takeLine_enters is_whole ⟨fits, clear⟩) fun h => absurd h.2 left.ne
  · have blocked : ¬ (c.fifo.length < 8 ∧ c.overrun = false) := by
      rintro ⟨fits, clear⟩
      rcases full with full | set
      · exact absurd fits (Nat.not_lt.mpr full)
      · exact nomatch clear.symm.trans set
    exact becomes_of serves (fun _ => rfl) (Part.takeLine_overruns serves keeps is_whole blocked)
      fun h => absurd h.2 left.ne
  · exact becomes_of serves (fun _ => rfl) (Part.takeLine_loses serves keeps short)
      fun h => goes_on ⟨h.1, (last_iff _).mp h.2⟩
  · have loses := taken.trans (congrArg (·.checkDrain k) (Part.takeLine_loses serves keeps short))
    obtain ⟨ended, slots, -, ports, rest⟩ := Part.checkDrain_captured_ends (p := p) (k := k) (store := p.fsc)
      (c := { c with expected := some (pk.sequence + 1) }) (f := fun y => (y.losing d).losing 1)
      found serves (fun _ => rfl) slot rfl rfl is_last.1 ((last_iff _).mpr is_last.2)
    exact ⟨_, State.next_withPart loses, ended, slots, ports, rest⟩

/-! ### A store turn of a port (R139 to R142) -/

/-- R141: a job with one line counted received. -/
theorem Job.counting_singleton (l : Line) : Job.counting [l] = fun j : Job =>
    { j with received := j.received + 1, flags := { j.flags with badCheck := j.flags.badCheck || l.badCheck } } := by
  funext j
  simp [Job.counting]

/-- R140: a store turn of a port whose counts have run completes. -/
theorem Part.writeTurn_due {p : Part} {k : Track} (turn : p.fsc.turn = some { member := .port k, left := 0 }) :
    p.writeTurn k = p.finishTurn k := by
  unfold Part.writeTurn Part.writeTurnDue
  rw [turn]
  simp

/-- Settles O60: the line by `finishTurn_eq`, and the counts by `checkDrain_captured_waits` and
`checkDrain_captured_ends`. -/
theorem storeTurnWriteTakesLine : Obligations.StoreTurnWriteTakesLine := by
  intro s k l rest tag n x p c c' counted last turn fifo serves slot
  let store : Store :=
    { p.fsc with turn := none, slots := p.fsc.slots.setIfInBounds n { x with lines := x.lines ++ [l] } }
  have writes : p.writeTurn k = (p.captured k tag c' counted store).checkDrain k := by
    rw [Part.writeTurn_due turn, Part.finishTurn_eq fifo serves slot]
    unfold Part.written
    rw [Job.counting_singleton]
    rfl
  refine ⟨fun outstanding => State.next_withPart (writes.trans ?_), fun j is_last => ?_⟩
  · exact Part.checkDrain_captured_waits (by exact serves) (fun _ => rfl) fun j found h =>
      outstanding j ⟨h.1, found, h.2⟩
  · obtain ⟨draining, found, accounted⟩ := is_last
    obtain rfl := (Part.job_some found).1
    have filled (m : Nat) : store.slots[m]? = if n = m ∧ m < 64 then some { x with lines := x.lines ++ [l] } else
      p.slot m := p.slot_setSlot n m _
    obtain ⟨ended, slots, freed, ports, rest⟩ := Part.checkDrain_captured_ends (c := c') (f := counted)
      (store := store) found serves (fun _ => rfl) ((filled n).trans (if_pos ⟨rfl, Part.slot_lt slot⟩)) rfl rfl
      draining accounted
    have others (m : Nat) (hm : m ≠ n) : store.slots[m]? = p.slot m :=
      (filled m).trans (if_neg fun h => hm h.1.symm)
    -- Of the slot before the end `DrainEnded` reads the tag alone, which the line has not changed.
    exact ⟨_, State.next_withPart writes, ⟨ended.slot, ended.jobs, ended.idle, ended.busy, ended.notice⟩,
      fun m hm => (slots m hm).trans (others m hm), freed, ports, rest⟩

end Sys2Proof.Machine
end

