-- ==== Sys2Proof/Proofs/FetchRules.lean ====
section
/-! PROOFS. The fetch queue and the start of a delivery, and with them SLOT_RELEASE (O38), FETCH (O36) and FETCH_CANCEL
(O37). -/

namespace Sys2Proof.Machine

/-! ### The entries of the fetch queue -/

theorem Part.fetchOf_tag {p : Part} {t : Tag} {e : FetchEntry} (h : p.fetchOf t = some e) : e.tag = t :=
  beq_iff_eq.mp (List.find?_some (p := fun e : FetchEntry => e.tag == t) h)

theorem Part.fetchOf_eq_none {p : Part} {t : Tag} : p.fetchOf t = none ↔ ∀ e ∈ p.fsc.fetches, e.tag ≠ t := by
  simp [Part.fetchOf, List.find?_eq_none]

theorem Part.fetchOf_isSome {p : Part} {t : Tag} : (p.fetchOf t).isSome = true ↔ ∃ e ∈ p.fsc.fetches, e.tag = t := by
  simp [Part.fetchOf, List.find?_isSome]

/-- A change to the entries of a tag leaves a queue that has none as it is. -/
theorem map_without_tag {t : Tag} {l : List FetchEntry} (h : ∀ e ∈ l, e.tag ≠ t) (f : FetchEntry → FetchEntry) :
    l.map (fun e => if e.tag == t then f e else e) = l :=
  (List.map_congr_left fun e he => if_neg (by simpa using h e he)).trans (List.map_id' l)

/-- A change to the entries of a tag reaches the one that is appended with it. -/
theorem map_appended_tag {t : Tag} {l : List FetchEntry} {e : FetchEntry} (h : ∀ y ∈ l, y.tag ≠ t) (ht : e.tag = t)
    (f : FetchEntry → FetchEntry) : (l ++ [e]).map (fun y => if y.tag == t then f y else y) = l ++ [f e] := by
  rw [List.map_append, map_without_tag h, List.map_singleton, if_pos (beq_iff_eq.mpr ht)]

/-- The entry of a tag, after a change that keeps tags, is the changed entry. -/
theorem Part.fetchOf_modFetch (p : Part) (t u : Tag) {f : FetchEntry → FetchEntry} (keeps : ∀ e, (f e).tag = e.tag) :
    (p.modFetch u f).fetchOf t = (p.fetchOf t).map (fun e => if e.tag == u then f e else e) := by
  have same : ((fun e : FetchEntry => e.tag == t) ∘ fun e => if e.tag == u then f e else e) = fun e => e.tag == t := by
    funext e
    simp only [Function.comp]
    split
    · rw [keeps]
    · rfl
  exact List.find?_map.trans (by rw [same]; rfl)

/-! ### The start of a delivery (R156, R157) -/

/-- The start of a delivery changes the entries and the engine alone. -/
theorem Part.kickEngine_changes (p : Part) : ∃ (fetches : List FetchEntry) (engine : Option ReadEngine),
    p.kickEngine = p.setFsc { p.fsc with fetches := fetches, engine := engine } := by
  unfold Part.kickEngine
  split
  · exact ⟨_, _, rfl⟩
  · split
    · exact ⟨_, _, rfl⟩
    · exact ⟨_, _, rfl⟩

/-- R156: with no eligible entry an idle engine stays idle. -/
theorem Part.kickEngine_waits {p : Part} (idle : p.fsc.engine = none)
    (waits : ∀ e ∈ p.fsc.fetches, e.phase = .waiting → ∀ x : Slot, p.slot e.slot = some x → x.state ≠ .held) :
    p.kickEngine = p := by
  obtain ⟨fetches, engine, eq⟩ := p.kickEngine_changes
  have started := Part.kickEngine_started idle
  rw [eq] at started ⊢
  obtain ⟨still, same⟩ := started.idle waits
  obtain rfl : engine = none := still
  obtain rfl : fetches = p.fsc.fetches := same
  rw [← idle]
  rfl

/-- R157: the delivery of the first eligible entry starts at an idle engine. -/
theorem Part.kickEngine_starts {p : Part} {before after : List FetchEntry} {e : FetchEntry} {x : Slot}
    (idle : p.fsc.engine = none) (split : p.fsc.fetches = before ++ e :: after)
    (earlier : ∀ y ∈ before, y.phase = .waiting → ∀ z : Slot, p.slot y.slot = some z → z.state ≠ .held)
    (phase : e.phase = .waiting) (slot : p.slot e.slot = some x) (held : x.state = .held) :
    p.kickEngine = p.setFsc { p.fsc with
      engine := some
        { tag := e.tag, slot := e.slot, number := 0, lines := [], next := e.first,
          stop := if e.count = 0 then x.lines.length else min (e.first + e.count) x.lines.length, kept := none }
      fetches := p.fsc.fetches.map (fun y => if y.tag == e.tag then
        { y with
          phase := .delivering
          requested := some (if e.count = 0 then x.lines.length - e.first else e.count) } else y) } := by
  obtain ⟨fetches, engine, eq⟩ := p.kickEngine_changes
  have started := Part.kickEngine_started idle
  rw [eq] at started ⊢
  obtain ⟨delivers, marked⟩ := started.starts before e after x split earlier phase slot held
  exact congrArg p.setFsc (by rw [← delivers, ← marked]; rfl)

/-! ### SLOT_RELEASE (R153) -/

theorem Part.runSlotRelease_unknown {p : Part} {r : CommandRecord}
    (unknown : p.slotWithTag (BitVec.ofNat 8 (r.byteAt 0)) = none) :
    Part.runSlotRelease r p = p.refuse r .noSuchTag := by
  unfold Part.runSlotRelease
  rw [unknown]

theorem Part.runSlotRelease_named {p : Part} {r : CommandRecord} {n : Nat} {x : Slot}
    (named : p.slotWithTag (BitVec.ofNat 8 (r.byteAt 0)) = some n) (slot : p.slot n = some x) :
    Part.runSlotRelease r p =
      if x.state = .filling ∨ p.slotFetched n = true then p.refuse r .inUse
      else (p.reply r .ok 0 .empty).setSlot n .empty := by
  unfold Part.runSlotRelease
  rw [named]
  simp only [slot, Option.map_some, Option.some.injEq]

/-- Settles O38: no slot has the tag, or its slot is in use, or it is freed. -/
theorem slotReleaseFreesHeldSlot : Obligations.SlotReleaseFreesHeldSlot := by
  intro s r rest ht p tag
  have run := ht.runs (fun _ => rfl) rfl
  refine ⟨fun unknown => run.next (Part.runSlotRelease_unknown unknown), fun n x named slot => ?_⟩
  have fetched := p.slotFetched_iff n
  refine ⟨fun used => run.next ?_, fun held unused => run.next ?_⟩
  · rw [Part.runSlotRelease_named (by exact named) (by exact slot)]
    exact if_pos (used.imp_right fetched.mpr)
  · rw [Part.runSlotRelease_named (by exact named) (by exact slot)]
    refine if_neg ?_
    rintro (filling | taken)
    · rw [held] at filling
      cases filling
    · obtain ⟨e, he, at_slot⟩ := fetched.mp taken
      exact unused e he at_slot

/-! ### FETCH (R155) -/

/-- R155: the entry that an accepted FETCH appends, for the slot with its tag. -/
def CommandRecord.fetchEntry (r : CommandRecord) (n : Nat) : FetchEntry :=
  { token := r.token, source := r.source, tag := BitVec.ofNat 8 (r.byteAt 0), slot := n
    first := fieldAt r.args 1 2, count := fieldAt r.args 3 2, phase := .waiting, requested := none, delivered := 0
    frames := 0, lastLine := none, cancelled := false, done := none }

/-- R155: the checks of FETCH in their order, for a slot with the tag. -/
theorem Part.runFetch_named {p : Part} {r : CommandRecord} {n : Nat} {x : Slot}
    (first : fieldAt r.args 1 2 < 4096) (count : fieldAt r.args 3 2 ≤ 4096)
    (named : p.slotWithTag (BitVec.ofNat 8 (r.byteAt 0)) = some n) (slot : p.slot n = some x) :
    Part.runFetch r p =
      if (p.fetchOf (BitVec.ofNat 8 (r.byteAt 0))).isSome then p.refuse r .duplicate
      else if 8 ≤ p.fsc.fetches.length then p.refuse r .queueFull
      else ((p.reply r .accepted 0 (.fetch (BitVec.ofNat 8 (r.byteAt 0)) n x.state)).setFsc
        { p.fsc with fetches := p.fsc.fetches ++ [r.fetchEntry n] }).kickEngine := by
  unfold Part.runFetch
  dsimp only
  rw [if_neg (by omega), named]
  simp only [slot, Option.map_some, Option.getD_some]
  rfl

/-- Settles O36: the checks in their order, and the delivery that an idle engine starts, or does not, for the entry at
the tail of the queue. -/
theorem fetchChecksAndAccepts : Obligations.FetchChecksAndAccepts := by
  intro s r rest ht p tag first count refused
  have run := ht.runs (fun _ => rfl) rfl
  refine ⟨fun outside => run.next (if_pos outside), fun hfirst hcount => ⟨fun unknown => run.next ?_, ?_⟩⟩
  · unfold Part.runFetch
    dsimp only
    rw [if_neg (by omega), show (p.setMgr { p.mgr with intake := rest }).slotWithTag _ = none from unknown]
    rfl
  intro n x named slot entry m none_eligible
  have checks := Part.runFetch_named (p := p.setMgr { p.mgr with intake := rest }) hfirst hcount named slot
  refine ⟨fun twice => run.next (checks.trans (if_pos (Part.fetchOf_isSome.mpr twice))), fun once => ?_⟩
  have single : ¬ (p.fetchOf tag).isSome = true := by
    rw [Part.fetchOf_isSome]
    exact fun ⟨e, he, same⟩ => once e he same
  replace checks := checks.trans (if_neg single)
  refine ⟨fun full => run.next (checks.trans (if_pos full)), fun room waits => ?_, fun room idle earlier held => ?_⟩
  · refine run.next ((checks.trans (if_neg (by exact Nat.not_le.mpr room))).trans ?_)
    rcases waits with busy | ⟨earlier, filling⟩
    · exact Part.kickEngine_busy (Option.isSome_iff_ne_none.mp busy)
    cases idle : p.fsc.engine with
    | some g => exact Part.kickEngine_busy (by simp [idle])
    | none =>
      refine Part.kickEngine_waits idle fun e he phase y hy => ?_
      rcases List.mem_append.mp he with he | he
      · exact earlier e he phase y hy
      · obtain rfl := List.mem_singleton.mp he
        obtain rfl : x = y := Option.some.inj (slot.symm.trans hy)
        simp [filling]
  · refine run.next ((checks.trans (if_neg (by exact Nat.not_le.mpr room))).trans ?_)
    rw [held]
    let q := (p.answered r rest .accepted 0 (.fetch tag n .held)).setFsc
      { p.fsc with fetches := p.fsc.fetches ++ [entry] }
    refine (Part.kickEngine_starts (p := q) (before := p.fsc.fetches) (after := []) (e := entry) idle rfl earlier rfl
      slot held).trans ?_
    exact congrArg (fun l => q.setFsc
      { p.fsc with
        fetches := l
        engine := some { tag := tag, slot := n, number := 0, lines := [], next := first,
                         stop := if count = 0 then m else min (first + count) m, kept := none } })
      (map_appended_tag (e := entry) once rfl _)

end Sys2Proof.Machine
end

