-- ==== Sys2Proof/Proofs/DeliveryRules.lean ====
section
/-! PROOFS. The read engine: the reading of a frame (O39), a frame placed in the image data queue, and FETCH_CANCEL with
a read that has begun (O37). -/

namespace Sys2Proof.Machine

/-! ### A frame placed in the image data queue (R159) -/

/-- R159: what a frame that is placed makes of its entry. -/
def FetchEntry.withFrame (f : ImageFrame) (e : FetchEntry) : FetchEntry :=
  { e with
    frames := e.frames + 1
    delivered := e.delivered + f.content.lineCount
    lastLine := f.content.lastLine.or e.lastLine
    phase := if f.last then .sending else e.phase }

/-- The part with a frame placed and counted in its entry, and the read engine as given. -/
def Part.placed (p : Part) (f : ImageFrame) (engine : Option ReadEngine) : Part :=
  { p with
    mgr := { p.mgr with images := p.mgr.images ++ [f] }
    fsc := { p.fsc with
      engine := engine
      fetches := p.fsc.fetches.map (fun e => if e.tag == f.tag then e.withFrame f else e) } }

theorem Part.placeFrame_more {p : Part} {f : ImageFrame} {g : ReadEngine} (more : f.last = false)
    (engine : p.fsc.engine = some g) :
    p.placeFrame f = p.placed f (some { g with number := g.number + 1, lines := [], kept := none }) := by
  unfold Part.placeFrame
  dsimp only
  rw [if_neg (by simp [more])]
  simp only [Part.modFetch, Part.setFsc, Part.setMgr, engine]
  rfl

theorem Part.placeFrame_last {p : Part} {f : ImageFrame} (last : f.last = true) :
    p.placeFrame f = (p.placed f none).kickEngine := by
  unfold Part.placeFrame
  dsimp only
  rw [if_pos last]
  rfl

theorem Part.completeFrame_room {p : Part} {f : ImageFrame} (room : p.mgr.images.length < 2) :
    p.completeFrame f = p.placeFrame f := if_pos room

theorem Part.completeFrame_full {p : Part} {f : ImageFrame} {g : ReadEngine} (full : 2 ≤ p.mgr.images.length)
    (engine : p.fsc.engine = some g) :
    p.completeFrame f = p.setFsc { p.fsc with engine := some { g with kept := some f } } := by
  unfold Part.completeFrame
  rw [if_neg (Nat.not_lt.mpr full), engine]
  rfl

/-- R156, R159: behind the last frame of a delivery the engine is idle, and starts the first eligible delivery. -/
theorem Part.placeFrame_ends {p : Part} {f : ImageFrame} (last : f.last = true) :
    let t := p.placeFrame f
    t = { p with mgr := { p.mgr with images := p.mgr.images ++ [f] }, fsc := t.fsc } ∧
    t.fsc.slots = p.fsc.slots ∧ t.fsc.turn = p.fsc.turn ∧ t.fsc.last = p.fsc.last ∧
    t.DeliveryStarted (p.fsc.fetches.map (fun e => if e.tag == f.tag then e.withFrame f else e)) := by
  intro t
  have ended : t = (p.placed f none).kickEngine := Part.placeFrame_last last
  obtain ⟨fetches, engine, eq⟩ := (p.placed f none).kickEngine_changes
  have started := Part.kickEngine_started (p := p.placed f none) rfl
  rw [← ended] at eq started
  exact ⟨by rw [eq]; rfl, by rw [eq]; rfl, by rw [eq]; rfl, by rw [eq]; rfl, started⟩

/-- R156: behind the last frame of a delivery the engine stays idle while no other entry is eligible. -/
theorem Part.placed_waits {p : Part} {f : ImageFrame} (last : f.last = true)
    (waits : ∀ e ∈ p.fsc.fetches, e.tag ≠ f.tag → e.phase = .waiting →
      ∀ x : Slot, p.slot e.slot = some x → x.state ≠ .held) :
    (p.placed f none).kickEngine = p.placed f none := by
  refine Part.kickEngine_waits rfl fun e he phase x slot => ?_
  obtain ⟨y, hy, rfl⟩ := List.mem_map.mp he
  split at phase
  · simp [FetchEntry.withFrame, last] at phase
  · rename_i other
    rw [if_neg other] at slot
    exact waits y hy (by simpa using other) phase x slot

/-! ### A read of the engine (R158) -/

/-- R159: the frame that the engine completes for an entry, with the next line of the range given. -/
def FetchEntry.frame (e : FetchEntry) (g : ReadEngine) (next : Nat) (c : ImageContent) : ImageFrame :=
  { dest := e.source, token := e.token, tag := g.tag, number := g.number
    last := decide (g.stop ≤ next) || e.cancelled, content := c }

theorem Part.imageFrame_of_entry {p : Part} {g : ReadEngine} {e : FetchEntry} (entry : p.fetchOf g.tag = some e)
    (next : Nat) (c : ImageContent) : p.imageFrame g next c = e.frame g next c := by
  unfold Part.imageFrame Part.lastFrame
  rw [entry]
  rfl

/-- The part with the store path free and the engine as given, between a read and the frame that it completes. -/
def Part.readInto (p : Part) (g : ReadEngine) : Part := p.setFsc { p.fsc with turn := none, engine := some g }

theorem Part.readTurn_due {p : Part} {g : ReadEngine} (turn : p.fsc.turn = some { member := .readEngine, left := 0 })
    (engine : p.fsc.engine = some g) : p.readTurn = (p.readInto g).engineRead g := by
  unfold Part.readTurn Part.readTurnDue Part.completeRead Part.readInto
  simp only [turn, if_true, Part.setFsc_fsc, engine]

section
variable {p : Part} {g : ReadEngine} {e : FetchEntry} {x : Slot}

/-- R158: frame 0 is complete with the header. -/
theorem Part.readTurn_header (turn : p.fsc.turn = some { member := .readEngine, left := 0 })
    (engine : p.fsc.engine = some g) (entry : p.fetchOf g.tag = some e) (slot : p.slot g.slot = some x)
    (zero : g.number = 0) : p.readTurn = (p.readInto g).completeFrame (e.frame g g.next (.header x.header)) := by
  rw [Part.readTurn_due turn engine]
  unfold Part.engineRead
  rw [if_pos zero, Part.imageFrame_of_entry (by exact entry), show (p.readInto g).slot g.slot = some x from slot]
  rfl

/-- The engine with the next line of the range in the frame under assembly. -/
def ReadEngine.withLine (g : ReadEngine) (l : Line) : ReadEngine :=
  { g with lines := g.lines ++ [(g.next, l)], next := g.next + 1 }

/-- R158: the next line goes into the frame under assembly, which is complete with its fourth or the range's last. -/
theorem Part.readTurn_line {l : Line} (turn : p.fsc.turn = some { member := .readEngine, left := 0 })
    (engine : p.fsc.engine = some g) (entry : p.fetchOf g.tag = some e) (slot : p.slot g.slot = some x)
    (later : g.number ≠ 0) (line : x.lines[g.next]? = some l) :
    p.readTurn =
      if (g.withLine l).lines.length = 4 ∨ g.stop ≤ g.next + 1 then
        (p.readInto (g.withLine l)).completeFrame
          (e.frame (g.withLine l) (g.next + 1) (.lines (g.withLine l).lines))
      else p.readInto (g.withLine l) := by
  rw [Part.readTurn_due turn engine]
  unfold Part.engineRead
  rw [if_neg later, show (p.readInto g).slot g.slot = some x from slot]
  simp only [Option.map_some, Option.bind_some, line]
  rw [Part.imageFrame_of_entry (by exact entry)]
  rfl

end

/-- R159: the last line of a frame of lines is the one read into it last. -/
theorem FetchEntry.withFrame_line (e : FetchEntry) (g : ReadEngine) (l : Line) (f : ImageFrame)
    (content : f.content = .lines (g.withLine l).lines) : e.withFrame f =
      { e with
        frames := e.frames + 1, delivered := e.delivered + (g.withLine l).lines.length, lastLine := some g.next
        phase := if f.last then .sending else e.phase } := by
  have last : f.content.lastLine.or e.lastLine = some g.next := by
    rw [content]
    simp [ImageContent.lastLine, ReadEngine.withLine]
  unfold FetchEntry.withFrame
  rw [last, content]
  rfl

/-- Settles O39: the header and a line by `readTurn_header` and `readTurn_line`, and the frame that they complete by the
rules for a frame with room and without, and for the last of a delivery. -/
theorem storeTurnReadFillsFrames : Obligations.StoreTurnReadFillsFrames := by
  intro s g e x p turn engine entry slot frame counted becomes ends finished
  have uncounted : counted id = p.fsc.fetches := by simp [counted]
  have goes_on {h : ReadEngine} {c : ImageContent} {f : FetchEntry → FetchEntry} (room : p.mgr.images.length < 2)
      (reads : p.readTurn = (p.readInto h).completeFrame (frame false c))
      (counts : FetchEntry.withFrame (frame false c) = f) :
      becomes (p.mgr.images ++ [frame false c]) { h with number := h.number + 1, lines := [], kept := none } f := by
    subst counts
    exact State.next_withPart
      (reads.trans ((Part.completeFrame_room (by exact room)).trans (Part.placeFrame_more rfl rfl)))
  have stops {c : ImageContent} {h : ReadEngine} {f : FetchEntry → FetchEntry} (room : p.mgr.images.length < 2)
      (reads : p.readTurn = (p.readInto h).completeFrame (frame true c))
      (counts : FetchEntry.withFrame (frame true c) = f) : ends (p.mgr.images ++ [frame true c]) f := by
    subst counts
    obtain ⟨same, slots, free, served, started⟩ :=
      Part.placeFrame_ends (p := p.readInto h) (f := frame true c) rfl
    exact ⟨_, State.next_withPart (reads.trans (Part.completeFrame_room (by exact room))), congrArg s.withPart same,
      slots, free, served, started⟩
  have keeps {h : ReadEngine} {f : ImageFrame} (full : 2 ≤ p.mgr.images.length)
      (reads : p.readTurn = (p.readInto h).completeFrame f) :
      becomes p.mgr.images { h with kept := some f } id := by
    refine State.next_withPart (reads.trans ((Part.completeFrame_full (by exact full) rfl).trans ?_))
    rw [uncounted]
    rfl
  have last_iff (next : Nat) : (decide (g.stop ≤ next) || e.cancelled) = true ↔ finished next := by
    simp [finished]
  refine ⟨fun zero => ?_, fun l later line => ?_⟩
  · have reads : p.readTurn = (p.readInto g).completeFrame
        (frame (decide (g.stop ≤ g.next) || e.cancelled) (.header x.header)) :=
      Part.readTurn_header turn engine entry slot zero
    refine ⟨fun room more => ?_, fun room last => ?_, fun full => keeps full reads⟩
    · rw [Bool.eq_false_iff.mpr (mt (last_iff _).mp more)] at reads
      have next := goes_on room reads rfl
      rwa [zero] at next
    · rw [(last_iff _).mpr last] at reads
      exact stops room reads rfl
  · intro ls read whole
    have reads := Part.readTurn_line turn engine entry slot later line
    have completes (h : whole) : p.readTurn = (p.readInto read).completeFrame
        (frame (decide (g.stop ≤ g.next + 1) || e.cancelled) (.lines ls)) := reads.trans (if_pos h)
    refine ⟨fun h => ?_, fun room h more => ?_, fun room h last => ?_, fun full h => keeps full (completes h)⟩
    · refine State.next_withPart ((reads.trans (if_neg h)).trans ?_)
      rw [uncounted]
      rfl
    · have goes := completes h
      rw [Bool.eq_false_iff.mpr (mt (last_iff _).mp more)] at goes
      exact goes_on room goes (funext fun y => y.withFrame_line g l _ rfl)
    · have goes := completes h
      rw [(last_iff _).mpr last] at goes
      exact stops room goes (funext fun y => y.withFrame_line g l _ rfl)

end Sys2Proof.Machine
end

