-- ==== Sys2Proof/Proofs/FetchCancelRules.lean ====
section
/-! PROOFS. FETCH_CANCEL by the phase of its entry, with a read of the store that has begun (O37). -/

namespace Sys2Proof.Machine

/-! ### An entry whose delivery has begun -/

/-- The delivery of the entry has begun, and its last frame has not been taken for sending. -/
def FetchEntry.Underway (e : FetchEntry) : Prop := e.phase = .delivering ∨ e.phase = .sending

/-- The entry of a tag is DELIVERING or SENDING. -/
def Part.Underway (p : Part) (t : Tag) : Prop := ∃ e : FetchEntry, p.fetchOf t = some e ∧ e.Underway

namespace Part.Underway

variable {p q : Part} {t : Tag}

theorem of_fetches (h : p.Underway t) (same : q.fsc.fetches = p.fsc.fetches) : q.Underway t := by
  unfold Part.Underway Part.fetchOf
  rw [same]
  exact h

theorem modFetch (h : p.Underway t) (u : Tag) {f : FetchEntry → FetchEntry} (keeps : ∀ e, (f e).tag = e.tag)
    (goes : ∀ e : FetchEntry, e.Underway → (f e).Underway) : (p.modFetch u f).Underway t := by
  obtain ⟨e, entry, underway⟩ := h
  refine ⟨_, (p.fetchOf_modFetch t u keeps).trans (congrArg _ entry), ?_⟩
  beta_reduce
  split
  · exact goes e underway
  · exact underway

theorem startDelivery (h : p.Underway t) (e : FetchEntry) : (p.startDelivery e).Underway t := by
  let start (x : FetchEntry) : FetchEntry :=
    { x with
      phase := .delivering
      requested := some (e.requestedOf (((p.slot e.slot).map (fun s => s.lines.length)).getD 0)) }
  have started : (p.modFetch e.tag start).Underway t := h.modFetch e.tag (fun _ => rfl) fun _ _ => .inl rfl
  exact started.of_fetches rfl

theorem kickEngine (h : p.Underway t) : p.kickEngine.Underway t := by
  unfold Part.kickEngine
  split
  · exact h
  · split
    · exact h
    · exact h.startDelivery _

theorem placed (h : p.Underway t) (f : ImageFrame) (g : Option ReadEngine) : (p.placed f g).Underway t := by
  refine (h.modFetch f.tag (f := FetchEntry.withFrame f) (fun _ => rfl) fun e underway => ?_).of_fetches rfl
  unfold FetchEntry.Underway FetchEntry.withFrame
  cases f.last
  · exact underway
  · exact .inr rfl

theorem completeFrame (h : p.Underway t) (f : ImageFrame) : (p.completeFrame f).Underway t := by
  unfold Part.completeFrame
  split
  · cases last : f.last with
    | true => exact (Part.placeFrame_last last) ▸ (h.placed f none).kickEngine
    | false =>
      refine (h.placed f none).of_fetches ?_
      unfold Part.placeFrame
      dsimp only
      rw [if_neg (by simp [last])]
      rfl
  · exact h.of_fetches rfl

theorem engineRead (h : p.Underway t) (g : ReadEngine) : (p.engineRead g).Underway t := by
  unfold Part.engineRead
  split
  · exact h.completeFrame _
  · split
    · exact h
    · dsimp only
      split
      · refine completeFrame ?_ _
        exact h.of_fetches rfl
      · exact h.of_fetches rfl

theorem completeRead (h : p.Underway t) : p.completeRead.Underway t := by
  unfold Part.completeRead
  split
  · dsimp only
    split
    · exact h.of_fetches rfl
    · refine engineRead ?_ _
      exact h.of_fetches rfl
  · exact h

end Part.Underway

/-! ### A read that has begun (R164) -/

theorem Part.completeRead_idle {p : Part} (others : ∀ u : StoreTurn, p.fsc.turn = some u → u.member ≠ .readEngine) :
    p.completeRead = p := by
  unfold Part.completeRead
  split
  · rename_i turn
    exact absurd rfl (others _ turn)
  · rfl

/-- R164: a begun read completes as at the end of its turn. -/
theorem Part.completeRead_begun {p : Part} {u : StoreTurn} (turn : p.fsc.turn = some u)
    (begun : u.member = .readEngine) :
    p.completeRead = (p.setFsc { p.fsc with turn := some { member := .readEngine, left := 0 } }).readTurn := by
  obtain ⟨member, left⟩ := u
  obtain rfl : member = .readEngine := begun
  unfold Part.readTurn Part.readTurnDue Part.completeRead
  rw [turn]
  rfl

/-! ### What a cancellation does to its entry (R162) -/

/-- R162: an entry whose delivery has begun is marked, and while it is DELIVERING the frame that the engine keeps
becomes its last. -/
theorem Part.cancelFetch_underway {p : Part} {t : Tag} (h : p.Underway t) :
    p.cancelFetch t = p.setFsc { p.fsc with
      fetches := p.fsc.fetches.map (fun x => if x.tag == t then { x with cancelled := true } else x)
      engine :=
        if (p.fetchOf t).map FetchEntry.phase = some .delivering then p.fsc.engine.map (fun g =>
          { g with kept := g.kept.map (fun f => { f with last := true }) })
        else p.fsc.engine } := by
  obtain ⟨e, entry, phase⟩ := h
  unfold Part.cancelFetch
  simp only [entry, Option.map_some, Option.some.injEq]
  rcases phase with phase | phase
  · rw [phase, if_pos rfl]
    rfl
  · rw [phase, if_neg (by decide)]
    rfl

theorem Part.runFetchCancel_unknown {p : Part} {r : CommandRecord}
    (unknown : p.fetchOf (BitVec.ofNat 8 (r.byteAt 0)) = none) : Part.runFetchCancel r p = p.refuse r .noSuchTag := by
  unfold Part.runFetchCancel
  dsimp only
  rw [unknown]

theorem Part.runFetchCancel_of_entry {p : Part} {r : CommandRecord} {e : FetchEntry}
    (entry : p.fetchOf (BitVec.ofNat 8 (r.byteAt 0)) = some e) :
    Part.runFetchCancel r p =
      (if e.phase = .delivering then (p.reply r .ok 0 .empty).completeRead else p.reply r .ok 0 .empty).cancelFetch
        (BitVec.ofNat 8 (r.byteAt 0)) := by
  unfold Part.runFetchCancel
  dsimp only
  rw [entry]

/-- R161: with a free place the FETCH_DONE is placed, and its entry leaves. -/
theorem Part.finishFetch_free {p : Part} (free : p.freePlace = true) (e : FetchEntry) :
    p.finishFetch e = (p.pushControl { dest := e.source, body := .fetchDone e.makeDone }).removeFetch e.tag :=
  if_pos free

/-- Settles O37: no entry has the tag, or the cancellation finds its entry in one of the four phases, DELIVERING with a
read begun or without. -/
theorem fetchCancelByPhase : Obligations.FetchCancelByPhase := by
  intro s r rest ht p tag
  have run := ht.runs (fun _ => rfl) rfl
  refine ⟨fun unknown => run.next (Part.runFetchCancel_unknown (Part.fetchOf_eq_none.mpr unknown)), fun e entry => ?_⟩
  let q := p.answered r rest .ok 0 .empty
  have named : q.fetchOf tag = some e := entry
  have cancels : Part.runFetchCancel r (p.setMgr { p.mgr with intake := rest }) =
      (if e.phase = .delivering then q.completeRead else q).cancelFetch tag :=
    Part.runFetchCancel_of_entry (by exact entry)
  refine ⟨fun waiting unset nothing unsent unread places => ?_, fun delivering others => ?_, fun delivering begun => ?_,
    fun sending => ?_, fun finishing => ?_⟩
  · have free : q.freePlace = true := by
      refine q.freePlace_iff.mpr ?_
      have : q.mgr.control.length = p.mgr.control.length + 1 := List.length_append
      have : q.mgr.waiting.length = p.mgr.waiting.length := rfl
      omega
    have ended : q.cancelFetch tag = (q.pushControl
        { dest := e.source, body := .fetchDone { e with cancelled := true }.makeDone }).removeFetch e.tag := by
      unfold Part.cancelFetch
      rw [named]
      simp only [waiting]
      exact Part.finishFetch_free free _
    have done : { e with cancelled := true }.makeDone =
        { token := e.token, tag := tag, delivered := 0, notDelivered := 0, lastLine := none, frames := 0,
          cancelled := true } := by
      simp [FetchEntry.makeDone, unset, nothing, unsent, unread, Part.fetchOf_tag entry]
    rw [if_neg (by rw [waiting]; decide), ended, done, Part.fetchOf_tag entry] at cancels
    refine ⟨_, run.next cancels, ?_, rfl, rfl, rfl, rfl⟩
    exact List.append_assoc ..
  · rw [if_pos delivering, Part.completeRead_idle (by exact others),
      Part.cancelFetch_underway ⟨e, named, .inl delivering⟩, named, Option.map_some,
      if_pos (congrArg some delivering)] at cancels
    exact run.next cancels
  · obtain ⟨u, turn, member⟩ := begun
    have underway : q.completeRead.Underway tag := Part.Underway.completeRead ⟨e, named, .inl delivering⟩
    rw [if_pos delivering, Part.cancelFetch_underway underway] at cancels
    exact ⟨_, State.next_withPart (Part.completeRead_begun (by exact turn) member).symm, run.next cancels⟩
  · rw [if_neg (by rw [sending]; decide), Part.cancelFetch_underway ⟨e, named, .inr sending⟩, named,
      if_neg (by simp [sending])] at cancels
    exact run.next cancels
  · rw [if_neg (by rw [finishing]; decide)] at cancels
    refine run.next (cancels.trans ?_)
    unfold Part.cancelFetch
    rw [named]
    simp only [finishing]
    rfl

end Sys2Proof.Machine
end

