-- ==== Sys2Proof/Proofs/SendRules.lean ====
section
/-! PROOFS. The frames taken for sending (O35), and the end of a delivery whose last frame is taken (O40). -/

namespace Sys2Proof.Machine

/-! ### The place that a record leaves (R171, R161) -/

/-- R173: a free wire with link takes the head of the control queue. -/
theorem Part.takeForSending_control {p : Part} {r : ControlRecord} {rest : List ControlRecord}
    (link : p.mgr.link = true) (wire : p.mgr.wire = none) (control : p.mgr.control = r :: rest) :
    p.takeForSending = ((p.setMgr { p.mgr with control := rest }).startWire (.control r)).placeWaiting := by
  unfold Part.takeForSending
  rw [if_pos (by simp [Part.sendDue, link, wire, control]), control]

/-- R173: with an empty control queue it takes the head of the image data queue. -/
theorem Part.takeForSending_image {p : Part} {f : ImageFrame} {rest : List ImageFrame} (link : p.mgr.link = true)
    (wire : p.mgr.wire = none) (control : p.mgr.control = []) (images : p.mgr.images = f :: rest) :
    p.takeForSending =
      let q := (p.setMgr { p.mgr with images := rest }).startWire (.image f)
      (if f.last then q.endDelivery f.tag else q).placeKept := by
  unfold Part.takeForSending
  rw [if_pos (by simp [Part.sendDue, link, wire, control, images]), control, images]

theorem Part.takeForSending_busy {p : Part} {w : Wire} (wire : p.mgr.wire = some w) : p.takeForSending = p :=
  if_neg (by simp [Part.sendDue, wire])

theorem Part.placeWaiting_none {p : Part} (waiting : p.mgr.waiting = []) : p.placeWaiting = p := by
  unfold Part.placeWaiting
  rw [waiting]

theorem Part.placeWaiting_first {p : Part} {w : ControlRecord} {ws : List ControlRecord}
    (waiting : p.mgr.waiting = w :: ws) (room : p.mgr.control.length < 16) :
    p.placeWaiting = { p with
      mgr := { p.mgr with control := p.mgr.control ++ [w], waiting := ws }
      fsc := { p.fsc with
        fetches := match w.body with
          | .fetchDone d => p.fsc.fetches.filter (fun e => e.tag != d.tag)
          | _ => p.fsc.fetches } } := by
  unfold Part.placeWaiting
  rw [waiting]
  dsimp only
  rw [if_pos room]
  cases w.body <;> rfl

/-! ### The place that an image data frame leaves (R159) -/

theorem Part.placeKept_none {p : Part} (empty : ∀ g : ReadEngine, p.fsc.engine = some g → g.kept = none) :
    p.placeKept = p := by
  unfold Part.placeKept
  split
  · rename_i g engine
    rw [empty g engine]
  · rfl

theorem Part.placeKept_frame {p : Part} {g : ReadEngine} {f : ImageFrame} (engine : p.fsc.engine = some g)
    (kept : g.kept = some f) (room : p.mgr.images.length < 2) : p.placeKept = p.placeFrame f := by
  unfold Part.placeKept
  rw [engine]
  dsimp only
  rw [kept]
  exact if_pos room

/-- R159, R173: behind an image data frame that goes, the frame that the engine keeps is placed. -/
theorem Part.takeForSending_places {p : Part} {f kept : ImageFrame} {rest : List ImageFrame} {g : ReadEngine}
    (link : p.mgr.link = true) (wire : p.mgr.wire = none) (control : p.mgr.control = [])
    (images : p.mgr.images = f :: rest) (more : f.last = false) (room : rest.length < 2)
    (engine : p.fsc.engine = some g) (keeps : g.kept = some kept) :
    p.takeForSending = ((p.setMgr { p.mgr with images := rest }).startWire (.image f)).placeFrame kept := by
  rw [Part.takeForSending_image link wire control images]
  dsimp only
  rw [if_neg (by simp [more])]
  exact Part.placeKept_frame (by exact engine) keeps (by exact room)

/-- R159: what a placed frame makes of its entry, by the content of the frame. -/
theorem FetchEntry.withFrame_eq (e : FetchEntry) (f : ImageFrame) (phase : FetchPhase)
    (taken : (if f.last then .sending else e.phase) = phase) : e.withFrame f =
      { e with
        frames := e.frames + 1
        delivered := e.delivered + (match f.content with | .header _ => 0 | .lines ls => ls.length)
        lastLine := (match f.content with
          | .header _ => e.lastLine
          | .lines ls => (ls.getLast?.map Prod.fst).or e.lastLine)
        phase := phase } := by
  subst taken
  unfold FetchEntry.withFrame
  cases f.content <;> rfl

/-! ### Frames on the wire -/

/-- Settles O35: the head of the control queue, an image data frame, the wire and the link; the record that waits; and
the frame that the engine keeps. -/
theorem sendingTakesControlFirst : Obligations.SendingTakesControlFirst := by
  refine ⟨fun s => ?_, ?_, ?_⟩
  · intro p
    refine ⟨fun r rest link wire control waiting => ?_, fun f rest link wire control images more empty => ?_,
      fun w wire => ⟨fun done => ?_, fun runs => ?_, ?_⟩, rfl, rfl⟩
    · exact State.next_withPart ((Part.takeForSending_control link wire control).trans
        (Part.placeWaiting_none (by exact waiting)))
    · refine State.next_withPart ((Part.takeForSending_image link wire control images).trans ?_)
      dsimp only
      rw [if_neg (by simp [more])]
      exact Part.placeKept_none (by exact empty)
    · exact State.next_withPart (if_pos (by simp [Part.wireDue, p, wire, done]))
    · exact State.next_withPart (if_neg (by simp [Part.wireDue, p, wire, runs]))
    · exact State.next_withPart (Part.takeForSending_busy wire)
  · intro s r w rest ws p link wire control room waiting
    exact State.next_withPart ((Part.takeForSending_control link wire control).trans
      (Part.placeWaiting_first (by exact waiting) (by exact room)))
  · intro s f kept rest g p becomes link wire control images more room engine keeps
    let q := (p.setMgr { p.mgr with images := rest }).startWire (.image f)
    have takes : p.takeForSending = q.placeFrame kept :=
      Part.takeForSending_places link wire control images more room engine keeps
    have counts (phase : FetchEntry → FetchPhase)
        (taken : ∀ e : FetchEntry, (if kept.last then .sending else e.phase) = phase e) :=
      funext fun e : FetchEntry => e.withFrame_eq kept (phase e) (taken e)
    refine ⟨fun goes_on => ?_, fun last waits => ?_, fun last => ?_⟩
    · refine State.next_withPart ((takes.trans (Part.placeFrame_more goes_on (by exact engine))).trans ?_)
      unfold Part.placed
      rw [counts FetchEntry.phase (by simp [goes_on])]
      rfl
    · have stays : (q.placed kept none).kickEngine = q.placed kept none := Part.placed_waits last waits
      refine State.next_withPart ((takes.trans ((Part.placeFrame_last last).trans stays)).trans ?_)
      unfold Part.placed
      rw [counts (fun _ => .sending) (by simp [last])]
      rfl
    · obtain ⟨same, slots, turn, -, started⟩ := Part.placeFrame_ends (p := q) last
      rw [counts (fun _ => .sending) (by simp [last])] at started
      refine ⟨_, State.next_withPart takes, ?_, slots, turn, started⟩
      exact congrArg (fun t : Part => t.mgr.images) same

/-- Settles O40: the FETCH_DONE takes the place that is free in the empty control queue. -/
theorem lastFrameTakenEndsFetch : Obligations.LastFrameTakenEndsFetch := by
  intro s f rest e p link wire control waiting images last entry empty
  let q := (p.setMgr { p.mgr with images := rest }).startWire (.image f)
  have free : q.freePlace = true := by
    refine q.freePlace_iff.mpr ?_
    rw [show q.mgr.control = [] from control, show q.mgr.waiting = [] from waiting]
    decide
  have ended : q.endDelivery f.tag =
      (q.pushControl { dest := e.source, body := .fetchDone e.makeDone }).removeFetch f.tag := by
    unfold Part.endDelivery
    rw [show q.fetchOf f.tag = some e from entry]
    dsimp only
    rw [Part.finishFetch_free free, Part.fetchOf_tag entry]
  have takes : p.takeForSending =
      (q.pushControl { dest := e.source, body := .fetchDone e.makeDone }).removeFetch f.tag := by
    rw [Part.takeForSending_image link wire control images]
    dsimp only
    rw [if_pos last, ended]
    exact Part.placeKept_none (by exact empty)
  have done : e.makeDone =
      { token := e.token, tag := f.tag, delivered := e.delivered, notDelivered := e.requested.getD 0 - e.delivered,
        lastLine := e.lastLine, frames := e.frames, cancelled := e.cancelled } := by
    rw [← Part.fetchOf_tag entry]
    rfl
  rw [done] at takes
  refine ⟨_, State.next_withPart takes, rfl, ?_, rfl, rfl, rfl⟩
  exact congrArg (· ++ [_]) control

end Sys2Proof.Machine
end

