-- ==== Sys2Proof/Proofs/StationRules.lean ====
section
/-! PROOFS. Which commands change the mode, the recorder address and the timebase, and that none changes the link
address (O5). -/

namespace Sys2Proof.Machine

/-! ### What no row but MODE_SET and the resets changes (R174, R175, R183) -/

/-- `q` has the mode, the recorder address, the link address and the timebase of `p`. -/
structure Part.SameStation (p q : Part) : Prop where
  mode     : q.mode = p.mode
  recorder : q.mgr.recorder = p.mgr.recorder
  linkAddr : q.mgr.linkAddr = p.mgr.linkAddr
  tb       : q.tb = p.tb

theorem Part.SameStation.refl (p : Part) : p.SameStation p := ⟨rfl, rfl, rfl, rfl⟩

theorem Part.SameStation.trans {p q r : Part} (h : p.SameStation q) (g : q.SameStation r) : p.SameStation r :=
  ⟨g.mode.trans h.mode, g.recorder.trans h.recorder, g.linkAddr.trans h.linkAddr, g.tb.trans h.tb⟩

/-- What a chain of operations of the blocks adds to a part. -/
theorem Part.Kept.station {p q r : Part} (g : q.Kept r) (h : p.SameStation q) : p.SameStation r :=
  h.trans ⟨g.mode, g.recorder, g.linkAddr, g.tb⟩

theorem next_station {s t : State} {q : Part}
    (h : (.next (s.withPart q) : Host.Outcome State Fault Refusal) = .next t) (hq : s.part.SameStation q) :
    s.part.SameStation t.part := by
  cases h
  exact hq

/-- A row that is a chain of operations of the blocks. -/
theorem next_kept_station {s t : State} {q : Part}
    (h : (.next (s.withPart q) : Host.Outcome State Fault Refusal) = .next t) (hq : s.part.Kept q) :
    s.part.SameStation t.part := next_station h (hq.station (.refl _))

/-- What a command leaves, if its run leaves it of a part that differs from the present one in the intake alone: one
that is not run, or is refused, changes the intake and the control queue alone. -/
theorem command_station_of {s t : State} {c : Command} {run : CommandRecord → Part → Part} {P : Part → Prop}
    (h : s.onPart (fun p => p.runsCommand c run) = .next t) (same : ∀ q : Part, s.part.SameStation q → P q)
    (hr : ∀ (r : CommandRecord) (q : Part), s.part.SameStation q → P (run r q)) : P t.part := by
  cases h
  show P (s.part.runsCommand c run)
  rcases s.part.runsCommand_cases c run with unrun | ⟨r, rest, ⟨st, refused⟩ | ⟨-, ran⟩⟩
  · rw [unrun]
    exact same _ (.refl _)
  · rw [refused]
    exact same _ ⟨rfl, rfl, rfl, rfl⟩
  · rw [ran]
    exact hr r _ ⟨rfl, rfl, rfl, rfl⟩

theorem command_station {s t : State} {c : Command} {run : CommandRecord → Part → Part}
    (h : s.onPart (fun p => p.runsCommand c run) = .next t)
    (hr : ∀ (r : CommandRecord) (q : Part), q.SameStation (run r q)) : s.part.SameStation t.part :=
  command_station_of h (fun _ hq => hq) fun r q hq => hq.trans (hr r q)

/-- A command whose run is a chain of operations of the blocks and of records placed in the control queue. -/
theorem command_kept_station {s t : State} {c : Command} {run : CommandRecord → Part → Part}
    (h : s.onPart (fun p => p.runsCommand c run) = .next t)
    (hr : ∀ (r : CommandRecord) (q : Part), q.Kept (run r q)) : s.part.SameStation t.part :=
  command_station h fun r q => (hr r q).station (.refl q)

/-! ### The link and the records that name no command (R168 to R170) -/

theorem Part.offerCommand_station (p : Part) (r : CommandRecord) : p.SameStation (p.offerCommand r) := by
  unfold Part.offerCommand
  split
  · exact ⟨rfl, rfl, rfl, rfl⟩
  · exact ⟨rfl, rfl, rfl, rfl⟩

theorem Part.acceptFrame_station (p : Part) (frame : List Byte) : p.SameStation (p.acceptFrame frame) := by
  unfold Part.acceptFrame
  split
  · exact .refl p
  · split
    · split
      · exact p.offerCommand_station _
      · exact ⟨rfl, rfl, rfl, rfl⟩
    · split
      · exact p.offerCommand_station _
      · exact .refl p

/-- R170: a record that names no command is refused at the head of the intake, or nothing is run. -/
theorem Part.runs_unknown_station (p : Part) : p.SameStation (p.runs none (fun r q => q.refuse r .badArgument)) := by
  unfold Part.runs Part.takes
  cases p.mgr.intake with
  | nil => exact .refl p
  | cons r rest =>
    dsimp only
    by_cases taken : p.freePlace = true ∧ r.command = none
    · rw [if_pos taken]
      exact ⟨rfl, rfl, rfl, rfl⟩
    · rw [if_neg taken]
      exact .refl p

/-! ### The commands that write a table or the page (R20 to R33, R178 to R180) -/

theorem Part.writeRecord_station (p : Part) (k : Track) (r : TrackRecord) : p.SameStation (p.writeRecord k r) := by
  unfold Part.writeRecord
  dsimp only
  split
  · exact (Part.reachTracker_kept _ _ _).station ⟨rfl, rfl, rfl, rfl⟩
  · exact ⟨rfl, rfl, rfl, rfl⟩

theorem Part.loadRecords_station (p : Part) (l : Quad TrackRecord) : p.SameStation (p.loadRecords l) :=
  (((p.writeRecord_station .t1 l.one).trans (Part.writeRecord_station _ .t2 l.two)).trans
    (Part.writeRecord_station _ .t3 l.three)).trans (Part.writeRecord_station _ .t4 l.four)

theorem Part.runTrackWrite_station (r : CommandRecord) (p : Part) : p.SameStation (Part.runTrackWrite r p) := by
  have replied (st : Status) (n : Nat) : p.SameStation (p.reply r st n .empty) := ⟨rfl, rfl, rfl, rfl⟩
  unfold Part.runTrackWrite
  split
  · exact replied _ 0
  · dsimp only
    split
    · exact replied _ _
    · split
      · exact replied _ 0
      · split
        · exact replied _ 0
        · exact (replied _ _).trans (Part.writeRecord_station _ _ _)

theorem Part.setTrim_station (p : Part) (r : CommandRecord) (k : Track) (t : Int) :
    p.SameStation (p.setTrim r k t) := by
  unfold Part.setTrim
  dsimp only
  split
  · exact (Part.retime_kept _ _ _).station ⟨rfl, rfl, rfl, rfl⟩
  · exact ⟨rfl, rfl, rfl, rfl⟩

theorem Part.runTrimSet_station (r : CommandRecord) (p : Part) : p.SameStation (Part.runTrimSet r p) := by
  unfold Part.runTrimSet
  split
  · exact ⟨rfl, rfl, rfl, rfl⟩
  · dsimp only
    split
    · exact p.setTrim_station _ _ _
    · exact ⟨rfl, rfl, rfl, rfl⟩

theorem Part.runTrimStep_station (r : CommandRecord) (p : Part) : p.SameStation (Part.runTrimStep r p) := by
  unfold Part.runTrimStep
  split
  · exact ⟨rfl, rfl, rfl, rfl⟩
  · dsimp only
    split
    · exact p.setTrim_station _ _ _
    · exact ⟨rfl, rfl, rfl, rfl⟩

theorem Part.runLampSet_station (r : CommandRecord) (p : Part) : p.SameStation (Part.runLampSet r p) := by
  unfold Part.runLampSet
  split
  · exact ⟨rfl, rfl, rfl, rfl⟩
  · split
    · exact ⟨rfl, rfl, rfl, rfl⟩
    · exact ⟨rfl, rfl, rfl, rfl⟩

theorem Part.runTypeWrite_station (r : CommandRecord) (p : Part) : p.SameStation (Part.runTypeWrite r p) := by
  unfold Part.runTypeWrite
  dsimp only
  split
  · exact ⟨rfl, rfl, rfl, rfl⟩
  · exact ⟨rfl, rfl, rfl, rfl⟩

theorem Part.runTypeClear_station (r : CommandRecord) (p : Part) : p.SameStation (Part.runTypeClear r p) := by
  unfold Part.runTypeClear
  dsimp only
  split
  · exact ⟨rfl, rfl, rfl, rfl⟩
  · split
    · exact ⟨rfl, rfl, rfl, rfl⟩
    · exact ⟨rfl, rfl, rfl, rfl⟩

theorem Part.runCalStore_station (r : CommandRecord) (p : Part) : p.SameStation (Part.runCalStore r p) := by
  unfold Part.runCalStore
  split
  · exact ⟨rfl, rfl, rfl, rfl⟩
  · exact ⟨rfl, rfl, rfl, rfl⟩

theorem Part.runCalAutoload_station (r : CommandRecord) (p : Part) : p.SameStation (Part.runCalAutoload r p) := by
  unfold Part.runCalAutoload
  split
  · exact ⟨rfl, rfl, rfl, rfl⟩
  · dsimp only
    split
    · exact ⟨rfl, rfl, rfl, rfl⟩
    · exact ⟨rfl, rfl, rfl, rfl⟩

theorem Part.runCalLoad_station (r : CommandRecord) (p : Part) : p.SameStation (Part.runCalLoad r p) := by
  have read (st : Status) (c : Calibration) : p.SameStation { p.reply r st 0 .empty with cal := c } :=
    ⟨rfl, rfl, rfl, rfl⟩
  unfold Part.runCalLoad
  dsimp only
  split
  · split
    · exact read _ _
    · exact (read _ _).trans (Part.loadRecords_station _ _)
  · exact read _ _

theorem Part.endWrite_station (p : Part) (verified : Bool) : p.SameStation (p.endWrite verified) := by
  unfold Part.endWrite
  split
  · exact .refl p
  · exact (Part.placeOrWait_kept _ _).station ⟨rfl, rfl, rfl, rfl⟩

/-! ### MODE_SET and the resets (R174, R175, R182, R183) -/

/-- R175: after the mode and the recorder address the change is passed to the blocks. -/
theorem Part.runModeSet_linkAddr_tb (order : List ModeBlock) (r : CommandRecord) (p : Part) :
    (Part.runModeSet order r p).mgr.linkAddr = p.mgr.linkAddr ∧ (Part.runModeSet order r p).tb = p.tb := by
  unfold Part.runModeSet
  split
  · exact ⟨rfl, rfl⟩
  · dsimp only
    split
    · exact ⟨rfl, rfl⟩
    · split
      · exact ⟨rfl, rfl⟩
      · exact ⟨(Part.passMode_kept ..).linkAddr, (Part.passMode_kept ..).tb⟩

/-- R183: the link address outlasts a power-on reset. -/
theorem Part.powerOn_linkAddr (p : Part) : p.powerOn.mgr.linkAddr = p.mgr.linkAddr := by
  obtain ⟨c, l, f, eq, -⟩ := p.powerOn_eq
  rw [eq]
  rfl

/-- Settles O5: MODE_SET and the two resets are met one by one, and every other row leaves all four alone. -/
theorem modeAndAddressesKept : Obligations.ModeAndAddressesKept := by
  intro c s t h
  have same {A B C : Prop} (g : s.part.SameStation t.part) :
      (t.part.mode = s.part.mode ∨ A) ∧ (t.part.mgr.recorder = s.part.mgr.recorder ∨ B) ∧
        t.part.mgr.linkAddr = s.part.mgr.linkAddr ∧ (t.part.tb = s.part.tb ∨ C) :=
    ⟨.inl g.mode, .inl g.recorder, g.linkAddr, .inl g.tb⟩
  cases c with
  | powerOnReset =>
    cases h
    exact ⟨.inr (.inr (.inl rfl)), .inr (.inl rfl), s.part.powerOn_linkAddr, .inr rfl⟩
  | resetPart =>
    obtain ⟨recorder, linkAddr, tb⟩ := command_station_of h
      (P := fun q => q.mgr.recorder = s.part.mgr.recorder ∧ q.mgr.linkAddr = s.part.mgr.linkAddr ∧ q.tb = s.part.tb)
      (fun q hq => ⟨hq.recorder, hq.linkAddr, hq.tb⟩)
      (fun r q hq => by rw [Part.runResetPart_eq]; exact ⟨hq.recorder, hq.linkAddr, hq.tb⟩)
    exact ⟨.inr (.inl rfl), .inl recorder, linkAddr, .inl tb⟩
  | modeSet order =>
    obtain ⟨linkAddr, tb⟩ := command_station_of h
      (P := fun q => q.mgr.linkAddr = s.part.mgr.linkAddr ∧ q.tb = s.part.tb)
      (fun q hq => ⟨hq.linkAddr, hq.tb⟩)
      (fun r q hq => by
        obtain ⟨linkAddr, tb⟩ := Part.runModeSet_linkAddr_tb order r q
        exact ⟨linkAddr.trans hq.linkAddr, tb.trans hq.tb⟩)
    exact ⟨.inr (.inr (.inr ⟨order, rfl⟩)), .inr (.inr ⟨order, rfl⟩), linkAddr, .inl tb⟩
  | frameAccept frame => exact same (next_station h (s.part.acceptFrame_station frame))
  | unknownCommand => exact same (next_station h s.part.runs_unknown_station)
  | ident | status | timeRead | scheduleRead | slotRead =>
    exact same (command_kept_station h fun r q => q.reply_kept r _ _ _)
  | trackRead => exact same (command_kept_station h Part.runTrackRead_kept)
  | passageRead => exact same (command_kept_station h Part.runPassageRead_kept)
  | typeRead => exact same (command_kept_station h Part.runTypeRead_kept)
  | headClear => exact same (command_kept_station h Part.runHeadClear_kept)
  | fetch => exact same (command_kept_station h Part.runFetch_kept)
  | fetchCancel => exact same (command_kept_station h Part.runFetchCancel_kept)
  | slotRelease => exact same (command_kept_station h Part.runSlotRelease_kept)
  | trackWrite => exact same (command_station h Part.runTrackWrite_station)
  | trimSet => exact same (command_station h Part.runTrimSet_station)
  | trimStep => exact same (command_station h Part.runTrimStep_station)
  | lampSet => exact same (command_station h Part.runLampSet_station)
  | typeWrite => exact same (command_station h Part.runTypeWrite_station)
  | typeClear => exact same (command_station h Part.runTypeClear_station)
  | calStore => exact same (command_station h Part.runCalStore_station)
  | calLoad => exact same (command_station h Part.runCalLoad_station)
  | calAutoload => exact same (command_station h Part.runCalAutoload_station)
  | pageWriteEnd verified => exact same (next_station h (s.part.endWrite_station verified))
  | ethernetLinkLost | ethernetLinkFound => exact same (next_station h ⟨rfl, rfl, rfl, rfl⟩)
  | takeForSending => exact same (next_kept_station h s.part.takeForSending_kept)
  | headInputActive k i d => exact same (next_kept_station h (s.part.headInputActive_kept k i d))
  | headInputInactive k i d => exact same (next_kept_station h (s.part.headInputInactive_kept k i d))
  | candidateFirstSample k i d => exact same (next_kept_station h (s.part.firstSample_kept k i d))
  | candidateSecondSample k i d => exact same (next_kept_station h (s.part.secondSample_kept k i d))
  | headStuckLimit k i d => exact same (next_kept_station h (s.part.stuckLimit_kept k i d))
  | pairCeilingExpiry k i => exact same (next_kept_station h (s.part.ceilingExpiry_kept k i))
  | occupancyInputChange k => exact same (next_kept_station h (s.part.setFront_kept k _))
  | occupancySettleExpiry k => exact same (next_kept_station h (s.part.settleExpiry_kept k))
  | eventTake k => exact same (next_kept_station h (s.part.takeEvent_kept k))
  | eventHandlingEnd k b => exact same (next_kept_station h (s.part.endHandling_kept k b))
  | silenceTimerExpiry k => exact same (next_kept_station h (s.part.silenceExpiry_kept k))
  | couplingTimerExpiry k => exact same (next_kept_station h (s.part.couplingExpiry_kept k))
  | windowOpen tag => exact same (next_kept_station h (s.part.openIfDue_kept tag))
  | trigger k => exact same (next_kept_station h (s.part.trigger_kept k))
  | windowEnd tag => exact same (next_kept_station h (s.part.windowEnd_kept tag))
  | drainDeadline tag => exact same (next_kept_station h (s.part.drainDeadline_kept tag))
  | lampRequestTime tag => exact same (next_kept_station h (s.part.requestTime_kept tag))
  | recoveryEnd => exact same (next_kept_station h s.part.recoveryEnd_kept)
  | cameraSyncLost k => exact same (next_kept_station h (s.part.syncLost_kept k))
  | cameraSyncFound k => exact same (next_kept_station h (s.part.setPort_kept k _))
  | linePacket k packet => exact same (next_kept_station h (s.part.linePacket_kept k packet))
  | storeTurnWrite k => exact same (next_kept_station h (s.part.writeTurn_kept k))
  | storeTurnRead => exact same (next_kept_station h s.part.readTurn_kept)
  | frameSendingEnd => exact same (next_kept_station h s.part.sendingEnd_kept)
  | triggerPulseEnd k => exact same (next_kept_station h (s.part.pulseEnd_kept k))

end Sys2Proof.Machine
end

