-- ==== Sys2Proof/Proofs/ResponderRules.lean ====
section
/-! PROOFS. The checks of the responder (O23), the calibration page at its writes (O31) and after a
power-on reset (O19). -/

namespace Sys2Proof.Machine

/-! ### Checks 1 to 3 of R170 -/

/-- R170: the record at the head of the intake names no command. -/
theorem Part.runs_none_eq {p : Part} {r : CommandRecord} {rest : List CommandRecord} (intake : p.mgr.intake = r :: rest)
    (free : p.freePlace = true) (unknown : r.command = none) (run : CommandRecord → Part → Part) :
    p.runs none run = run r (p.setMgr { p.mgr with intake := rest }) := by
  simp only [Part.runs, Part.takes, intake, free, unknown, and_self, if_true]

theorem Part.refusal_wrongMode {p : Part} {c : Command} (shut : c.takenIn p.mode = false) (r : CommandRecord) :
    p.refusal c r = some .wrongMode := if_neg (Bool.eq_false_iff.mp shut)

theorem Part.refusal_busy {p : Part} {c : Command} {r : CommandRecord} {w : PageWrite} (open_ : c.takenIn p.mode = true)
    (write : p.cal.write = some w) (kept : r.keptByWrite c = true) : p.refusal c r = some .busy := by
  unfold Part.refusal
  rw [if_pos open_, write, kept]
  rfl

/-- The row of a command that check 2 or 3 of R170 refuses answers the machine with the refusal. -/
theorem Part.Takes.refused {s : State} {c : Command} {r : CommandRecord} {rest : List CommandRecord} {st : Status}
    (h : s.part.Takes c r rest) (hst : s.part.refusal c r = some st) (run : CommandRecord → Part → Part) :
    s.onPart (fun p => p.runsCommand c run) = .next (s.withPart (s.part.answered r rest st 0 .empty)) :=
  State.next_withPart ((h.runsCommand_eq run).trans (by rw [hst]))

/-- R179: a page write keeps a change to ON_LINE or STANDBY from being taken. -/
theorem CommandRecord.keptByWrite_modeSet {r : CommandRecord}
    (h : Mode.ofCode (r.byteAt 0) = some .onLine ∨ Mode.ofCode (r.byteAt 0) = some .standby) :
    r.keptByWrite .modeSet = true := by
  rcases h with h | h <;> simp [CommandRecord.keptByWrite, h]

/-- Settles O23: check 1, then check 2 for the commands of SERVICE and for LAMP_SET, then check 3. -/
theorem responderChecks : Obligations.ResponderChecks := by
  refine ⟨⟨fun s r rest intake free unknown => ?_, fun s r rest => ⟨fun off => ?_, fun on taken => ?_⟩⟩,
    fun s r rest w order write => ⟨fun service => ?_, fun taken => ?_, fun change taken => ?_⟩⟩
  · exact State.next_withPart (Part.runs_none_eq intake free unknown _)
  · have shut {c : Command} (of : c.takenIn s.part.mode = decide (s.part.mode = .service))
        (taken : s.part.Takes c r rest) (run : CommandRecord → Part → Part) :
        s.onPart (fun p => p.runsCommand c run) = .next (s.withPart (s.part.answered r rest .wrongMode 0 .empty)) :=
      taken.refused (Part.refusal_wrongMode (of.trans (decide_eq_false off)) r) run
    exact ⟨(shut rfl · _), (shut rfl · _), (shut rfl · _), (shut rfl · _), (shut rfl · _), (shut rfl · _)⟩
  · exact taken.refused (Part.refusal_wrongMode (by rw [on]; rfl) r) _
  · have busy {c : Command} (of : c.takenIn s.part.mode = decide (s.part.mode = .service))
        (kept : r.keptByWrite c = true) (taken : s.part.Takes c r rest) (run : CommandRecord → Part → Part) :
        s.onPart (fun p => p.runsCommand c run) = .next (s.withPart (s.part.answered r rest .busy 0 .empty)) :=
      taken.refused (Part.refusal_busy (of.trans (decide_eq_true service)) write kept) run
    exact ⟨(busy rfl rfl · _), (busy rfl rfl · _), (busy rfl rfl · _)⟩
  · exact taken.refused (Part.refusal_busy rfl write rfl) _
  · exact taken.refused (Part.refusal_busy rfl write (CommandRecord.keptByWrite_modeSet change)) _

/-! ### The calibration page (R178, R179) -/

/-- R179: on an invalid page CAL_AUTOLOAD finds the page INVALID and is refused. -/
theorem Part.runCalAutoload_badPage {p : Part} {r : CommandRecord} (flag : r.byteAt 0 ≤ 1)
    (h : p.cal.page.valid = false) :
    Part.runCalAutoload r p = { p.refuse r .badPage with cal := { p.cal with state := .invalid } } := by
  have invalid : ¬ p.cal.page.valid = true := Bool.eq_false_iff.mp h
  rw [← show p.cal.page.state = .invalid from if_neg invalid]
  exact (if_neg (Nat.not_lt.mpr flag)).trans (if_neg invalid)

/-- R179: on a valid page CAL_AUTOLOAD starts to write the page's own records. -/
theorem Part.runCalAutoload_starts {p : Part} {r : CommandRecord} (flag : r.byteAt 0 ≤ 1)
    (h : p.cal.page.valid = true) :
    Part.runCalAutoload r p = p.startWrite r p.cal.page.records (decide (r.byteAt 0 = 1)) :=
  (if_neg (Nat.not_lt.mpr flag)).trans (if_pos h)

/-- R171: where a record that does not drop is placed. -/
theorem Part.placeOrWait_eq (p : Part) (r : ControlRecord) : p.placeOrWait r = p.setMgr
    (if p.mgr.control.length + p.mgr.waiting.length < 16 then { p.mgr with control := p.mgr.control ++ [r] }
     else { p.mgr with waiting := p.mgr.waiting ++ [r] }) := by
  rcases p.placeOrWait_cases r with ⟨free, placed⟩ | ⟨full, waits⟩
  · rw [placed, if_pos (p.freePlace_iff.mp free)]
  · rw [waits, if_neg fun room => Bool.eq_false_iff.mp full (p.freePlace_iff.mpr room)]

/-- R179: the end of a page write, before its deferred reply is placed. -/
theorem Part.endWrite_eq {p : Part} {w : PageWrite} (write : p.cal.write = some w) (verified : Bool) :
    p.endWrite verified = ({ p with cal := { p.cal with
      page := if verified then { records := w.records, flag := w.flag, agrees := true } else p.cal.page
      state := if verified then .valid w.flag else .invalid
      write := none } } : Part).placeOrWait
        { dest := w.source, body := .reply w.code w.token (if verified then .ok else .storeFailed) 0 .empty } := by
  unfold Part.endWrite
  rw [write]

/-- Settles O31: the flag has one of its two codes or another, and the page is valid or not; the end of a write places
the deferred reply by `placeOrWait_eq`. -/
theorem pageWriteStartsAndEnds : Obligations.PageWriteStartsAndEnds := by
  refine ⟨fun s r rest => ?_, fun s w verified write => ?_⟩
  · intro p taken started
    refine ⟨fun run => ⟨fun flag => ?_, fun other => ?_⟩,
      fun run => ⟨fun flag valid => ?_, fun flag invalid => ?_, fun other => ?_⟩⟩
    · exact run.next (if_neg (Nat.not_lt.mpr flag))
    · exact run.next (if_pos other)
    · exact run.next (Part.runCalAutoload_starts flag (by exact valid))
    · exact run.next (Part.runCalAutoload_badPage flag (by exact invalid))
    · exact run.next (if_pos other)
  · exact State.next_withPart ((Part.endWrite_eq write verified).trans (Part.placeOrWait_eq _ _))

/-! ### Auto-load (R181) -/

/-- The part after a power-on reset, its records loaded from a page. -/
theorem Part.powerOn_loads {p : Part} (valid : p.cal.page.valid = true) (flag : p.cal.page.flag = true) :
    p.powerOn = ({ p.powerOnState with cal :=
      { page := p.cal.page, state := .valid true, write := none, autoLoad := .loaded } } : Part).loadRecords
        p.cal.page.records := by
  have state : p.cal.page.state = .valid true := (if_pos valid).trans (congrArg _ flag)
  rw [← state]
  exact (if_pos (by exact valid)).trans (if_pos (by exact flag))

theorem Part.powerOn_flagClear {p : Part} (valid : p.cal.page.valid = true) (flag : p.cal.page.flag = false) :
    p.powerOn = { p.powerOnState with cal :=
      { page := p.cal.page, state := .valid false, write := none, autoLoad := .flagClear } } := by
  have state : p.cal.page.state = .valid false := (if_pos valid).trans (congrArg _ flag)
  rw [← state]
  exact (if_pos (by exact valid)).trans (if_neg (by exact Bool.eq_false_iff.mp flag))

theorem Part.powerOn_invalid {p : Part} (invalid : p.cal.page.valid = false) :
    p.powerOn = { p.powerOnState with cal :=
      { page := p.cal.page, state := .invalid, write := none, autoLoad := .invalid } } := by
  have state : p.cal.page.state = .invalid := if_neg (Bool.eq_false_iff.mp invalid)
  rw [← state]
  exact if_neg (by exact Bool.eq_false_iff.mp invalid)

/-- R181: no settled state is OCCUPIED after the reset, so the records of the page are loaded with no report. -/
theorem Part.powerOn_loaded {p : Part} (valid : p.cal.page.valid = true) (flag : p.cal.page.flag = true) :
    ∃ f : Quad FrontEnd, (∀ k, f.get k = (p.front.get k).powerOn.onRecord (p.cal.page.records.get k) 0) ∧
      p.powerOn = { p.powerOnState with
        cal := { page := p.cal.page, state := .valid true, write := none, autoLoad := .loaded }
        records := p.cal.page.records, front := f } := by
  have clear : ∀ k, (p.powerOnState.front.get k).occupancy.occupied = false := fun k => by cases k <;> rfl
  rw [Part.powerOn_loads valid flag, Part.loadRecords_clear (by exact clear)]
  exact ⟨_, fun k => by cases k <;> rfl, rfl⟩

theorem Part.powerOn_page (p : Part) : p.powerOn.cal.page = p.cal.page := by
  cases valid : p.cal.page.valid with
  | false => rw [Part.powerOn_invalid valid]
  | true =>
    cases flag : p.cal.page.flag with
    | false => rw [Part.powerOn_flagClear valid flag]
    | true =>
      obtain ⟨f, -, eq⟩ := Part.powerOn_loaded valid flag
      rw [eq]

/-- Auto-load makes no record of the control queue (R181). -/
theorem Part.powerOn_mgr (p : Part) : p.powerOn.mgr = .reset p.mgr.linkAddr p.mgr.link := by
  obtain ⟨c, l, f, eq, -⟩ := p.powerOn_eq
  rw [eq]
  rfl

/-- Settles O19: the page is invalid, valid with its flag clear, or loaded. -/
theorem powerOnResetAutoLoads : Obligations.PowerOnResetAutoLoads := by
  intro s
  have mgr := s.part.powerOn_mgr
  refine ⟨s.withPart s.part.powerOn, rfl, s.part.powerOn_page, congrArg Responder.mode mgr,
    congrArg Responder.control mgr, congrArg Responder.waiting mgr, congrArg Responder.images mgr,
    congrArg Responder.wire mgr, fun invalid => ?_, fun valid clear => ?_, fun valid set => ?_⟩
  · rw [State.withPart, Part.powerOn_invalid invalid]
    exact ⟨rfl, rfl, rfl⟩
  · rw [State.withPart, Part.powerOn_flagClear valid clear]
    exact ⟨rfl, rfl, rfl⟩
  · obtain ⟨f, front, eq⟩ := Part.powerOn_loaded valid set
    rw [State.withPart, eq]
    exact ⟨rfl, rfl, rfl, front⟩

end Sys2Proof.Machine
end

