-- ==== Sys2Proof/Proofs/IntakeRules.lean ====
section
/-! PROOFS. The frames that join the command intake, the record of a frame, and the command that a record names (O34). -/

namespace Sys2Proof.Machine

/-! ### The command intake (R168, R169) -/

/-- R168: a frame of the part's type that arrives with link is a broadcast, is addressed to the part, or neither. -/
theorem Part.acceptFrame_mine {p : Part} {frame : List Byte} (link : p.mgr.link = true) (long : 14 ≤ frame.length)
    (type : headerField frame 12 2 = 0xB7D2) : p.acceptFrame frame =
      if headerField frame 0 6 = 2 ^ 48 - 1 then
        if frameByte frame 15 = 0x01 then p.offerCommand (commandRecord frame)
        else p.setMgr { p.mgr with ignored := p.mgr.ignored + 1 }
      else if headerField frame 0 6 = p.mgr.linkAddr.toNat then p.offerCommand (commandRecord frame)
      else p := by
  have arrives : ¬ (p.mgr.link = false ∨ frame.length < 14 ∨ headerField frame 12 2 ≠ frameType) := by
    rintro (lost | short | other)
    · exact absurd (link.symm.trans lost) (by decide)
    · omega
    · exact other type
  exact if_neg arrives

theorem Part.acceptFrame_accepted {p : Part} {frame : List Byte} (link : p.mgr.link = true) (long : 14 ≤ frame.length)
    (type : headerField frame 12 2 = 0xB7D2)
    (accepted : (headerField frame 0 6 = 2 ^ 48 - 1 ∧ frameByte frame 15 = 0x01) ∨
      (headerField frame 0 6 ≠ 2 ^ 48 - 1 ∧ headerField frame 0 6 = p.mgr.linkAddr.toNat)) :
    p.acceptFrame frame = p.offerCommand (commandRecord frame) := by
  rw [Part.acceptFrame_mine link long type]
  rcases accepted with ⟨all, ident⟩ | ⟨one, own⟩
  · rw [if_pos all, if_pos ident]
  · rw [if_neg one, if_pos own]

/-- 11 §11.4: the code of a command. -/
def Command.code : Command → Nat
  | .ident => 0x01 | .status => 0x02 | .timeRead => 0x03 | .modeSet => 0x04 | .resetPart => 0x05
  | .trackWrite => 0x10 | .trackRead => 0x11 | .trimSet => 0x12 | .trimStep => 0x13 | .lampSet => 0x14
  | .typeWrite => 0x20 | .typeClear => 0x21 | .typeRead => 0x22
  | .headClear => 0x30 | .scheduleRead => 0x31 | .passageRead => 0x32 | .slotRead => 0x33
  | .fetch => 0x40 | .fetchCancel => 0x41 | .slotRelease => 0x42
  | .calStore => 0x50 | .calLoad => 0x51 | .calAutoload => 0x52

/-- A byte is the code of the command that it names. -/
theorem Command.ofCode_iff (b : Byte) (c : Command) : Command.ofCode b = some c ↔ b.toNat = c.code := by
  constructor
  · intro h
    unfold Command.ofCode at h
    split at h
    case h_24 => exact nomatch h
    all_goals
      rename_i code
      cases h
      exact code
  · intro h
    unfold Command.ofCode
    rw [h]
    cases c <;> rfl

/-- Check 1 of R170: the record is rightly framed, and its code and the length of its arguments are the command's. -/
theorem CommandRecord.command_iff (r : CommandRecord) (c : Command) : r.command = some c ↔
    r.framed = true ∧ r.code.toNat = c.code ∧ r.args.length = c.argLength := by
  rw [← Command.ofCode_iff]
  unfold CommandRecord.command
  cases Command.ofCode r.code with
  | none => simp
  | some d =>
    by_cases right : r.framed = true ∧ r.args.length = d.argLength
    · simp [right]
      rintro rfl
      rfl
    · have wrong : ¬ (r.framed && decide (r.args.length = d.argLength)) = true := by simpa using right
      simp only [if_neg wrong, Option.some.injEq]
      refine ⟨nofun, ?_⟩
      rintro ⟨framed, rfl, length⟩
      exact absurd ⟨framed, length⟩ right

/-- R184: an address or a token sent in its width reads back as it is. -/
theorem ofNat_bigEndian_be (w : Nat) (x : BitVec (8 * w)) : BitVec.ofNat (8 * w) (bigEndian (be w x.toNat)) = x := by
  rw [bigEndian_be, Nat.mod_eq_of_lt]
  · exact BitVec.ofNat_toNat _ _ |>.trans (BitVec.setWidth_eq x)
  · exact x.isLt.trans_eq (pow_mul 2 8 w)

/-- 11 §11.1: the record of a frame with a whole header. -/
theorem commandRecord_frame (dest source : LinkAddr) (cls code : Byte) (token : Word16) {n : Nat} (body : List Byte)
    (hn : n < 65536) :
    commandRecord (be 6 dest.toNat ++ be 6 source.toNat ++ be 2 0xB7D2 ++ [cls, code] ++ be 2 token.toNat ++ be 2 n ++
      body) =
      { source := source, code := code, token := token, args := body.take n
        framed := decide (cls = 0x01 ∧ n ≤ body.length) } := by
  generalize sent : be 6 dest.toNat ++ be 6 source.toNat ++ be 2 0xB7D2 ++ [cls, code] ++ be 2 token.toNat ++ be 2 n ++
    body = frame
  have address : headerField frame 6 6 = bigEndian (be 6 source.toNat) := by subst sent; rfl
  have number : headerField frame 16 2 = bigEndian (be 2 token.toNat) := by subst sent; rfl
  have length : headerField frame 18 2 = n := by
    have read : headerField frame 18 2 = bigEndian (be 2 n) := by subst sent; rfl
    rw [read, bigEndian_be]
    exact Nat.mod_eq_of_lt hn
  have cls_eq : frameByte frame 14 = cls := by subst sent; rfl
  have code_eq : frameByte frame 15 = code := by subst sent; rfl
  have rest : frame.drop 20 = body := by subst sent; rfl
  unfold commandRecord
  rw [address, number, length, cls_eq, code_eq, ← List.length_drop, rest, ofNat_bigEndian_be 6 source,
    ofNat_bigEndian_be 2 token, Bool.decide_and]
  rfl

/-- Settles O34: the frames that join the intake, the record of one by `commandRecord_frame`, and its command by
`command_iff`. -/
theorem frameAcceptFillsIntake : Obligations.FrameAcceptFillsIntake := by
  refine ⟨fun s frame => ?_, fun _ _ _ _ _ _ body hn => commandRecord_frame _ _ _ _ _ body hn, fun r c => ?_⟩
  · intro p dest mine accepted
    refine ⟨?_, ?_, ?_, ?_, ?_⟩
    · rintro ⟨link, long, type⟩ taken room
      exact State.next_withPart ((Part.acceptFrame_accepted link long type taken).trans (if_pos room))
    · rintro ⟨link, long, type⟩ taken full
      exact State.next_withPart ((Part.acceptFrame_accepted link long type taken).trans (if_neg (Nat.not_lt.mpr full)))
    · rintro ⟨link, long, type⟩ all other
      exact State.next_withPart ((Part.acceptFrame_mine link long type).trans ((if_pos all).trans (if_neg other)))
    · rintro ⟨link, long, type⟩ one foreign
      exact State.next_withPart ((Part.acceptFrame_mine link long type).trans ((if_neg one).trans (if_neg foreign)))
    · intro h
      exact State.next_withPart (if_pos (h.imp_right .inr))
  · rw [CommandRecord.command_iff]
    refine and_congr_right fun _ => ?_
    cases c <;> simp [Command.code, Command.argLength]

end Sys2Proof.Machine
end

