-- ==== Sys2Proof/Proofs/SentFrames.lean ====
section
/-! PROOFS. The bytes of the frames that the part sends: their length, and the source and the type in their header
(O17). -/

namespace Sys2Proof.Machine

/-- R185: padding reaches the least length of a frame. -/
theorem sixty_le_length_padFrame (bs : List Byte) : 60 ≤ (padFrame bs).length := by
  rw [padFrame, List.length_append, List.length_replicate]
  omega

/-- Both kinds of frame are laid out by `frameBytes`, with the sender's address as their source. -/
theorem Frame.bytes_eq_frameBytes (source : LinkAddr) (f : Frame) :
    ∃ dest cls code token body, f.bytes source = frameBytes dest source cls code token body := by
  cases f with
  | control r => exact ⟨r.dest, _, _, _, _, rfl⟩
  | image f => exact ⟨f.dest, _, _, _, _, rfl⟩

section
variable (dest source : LinkAddr) (cls code : Nat) (token : Word16) (body : List Byte)

/-- 11 §11.1: the source stands in the six bytes after the destination. -/
theorem headerField_source_frameBytes :
    headerField (frameBytes dest source cls code token body) 6 6 = source.toNat := by
  have read : headerField (frameBytes dest source cls code token body) 6 6 = bigEndian (be 6 source.toNat) := rfl
  rw [read, bigEndian_be]
  exact Nat.mod_eq_of_lt source.isLt

/-- 11 §11.1: the type value stands in the two bytes after the addresses. -/
theorem headerField_type_frameBytes :
    headerField (frameBytes dest source cls code token body) 12 2 = 0xB7D2 := by
  have read : headerField (frameBytes dest source cls code token body) 12 2 = bigEndian (be 2 0xB7D2) := rfl
  rw [read, bigEndian_be]
  exact Nat.mod_eq_of_lt (by decide)

end

/-- Settles O17: every frame is laid out by `frameBytes`, which pads it and whose header holds source and type. -/
theorem sentFramesAreFramed : Obligations.SentFramesAreFramed := by
  intro source f
  obtain ⟨dest, cls, code, token, body, laidOut⟩ := f.bytes_eq_frameBytes source
  rw [laidOut]
  exact ⟨sixty_le_length_padFrame _, headerField_source_frameBytes .., headerField_type_frameBytes ..⟩

end Sys2Proof.Machine
end

