-- ==== Sys2Proof/Proofs/FrontCommand.lean ====
section
/-! PROOFS. The step with a command queued (O1), beside the step with nothing queued (`step_idle`). -/

namespace Sys2Proof.Machine

/-- With a command queued the step is that command's, and the part has not moved before it. -/
theorem step_front {s : State} {c : Instr} {rest : List Instr} (front : s.pending = c :: rest) :
    step s = exec c { s with pending := rest } := by
  unfold step
  rw [front]

/-- Settles O1, from `step_front`. -/
theorem stepRunsFrontCommand : Obligations.StepRunsFrontCommand := by
  intro c rest p
  exact step_front rfl

end Sys2Proof.Machine
end
